-- ==== Sys2Proof/Word.lean ====
section
/-! DEFINITION. Widths that the spec names often, and the sparse table that holds registers, memories
and every other array of the machine: only entries that differ from the table's default are listed. -/

namespace Sys2Proof

abbrev Byte := BitVec 8
abbrev W32 := BitVec 32
abbrev W64 := BitVec 64

/-- A finite map from `Nat` with a default outside it. The keys rise strictly and no listed value is the
default (`Machine/Tab.lean` reads and writes it). -/
abbrev Tab (α : Type) := List (Nat × α)

/-- Bit `n` of a 64-lane mask or of any word. -/
abbrev bitAt {w : Nat} (x : BitVec w) (n : Nat) : Bool := x.getLsbD n

/-- Bits [lo+len-1:lo] of a word, as a `len`-bit word. -/
abbrev fld {w : Nat} (x : BitVec w) (lo len : Nat) : BitVec len := x.extractLsb' lo len

end Sys2Proof
end

