-- ==== Sys2Proof/Syntax.lean ====
section
/-! DEFINITION. The instruction set: one constructor for every row of spec/opcode_table.json. The first 207
are the words of R73 (their operands are R61's, already turned into register numbers and names); the last 80
are the steps that the part takes by itself (spec/95_what_each_step_holds.md), with operands that say where. -/

namespace Sys2Proof

/-- A vector register v0-v255. -/
abbrev V := BitVec 8
/-- A scalar register s0-s63. -/
abbrev S := BitVec 6
/-- A predicate p0-p7. -/
abbrev P := BitVec 3
/-- A tile t0-t63. -/
abbrev T := BitVec 6
/-- A stream q0-q3, or a translation register tb0-tb3. -/
abbrev Q := BitVec 2
/-- A rendezvous point (below 24 in a well-formed word). -/
abbrev RvN := BitVec 5
/-- An accumulator bank acc0-acc3. -/
abbrev Acc := BitVec 2

/-- A guard or branch predicate field (R60): `neg` inverts predicate `p`. -/
structure Guard where
  neg : Bool
  p : P
  deriving DecidableEq, Repr

/-- The next-address selector with the fields it uses (R66). -/
inductive Nas where
  | seq
  | go (off : BitVec 28)
  | iff (off : BitVec 28) (bp : Guard) (uni : Bool)
  | loop (off : BitVec 28) (bp : Guard) (uni : Bool)
  | call (off : BitVec 28)
  | ret
  | jumpi (r : S)
  | fin
  deriving DecidableEq, Repr

/-- What every word carries (R60): join marker, switch marker, guard and sequencing. -/
structure Hdr where
  j : Bool
  sw : Bool
  gp : Guard
  nas : Nas
  deriving DecidableEq, Repr

/-- A source: a vector register, a broadcast or scalar-pipe s register, or IMM (R62, R101). -/
inductive Src where
  | v (r : V)
  | s (r : S)
  | imm (i : W32)
  deriving DecidableEq, Repr

/-- A destination: a vector register, or an s register on the scalar pipe (R102). -/
inductive Dst where
  | v (r : V)
  | s (r : S)
  deriving DecidableEq, Repr

/-- MOD of class 0x1 (R103): bit 0 width 64, bit 1 unsigned, bit 2 saturating. -/
structure IntMod where
  sat : Bool
  un : Bool
  w : Bool
  deriving DecidableEq, Repr

/-- R115. -/
inductive Cond where
  | eq | ne | lt | le | gt | ge
  deriving DecidableEq, Repr

/-- R116. -/
inductive FCond where
  | eq | ne | lt | le | gt | ge | nan | num
  deriving DecidableEq, Repr

/-- XA of `cmp` and `fcmp` (R114): how the result meets the destination. -/
inductive Comb where
  | wr | and | or
  deriving DecidableEq, Repr

/-- MOD of class 0x5 and of `fcmp`, `scale`, `ldx`, `stx`. -/
inductive VF where
  | fp32 | f16 | bf16
  deriving DecidableEq, Repr

/-- Rounding selected by XA (R144). -/
inductive Rnd where
  | ne | rz | rd | ru
  deriving DecidableEq, Repr

/-- R117. -/
inductive PlogOp where
  | and | or | xor | andn | orn | not
  deriving DecidableEq, Repr

/-- R118. -/
inductive PtestOp where
  | any | all | none | cnt
  deriving DecidableEq, Repr

/-- R120. -/
inductive PsetSrc where
  | s (r : S)
  | nz (r : V)
  | k (b : Bool)
  deriving DecidableEq, Repr

/-- R129. -/
inductive TbWord where
  | base | frame | limit
  deriving DecidableEq, Repr

/-- R146. -/
inductive SgnOp where
  | cpy | neg | xor | abs
  deriving DecidableEq, Repr

/-- R148. -/
inductive RndInt where
  | rn | rz | rd | ru | ra
  deriving DecidableEq, Repr

/-- SUB of the immediate forms of `fmtset` (R153). -/
inductive FmtSel where
  | all | a | b | d | sat
  deriving DecidableEq, Repr

/-- MOD of native `dot4` (R155). -/
inductive DotFmt where
  | e4m3 | e5m2 | i8 | lg6 | lg8 | e2m1 | i4
  deriving DecidableEq, Repr

/-- MOD of `qnt` and `dqnt` (R164). -/
inductive QFmt where
  | mx4 | mx8 | i8
  deriving DecidableEq, Repr

/-- Segment width of the shuffles (R166). -/
inductive Seg where
  | s64 | s32 | s16 | s8
  deriving DecidableEq, Repr

/-- R169. -/
inductive ScanOp where
  | add | addx | min | max | fadd | faddx
  deriving DecidableEq, Repr

/-- Access size and extension (R174). -/
inductive Sz where
  | w4 | w8 | w16 | z8 | s8 | z16 | s16
  deriving DecidableEq, Repr

/-- Address operand (R62, R80): uniform base plus lane offset, or lane pointer. -/
inductive Addr where
  | ub (base : S) (off : V)
  | lp (pair : V)
  deriving DecidableEq, Repr

/-- Memory attributes (R62, R173): native space code, cache class, scope. -/
structure MAttr where
  spc : BitVec 2
  cc : BitVec 2
  scp : BitVec 2
  deriving DecidableEq, Repr

/-- SUB of `atom` and `atoms` (R193). -/
inductive AtomOp where
  | add | and | or | xor | min | max | exch | cas
  deriving DecidableEq, Repr

/-- SUB of `fatom` (R193). -/
inductive FatomOp where
  | add | min | max
  deriving DecidableEq, Repr

/-- MOD of `pfl` and `pft` (R198). -/
inductive PfLvl where
  | l1 | l2 | ms
  deriving DecidableEq, Repr

/-- R214. -/
inductive TsWord where
  | state | base | wit
  deriving DecidableEq, Repr

/-- ATTR flags of `acco` (R228). -/
structure AccoFlags where
  z : Bool
  bias : Bool
  act : Bool
  rq : Bool
  deriving DecidableEq, Repr

/-- An access from the host or another part (R357): who asks, where, and what. `src` 64 is the host. -/
inductive InKind where
  | read (n : Nat)
  | write (bytes : List Byte)
  | atom (op : AtomOp) (un w : Bool) (data cmp : W64)
  deriving DecidableEq, Repr

structure Inbound where
  src : Nat
  pa : Nat
  kind : InKind
  deriving DecidableEq, Repr

/-- What a flit delivers (R359). -/
inductive FlitBody where
  | request (a : Inbound)
  | present (src : Nat) (w : W64)
  | answer (id : Nat) (refused : Bool)
  | flush
  deriving DecidableEq, Repr

structure Flit where
  crcOk : Bool
  did : BitVec 32
  src : Nat
  dest : Nat
  body : FlitBody
  deriving DecidableEq, Repr

/-- Where a double error of on-core or cache storage struck (R387). -/
inductive SramSite where
  | pool (core team : Nat)
  | tileTable (core team : Nat)
  | stream (core q : Nat)
  | cacheSector (pa : Nat)
  | l1 (core pa : Nat)
  deriving DecidableEq, Repr

/-- A consumer of the power arbiter (R404) or a sensor (R405). -/
inductive Unit404 where
  | die (d : Nat)
  | stack (k : Nat)
  | io (k : Nat)
  deriving DecidableEq, Repr

/-- Host port modes (R356). -/
inductive HostMode where
  | untrained | pcie (gts : Nat) | cxl (flit : Nat)
  deriving DecidableEq, Repr

/-- Where a control register lies (R299, R332, R346, R403). -/
inductive RegSpace where
  | part (p : Nat)
  | reeve
  | bar0
  deriving DecidableEq, Repr

/-- Who writes a register (R399): a control core, or the host. -/
inductive Writer where
  | control (core : Nat)
  | host
  deriving DecidableEq, Repr

/-- A value written to a register, and who writes it. -/
structure Write (α : Type) where
  by_ : Writer
  val : α
  deriving DecidableEq, Repr

/-- A stretch of memory that the loader chose for a section (R99 step 3): virtual and physical byte address, and length. The stretches of a
section follow one another in its addresses. -/
structure Place where
  sect : Nat
  va : Nat
  pa : Nat
  len : Nat
  deriving DecidableEq, Repr

/-- A page-table word the system image writes at a physical address (R99 step 8). -/
structure PtWrite where
  pa : Nat
  word : W64
  deriving DecidableEq, Repr

inductive Instr where
  -- class 0x0: control and system
  | nop (h : Hdr)
  | trap (h : Hdr) (imm : W32)
  | brk (h : Hdr) (imm : W32)
  | sleep (h : Hdr) (imm : W32)
  | yield (h : Hdr)
  | sigck (h : Hdr) (imm : W32)
  | lcset (h : Hdr) (imm : W32)
  | lcsetR (h : Hdr) (a : S)
  | lcsetGet (h : Hdr) (d : S)
  | xmset (h : Hdr) (a : S)
  | xmsetAnd (h : Hdr) (a : S)
  | xmsetOr (h : Hdr) (a : S)
  | xmget (h : Hdr) (d : S)
  | rds (h : Hdr) (d : Dst) (idx : BitVec 5)
  | wrs (h : Hdr) (a : S)
  | iflush (h : Hdr) (w : S)
  | sitex (h : Hdr) (d : S) (site : BitVec 16)
  | sitexCnt (h : Hdr) (d : S) (site : BitVec 16)
  | sitexReset (h : Hdr) (site : BitVec 16)
  | sitexPin (h : Hdr) (site : BitVec 16)
  -- class 0x1: integer
  | add (h : Hdr) (m : IntMod) (d : Dst) (a b : Src)
  | sub (h : Hdr) (m : IntMod) (d : Dst) (a b : Src)
  | mul (h : Hdr) (m : IntMod) (d : Dst) (a b : Src)
  | mulhi (h : Hdr) (m : IntMod) (d : Dst) (a b : Src)
  | mad (h : Hdr) (m : IntMod) (d : Dst) (a b c : Src)
  | madhi (h : Hdr) (m : IntMod) (d : Dst) (a b c : Src)
  | div (h : Hdr) (m : IntMod) (d : Dst) (a b : Src)
  | rem (h : Hdr) (m : IntMod) (d : Dst) (a b : Src)
  | min (h : Hdr) (m : IntMod) (d : Dst) (a b : Src)
  | max (h : Hdr) (m : IntMod) (d : Dst) (a b : Src)
  | abs (h : Hdr) (m : IntMod) (d : Dst) (a : Src)
  | neg (h : Hdr) (m : IntMod) (d : Dst) (a : Src)
  | addc (h : Hdr) (borrow w : Bool) (d : V) (a b : Src) (c : P)
  | sad (h : Hdr) (m : IntMod) (d : Dst) (a b c : Src)
  | lea (h : Hdr) (zx : Bool) (sh : BitVec 3) (d : Dst) (a b : Src)
  | clamp (h : Hdr) (m : IntMod) (d : Dst) (a b c : Src)
  -- class 0x2: logic
  | and (h : Hdr) (w : Bool) (d : Dst) (a b : Src)
  | or (h : Hdr) (w : Bool) (d : Dst) (a b : Src)
  | xor (h : Hdr) (w : Bool) (d : Dst) (a b : Src)
  | not (h : Hdr) (w : Bool) (d : Dst) (a : Src)
  | shl (h : Hdr) (w : Bool) (d : Dst) (a b : Src)
  | shr (h : Hdr) (w : Bool) (d : Dst) (a b : Src)
  | sar (h : Hdr) (w : Bool) (d : Dst) (a b : Src)
  | rot (h : Hdr) (w : Bool) (d : Dst) (a b : Src)
  | bfx (h : Hdr) (sx w : Bool) (d : Dst) (a b : Src)
  | bfi (h : Hdr) (w : Bool) (d : Dst) (a b c : Src)
  | popc (h : Hdr) (w : Bool) (d : Dst) (a : Src)
  | clz (h : Hdr) (w : Bool) (d : Dst) (a : Src)
  | brev (h : Hdr) (w : Bool) (d : Dst) (a : Src)
  | lop3 (h : Hdr) (w : Bool) (d : Dst) (a b c : Src) (tt : BitVec 8)
  | sel (h : Hdr) (w : Bool) (d : V) (a b : Src) (c : P)
  | perm (h : Hdr) (d : Dst) (a b c : Src)
  -- class 0x3: compare and mask
  | cmp (h : Hdr) (k : Cond) (m : IntMod) (x : Comb) (sp : Bool) (d : P) (a b : Src)
  | fcmp (h : Hdr) (k : FCond) (f : VF) (x : Comb) (sp : Bool) (d : P) (a b : Src)
  | plog (h : Hdr) (k : PlogOp) (d a b : P)
  | ptest (h : Hdr) (k : PtestOp) (d : S) (a : P)
  | ballot (h : Hdr) (d : S) (a : P)
  | elect (h : Hdr) (d a : P)
  | pset (h : Hdr) (d : P) (x : PsetSrc)
  | ucheck (h : Hdr) (tr w : Bool) (d : P) (a : V)
  -- class 0x4: moves
  | mov (h : Hdr) (w : Bool) (d : Dst) (a : Src)
  | movG (h : Hdr) (site : BitVec 16) (w : Bool) (d : Dst) (a : Src)
  | movi (h : Hdr) (w : Bool) (d : Dst) (imm : W32)
  | movh (h : Hdr) (d : Dst) (imm : W32)
  | bcast (h : Hdr) (w : Bool) (d a : V) (b : Src)
  | bcastG (h : Hdr) (site : BitVec 16) (w : Bool) (d a : V) (b : Src)
  | vtos (h : Hdr) (w : Bool) (ln : Option (BitVec 6)) (d : S) (a : V)
  | stov (h : Hdr) (w : Bool) (d : V) (a : S)
  | ldk (h : Hdr) (w : Bool) (d : S) (off : W32)
  | tbset (h : Hdr) (d : Q) (a : S)
  | tbget (h : Hdr) (k : TbWord) (d : S) (a : Q)
  -- class 0x5: float vector
  | fadd (h : Hdr) (f : VF) (r : Rnd) (d : Dst) (a b : Src)
  | fsub (h : Hdr) (f : VF) (r : Rnd) (d : Dst) (a b : Src)
  | fmul (h : Hdr) (f : VF) (r : Rnd) (d : Dst) (a b : Src)
  | ffma (h : Hdr) (f : VF) (r : Rnd) (d : Dst) (a b c : Src)
  | fmin (h : Hdr) (f : VF) (d : Dst) (a b : Src)
  | fmax (h : Hdr) (f : VF) (d : Dst) (a b : Src)
  | fsgn (h : Hdr) (k : SgnOp) (f : VF) (d : Dst) (a b : Src)
  | frcp (h : Hdr) (f : VF) (d : Dst) (a : Src)
  | frsq (h : Hdr) (f : VF) (d : Dst) (a : Src)
  | fsqrt (h : Hdr) (f : VF) (r : Rnd) (d : Dst) (a : Src)
  | fexp2 (h : Hdr) (f : VF) (d : Dst) (a : Src)
  | flog2 (h : Hdr) (f : VF) (d : Dst) (a : Src)
  | fsinpi (h : Hdr) (f : VF) (d : Dst) (a : Src)
  | fcospi (h : Hdr) (f : VF) (d : Dst) (a : Src)
  | frnd (h : Hdr) (k : RndInt) (f : VF) (d : Dst) (a : Src)
  | fclass (h : Hdr) (f : VF) (d : Dst) (a : Src)
  | faddG (h : Hdr) (site : BitVec 16) (r : Rnd) (d : V) (a b : Src)
  | fsubG (h : Hdr) (site : BitVec 16) (r : Rnd) (d : V) (a b : Src)
  | fmulG (h : Hdr) (site : BitVec 16) (r : Rnd) (d : V) (a b : Src)
  | ffmaG (h : Hdr) (site : BitVec 16) (r : Rnd) (d : V) (a b c : Src)
  | fminG (h : Hdr) (site : BitVec 16) (d : V) (a b : Src)
  | fmaxG (h : Hdr) (site : BitVec 16) (d : V) (a b : Src)
  | fsgnG (h : Hdr) (site : BitVec 16) (k : SgnOp) (d : V) (a b : Src)
  | frcpG (h : Hdr) (site : BitVec 16) (d : V) (a : Src)
  | frsqG (h : Hdr) (site : BitVec 16) (d : V) (a : Src)
  | fsqrtG (h : Hdr) (site : BitVec 16) (r : Rnd) (d : V) (a : Src)
  | fexp2G (h : Hdr) (site : BitVec 16) (d : V) (a : Src)
  | flog2G (h : Hdr) (site : BitVec 16) (d : V) (a : Src)
  | fsinpiG (h : Hdr) (site : BitVec 16) (d : V) (a : Src)
  | fcospiG (h : Hdr) (site : BitVec 16) (d : V) (a : Src)
  | frndG (h : Hdr) (site : BitVec 16) (k : RndInt) (d : V) (a : Src)
  | fclassG (h : Hdr) (site : BitVec 16) (d : V) (a : Src)
  -- class 0x6: log domain, format
  | ladd (h : Hdr) (lg8 : Bool) (d : V) (a b : Src)
  | lmul (h : Hdr) (lg8 : Bool) (d : V) (a b : Src)
  | lfma (h : Hdr) (lg8 : Bool) (d : V) (a b c : Src)
  | fmtset (h : Hdr) (k : FmtSel) (imm : BitVec 13)
  | fmtsetR (h : Hdr) (a : S)
  | fmtget (h : Hdr) (d : S)
  | dot4 (h : Hdr) (f : DotFmt) (d : V) (a b c : Src)
  | dot4G (h : Hdr) (site : BitVec 16) (d : V) (a b c : Src)
  -- class 0x7: conversion
  | cvt (h : Hdr) (r : Rnd) (tgt src : BitVec 4) (d : V) (a c : Src)
  | cvtG (h : Hdr) (site : BitVec 16) (r : Rnd) (d : V) (a c : Src)
  | cvtF2i (h : Hdr) (r : Rnd) (d : Dst) (a : Src)
  | cvtF2u (h : Hdr) (r : Rnd) (d : Dst) (a : Src)
  | cvtI2f (h : Hdr) (r : Rnd) (d : Dst) (a : Src)
  | cvtU2f (h : Hdr) (r : Rnd) (d : Dst) (a : Src)
  | pack (h : Hdr) (d a : V)
  | unpack (h : Hdr) (d a : V)
  | scale (h : Hdr) (inv : Bool) (f : VF) (d : V) (a b : Src)
  | qnt (h : Hdr) (k : QFmt) (d : V) (a : Src)
  | dqnt (h : Hdr) (k : QFmt) (d : V) (a : Src)
  -- class 0x8: lanes
  | shfl (h : Hdr) (g : Seg) (w : Bool) (d a : V) (b : Src)
  | shup (h : Hdr) (g : Seg) (w : Bool) (d a : V) (b : Src)
  | shdn (h : Hdr) (g : Seg) (w : Bool) (d a : V) (b : Src)
  | shxor (h : Hdr) (g : Seg) (w : Bool) (d a : V) (b : Src)
  | redadd (h : Hdr) (m : IntMod) (d : S) (a : V)
  | redmin (h : Hdr) (m : IntMod) (d : S) (a : V)
  | redmax (h : Hdr) (m : IntMod) (d : S) (a : V)
  | scan (h : Hdr) (k : ScanOp) (m : IntMod) (d a : V)
  | fredadd (h : Hdr) (d : S) (a : V)
  | compact (h : Hdr) (w : Bool) (d a : V) (b : P) (c : S)
  -- class 0x9: loads
  | ld (h : Hdr) (z : Sz) (u : Bool) (d : V) (ad : Addr) (w : S) (at_ : MAttr)
  | ldG (h : Hdr) (site : BitVec 16) (z : Sz) (d : V) (ad : Addr) (w : S) (at_ : MAttr)
  | lds (h : Hdr) (z : Sz) (d base : S) (off : W32) (w : S) (at_ : MAttr)
  | ldsG (h : Hdr) (site : BitVec 16) (z : Sz) (d base : S) (off : W32) (w : S) (at_ : MAttr)
  | ldx (h : Hdr) (n : BitVec 2) (f : VF) (d : V) (ad : Addr) (w : S) (at_ : MAttr)
  | ldxG (h : Hdr) (site : BitVec 16) (n : BitVec 2) (f : VF) (d : V) (ad : Addr) (w : S) (at_ : MAttr)
  | ldt (h : Hdr) (z : Sz) (d : V) (p : P) (ad : Addr) (w : S) (at_ : MAttr)
  | ldtG (h : Hdr) (site : BitVec 16) (z : Sz) (d : V) (p : P) (ad : Addr) (w : S) (at_ : MAttr)
  -- class 0xA: stores, witnesses
  | st (h : Hdr) (z : Sz) (u : Bool) (wo : S) (ad : Addr) (x : V) (at_ : MAttr)
  | stG (h : Hdr) (site : BitVec 16) (z : Sz) (wo : S) (ad : Addr) (x : V) (at_ : MAttr)
  | sts (h : Hdr) (z : Sz) (wo base x : S) (off : W32) (at_ : MAttr)
  | stt (h : Hdr) (z : Sz) (wo : S) (p : P) (ad : Addr) (x : V) (at_ : MAttr)
  | stx (h : Hdr) (n : BitVec 2) (f : VF) (wo : S) (ad : Addr) (x : V) (at_ : MAttr)
  | stxG (h : Hdr) (site : BitVec 16) (n : BitVec 2) (f : VF) (wo : S) (ad : Addr) (x : V) (at_ : MAttr)
  | wmrg (h : Hdr) (d a b : S)
  | wmrgRed (h : Hdr) (d : S) (a : V) (b : S)
  | wtest (h : Hdr) (d w : S)
  | wtestKick (h : Hdr) (d w : S)
  | wfence (h : Hdr) (w : S)
  | widen (h : Hdr) (d : S)
  -- class 0xB: atomics, waits
  | atom (h : Hdr) (k : AtomOp) (un w64 : Bool) (d : V) (ad : Addr) (x : V) (wo w : S) (at_ : MAttr)
  | atomG (h : Hdr) (site : BitVec 16) (k : AtomOp) (un w64 : Bool) (d : V) (ad : Addr) (x : V) (wo w : S) (at_ : MAttr)
  | fatom (h : Hdr) (k : FatomOp) (d : V) (ad : Addr) (x : V) (wo w : S) (at_ : MAttr)
  | fatomG (h : Hdr) (site : BitVec 16) (k : FatomOp) (d : V) (ad : Addr) (x : V) (wo w : S) (at_ : MAttr)
  | atoms (h : Hdr) (k : AtomOp) (un w64 : Bool) (d base x wo w : S) (at_ : MAttr)
  | atomsG (h : Hdr) (site : BitVec 16) (k : AtomOp) (un w64 : Bool) (d base x wo w : S) (at_ : MAttr)
  | waita (h : Hdr) (ne w64 : Bool) (d : V) (ad : Addr) (x : S) (timeout : W32) (at_ : MAttr)
  | waitaG (h : Hdr) (site : BitVec 16) (ne w64 : Bool) (d : V) (ad : Addr) (x : S) (timeout : W32) (at_ : MAttr)
  -- class 0xC: cache, translation, memory side
  | pfl (h : Hdr) (l : PfLvl) (ad : Addr)
  | pft (h : Hdr) (ms : Bool) (a : S)
  | pin (h : Hdr) (ms : Bool) (d a b : S)
  | unpin (h : Hdr) (a : S)
  | inv (h : Hdr) (ms : Bool) (ad : Addr)
  | wb (h : Hdr) (dram : Bool) (d : S) (ad : Addr)
  | tlbsync (h : Hdr) (all : Bool) (a w : S)
  | mzero (h : Hdr) (d a w : S) (pages : BitVec 13)
  | mcopy (h : Hdr) (d a b w : S) (pages : BitVec 13)
  | chainDemote (h : Hdr) (c : BitVec 6)
  | chainDrop (h : Hdr) (c : BitVec 6)
  | chainCnt (h : Hdr) (d : S) (c : BitVec 6)
  -- class 0xD: tiles, copies, streams
  | tdef (h : Hdr) (ready : Bool) (t : T) (a b : S) (chunk : W32)
  | tfree (h : Hdr) (t : T)
  | tstat (h : Hdr) (k : TsWord) (d : S) (t : T)
  | twait (h : Hdr) (d : S) (t : T)
  | twaitCh (h : Hdr) (t : T) (b : S)
  | layout (h : Hdr) (d : P) (a : S)
  | copy (h : Hdr) (cc : BitVec 2) (d a b w : S) (t : T)
  | copyOut (h : Hdr) (cc : BitVec 2) (d a b w : S) (t : T)
  | copyQ (h : Hdr) (cc : BitVec 2) (d a b w : S) (q : Q)
  | copyMc (h : Hdr) (cc : BitVec 2) (d a b w : S) (t : T) (mask : BitVec 8)
  | feed (h : Hdr) (q : Q) (t : T) (b c : S)
  | rrot (h : Hdr) (d : S) (t : T)
  | sdef (h : Hdr) (q : Q) (scl : Bool)
  | sflush (h : Hdr) (q : Q)
  | sflushRel (h : Hdr) (q : Q)
  -- class 0xE: matrix
  | mmp (h : Hdr) (f : BitVec 3) (acc : Acc) (qa qb : Q) (k : BitVec 9)
  | mmpG (h : Hdr) (site : BitVec 16) (acc : Acc) (qa qb : Q) (k : BitVec 9)
  | mmps (h : Hdr) (f : BitVec 3) (acc : Acc) (qa qb : Q) (k : BitVec 9)
  | mmpsG (h : Hdr) (site : BitVec 16) (acc : Acc) (qa qb : Q) (k : BitVec 9)
  | accz (h : Hdr) (acc : Acc)
  | acco (h : Hdr) (fl : AccoFlags) (f : BitVec 3) (t : T) (acc : Acc) (bias : T) (code : BitVec 8)
  | atab (h : Hdr) (t : T) (a b : S)
  | mstat (h : Hdr) (d : S)
  | mstatClr (h : Hdr) (d a : S)
  | mstatEn (h : Hdr) (d a : S)
  | accld (h : Hdr) (f : BitVec 3) (d : V) (acc : Acc) (row : S)
  -- class 0xF: teams, regions, generations
  | rvinit (h : Hdr) (r : RvN) (n : BitVec 16)
  | rvarr (h : Hdr) (r : RvN) (a : S)
  | rvwait (h : Hdr) (d : S) (r : RvN)
  | launch (h : Hdr) (d a w : S)
  | replay (h : Hdr) (d a b w : S)
  | snap (h : Hdr) (d g : S)
  | genq (h : Hdr) (d a : S)
  | genrel (h : Hdr) (d a : S)
  | genrb (h : Hdr) (d a : S)
  -- the part's own steps: within a kernel
  | reconvergenceJoin (core slot : Nat)
  | groupSlotRelease (core slot : Nat)
  | longLatencyReturn (core slot id : Nat)
  | groupUnpark (core slot : Nat)
  | activeSetRotation (core slot : Nat)
  | sleepExpiry (core slot : Nat)
  | operandLogReplay (core idx : Nat) (resolved : Bool)
  | tbsetTranslationDone (core slot tb : Nat)
  | drain (id : Nat)
  | drainComplete (id : Nat)
  | pinForcedWiden (core line : Nat)
  | epochTimerExpiry (part : Nat)
  | closeSpacingExpiry (part : Nat)
  | closeEpoch (part : Nat)
  | closeReceipt (core : Nat)
  | closeHoldAtHome (slice : Nat)
  | engineCloseReport (part engine : Nat)
  | epochCloseComplete (part : Nat)
  | doneReceipt (slice : Nat)
  | waitaWake (core slot : Nat)
  | waitaTimeout (core slot : Nat)
  | copyEngineStart (id engine slices : Nat)
  | copyComplete (id : Nat)
  | copyFault (id : Nat)
  | engineFaultResolved (id : Nat)
  | feedComplete (core idx : Nat)
  | rrotRingComplete (gang tile : Nat)
  | matrixStepExecute (core : Nat)
  | accoComplete (core : Nat)
  -- across launches
  | lqtailWrite (part : Nat) (tail : Write W32)
  | acceptance (part : Nat) (device : Bool) (idx : Nat)
  | regionLeaveHeld (inst : Nat)
  | taskPlacement (part gang idx : Nat)
  | coreWordRewrite (core : Nat)
  | persistentPlacement (part : Nat)
  | gangBalance (part gang : Nat)
  | regionComplete (inst : Nat)
  | completionRecordPublish (part : Nat)
  | budgetExhausted (inst : Nat)
  -- across contexts
  | contextSliceEnd (part : Nat)
  | contextHaltComplete (part : Nat)
  | rowClaim (core slot : Nat)
  | lendTakeEffect (slice : Nat)
  | sliceReturn (slice : Nat)
  | siteUpdateAtHome (id : Nat)
  | siteResolve (id : Nat)
  | siteCacheFill (core ctx desc site : Nat)
  | siteCountFlush (core : Nat)
  | drheadWrite (part : Nat) (head : Write W32)
  | tlbinvWrite (part : Nat) (val : Write W64)
  | inboundAccess (a : Inbound)
  | abudInterval (part : Nat)
  | remoteAccessRefused (id : Nat)
  | remotePresent (src id : Nat) (w : W64)
  | remotePresentAnswer (id : Nat) (refused : Bool)
  | flitReceive (port : Nat) (f : Flit)
  | linkDown (port : Nat)
  | hostPortTrain (m : HostMode)
  -- across hours
  | copyOnWrite (page : Nat)
  | generationDrainPage (part : Nat)
  | generationComplete (part : Nat)
  | rowPathComplete (id : Nat)
  | refreshInterval (stack pc : Nat) (demand : Bool)
  | refreshPullIn (stack pc : Nat)
  | scrubPage (stack : Nat)
  | sramDoubleError (at_ : SramSite)
  | fdresGo (part dom : Nat) (val : Write W64)
  | fdstatRecClear (part : Nat) (dom : Write Nat)
  | moduleLoad (part ctx desc : Nat) (file : List Byte) (places : List Place) (tables : List PtWrite)
  | moduleUnload (part ctx desc : Nat)
  | coldReset (images : List (List Byte)) (ok : List Bool)
  | warmReset (images : List (List Byte)) (ok : List Bool)
  | partitionCreate (part : Nat) (val : Write W64) (image : List Byte) (ok : Bool)
  | attestationReport (part : Nat) (nonce : BitVec 256)
  | powerArbiterStep (energy request : List (Unit404 × Nat))
  | pkgcapWrite (watts : Write (BitVec 12))
  | thermalAction (u : Unit404) (celsius : Nat)
  | registerWrite (by_ : Writer) (sp : RegSpace) (off : Nat) (val : W64)
  | granaryPortTrain (port : Nat) (fast : Bool)
  | contextRestore (part ctx : Nat) (otherPart : Bool) (layoutChanged : Bool)
  deriving DecidableEq, Repr

end Sys2Proof
end

