-- ==== Sys2Proof/WellFormed.lean ====
section
/-! DEFINITION. Which terms of `Instr` are words of the part: the limits of R61 to R63 and of each
instruction's table that are decided by the word alone (R75). The 80 steps of the part are not words. -/

namespace Sys2Proof.Wf

def isV : Src → Bool
  | .v _ => true
  | _ => false

def isImm : Src → Bool
  | .imm _ => true
  | _ => false

def dSp : Dst → Bool
  | .s _ => true
  | .v _ => false

/-- Source that may not be an immediate; on the scalar pipe it names an s register (R62). -/
def reg (sp : Bool) (x : Src) : Bool := !isImm x && (!sp || !isV x)

/-- The second source, which may be IMM (R62). -/
def regImm (sp : Bool) (x : Src) : Bool := !sp || !isV x

/-- A pair register is even (R13). -/
def even (r : V) : Bool := r.getLsbD 0 == false

def pairS (w : Bool) : Src → Bool
  | .v r => !w || even r
  | _ => true

def pairD (w : Bool) : Dst → Bool
  | .v r => !w || even r
  | _ => true

/-- Sources of a computation word of width selected by `w`. -/
def src1 (w : Bool) (d : Dst) (a : Src) : Bool := reg (dSp d) a && pairS w a && pairD w d
def src2 (w : Bool) (d : Dst) (a b : Src) : Bool := src1 w d a && regImm (dSp d) b && pairS w b
def src3 (w : Bool) (d : Dst) (a b c : Src) : Bool := src2 w d a b && reg (dSp d) c && pairS w c

/-- Class 0x5 on the scalar pipe is FP32 only (R143). -/
def fpD (f : VF) (d : Dst) : Bool := !dSp d || f == .fp32

/-- R71: a generic word sequences by SEQ or END. -/
def gen (h : Hdr) : Bool := h.nas == .seq || h.nas == .fin

/-- A source of a generic word: no immediate. -/
def gsrc (a : Src) : Bool := !isImm a

def addr : Addr → Bool
  | .ub _ _ => true
  | .lp p => even p

/-- Pair and quad alignment of a data register (R174). -/
def szReg (z : Sz) (r : V) : Bool :=
  match z with
  | .w8 => even r
  | .w16 => r.extractLsb' 0 2 == 0
  | _ => true

/-- Sizes that a store has (R174). -/
def szSt (z : Sz) : Bool := z != .s8 && z != .s16

def isUb : Addr → Bool
  | .ub _ _ => true
  | .lp _ => false

/-- R16: codes 0xA to 0xF are reserved. -/
def fmtCode (c : BitVec 4) : Bool := c.toNat < 10

def zeroSrc (sp : Bool) : Src := if sp then .s 0 else .v 0

def rv (r : RvN) : Bool := r.toNat < 24

def imod (m : IntMod) : Bool := !m.sat

end Sys2Proof.Wf

namespace Sys2Proof

open Wf in
/-- A well-formed word. -/
def wellFormed : Instr → Bool
  | .nop _ | .trap _ _ | .brk _ _ | .sleep _ _ | .yield _ | .sigck _ _ | .lcset _ _ | .lcsetR _ _ | .lcsetGet _ _
  | .xmset _ _ | .xmsetAnd _ _ | .xmsetOr _ _ | .xmget _ _ | .wrs _ _ | .iflush _ _ | .sitex _ _ _ | .sitexCnt _ _ _
  | .sitexReset _ _ | .sitexPin _ _ => true
  | .rds _ d idx => idx.toNat < 0x14 && (dSp d != (idx == 0))
  | .add _ m d a b | .sub _ m d a b | .mul _ m d a b => src2 m.w d a b
  | .mulhi _ m d a b | .div _ m d a b | .rem _ m d a b | .min _ m d a b | .max _ m d a b => imod m && src2 m.w d a b
  | .mad _ m d a b c => src3 m.w d a b c
  | .madhi _ m d a b c | .sad _ m d a b c | .clamp _ m d a b c => imod m && src3 m.w d a b c
  | .abs _ m d a | .neg _ m d a => !m.un && src1 m.w d a
  | .addc _ _ w d a b _ => src2 w (.v d) a b
  | .lea _ _ _ d a b => src1 true d a && regImm (dSp d) b
  | .and _ w d a b | .or _ w d a b | .xor _ w d a b | .shl _ w d a b | .shr _ w d a b | .sar _ w d a b | .rot _ w d a b
  | .bfx _ _ w d a b => src2 w d a b
  | .not _ w d a | .popc _ w d a | .clz _ w d a | .brev _ w d a => src1 w d a
  | .bfi _ w d a b c => src3 w d a b c
  | .lop3 _ w d a b c _ => src3 w d a b c && !isImm b
  | .sel _ w d a b _ => src2 w (.v d) a b
  | .perm _ d a b c => src3 false d a b c
  | .cmp _ _ m _ sp _ a b => imod m && reg sp a && regImm sp b && pairS m.w a && pairS m.w b
  | .fcmp _ _ f _ sp _ a b => (!sp || f == .fp32) && reg sp a && regImm sp b
  | .plog _ k _ _ b => k != .not || b == 0
  | .ptest _ _ _ _ | .ballot _ _ _ | .elect _ _ _ | .pset _ _ _ => true
  | .ucheck _ tr w d a => (!tr || d == 0) && (!w || even a)
  | .mov _ w d a => src1 w d a
  | .movG h _ w d a => gen h && src1 w d a
  | .movi _ w d _ => pairD w d
  | .movh _ d _ => pairD true d
  | .bcast _ w d a b => !isV b && (!w || (even d && even a))
  | .bcastG h _ w d a b => gen h && !isV b && (!w || (even d && even a))
  | .vtos _ w _ _ a => !w || even a
  | .stov _ w d _ => !w || even d
  | .ldk _ _ _ _ | .tbset _ _ _ | .tbget _ _ _ _ => true
  | .fadd _ f _ d a b | .fsub _ f _ d a b | .fmul _ f _ d a b | .fmin _ f d a b | .fmax _ f d a b => fpD f d && src2 false d a b
  | .ffma _ f _ d a b c => fpD f d && src3 false d a b c
  | .fsgn _ k f d a b => fpD f d && src2 false d a b && (k != .abs || b == zeroSrc (dSp d))
  | .frcp _ f d a | .frsq _ f d a | .fsqrt _ f _ d a | .fexp2 _ f d a | .flog2 _ f d a | .fsinpi _ f d a | .fcospi _ f d a
  | .frnd _ _ f d a | .fclass _ f d a => fpD f d && src1 false d a
  | .faddG h _ _ _ a b | .fsubG h _ _ _ a b | .fmulG h _ _ _ a b | .fminG h _ _ a b | .fmaxG h _ _ a b => gen h && gsrc a && gsrc b
  | .ffmaG h _ _ _ a b c => gen h && gsrc a && gsrc b && gsrc c
  | .fsgnG h _ k _ a b => gen h && gsrc a && gsrc b && (k != .abs || b == .v 0)
  | .frcpG h _ _ a | .frsqG h _ _ a | .fsqrtG h _ _ _ a | .fexp2G h _ _ a | .flog2G h _ _ a | .fsinpiG h _ _ a
  | .fcospiG h _ _ a | .frndG h _ _ _ a | .fclassG h _ _ a => gen h && gsrc a
  | .ladd _ _ _ a _ | .lmul _ _ _ a _ => gsrc a
  | .lfma _ _ _ a _ c => gsrc a && gsrc c
  | .fmtset _ k i =>
    match k with
    | .all => fmtCode (fld i 0 4) && fmtCode (fld i 4 4) && fmtCode (fld i 8 4)
    | .a | .b | .d => i.toNat < 16 && fmtCode (fld i 0 4)
    | .sat => i.toNat < 2
  | .fmtsetR _ _ | .fmtget _ _ => true
  | .dot4 _ _ _ a _ c => gsrc a && gsrc c
  | .dot4G h _ _ a b c => gen h && gsrc a && gsrc b && gsrc c
  | .cvt _ r tg sr _ a c =>
    fmtCode tg && fmtCode sr && gsrc a && gsrc c && (tg == 5 || sr == 5 || c == .v 0)
      && (r == .ne || (tg != 8 && tg != 9)) && (isV a || spanOne sr tg)
  | .cvtG h _ _ _ a c => gen h && gsrc a && gsrc c
  | .cvtF2i _ _ d a | .cvtF2u _ _ d a | .cvtI2f _ _ d a | .cvtU2f _ _ d a => src1 false d a
  | .pack _ _ _ | .unpack _ _ _ => true
  | .scale _ _ _ _ a _ => gsrc a
  | .qnt _ _ _ a | .dqnt _ _ _ a => gsrc a
  | .shfl _ _ w d a _ | .shxor _ _ w d a _ => !w || (even d && even a)
  | .shup _ _ w d a b | .shdn _ _ w d a b => !isV b && (!w || (even d && even a))
  | .redadd _ m _ a | .redmin _ m _ a | .redmax _ m _ a => imod m && (!m.w || even a)
  | .scan _ k m d a =>
    imod m && (!m.w || (even d && even a)) && ((k != .fadd && k != .faddx) || (!m.w && !m.un))
  | .fredadd _ _ _ => true
  | .compact _ w d a _ _ => !w || (even d && even a)
  | .ld _ z u d ad _ _ => szReg z d && addr ad && (!u || isUb ad)
  | .ldG h _ z d ad _ t => gen h && szReg z d && addr ad && t.spc == 0
  | .lds _ z _ _ _ _ _ => z != .w16
  | .ldsG h _ z _ _ _ _ t => gen h && z != .w16 && t.spc == 0
  | .ldx _ _ _ _ ad _ _ => addr ad
  | .ldxG h _ _ _ _ ad _ t => gen h && addr ad && t.spc == 0
  | .ldt _ z d _ ad _ _ => szReg z d && addr ad
  | .ldtG h _ z d _ ad _ t => gen h && szReg z d && addr ad && t.spc == 0
  | .st _ z u _ ad x _ => szSt z && szReg z x && addr ad && (!u || isUb ad)
  | .stG h _ z _ ad x t => gen h && szSt z && szReg z x && addr ad && t.spc == 0
  | .sts _ z _ _ _ _ _ => szSt z && z != .w16
  | .stt _ z _ _ ad x _ => szSt z && szReg z x && addr ad
  | .stx _ _ _ _ ad _ _ => addr ad
  | .stxG h _ _ _ _ ad _ t => gen h && addr ad && t.spc == 0
  | .wmrg _ _ _ _ | .wtest _ _ _ | .wtestKick _ _ _ | .wfence _ _ | .widen _ _ => true
  | .wmrgRed _ _ a _ => even a
  | .atom _ _ _ w d ad x _ _ _ => addr ad && (!w || (even d && even x))
  | .atomG h _ _ _ w d ad x _ _ t => gen h && addr ad && (!w || (even d && even x)) && t.spc == 0
  | .fatom _ _ _ ad _ _ _ _ => addr ad
  | .fatomG h _ _ _ ad _ _ _ t => gen h && addr ad && t.spc == 0
  | .atoms _ _ _ _ _ _ _ _ _ _ => true
  | .atomsG h _ _ _ _ _ _ _ _ _ t => gen h && t.spc == 0
  | .waita _ _ w d ad _ _ _ => addr ad && (!w || even d)
  | .waitaG h _ _ w d ad _ _ t => gen h && addr ad && (!w || even d) && t.spc == 0
  | .pfl _ _ ad | .inv _ _ ad | .wb _ _ _ ad => addr ad
  | .pft _ _ _ | .pin _ _ _ _ _ | .unpin _ _ | .tlbsync _ _ _ _ => true
  | .mzero _ _ _ _ n | .mcopy _ _ _ _ _ n => n != 0 && n.toNat ≤ 4096
  | .chainDemote _ c | .chainDrop _ c | .chainCnt _ _ c => c != 0
  | .tdef _ _ _ _ _ _ | .tfree _ _ | .tstat _ _ _ _ | .twait _ _ _ | .twaitCh _ _ _ | .layout _ _ _ | .copy _ _ _ _ _ _ _
  | .copyOut _ _ _ _ _ _ _ | .copyQ _ _ _ _ _ _ _ | .copyMc _ _ _ _ _ _ _ _ | .feed _ _ _ _ _ | .rrot _ _ _ | .sdef _ _ _
  | .sflush _ _ | .sflushRel _ _ => true
  | .mmp _ _ _ _ _ k => k != 0 && k.toNat ≤ 256
  | .mmpG h _ _ _ _ k => gen h && k != 0 && k.toNat ≤ 256
  | .mmps _ _ _ _ _ k => k != 0 && k.toNat ≤ 256 && k.extractLsb' 0 2 == 0
  | .mmpsG h _ _ _ _ k => gen h && k != 0 && k.toNat ≤ 256 && k.extractLsb' 0 2 == 0
  | .accz _ _ => true
  | .acco _ fl f _ _ b c => (fl.rq || (f == 0 && c == 0)) && (fl.bias || b == 0)
  | .atab _ _ _ _ | .mstat _ _ | .mstatClr _ _ _ | .mstatEn _ _ _ | .accld _ _ _ _ _ => true
  | .rvinit _ r n => rv r && n != 0
  | .rvarr _ r _ => rv r
  | .rvwait _ _ r => rv r
  | .launch _ _ _ _ | .replay _ _ _ _ _ | .snap _ _ _ | .genq _ _ _ | .genrel _ _ _ | .genrb _ _ _ => true
  | _ => false
where
  /-- The source of a `cvt` spans one register (R156, R157). -/
  spanOne (sr tg : BitVec 4) : Bool := perReg tg ≤ perReg sr
  /-- Elements per register (R43, R157). -/
  perReg (c : BitVec 4) : Nat :=
    match c.toNat with
    | 0 => 1
    | 1 | 2 => 2
    | 5 | 7 => 8
    | _ => 4

end Sys2Proof
end

