-- ==== Sys2Proof/Decode.lean ====
section
/-! DEFINITION. The 128-bit word (R60): its fields, the decoder, and the encoder. The encoder writes every
unused field as zero, and the decoder takes a pattern only if it is the encoding of the well-formed
instruction it reads from it, so every pattern of R75 that the word alone decides is refused (`none`). -/

namespace Sys2Proof

/-- The fields of R60. `j`, `sw`, `uni` and `g` are one bit wide. -/
structure Raw where
  op : BitVec 8
  g : BitVec 1
  sub : BitVec 3
  dst : BitVec 8
  sa : BitVec 8
  sb : BitVec 8
  sc : BitVec 8
  gp : BitVec 4
  nas : BitVec 3
  uni : BitVec 1
  sw : BitVec 1
  md : BitVec 3
  attr : BitVec 7
  j : BitVec 1
  imm : BitVec 32
  tgt : BitVec 28
  bp : BitVec 4
  deriving DecidableEq, Repr

/-- R60, from high bits to low. -/
def Raw.pack (r : Raw) : BitVec 128 :=
  r.bp ++ r.tgt ++ r.imm ++ r.j ++ r.attr ++ r.md ++ r.sw ++ r.uni ++ r.nas ++ r.gp ++ r.sc ++ r.sb ++ r.sa ++ r.dst
    ++ r.sub ++ r.g ++ r.op

def Raw.unpack (w : BitVec 128) : Raw :=
  { op := fld w 0 8, g := fld w 8 1, sub := fld w 9 3, dst := fld w 12 8, sa := fld w 20 8, sb := fld w 28 8,
    sc := fld w 36 8, gp := fld w 44 4, nas := fld w 48 3, uni := fld w 51 1, sw := fld w 52 1, md := fld w 53 3,
    attr := fld w 56 7, j := fld w 63 1, imm := fld w 64 32, tgt := fld w 96 28, bp := fld w 124 4 }

namespace Enc

def b1 (b : Bool) : BitVec 1 := BitVec.ofBool b
def guard (g : Guard) : BitVec 4 := b1 g.neg ++ g.p

/-- Sequencing fields (R66): NAS, UNI, TGT, BP. -/
def nas : Nas → BitVec 3 × BitVec 1 × BitVec 28 × BitVec 4
  | .seq => (0, 0, 0, 0)
  | .go t => (1, 0, t, 0)
  | .iff t b u => (2, b1 u, t, guard b)
  | .loop t b u => (3, b1 u, t, guard b)
  | .call t => (4, 0, t, 0)
  | .ret => (5, 0, 0, 0)
  | .jumpi r => (6, 0, r.setWidth 28, 0)
  | .fin => (7, 0, 0, 0)

/-- A word of operation `op` with its header and no operands. -/
def base (op : BitVec 8) (h : Hdr) (sub : BitVec 3 := 0) (md : BitVec 3 := 0) : Raw :=
  { op := op, g := 0, sub := sub, dst := 0, sa := 0, sb := 0, sc := 0, gp := guard h.gp, nas := (nas h.nas).1,
    uni := (nas h.nas).2.1, sw := b1 h.sw, md := md, attr := 0, j := b1 h.j, imm := 0, tgt := (nas h.nas).2.2.1,
    bp := (nas h.nas).2.2.2 }

/-- The generic form: G = 1 and the site in TGT[15:0] (R71). -/
def site (r : Raw) (n : BitVec 16) : Raw := { r with g := 1, tgt := n.setWidth 28 }

def s8 (r : S) : BitVec 8 := r.setWidth 8
def p8 (r : P) : BitVec 8 := r.setWidth 8
def q8 (r : Q) : BitVec 8 := r.setWidth 8
def rv8 (r : RvN) : BitVec 8 := r.setWidth 8
def m3 (w : Bool) : BitVec 3 := (b1 w).setWidth 3
def imod (m : IntMod) : BitVec 3 := b1 m.sat ++ b1 m.un ++ b1 m.w

def srcF : Src → BitVec 8
  | .v r => r
  | .s r => s8 r
  | .imm _ => 0
def srcS : Src → BitVec 1
  | .s _ => 1
  | _ => 0
def srcIb : Src → BitVec 1
  | .imm _ => 1
  | _ => 0
def srcImm : Src → W32
  | .imm i => i
  | _ => 0
def dstF : Dst → BitVec 8
  | .v r => r
  | .s r => s8 r

/-- ATTR of the computation classes (R62): XA, SP, IB, SSC, SSB, SSA; under SP the three low bits are zero. -/
def attrC (xa : BitVec 2) (sp : Bool) (ib ssc ssb ssa : BitVec 1) : BitVec 7 :=
  if sp then xa ++ 1#1 ++ ib ++ 0#3 else xa ++ 0#1 ++ ib ++ ssc ++ ssb ++ ssa

/-- Sources of a computation word put into their fields. -/
def comp (r : Raw) (xa : BitVec 2) (sp : Bool) (dst : BitVec 8) (a b c : Src) : Raw :=
  { r with dst := dst, sa := srcF a, sb := srcF b, sc := srcF c, imm := srcImm b,
           attr := attrC xa sp (srcIb b) (srcS c) (srcS b) (srcS a) }

def z : Src := .v 0

def c1 (r : Raw) (xa : BitVec 2) (d : Dst) (a : Src) : Raw := comp r xa (Wf.dSp d) (dstF d) a z z
def c2 (r : Raw) (xa : BitVec 2) (d : Dst) (a b : Src) : Raw := comp r xa (Wf.dSp d) (dstF d) a b z
def c3 (r : Raw) (xa : BitVec 2) (d : Dst) (a b c : Src) : Raw := comp r xa (Wf.dSp d) (dstF d) a b c

def cond : Cond → BitVec 3
  | .eq => 0 | .ne => 1 | .lt => 2 | .le => 3 | .gt => 4 | .ge => 5
def fcond : FCond → BitVec 3
  | .eq => 0 | .ne => 1 | .lt => 2 | .le => 3 | .gt => 4 | .ge => 5 | .nan => 6 | .num => 7
def comb : Comb → BitVec 2
  | .wr => 0 | .and => 1 | .or => 2
def vf : VF → BitVec 3
  | .fp32 => 0 | .f16 => 1 | .bf16 => 2
def rnd : Rnd → BitVec 2
  | .ne => 0 | .rz => 1 | .rd => 2 | .ru => 3
def plog : PlogOp → BitVec 3
  | .and => 0 | .or => 1 | .xor => 2 | .andn => 3 | .orn => 4 | .not => 5
def ptest : PtestOp → BitVec 3
  | .any => 0 | .all => 1 | .none => 2 | .cnt => 3
def tbw : TbWord → BitVec 3
  | .base => 0 | .frame => 1 | .limit => 2
def sgn : SgnOp → BitVec 3
  | .cpy => 0 | .neg => 1 | .xor => 2 | .abs => 3
def rndInt : RndInt → BitVec 3
  | .rn => 0 | .rz => 1 | .rd => 2 | .ru => 3 | .ra => 4
def fmtSel : FmtSel → BitVec 3
  | .all => 0 | .a => 2 | .b => 3 | .d => 4 | .sat => 5
def dot : DotFmt → BitVec 3
  | .e4m3 => 1 | .e5m2 => 2 | .i8 => 3 | .lg6 => 4 | .lg8 => 5 | .e2m1 => 6 | .i4 => 7
def qf : QFmt → BitVec 3
  | .mx4 => 0 | .mx8 => 1 | .i8 => 2
def seg : Seg → BitVec 3
  | .s64 => 0 | .s32 => 1 | .s16 => 2 | .s8 => 3
def scan : ScanOp → BitVec 3
  | .add => 0 | .addx => 1 | .min => 2 | .max => 3 | .fadd => 4 | .faddx => 5
def sz : Sz → BitVec 3
  | .w4 => 0 | .w8 => 1 | .w16 => 2 | .z8 => 3 | .s8 => 4 | .z16 => 5 | .s16 => 6
def atomOp : AtomOp → BitVec 3
  | .add => 0 | .and => 1 | .or => 2 | .xor => 3 | .min => 4 | .max => 5 | .exch => 6 | .cas => 7
def fatomOp : FatomOp → BitVec 3
  | .add => 0 | .min => 1 | .max => 2
def pfLvl : PfLvl → BitVec 3
  | .l1 => 0 | .l2 => 1 | .ms => 2
def tsw : TsWord → BitVec 3
  | .state => 0 | .base => 1 | .wit => 2

/-- ATTR of the memory classes (R62, R173): XM2, LP, CC, SCP. -/
def attrM (lp : Bool) (t : MAttr) : BitVec 7 := t.spc ++ b1 lp ++ t.cc ++ t.scp

def isLp : Addr → Bool
  | .lp _ => true
  | .ub _ _ => false
def adSa : Addr → BitVec 8
  | .ub b _ => s8 b
  | .lp p => p
def adSb : Addr → BitVec 8
  | .ub _ o => o
  | .lp _ => 0

/-- Address, destination and third operand of a word of classes 0x9 to 0xC. -/
def mem (r : Raw) (ad : Addr) (t : MAttr) (dst sc : BitVec 8) (imm : W32 := 0) : Raw :=
  { r with dst := dst, sa := adSa ad, sb := adSb ad, sc := sc, imm := imm, attr := attrM (isLp ad) t }

/-- The same for a word with one scalar address. -/
def smem (r : Raw) (base : S) (t : MAttr) (dst sc : BitVec 8) (imm : W32) : Raw :=
  { r with dst := dst, sa := s8 base, sc := sc, imm := imm, attr := attrM false t }

def noAttr : MAttr := { spc := 0, cc := 0, scp := 0 }

/-- Witness registers of an atomic in IMM (R193). -/
def wits (wo w : S) : W32 := (s8 w ++ s8 wo).setWidth 32

/-- Plain operand fields, ATTR zero. -/
def ops (r : Raw) (dst sa sb sc : BitVec 8) (imm : W32 := 0) : Raw :=
  { r with dst := dst, sa := sa, sb := sb, sc := sc, imm := imm }

end Enc

open Enc in
/-- The fields of a word, from the tables of classes 0x0 to 0xF. A step of the part has no encoding. -/
def toRaw : Instr → Raw
  | .nop h => base 0x00 h
  | .trap h i => ops (base 0x01 h) 0 0 0 0 i
  | .brk h i => ops (base 0x02 h) 0 0 0 0 i
  | .sleep h i => ops (base 0x03 h) 0 0 0 0 i
  | .yield h => base 0x04 h
  | .sigck h i => ops (base 0x05 h) 0 0 0 0 i
  | .lcset h i => ops (base 0x06 h) 0 0 0 0 i
  | .lcsetR h a => ops (base 0x06 h 1) 0 (s8 a) 0 0
  | .lcsetGet h d => ops (base 0x06 h 2) (s8 d) 0 0 0
  | .xmset h a => ops (base 0x07 h) 0 (s8 a) 0 0
  | .xmsetAnd h a => ops (base 0x07 h 1) 0 (s8 a) 0 0
  | .xmsetOr h a => ops (base 0x07 h 2) 0 (s8 a) 0 0
  | .xmget h d => ops (base 0x08 h) (s8 d) 0 0 0
  | .rds h d i => ops (base 0x09 h) (dstF d) 0 0 0 (i.setWidth 32)
  | .wrs h a => ops (base 0x0A h) 0 (s8 a) 0 0 0x13
  | .iflush h w => ops (base 0x0B h) 0 0 0 (s8 w)
  | .sitex h d n => ops (base 0x0C h) (s8 d) 0 0 0 (n.setWidth 32)
  | .sitexCnt h d n => ops (base 0x0C h 3) (s8 d) 0 0 0 (n.setWidth 32)
  | .sitexReset h n => ops (base 0x0C h 1) 0 0 0 0 (n.setWidth 32)
  | .sitexPin h n => ops (base 0x0C h 2) 0 0 0 0 (n.setWidth 32)
  | .add h m d a b => c2 (base 0x10 h 0 (imod m)) 0 d a b
  | .sub h m d a b => c2 (base 0x11 h 0 (imod m)) 0 d a b
  | .mul h m d a b => c2 (base 0x12 h 0 (imod m)) 0 d a b
  | .mulhi h m d a b => c2 (base 0x13 h 0 (imod m)) 0 d a b
  | .mad h m d a b c => c3 (base 0x14 h 0 (imod m)) 0 d a b c
  | .madhi h m d a b c => c3 (base 0x15 h 0 (imod m)) 0 d a b c
  | .div h m d a b => c2 (base 0x16 h 0 (imod m)) 0 d a b
  | .rem h m d a b => c2 (base 0x17 h 0 (imod m)) 0 d a b
  | .min h m d a b => c2 (base 0x18 h 0 (imod m)) 0 d a b
  | .max h m d a b => c2 (base 0x19 h 0 (imod m)) 0 d a b
  | .abs h m d a => c1 (base 0x1A h 0 (imod m)) 0 d a
  | .neg h m d a => c1 (base 0x1B h 0 (imod m)) 0 d a
  | .addc h s w d a b c => { comp (base 0x1C h (m3 s) (m3 w)) 0 false d a b z with sc := p8 c }
  | .sad h m d a b c => c3 (base 0x1D h 0 (imod m)) 0 d a b c
  | .lea h x n d a b => c2 (base 0x1E h (m3 x) n) 0 d a b
  | .clamp h m d a b c => c3 (base 0x1F h 0 (imod m)) 0 d a b c
  | .and h w d a b => c2 (base 0x20 h 0 (m3 w)) 0 d a b
  | .or h w d a b => c2 (base 0x21 h 0 (m3 w)) 0 d a b
  | .xor h w d a b => c2 (base 0x22 h 0 (m3 w)) 0 d a b
  | .not h w d a => c1 (base 0x23 h 0 (m3 w)) 0 d a
  | .shl h w d a b => c2 (base 0x24 h 0 (m3 w)) 0 d a b
  | .shr h w d a b => c2 (base 0x25 h 0 (m3 w)) 0 d a b
  | .sar h w d a b => c2 (base 0x26 h 0 (m3 w)) 0 d a b
  | .rot h w d a b => c2 (base 0x27 h 0 (m3 w)) 0 d a b
  | .bfx h x w d a b => c2 (base 0x28 h (m3 x) (m3 w)) 0 d a b
  | .bfi h w d a b c => c3 (base 0x29 h 0 (m3 w)) 0 d a b c
  | .popc h w d a => c1 (base 0x2A h 0 (m3 w)) 0 d a
  | .clz h w d a => c1 (base 0x2B h 0 (m3 w)) 0 d a
  | .brev h w d a => c1 (base 0x2C h 0 (m3 w)) 0 d a
  | .lop3 h w d a b c t => { c3 (base 0x2D h 0 (m3 w)) 0 d a b c with imm := t.setWidth 32 }
  | .sel h w d a b c => { comp (base 0x2E h 0 (m3 w)) 0 false d a b z with sc := p8 c }
  | .perm h d a b c => c3 (base 0x2F h) 0 d a b c
  | .cmp h k m x sp d a b => comp (base 0x30 h (cond k) (imod m)) (comb x) sp (p8 d) a b z
  | .fcmp h k f x sp d a b => comp (base 0x31 h (fcond k) (vf f)) (comb x) sp (p8 d) a b z
  | .plog h k d a b => ops (base 0x32 h (plog k)) (p8 d) (p8 a) (p8 b) 0
  | .ptest h k d a => ops (base 0x33 h (ptest k)) (s8 d) (p8 a) 0 0
  | .ballot h d a => ops (base 0x34 h) (s8 d) (p8 a) 0 0
  | .elect h d a => ops (base 0x35 h) (p8 d) (p8 a) 0 0
  | .pset h d (.s r) => ops (base 0x36 h) (p8 d) (s8 r) 0 0
  | .pset h d (.nz r) => ops (base 0x36 h 1) (p8 d) r 0 0
  | .pset h d (.k b) => ops (base 0x36 h 2) (p8 d) 0 0 0 ((b1 b).setWidth 32)
  | .ucheck h t w d a => ops (base 0x37 h (m3 t) (m3 w)) (p8 d) a 0 0
  | .mov h w d a => c1 (base 0x40 h 0 (m3 w)) 0 d a
  | .movG h n w d a => site (c1 (base 0x40 h 0 (m3 w)) 0 d a) n
  | .movi h w d i => { comp (base 0x41 h 0 (m3 w)) 0 (Wf.dSp d) (dstF d) z z z with imm := i }
  | .movh h d i => { comp (base 0x42 h) 0 (Wf.dSp d) (dstF d) z z z with imm := i }
  | .bcast h w d a b => comp (base 0x43 h 0 (m3 w)) 0 false d (.v a) b z
  | .bcastG h n w d a b => site (comp (base 0x43 h 0 (m3 w)) 0 false d (.v a) b z) n
  | .vtos h w none d a => ops (base 0x44 h 0 (m3 w)) (s8 d) a 0 0
  | .vtos h w (some l) d a => ops (base 0x44 h 1 (m3 w)) (s8 d) a 0 0 (l.setWidth 32)
  | .stov h w d a => ops (base 0x45 h 0 (m3 w)) d (s8 a) 0 0
  | .ldk h w d o => ops (base 0x46 h 0 (m3 w)) (s8 d) 0 0 0 o
  | .tbset h d a => ops (base 0x47 h) (q8 d) (s8 a) 0 0
  | .tbget h k d a => ops (base 0x48 h (tbw k)) (s8 d) (q8 a) 0 0
  | .fadd h f r d a b => c2 (base 0x50 h 0 (vf f)) (rnd r) d a b
  | .fsub h f r d a b => c2 (base 0x51 h 0 (vf f)) (rnd r) d a b
  | .fmul h f r d a b => c2 (base 0x52 h 0 (vf f)) (rnd r) d a b
  | .ffma h f r d a b c => c3 (base 0x53 h 0 (vf f)) (rnd r) d a b c
  | .fmin h f d a b => c2 (base 0x54 h 0 (vf f)) 0 d a b
  | .fmax h f d a b => c2 (base 0x55 h 0 (vf f)) 0 d a b
  | .fsgn h k f d a b => c2 (base 0x56 h (sgn k) (vf f)) 0 d a b
  | .frcp h f d a => c1 (base 0x57 h 0 (vf f)) 0 d a
  | .frsq h f d a => c1 (base 0x58 h 0 (vf f)) 0 d a
  | .fsqrt h f r d a => c1 (base 0x59 h 0 (vf f)) (rnd r) d a
  | .fexp2 h f d a => c1 (base 0x5A h 0 (vf f)) 0 d a
  | .flog2 h f d a => c1 (base 0x5B h 0 (vf f)) 0 d a
  | .fsinpi h f d a => c1 (base 0x5C h 0 (vf f)) 0 d a
  | .fcospi h f d a => c1 (base 0x5D h 0 (vf f)) 0 d a
  | .frnd h k f d a => c1 (base 0x5E h (rndInt k) (vf f)) 0 d a
  | .fclass h f d a => c1 (base 0x5F h 0 (vf f)) 0 d a
  | .faddG h n r d a b => site (c2 (base 0x50 h) (rnd r) (.v d) a b) n
  | .fsubG h n r d a b => site (c2 (base 0x51 h) (rnd r) (.v d) a b) n
  | .fmulG h n r d a b => site (c2 (base 0x52 h) (rnd r) (.v d) a b) n
  | .ffmaG h n r d a b c => site (c3 (base 0x53 h) (rnd r) (.v d) a b c) n
  | .fminG h n d a b => site (c2 (base 0x54 h) 0 (.v d) a b) n
  | .fmaxG h n d a b => site (c2 (base 0x55 h) 0 (.v d) a b) n
  | .fsgnG h n k d a b => site (c2 (base 0x56 h (sgn k)) 0 (.v d) a b) n
  | .frcpG h n d a => site (c1 (base 0x57 h) 0 (.v d) a) n
  | .frsqG h n d a => site (c1 (base 0x58 h) 0 (.v d) a) n
  | .fsqrtG h n r d a => site (c1 (base 0x59 h) (rnd r) (.v d) a) n
  | .fexp2G h n d a => site (c1 (base 0x5A h) 0 (.v d) a) n
  | .flog2G h n d a => site (c1 (base 0x5B h) 0 (.v d) a) n
  | .fsinpiG h n d a => site (c1 (base 0x5C h) 0 (.v d) a) n
  | .fcospiG h n d a => site (c1 (base 0x5D h) 0 (.v d) a) n
  | .frndG h n k d a => site (c1 (base 0x5E h (rndInt k)) 0 (.v d) a) n
  | .fclassG h n d a => site (c1 (base 0x5F h) 0 (.v d) a) n
  | .ladd h l d a b => c2 (base 0x60 h 0 (m3 l)) 0 (.v d) a b
  | .lmul h l d a b => c2 (base 0x61 h 0 (m3 l)) 0 (.v d) a b
  | .lfma h l d a b c => c3 (base 0x62 h 0 (m3 l)) 0 (.v d) a b c
  | .fmtset h k i => ops (base 0x64 h (fmtSel k)) 0 0 0 0 (i.setWidth 32)
  | .fmtsetR h a => ops (base 0x64 h 1) 0 (s8 a) 0 0
  | .fmtget h d => ops (base 0x65 h) (s8 d) 0 0 0
  | .dot4 h f d a b c => c3 (base 0x66 h 0 (dot f)) 0 (.v d) a b c
  | .dot4G h n d a b c => site (c3 (base 0x66 h) 0 (.v d) a b c) n
  | .cvt h r tg sr d a c => { c3 (base 0x70 h) (rnd r) (.v d) a z c with imm := (tg ++ sr).setWidth 32 }
  | .cvtG h n r d a c => site (c3 (base 0x70 h) (rnd r) (.v d) a z c) n
  | .cvtF2i h r d a => c1 (base 0x70 h 1) (rnd r) d a
  | .cvtF2u h r d a => c1 (base 0x70 h 2) (rnd r) d a
  | .cvtI2f h r d a => c1 (base 0x70 h 3) (rnd r) d a
  | .cvtU2f h r d a => c1 (base 0x70 h 4) (rnd r) d a
  | .pack h d a => ops (base 0x71 h) d a 0 0
  | .unpack h d a => ops (base 0x72 h) d a 0 0
  | .scale h v f d a b => c2 (base 0x73 h (m3 v) (vf f)) 0 (.v d) a b
  | .qnt h k d a => c1 (base 0x74 h 0 (qf k)) 0 (.v d) a
  | .dqnt h k d a => c1 (base 0x75 h 0 (qf k)) 0 (.v d) a
  | .shfl h g w d a b => c2 (base 0x80 h (seg g) (m3 w)) 0 (.v d) (.v a) b
  | .shup h g w d a b => c2 (base 0x81 h (seg g) (m3 w)) 0 (.v d) (.v a) b
  | .shdn h g w d a b => c2 (base 0x82 h (seg g) (m3 w)) 0 (.v d) (.v a) b
  | .shxor h g w d a b => c2 (base 0x83 h (seg g) (m3 w)) 0 (.v d) (.v a) b
  | .redadd h m d a => ops (base 0x84 h 0 (imod m)) (s8 d) a 0 0
  | .redmin h m d a => ops (base 0x85 h 0 (imod m)) (s8 d) a 0 0
  | .redmax h m d a => ops (base 0x86 h 0 (imod m)) (s8 d) a 0 0
  | .scan h k m d a => ops (base 0x87 h (scan k) (imod m)) d a 0 0
  | .fredadd h d a => ops (base 0x88 h) (s8 d) a 0 0
  | .compact h w d a b c => ops (base 0x89 h 0 (m3 w)) d a (p8 b) (s8 c)
  | .ld h x u d ad w t => mem (base 0x90 h (m3 u) (sz x)) ad t d (s8 w)
  | .ldG h n x d ad w t => site (mem (base 0x90 h 0 (sz x)) ad t d (s8 w)) n
  | .lds h x d b o w t => smem (base 0x91 h 0 (sz x)) b t (s8 d) (s8 w) o
  | .ldsG h n x d b o w t => site (smem (base 0x91 h 0 (sz x)) b t (s8 d) (s8 w) o) n
  | .ldx h c f d ad w t => mem (base 0x92 h (c.setWidth 3) (vf f)) ad t d (s8 w)
  | .ldxG h n c f d ad w t => site (mem (base 0x92 h (c.setWidth 3) (vf f)) ad t d (s8 w)) n
  | .ldt h x d p ad w t => mem (base 0x93 h 0 (sz x)) ad t d (s8 w) (p.setWidth 32)
  | .ldtG h n x d p ad w t => site (mem (base 0x93 h 0 (sz x)) ad t d (s8 w) (p.setWidth 32)) n
  | .st h x u wo ad v t => mem (base 0xA0 h (m3 u) (sz x)) ad t (s8 wo) v
  | .stG h n x wo ad v t => site (mem (base 0xA0 h 0 (sz x)) ad t (s8 wo) v) n
  | .sts h x wo b v o t => smem (base 0xA1 h 0 (sz x)) b t (s8 wo) (s8 v) o
  | .stt h x wo p ad v t => mem (base 0xA2 h 0 (sz x)) ad t (s8 wo) v (p.setWidth 32)
  | .stx h c f wo ad v t => mem (base 0xA3 h (c.setWidth 3) (vf f)) ad t (s8 wo) v
  | .stxG h n c f wo ad v t => site (mem (base 0xA3 h (c.setWidth 3) (vf f)) ad t (s8 wo) v) n
  | .wmrg h d a b => ops (base 0xA4 h) (s8 d) (s8 a) (s8 b) 0
  | .wmrgRed h d a b => ops (base 0xA4 h 1) (s8 d) a (s8 b) 0
  | .wtest h d w => ops (base 0xA5 h) (s8 d) 0 0 (s8 w)
  | .wtestKick h d w => ops (base 0xA5 h 1) (s8 d) 0 0 (s8 w)
  | .wfence h w => ops (base 0xA6 h) 0 0 0 (s8 w)
  | .widen h d => ops (base 0xA7 h) (s8 d) 0 0 0
  | .atom h k u w d ad x wo wi t => mem (base 0xB0 h (atomOp k) (b1 false ++ b1 u ++ b1 w)) ad t d x (wits wo wi)
  | .atomG h n k u w d ad x wo wi t => site (mem (base 0xB0 h (atomOp k) (b1 false ++ b1 u ++ b1 w)) ad t d x (wits wo wi)) n
  | .fatom h k d ad x wo wi t => mem (base 0xB1 h (fatomOp k)) ad t d x (wits wo wi)
  | .fatomG h n k d ad x wo wi t => site (mem (base 0xB1 h (fatomOp k)) ad t d x (wits wo wi)) n
  | .atoms h k u w d b x wo wi t => smem (base 0xB2 h (atomOp k) (b1 false ++ b1 u ++ b1 w)) b t (s8 d) (s8 x) (wits wo wi)
  | .atomsG h n k u w d b x wo wi t =>
    site (smem (base 0xB2 h (atomOp k) (b1 false ++ b1 u ++ b1 w)) b t (s8 d) (s8 x) (wits wo wi)) n
  | .waita h ne w d ad x tm t => mem (base 0xB3 h (m3 ne) (m3 w)) ad t d (s8 x) tm
  | .waitaG h n ne w d ad x tm t => site (mem (base 0xB3 h (m3 ne) (m3 w)) ad t d (s8 x) tm) n
  | .pfl h l ad => mem (base 0xC0 h 0 (pfLvl l)) ad noAttr 0 0
  | .pft h ms a => ops (base 0xC1 h 0 (if ms then 2 else 1)) 0 (s8 a) 0 0
  | .pin h ms d a b => ops (base 0xC2 h 0 (m3 ms)) (s8 d) (s8 a) (s8 b) 0
  | .unpin h a => ops (base 0xC3 h) 0 (s8 a) 0 0
  | .inv h ms ad => mem (base 0xC4 h 0 (m3 ms)) ad noAttr 0 0
  | .wb h dr d ad => mem (base 0xC5 h 0 (m3 dr)) ad noAttr (s8 d) 0
  | .tlbsync h al a w => ops (base 0xC6 h 0 (m3 al)) 0 (s8 a) 0 (s8 w)
  | .mzero h d a w n => ops (base 0xC7 h) (s8 d) (s8 a) 0 (s8 w) (n.setWidth 32)
  | .mcopy h d a b w n => ops (base 0xC8 h) (s8 d) (s8 a) (s8 b) (s8 w) (n.setWidth 32)
  | .chainDemote h c => ops (base 0xC9 h) 0 0 0 0 (c.setWidth 32)
  | .chainDrop h c => ops (base 0xC9 h 1) 0 0 0 0 (c.setWidth 32)
  | .chainCnt h d c => ops (base 0xC9 h 2) (s8 d) 0 0 0 (c.setWidth 32)
  | .tdef h r t a b c => ops (base 0xD0 h (m3 r)) (s8 t) (s8 a) (s8 b) 0 c
  | .tfree h t => ops (base 0xD1 h) (s8 t) 0 0 0
  | .tstat h k d t => ops (base 0xD2 h (tsw k)) (s8 d) (s8 t) 0 0
  | .twait h d t => ops (base 0xD3 h) (s8 d) (s8 t) 0 0
  | .twaitCh h t b => ops (base 0xD3 h 1) 0 (s8 t) (s8 b) 0
  | .layout h d a => ops (base 0xD4 h) (p8 d) (s8 a) 0 0
  | .copy h cc d a b w t => { ops (base 0xD5 h) (s8 d) (s8 a) (s8 b) (s8 w) (t.setWidth 32) with attr := 0#3 ++ cc ++ 0#2 }
  | .copyOut h cc d a b w t => { ops (base 0xD5 h 1) (s8 d) (s8 a) (s8 b) (s8 w) (t.setWidth 32) with attr := 0#3 ++ cc ++ 0#2 }
  | .copyQ h cc d a b w q => { ops (base 0xD5 h 2) (s8 d) (s8 a) (s8 b) (s8 w) (q.setWidth 32) with attr := 0#3 ++ cc ++ 0#2 }
  | .copyMc h cc d a b w t m =>
    { ops (base 0xD5 h 3) (s8 d) (s8 a) (s8 b) (s8 w) ((m ++ s8 t).setWidth 32) with attr := 0#3 ++ cc ++ 0#2 }
  | .feed h q t b c => ops (base 0xD6 h) (q8 q) (s8 t) (s8 b) (s8 c)
  | .rrot h d t => ops (base 0xD7 h) (s8 d) (s8 t) 0 0
  | .sdef h q c => ops (base 0xD8 h) (q8 q) 0 0 0 ((b1 c).setWidth 32)
  | .sflush h q => ops (base 0xD9 h) (q8 q) 0 0 0
  | .sflushRel h q => ops (base 0xD9 h 1) (q8 q) 0 0 0
  | .mmp h f c a b k => ops (base 0xE0 h 0 f) (q8 c) (q8 a) (q8 b) 0 (k.setWidth 32)
  | .mmpG h n c a b k => site (ops (base 0xE0 h) (q8 c) (q8 a) (q8 b) 0 (k.setWidth 32)) n
  | .mmps h f c a b k => ops (base 0xE1 h 0 f) (q8 c) (q8 a) (q8 b) 0 (k.setWidth 32)
  | .mmpsG h n c a b k => site (ops (base 0xE1 h) (q8 c) (q8 a) (q8 b) 0 (k.setWidth 32)) n
  | .accz h c => ops (base 0xE2 h) (q8 c) 0 0 0
  | .acco h fl f t c b k =>
    { ops (base 0xE3 h (m3 fl.z) f) (s8 t) (q8 c) (s8 b) 0 (k.setWidth 32) with attr := 0#4 ++ b1 fl.rq ++ b1 fl.act ++ b1 fl.bias }
  | .atab h t a b => ops (base 0xE4 h) (s8 t) (s8 a) (s8 b) 0
  | .mstat h d => ops (base 0xE5 h) (s8 d) 0 0 0
  | .mstatClr h d a => ops (base 0xE5 h 1) (s8 d) (s8 a) 0 0
  | .mstatEn h d a => ops (base 0xE5 h 2) (s8 d) (s8 a) 0 0
  | .accld h f d c r => ops (base 0xE6 h 0 f) d (q8 c) (s8 r) 0
  | .rvinit h r n => ops (base 0xF0 h) (rv8 r) 0 0 0 (n.setWidth 32)
  | .rvarr h r a => ops (base 0xF1 h) (rv8 r) (s8 a) 0 0
  | .rvwait h d r => ops (base 0xF2 h) (s8 d) (rv8 r) 0 0
  | .launch h d a w => ops (base 0xF3 h) (s8 d) (s8 a) 0 (s8 w)
  | .replay h d a b w => ops (base 0xF4 h) (s8 d) (s8 a) (s8 b) (s8 w)
  | .snap h d g => ops (base 0xF5 h) (s8 d) 0 0 0 (g.setWidth 32)
  | .genq h d a => ops (base 0xF6 h) (s8 d) (s8 a) 0 0
  | .genrel h d a => ops (base 0xF7 h) (s8 d) (s8 a) 0 0
  | .genrb h d a => ops (base 0xF8 h) (s8 d) (s8 a) 0 0
  | _ => ops (base 0xFF ⟨false, false, ⟨false, 0⟩, .seq⟩) 0 0 0 0

/-- The 128-bit word of an instruction (R60). -/
def encode (i : Instr) : BitVec 128 := (toRaw i).pack

/-! ### The decoder -/

namespace Dec

def guard (g : BitVec 4) : Guard := ⟨g.getLsbD 3, fld g 0 3⟩
def one (b : BitVec 1) : Bool := b == 1

def nas (r : Raw) : Nas :=
  match r.nas.toNat with
  | 0 => .seq
  | 1 => .go r.tgt
  | 2 => .iff r.tgt (guard r.bp) (one r.uni)
  | 3 => .loop r.tgt (guard r.bp) (one r.uni)
  | 4 => .call r.tgt
  | 5 => .ret
  | 6 => .jumpi (fld r.tgt 0 6)
  | _ => .fin

def hdr (r : Raw) : Hdr := ⟨one r.j, one r.sw, guard r.gp, nas r⟩

def s6 (x : BitVec 8) : S := fld x 0 6
def p3 (x : BitVec 8) : P := fld x 0 3
def q2 (x : BitVec 8) : Q := fld x 0 2

def sp (r : Raw) : Bool := r.attr.getLsbD 4
def srcA (r : Raw) : Src := if sp r || r.attr.getLsbD 0 then .s (s6 r.sa) else .v r.sa
def srcB (r : Raw) : Src :=
  if r.attr.getLsbD 3 then .imm r.imm else if sp r || r.attr.getLsbD 1 then .s (s6 r.sb) else .v r.sb
/-- SB of a word whose IMM is not its second source. -/
def srcB' (r : Raw) : Src := if sp r || r.attr.getLsbD 1 then .s (s6 r.sb) else .v r.sb
def srcC (r : Raw) : Src := if sp r || r.attr.getLsbD 2 then .s (s6 r.sc) else .v r.sc
def dst (r : Raw) : Dst := if sp r then .s (s6 r.dst) else .v r.dst
def xa (r : Raw) : BitVec 2 := fld r.attr 5 2
def w (r : Raw) : Bool := r.md.getLsbD 0
def x (r : Raw) : Bool := r.sub.getLsbD 0
def imod (r : Raw) : IntMod := ⟨r.md.getLsbD 2, r.md.getLsbD 1, r.md.getLsbD 0⟩
def site (r : Raw) : BitVec 16 := fld r.tgt 0 16

def cond (c : BitVec 3) : Cond :=
  match c.toNat with
  | 0 => .eq | 1 => .ne | 2 => .lt | 3 => .le | 4 => .gt | _ => .ge
def fcond (c : BitVec 3) : FCond :=
  match c.toNat with
  | 0 => .eq | 1 => .ne | 2 => .lt | 3 => .le | 4 => .gt | 5 => .ge | 6 => .nan | _ => .num
def comb (c : BitVec 2) : Comb :=
  match c.toNat with
  | 0 => .wr | 1 => .and | _ => .or
def vf (c : BitVec 3) : VF :=
  match c.toNat with
  | 0 => .fp32 | 1 => .f16 | _ => .bf16
def rnd (c : BitVec 2) : Rnd :=
  match c.toNat with
  | 0 => .ne | 1 => .rz | 2 => .rd | _ => .ru
def plog (c : BitVec 3) : PlogOp :=
  match c.toNat with
  | 0 => .and | 1 => .or | 2 => .xor | 3 => .andn | 4 => .orn | _ => .not
def ptest (c : BitVec 3) : PtestOp :=
  match c.toNat with
  | 0 => .any | 1 => .all | 2 => .none | _ => .cnt
def tbw (c : BitVec 3) : TbWord :=
  match c.toNat with
  | 0 => .base | 1 => .frame | _ => .limit
def sgn (c : BitVec 3) : SgnOp :=
  match c.toNat with
  | 0 => .cpy | 1 => .neg | 2 => .xor | _ => .abs
def rndInt (c : BitVec 3) : RndInt :=
  match c.toNat with
  | 0 => .rn | 1 => .rz | 2 => .rd | 3 => .ru | _ => .ra
def fmtSel (c : BitVec 3) : FmtSel :=
  match c.toNat with
  | 0 => .all | 2 => .a | 3 => .b | 4 => .d | _ => .sat
def dot (c : BitVec 3) : DotFmt :=
  match c.toNat with
  | 1 => .e4m3 | 2 => .e5m2 | 3 => .i8 | 4 => .lg6 | 5 => .lg8 | 6 => .e2m1 | _ => .i4
def qf (c : BitVec 3) : QFmt :=
  match c.toNat with
  | 0 => .mx4 | 1 => .mx8 | _ => .i8
def seg (c : BitVec 3) : Seg :=
  match c.toNat with
  | 0 => .s64 | 1 => .s32 | 2 => .s16 | _ => .s8
def scan (c : BitVec 3) : ScanOp :=
  match c.toNat with
  | 0 => .add | 1 => .addx | 2 => .min | 3 => .max | 4 => .fadd | _ => .faddx
def sz (c : BitVec 3) : Sz :=
  match c.toNat with
  | 0 => .w4 | 1 => .w8 | 2 => .w16 | 3 => .z8 | 4 => .s8 | 5 => .z16 | _ => .s16
def atomOp (c : BitVec 3) : AtomOp :=
  match c.toNat with
  | 0 => .add | 1 => .and | 2 => .or | 3 => .xor | 4 => .min | 5 => .max | 6 => .exch | _ => .cas
def fatomOp (c : BitVec 3) : FatomOp :=
  match c.toNat with
  | 0 => .add | 1 => .min | _ => .max
def pfLvl (c : BitVec 3) : PfLvl :=
  match c.toNat with
  | 0 => .l1 | 1 => .l2 | _ => .ms
def tsw (c : BitVec 3) : TsWord :=
  match c.toNat with
  | 0 => .state | 1 => .base | _ => .wit

def addr (r : Raw) : Addr := if r.attr.getLsbD 4 then .lp r.sa else .ub (s6 r.sa) r.sb
def mattr (r : Raw) : MAttr := ⟨fld r.attr 5 2, fld r.attr 2 2, fld r.attr 0 2⟩
def cc (r : Raw) : BitVec 2 := fld r.attr 2 2
def wo (r : Raw) : S := fld r.imm 0 6
def wi (r : Raw) : S := fld r.imm 8 6

end Dec

open Dec in
/-- The reading of a native word's fields, by OP (R73) and SUB. -/
def ofRawNative (r : Raw) : Option Instr :=
  let h := hdr r
  match r.op.toNat with
  | 0x00 => some (.nop h)
  | 0x01 => some (.trap h r.imm)
  | 0x02 => some (.brk h r.imm)
  | 0x03 => some (.sleep h r.imm)
  | 0x04 => some (.yield h)
  | 0x05 => some (.sigck h r.imm)
  | 0x06 =>
    match r.sub.toNat with
    | 0 => some (.lcset h r.imm)
    | 1 => some (.lcsetR h (s6 r.sa))
    | _ => some (.lcsetGet h (s6 r.dst))
  | 0x07 =>
    match r.sub.toNat with
    | 0 => some (.xmset h (s6 r.sa))
    | 1 => some (.xmsetAnd h (s6 r.sa))
    | _ => some (.xmsetOr h (s6 r.sa))
  | 0x08 => some (.xmget h (s6 r.dst))
  | 0x09 => some (.rds h (if r.imm == 0 then .v r.dst else .s (s6 r.dst)) (fld r.imm 0 5))
  | 0x0A => some (.wrs h (s6 r.sa))
  | 0x0B => some (.iflush h (s6 r.sc))
  | 0x0C =>
    match r.sub.toNat with
    | 0 => some (.sitex h (s6 r.dst) (fld r.imm 0 16))
    | 1 => some (.sitexReset h (fld r.imm 0 16))
    | 2 => some (.sitexPin h (fld r.imm 0 16))
    | _ => some (.sitexCnt h (s6 r.dst) (fld r.imm 0 16))
  | 0x10 => some (.add h (imod r) (dst r) (srcA r) (srcB r))
  | 0x11 => some (.sub h (imod r) (dst r) (srcA r) (srcB r))
  | 0x12 => some (.mul h (imod r) (dst r) (srcA r) (srcB r))
  | 0x13 => some (.mulhi h (imod r) (dst r) (srcA r) (srcB r))
  | 0x14 => some (.mad h (imod r) (dst r) (srcA r) (srcB r) (srcC r))
  | 0x15 => some (.madhi h (imod r) (dst r) (srcA r) (srcB r) (srcC r))
  | 0x16 => some (.div h (imod r) (dst r) (srcA r) (srcB r))
  | 0x17 => some (.rem h (imod r) (dst r) (srcA r) (srcB r))
  | 0x18 => some (.min h (imod r) (dst r) (srcA r) (srcB r))
  | 0x19 => some (.max h (imod r) (dst r) (srcA r) (srcB r))
  | 0x1A => some (.abs h (imod r) (dst r) (srcA r))
  | 0x1B => some (.neg h (imod r) (dst r) (srcA r))
  | 0x1C => some (.addc h (x r) (w r) r.dst (srcA r) (srcB r) (p3 r.sc))
  | 0x1D => some (.sad h (imod r) (dst r) (srcA r) (srcB r) (srcC r))
  | 0x1E => some (.lea h (x r) r.md (dst r) (srcA r) (srcB r))
  | 0x1F => some (.clamp h (imod r) (dst r) (srcA r) (srcB r) (srcC r))
  | 0x20 => some (.and h (w r) (dst r) (srcA r) (srcB r))
  | 0x21 => some (.or h (w r) (dst r) (srcA r) (srcB r))
  | 0x22 => some (.xor h (w r) (dst r) (srcA r) (srcB r))
  | 0x23 => some (.not h (w r) (dst r) (srcA r))
  | 0x24 => some (.shl h (w r) (dst r) (srcA r) (srcB r))
  | 0x25 => some (.shr h (w r) (dst r) (srcA r) (srcB r))
  | 0x26 => some (.sar h (w r) (dst r) (srcA r) (srcB r))
  | 0x27 => some (.rot h (w r) (dst r) (srcA r) (srcB r))
  | 0x28 => some (.bfx h (x r) (w r) (dst r) (srcA r) (srcB r))
  | 0x29 => some (.bfi h (w r) (dst r) (srcA r) (srcB r) (srcC r))
  | 0x2A => some (.popc h (w r) (dst r) (srcA r))
  | 0x2B => some (.clz h (w r) (dst r) (srcA r))
  | 0x2C => some (.brev h (w r) (dst r) (srcA r))
  | 0x2D => some (.lop3 h (w r) (dst r) (srcA r) (srcB' r) (srcC r) (fld r.imm 0 8))
  | 0x2E => some (.sel h (w r) r.dst (srcA r) (srcB r) (p3 r.sc))
  | 0x2F => some (.perm h (dst r) (srcA r) (srcB r) (srcC r))
  | 0x30 => some (.cmp h (cond r.sub) (imod r) (comb (xa r)) (sp r) (p3 r.dst) (srcA r) (srcB r))
  | 0x31 => some (.fcmp h (fcond r.sub) (vf r.md) (comb (xa r)) (sp r) (p3 r.dst) (srcA r) (srcB r))
  | 0x32 => some (.plog h (plog r.sub) (p3 r.dst) (p3 r.sa) (p3 r.sb))
  | 0x33 => some (.ptest h (ptest r.sub) (s6 r.dst) (p3 r.sa))
  | 0x34 => some (.ballot h (s6 r.dst) (p3 r.sa))
  | 0x35 => some (.elect h (p3 r.dst) (p3 r.sa))
  | 0x36 =>
    match r.sub.toNat with
    | 0 => some (.pset h (p3 r.dst) (.s (s6 r.sa)))
    | 1 => some (.pset h (p3 r.dst) (.nz r.sa))
    | _ => some (.pset h (p3 r.dst) (.k (r.imm.getLsbD 0)))
  | 0x37 => some (.ucheck h (x r) (w r) (p3 r.dst) r.sa)
  | 0x40 => some (.mov h (w r) (dst r) (srcA r))
  | 0x41 => some (.movi h (w r) (dst r) r.imm)
  | 0x42 => some (.movh h (dst r) r.imm)
  | 0x43 => some (.bcast h (w r) r.dst r.sa (srcB r))
  | 0x44 => some (.vtos h (w r) (if x r then some (fld r.imm 0 6) else none) (s6 r.dst) r.sa)
  | 0x45 => some (.stov h (w r) r.dst (s6 r.sa))
  | 0x46 => some (.ldk h (w r) (s6 r.dst) r.imm)
  | 0x47 => some (.tbset h (q2 r.dst) (s6 r.sa))
  | 0x48 => some (.tbget h (tbw r.sub) (s6 r.dst) (q2 r.sa))
  | 0x50 => some (.fadd h (vf r.md) (rnd (xa r)) (dst r) (srcA r) (srcB r))
  | 0x51 => some (.fsub h (vf r.md) (rnd (xa r)) (dst r) (srcA r) (srcB r))
  | 0x52 => some (.fmul h (vf r.md) (rnd (xa r)) (dst r) (srcA r) (srcB r))
  | 0x53 => some (.ffma h (vf r.md) (rnd (xa r)) (dst r) (srcA r) (srcB r) (srcC r))
  | 0x54 => some (.fmin h (vf r.md) (dst r) (srcA r) (srcB r))
  | 0x55 => some (.fmax h (vf r.md) (dst r) (srcA r) (srcB r))
  | 0x56 => some (.fsgn h (sgn r.sub) (vf r.md) (dst r) (srcA r) (srcB r))
  | 0x57 => some (.frcp h (vf r.md) (dst r) (srcA r))
  | 0x58 => some (.frsq h (vf r.md) (dst r) (srcA r))
  | 0x59 => some (.fsqrt h (vf r.md) (rnd (xa r)) (dst r) (srcA r))
  | 0x5A => some (.fexp2 h (vf r.md) (dst r) (srcA r))
  | 0x5B => some (.flog2 h (vf r.md) (dst r) (srcA r))
  | 0x5C => some (.fsinpi h (vf r.md) (dst r) (srcA r))
  | 0x5D => some (.fcospi h (vf r.md) (dst r) (srcA r))
  | 0x5E => some (.frnd h (rndInt r.sub) (vf r.md) (dst r) (srcA r))
  | 0x5F => some (.fclass h (vf r.md) (dst r) (srcA r))
  | 0x60 => some (.ladd h (w r) r.dst (srcA r) (srcB r))
  | 0x61 => some (.lmul h (w r) r.dst (srcA r) (srcB r))
  | 0x62 => some (.lfma h (w r) r.dst (srcA r) (srcB r) (srcC r))
  | 0x64 =>
    match r.sub.toNat with
    | 1 => some (.fmtsetR h (s6 r.sa))
    | _ => some (.fmtset h (fmtSel r.sub) (fld r.imm 0 13))
  | 0x65 => some (.fmtget h (s6 r.dst))
  | 0x66 => some (.dot4 h (dot r.md) r.dst (srcA r) (srcB r) (srcC r))
  | 0x70 =>
    match r.sub.toNat with
    | 0 => some (.cvt h (rnd (xa r)) (fld r.imm 4 4) (fld r.imm 0 4) r.dst (srcA r) (srcC r))
    | 1 => some (.cvtF2i h (rnd (xa r)) (dst r) (srcA r))
    | 2 => some (.cvtF2u h (rnd (xa r)) (dst r) (srcA r))
    | 3 => some (.cvtI2f h (rnd (xa r)) (dst r) (srcA r))
    | _ => some (.cvtU2f h (rnd (xa r)) (dst r) (srcA r))
  | 0x71 => some (.pack h r.dst r.sa)
  | 0x72 => some (.unpack h r.dst r.sa)
  | 0x73 => some (.scale h (x r) (vf r.md) r.dst (srcA r) (srcB r))
  | 0x74 => some (.qnt h (qf r.md) r.dst (srcA r))
  | 0x75 => some (.dqnt h (qf r.md) r.dst (srcA r))
  | 0x80 => some (.shfl h (seg r.sub) (w r) r.dst r.sa (srcB r))
  | 0x81 => some (.shup h (seg r.sub) (w r) r.dst r.sa (srcB r))
  | 0x82 => some (.shdn h (seg r.sub) (w r) r.dst r.sa (srcB r))
  | 0x83 => some (.shxor h (seg r.sub) (w r) r.dst r.sa (srcB r))
  | 0x84 => some (.redadd h (imod r) (s6 r.dst) r.sa)
  | 0x85 => some (.redmin h (imod r) (s6 r.dst) r.sa)
  | 0x86 => some (.redmax h (imod r) (s6 r.dst) r.sa)
  | 0x87 => some (.scan h (scan r.sub) (imod r) r.dst r.sa)
  | 0x88 => some (.fredadd h (s6 r.dst) r.sa)
  | 0x89 => some (.compact h (w r) r.dst r.sa (p3 r.sb) (s6 r.sc))
  | 0x90 => some (.ld h (sz r.md) (x r) r.dst (addr r) (s6 r.sc) (mattr r))
  | 0x91 => some (.lds h (sz r.md) (s6 r.dst) (s6 r.sa) r.imm (s6 r.sc) (mattr r))
  | 0x92 => some (.ldx h (fld r.sub 0 2) (vf r.md) r.dst (addr r) (s6 r.sc) (mattr r))
  | 0x93 => some (.ldt h (sz r.md) r.dst (fld r.imm 0 3) (addr r) (s6 r.sc) (mattr r))
  | 0xA0 => some (.st h (sz r.md) (x r) (s6 r.dst) (addr r) r.sc (mattr r))
  | 0xA1 => some (.sts h (sz r.md) (s6 r.dst) (s6 r.sa) (s6 r.sc) r.imm (mattr r))
  | 0xA2 => some (.stt h (sz r.md) (s6 r.dst) (fld r.imm 0 3) (addr r) r.sc (mattr r))
  | 0xA3 => some (.stx h (fld r.sub 0 2) (vf r.md) (s6 r.dst) (addr r) r.sc (mattr r))
  | 0xA4 =>
    if x r then some (.wmrgRed h (s6 r.dst) r.sa (s6 r.sb)) else some (.wmrg h (s6 r.dst) (s6 r.sa) (s6 r.sb))
  | 0xA5 => if x r then some (.wtestKick h (s6 r.dst) (s6 r.sc)) else some (.wtest h (s6 r.dst) (s6 r.sc))
  | 0xA6 => some (.wfence h (s6 r.sc))
  | 0xA7 => some (.widen h (s6 r.dst))
  | 0xB0 => some (.atom h (atomOp r.sub) (r.md.getLsbD 1) (w r) r.dst (addr r) r.sc (wo r) (wi r) (mattr r))
  | 0xB1 => some (.fatom h (fatomOp r.sub) r.dst (addr r) r.sc (wo r) (wi r) (mattr r))
  | 0xB2 => some (.atoms h (atomOp r.sub) (r.md.getLsbD 1) (w r) (s6 r.dst) (s6 r.sa) (s6 r.sc) (wo r) (wi r) (mattr r))
  | 0xB3 => some (.waita h (x r) (w r) r.dst (addr r) (s6 r.sc) r.imm (mattr r))
  | 0xC0 => some (.pfl h (pfLvl r.md) (addr r))
  | 0xC1 => some (.pft h (r.md == 2) (s6 r.sa))
  | 0xC2 => some (.pin h (w r) (s6 r.dst) (s6 r.sa) (s6 r.sb))
  | 0xC3 => some (.unpin h (s6 r.sa))
  | 0xC4 => some (.inv h (w r) (addr r))
  | 0xC5 => some (.wb h (w r) (s6 r.dst) (addr r))
  | 0xC6 => some (.tlbsync h (w r) (s6 r.sa) (s6 r.sc))
  | 0xC7 => some (.mzero h (s6 r.dst) (s6 r.sa) (s6 r.sc) (fld r.imm 0 13))
  | 0xC8 => some (.mcopy h (s6 r.dst) (s6 r.sa) (s6 r.sb) (s6 r.sc) (fld r.imm 0 13))
  | 0xC9 =>
    match r.sub.toNat with
    | 0 => some (.chainDemote h (fld r.imm 0 6))
    | 1 => some (.chainDrop h (fld r.imm 0 6))
    | _ => some (.chainCnt h (s6 r.dst) (fld r.imm 0 6))
  | 0xD0 => some (.tdef h (x r) (s6 r.dst) (s6 r.sa) (s6 r.sb) r.imm)
  | 0xD1 => some (.tfree h (s6 r.dst))
  | 0xD2 => some (.tstat h (tsw r.sub) (s6 r.dst) (s6 r.sa))
  | 0xD3 => if x r then some (.twaitCh h (s6 r.sa) (s6 r.sb)) else some (.twait h (s6 r.dst) (s6 r.sa))
  | 0xD4 => some (.layout h (p3 r.dst) (s6 r.sa))
  | 0xD5 =>
    match r.sub.toNat with
    | 0 => some (.copy h (cc r) (s6 r.dst) (s6 r.sa) (s6 r.sb) (s6 r.sc) (fld r.imm 0 6))
    | 1 => some (.copyOut h (cc r) (s6 r.dst) (s6 r.sa) (s6 r.sb) (s6 r.sc) (fld r.imm 0 6))
    | 2 => some (.copyQ h (cc r) (s6 r.dst) (s6 r.sa) (s6 r.sb) (s6 r.sc) (fld r.imm 0 2))
    | _ => some (.copyMc h (cc r) (s6 r.dst) (s6 r.sa) (s6 r.sb) (s6 r.sc) (fld r.imm 0 6) (fld r.imm 8 8))
  | 0xD6 => some (.feed h (q2 r.dst) (s6 r.sa) (s6 r.sb) (s6 r.sc))
  | 0xD7 => some (.rrot h (s6 r.dst) (s6 r.sa))
  | 0xD8 => some (.sdef h (q2 r.dst) (r.imm.getLsbD 0))
  | 0xD9 => if x r then some (.sflushRel h (q2 r.dst)) else some (.sflush h (q2 r.dst))
  | 0xE0 => some (.mmp h r.md (q2 r.dst) (q2 r.sa) (q2 r.sb) (fld r.imm 0 9))
  | 0xE1 => some (.mmps h r.md (q2 r.dst) (q2 r.sa) (q2 r.sb) (fld r.imm 0 9))
  | 0xE2 => some (.accz h (q2 r.dst))
  | 0xE3 =>
    some (.acco h ⟨x r, r.attr.getLsbD 0, r.attr.getLsbD 1, r.attr.getLsbD 2⟩ r.md (s6 r.dst) (q2 r.sa) (s6 r.sb) (fld r.imm 0 8))
  | 0xE4 => some (.atab h (s6 r.dst) (s6 r.sa) (s6 r.sb))
  | 0xE5 =>
    match r.sub.toNat with
    | 0 => some (.mstat h (s6 r.dst))
    | 1 => some (.mstatClr h (s6 r.dst) (s6 r.sa))
    | _ => some (.mstatEn h (s6 r.dst) (s6 r.sa))
  | 0xE6 => some (.accld h r.md r.dst (q2 r.sa) (s6 r.sb))
  | 0xF0 => some (.rvinit h (fld r.dst 0 5) (fld r.imm 0 16))
  | 0xF1 => some (.rvarr h (fld r.dst 0 5) (s6 r.sa))
  | 0xF2 => some (.rvwait h (s6 r.dst) (fld r.sa 0 5))
  | 0xF3 => some (.launch h (s6 r.dst) (s6 r.sa) (s6 r.sc))
  | 0xF4 => some (.replay h (s6 r.dst) (s6 r.sa) (s6 r.sb) (s6 r.sc))
  | 0xF5 => some (.snap h (s6 r.dst) (fld r.imm 0 6))
  | 0xF6 => some (.genq h (s6 r.dst) (s6 r.sa))
  | 0xF7 => some (.genrel h (s6 r.dst) (s6 r.sa))
  | 0xF8 => some (.genrb h (s6 r.dst) (s6 r.sa))
  | _ => none

open Dec in
/-- The reading of a generic word's fields (R71, R72). -/
def ofRawGeneric (r : Raw) : Option Instr :=
  let h := hdr r
  let n := site r
  match r.op.toNat with
  | 0x40 => some (.movG h n (w r) (dst r) (srcA r))
  | 0x43 => some (.bcastG h n (w r) r.dst r.sa (srcB r))
  | 0x50 => some (.faddG h n (rnd (xa r)) r.dst (srcA r) (srcB r))
  | 0x51 => some (.fsubG h n (rnd (xa r)) r.dst (srcA r) (srcB r))
  | 0x52 => some (.fmulG h n (rnd (xa r)) r.dst (srcA r) (srcB r))
  | 0x53 => some (.ffmaG h n (rnd (xa r)) r.dst (srcA r) (srcB r) (srcC r))
  | 0x54 => some (.fminG h n r.dst (srcA r) (srcB r))
  | 0x55 => some (.fmaxG h n r.dst (srcA r) (srcB r))
  | 0x56 => some (.fsgnG h n (sgn r.sub) r.dst (srcA r) (srcB r))
  | 0x57 => some (.frcpG h n r.dst (srcA r))
  | 0x58 => some (.frsqG h n r.dst (srcA r))
  | 0x59 => some (.fsqrtG h n (rnd (xa r)) r.dst (srcA r))
  | 0x5A => some (.fexp2G h n r.dst (srcA r))
  | 0x5B => some (.flog2G h n r.dst (srcA r))
  | 0x5C => some (.fsinpiG h n r.dst (srcA r))
  | 0x5D => some (.fcospiG h n r.dst (srcA r))
  | 0x5E => some (.frndG h n (rndInt r.sub) r.dst (srcA r))
  | 0x5F => some (.fclassG h n r.dst (srcA r))
  | 0x66 => some (.dot4G h n r.dst (srcA r) (srcB r) (srcC r))
  | 0x70 => some (.cvtG h n (rnd (xa r)) r.dst (srcA r) (srcC r))
  | 0x90 => some (.ldG h n (sz r.md) r.dst (addr r) (s6 r.sc) (mattr r))
  | 0x91 => some (.ldsG h n (sz r.md) (s6 r.dst) (s6 r.sa) r.imm (s6 r.sc) (mattr r))
  | 0x92 => some (.ldxG h n (fld r.sub 0 2) (vf r.md) r.dst (addr r) (s6 r.sc) (mattr r))
  | 0x93 => some (.ldtG h n (sz r.md) r.dst (fld r.imm 0 3) (addr r) (s6 r.sc) (mattr r))
  | 0xA0 => some (.stG h n (sz r.md) (s6 r.dst) (addr r) r.sc (mattr r))
  | 0xA3 => some (.stxG h n (fld r.sub 0 2) (vf r.md) (s6 r.dst) (addr r) r.sc (mattr r))
  | 0xB0 => some (.atomG h n (atomOp r.sub) (r.md.getLsbD 1) (w r) r.dst (addr r) r.sc (wo r) (wi r) (mattr r))
  | 0xB1 => some (.fatomG h n (fatomOp r.sub) r.dst (addr r) r.sc (wo r) (wi r) (mattr r))
  | 0xB2 => some (.atomsG h n (atomOp r.sub) (r.md.getLsbD 1) (w r) (s6 r.dst) (s6 r.sa) (s6 r.sc) (wo r) (wi r) (mattr r))
  | 0xB3 => some (.waitaG h n (x r) (w r) r.dst (addr r) (s6 r.sc) r.imm (mattr r))
  | 0xE0 => some (.mmpG h n (q2 r.dst) (q2 r.sa) (q2 r.sb) (fld r.imm 0 9))
  | 0xE1 => some (.mmpsG h n (q2 r.dst) (q2 r.sa) (q2 r.sb) (fld r.imm 0 9))
  | _ => none

def ofRaw (r : Raw) : Option Instr := if r.g == 1 then ofRawGeneric r else ofRawNative r

/-- R75: a pattern is an instruction when it is the word of a well-formed one; every other pattern is refused. -/
def decode (w : BitVec 128) : Option Instr :=
  match ofRaw (Raw.unpack w) with
  | some i => if wellFormed i && toRaw i == Raw.unpack w then some i else none
  | none => none

/-- Little-endian bytes to a word (R7). -/
def leWord (bs : List Byte) : Nat :=
  match bs with
  | [] => 0
  | b :: t => b.toNat + 256 * leWord t

/-- The bytes of a number, lowest first. -/
def leBytes : Nat → Nat → List Byte
  | 0, _ => []
  | k + 1, n => BitVec.ofNat 8 n :: leBytes k (n / 256)

/-- Decoding of the 16 bytes stored at a code address (R60). -/
def decodeBytes (bs : List Byte) : Option Instr := decode (BitVec.ofNat 128 (leWord bs))

/-- The instruction read from a word numbered as the opcode table numbers it; bits above `nbits` are zero. -/
def decodeTableWord (nbits w : Nat) : Option Instr := decodeBytes (leBytes 16 (w % 2 ^ nbits))

end Sys2Proof
end

