-- ==== Sys2Proof/Config.lean ====
section
/-! DEFINITION. Values the spec leaves open. None has a body, so no proof can rest on one (log 3). -/

namespace Sys2Proof.Config

/-- R412: cycles that pass in step number `n`; the spec states no latency. -/
opaque elapsed : Nat → Nat

/-- R259, R171: whether a read of a register with an outstanding result yields the returning value
(arguments: step number, register key, lane). -/
opaque seesNew : Nat → Nat → Nat → Bool

/-- R26, R343, R375: the index of a line's set, taken modulo the number of sets of an L1, an L2 bank or a memory-side cache; the spec
gives no index function. -/
opaque l1Set : Nat → Nat
opaque l2Set : Nat → Nat
opaque msSet : Nat → Nat

/-- R401: the published hash of the boot ROM, written into MEAS0 at step 1. -/
opaque romHash : BitVec 256

/-- R402: the LMS signature made with leaf `q` over a report. -/
opaque lmsSign : Nat → List (BitVec 8) → BitVec 256

/-- R402: the part serial that a report signs. -/
opaque serial : BitVec 64

/-- R359: the outgoing port that the hash of a request's address bits selects. -/
opaque routeHash : Nat → Nat

/-- R369, R370: the granary port that the image of a page of a partition goes through, taken modulo 2. -/
opaque granaryPort : Nat → Nat → Nat

/-- R127, R355, R357: whether the inbound windows of another part refuse this access (its home, physical address, and step number). -/
opaque windowRefuses : Nat → Nat → Nat → Bool

/-- R222, R404 and other places that state an effect and no value for it: a fresh value for each count. -/
opaque freeValue : Nat → BitVec 64

end Sys2Proof.Config
end

