-- ==== Sys2Proof/Machine/State.lean ====
section
/-! DEFINITION. The state of one Nargus N1152 as plain data, and its state right after reset. Every field
names the rule that gives it; INVENTORY.md lists them. Arrays are sparse tables (`Tab`). -/

namespace Sys2Proof.Machine

/-- Why the model stops. Every trap, fault and error of the part is a NEXT state; the one stop is the part's own. -/
inductive Fault where
  /-- A boot step failed and the part has stopped (R401); raised by `step` on a stopped part. Safe: the part does nothing further. -/
  | partStopped
  deriving DecidableEq, Repr

/-- Why the model declines an instruction. -/
inductive Refusal where
  /-- The arm of a row that has no meaning yet; raised by `exec`. Safe: no claim is made about it. -/
  | notModelled (mnemonic : String)
  deriving DecidableEq, Repr

/-! ### A group (R9, R11, R248) -/


/-- A cached leaf translation (R350). `size` is the page size in bytes. -/
structure TlbEntry where
  part : Nat
  ctx : Nat
  va : Nat
  size : Nat
  leaf : W64
  /-- physical address of the leaf entry -/
  at_ : Nat
  deriving DecidableEq, Repr

/-- One translation register (R18), with a `tbset` translation in flight or not (R128), and the leaf that filled FRAME and LIMIT. -/
structure Tb where
  base : W64
  frame : W64
  limit : W64
  busy : Bool
  leaf : Option TlbEntry
  deriving DecidableEq, Repr

/-- A reconvergence entry (R253). -/
structure Reconv where
  save : W64
  take : W64
  target : BitVec 53
  ja : BitVec 53
  jv : Bool
  phase : Bool
  fmt : BitVec 13
  arr : W64
  deriving DecidableEq, Repr

/-- A register that a result is bound for. -/
inductive RegRef where
  | v (r lane : Nat)
  | s (r : Nat)
  | p (r lane : Nat)
  deriving DecidableEq, Repr

/-- A value bound for a register. `late` holds the old value once a later word has overtaken it (R259). -/
structure PWrite where
  dst : RegRef
  val : W64
  late : Option W64
  deriving DecidableEq, Repr

/-- An outstanding long-latency word (R258, R259). `ready` once its results may return; `stamp` is the
latest home stamp among its values (R279). -/
structure Outst where
  id : Nat
  pc : W64
  writes : List PWrite
  ready : Bool
  stamp : Option (BitVec 24)
  deriving DecidableEq, Repr

/-- What a parked or waiting group waits for (R248). -/
inductive Why where
  | switch
  | remoteLoad
  | outsFull
  | tile (t : Nat) (full : Bool)
  /-- the same for these tiles on both cores of the team's pair -/
  | pairTile (ts : List (Nat × Bool))
  | twait (t : Nat)
  | chunk (t : Nat) (n : Nat)
  | ringTiles (t : Nat) (mask : Nat)
  | matrixQueue
  | copiesFull
  /-- a `feed` to a stream with no free byte -/
  | streamSpace (q : Nat)
  | launchQueue
  | launchAccept (id : Nat)
  | deferred
  | logFull
  /-- `wfence`, `tlbsync`, `iflush` or `launch` in WPresent (R248) -/
  | present (w : W64)
  /-- another word whose witness is not satisfied yet (R81) -/
  | witness (w : W64)
  | pinned (core line : Nat)
  | heldClose
  /-- a `sitex` whose update finds no reserve space (R367): it has not issued (R141) -/
  | siteRoom (page : Nat)
  | seqLimit (epoch : BitVec 24)
  | snapClose (epoch : BitVec 24)
  | siteFill (desc site : Nat)
  | siteOwed
  | rendezvous (r : Nat)
  | dirtyRing
  | removal (ctx : Nat) (va : Option Nat)
  /-- a write of this writer waits for reserve space for the page (R367) -/
  | reserve (page who : Nat)
  | waita
  | brkStop
  deriving DecidableEq, Repr

inductive GStatus where
  | pending
  | active
  | parked (why : Why)
  | waiting (why : Why)
  | sleeping (wake : Nat)
  | ended
  deriving DecidableEq, Repr

/-- A `waita` that sleeps (R197): where it monitors, and what wakes or ends it. -/
structure WaitaRec where
  pc : W64
  /-- physical line or scratchpad block it armed -/
  scratch : Bool
  core : Nat
  block : Nat
  addr : Nat
  w64 : Bool
  ne : Bool
  cmp : W64
  dst : Nat
  lanes : W64
  deadline : Option Nat
  armed : Bool
  /-- its word and when it issued, for a wait that goes on in the operand log -/
  word : Instr
  issued : Nat
  /-- its virtual address, the class of the word, and the translation that it reads by, none once that is removed (R20) -/
  va : Nat
  cc : BitVec 2
  leaf : Option TlbEntry
  deriving DecidableEq, Repr

structure Group where
  /-- team id and index within the team (`%grp`) -/
  team : Nat
  grp : Nat
  pc : W64
  /-- v registers: key 64 r + lane -/
  v : Tab W32
  s : Tab W64
  /-- p registers as 64-lane masks -/
  p : Tab W64
  xm : W64
  xs : W64
  retired : W64
  fmt : W32
  lc : W32
  sig : W32
  tb : Tab Tb
  calls : List W64
  callSpill : Nat
  recs : List Reconv
  recSpill : Nat
  fence : W64
  /-- the latest point witness of the group's own core that a `wfence` has presented: stores that its later copies read at home (R192) -/
  ownFence : W64
  outs : List Outst
  status : GStatus
  halted : Bool
  /-- the cycle since which it has been ready (R250), and the step in which it became so -/
  readyAge : Nat
  readyTick : Nat
  /-- `%clock` until which a fixed-latency result that its next word reads is still being produced (R65, R248) -/
  busyUntil : Nat
  /-- its next word must park, as its core last found it (R248) -/
  unready : Bool
  /-- the cycle in which it joined the active set (R251); while it is halted, the cycles that it had been there -/
  since : Nat
  /-- cycles of a sleep still to run when the context halted (R132) -/
  sleepLeft : Nat
  waita : Option WaitaRec
  /-- the merge of the round that it waited for, once complete (R241) -/
  rvGot : Option W64
  /-- a retired step that set an enabled flag: its pc and the flags (R238) -/
  retireTrap : Option (W64 × BitVec 5)
  privBase : Nat
  privSize : Nat
  deriving DecidableEq, Repr

/-! ### Teams (R9, R241, R237, R238) -/

inductive Rv where
  | unset
  | opened (n a : Nat) (m : W64)
  | complete (m : W64)
  deriving DecidableEq, Repr

structure Team where
  /-- region instance id, team number (`%team`), partition and context -/
  inst : Nat
  num : BitVec 32
  part : Nat
  ctx : Nat
  core : Nat
  pair : Bool
  /-- team slot on its core, and on the follower of a pair -/
  tslot : Nat
  tslotF : Nat
  groups : Nat
  pool : W32
  rv : Tab Rv
  /-- activation table: key n for m, 256 + n for c, on the leader; 512 more on the follower (R237) -/
  act : Tab W32
  x0 : W32
  inv : W32
  mstat : BitVec 13
  ended : Bool
  deriving DecidableEq, Repr

/-! ### A core -/

inductive TState where
  | empty | filling | ready | draining | poisoned
  deriving DecidableEq, Repr

/-- A tile table entry (R208). -/
structure Tile where
  rem : Nat
  chk : BitVec 16
  fcode : BitVec 16
  owner : BitVec 2
  /-- the team that defined it, by id -/
  team : Nat
  st : TState
  chunk : BitVec 20
  size : BitVec 20
  off : BitVec 20
  cw : W64
  /-- `rrot` issued, with the outstanding result it returns (R227) -/
  ring : Option (Nat × Nat)
  deriving DecidableEq, Repr

/-- A feed whose bytes have not all entered its stream (R225). `pos` bytes have; `drop` when `sflush` discards the rest. -/
structure Feed where
  id : Nat
  team : Nat
  tile : Nat
  off : Nat
  len : Nat
  pos : Nat
  drop : Bool
  deriving DecidableEq, Repr

structure Stream where
  owner : Option Nat
  scl : Bool
  bytes : List Byte
  feeds : List Feed
  deriving DecidableEq, Repr

/-- A matrix step (R230), with the stream bytes that it has already taken: A, and B on the leader and on the follower. -/
structure MatStep where
  acc : Nat
  qa : Nat
  qb : Nat
  k : Nat
  fa : BitVec 4
  fb : BitVec 4
  sparse : Bool
  slot : Nat
  pc : W64
  /-- SCL of the three streams at issue -/
  sa : Bool
  sl : Bool
  sf : Bool
  a : List Byte
  bl : List Byte
  bf : List Byte
  deriving DecidableEq, Repr

/-- Words in a pair's array queue (R230, R235 to R239). -/
inductive MatOp where
  | step (x : MatStep)
  | accz (acc : Nat)
  | acco (fl : AccoFlags) (f : BitVec 3) (t acc bias : Nat) (code : BitVec 8) (sat : Bool)
  | atab (m : Tab W32) (x0 inv : W32)
  | mstat (clr : Option (BitVec 5)) (en : Option (BitVec 5)) (slot core d id : Nat)
  | accld (f : BitVec 3) (v acc row slot core id : Nat) (lanes : W64) (sat : Bool)
  deriving DecidableEq, Repr

/-- A store's place in its core's sequence (R185). -/
structure StoreRec where
  epoch : BitVec 24
  seq : BitVec 19
  slot : Nat
  deriving DecidableEq, Repr

/-- A line of an L1 (R26, R178, R187, R188): which bytes it holds, which of them dirty; `tick` is the moment of its fill;
`poison` its poisoned sectors (R388); `lag`: the invalidation of a clean copy is slow to arrive (R285). -/
structure L1Line where
  line : Nat
  part : Nat
  ctx : Nat
  data : BitVec 1024
  valid : BitVec 128
  dirty : BitVec 128
  stamp : BitVec 24
  tick : Nat
  /-- slots of the groups that pin the line; `pinTick` is when it was first pinned -/
  pins : List Nat
  pinTick : Nat
  refusedAt : Option Nat
  /-- widened after it refused an access, and not written back since: it refuses on (R283) -/
  owed : Bool
  /-- sectors of the line that one store word wrote whole: the line's data clears their poison (R186, R388) -/
  whole : BitVec 4
  stores : List StoreRec
  cls : BitVec 2
  poison : BitVec 4
  lag : Bool
  /-- chain of the page through which it was reached (R345) -/
  chain : BitVec 6
  deriving DecidableEq, Repr

/-- A site cache entry (R325): a copy of bits [63:0], its version, and the count deltas. -/
structure SiteLine where
  part : Nat
  ctx : Nat
  desc : Nat
  site : Nat
  lo : W64
  version : W32
  xd : Nat
  fd : Nat
  deriving DecidableEq, Repr

/-- A store that has its number and has not entered its L1 yet (R270): its group, its places through their leaves, and the
sectors that it writes wholly. -/
structure Entering where
  slot : Nat
  team : Nat
  scp : BitVec 2
  cc : BitVec 2
  seq : BitVec 19
  epoch : BitVec 24
  places : List (Nat × TlbEntry × List Byte)
  whole : List Nat
  deriving DecidableEq, Repr

/-- An operand log entry (R263): the word, and the group as it stood at issue; `done` once it has replayed and only its
results are still to return (R262). -/
structure LogEntry where
  slot : Nat
  id : Nat
  word : Instr
  pc : W64
  g : Group
  done : Bool := false
  /-- bytes of this part that the word read at issue, of a word that goes on elsewhere (R183) -/
  seen : List (Nat × Byte) := []
  deriving DecidableEq, Repr

/-- A core marked to be emptied and rewritten (R313, R314): for which region and which of its teams, and since when its word is
being rewritten. -/
structure Mark where
  inst : Nat
  team : Nat
  start : Option Nat
  deriving DecidableEq, Repr

structure Core where
  pool : W32
  /-- team ids by team slot 0-3 -/
  teams : Tab Nat
  groups : Tab Group
  /-- scratchpad bytes: key 2^20 (team slot) + offset -/
  sp : Tab Byte
  tiles : Tab (Option Tile)
  streams : Tab Stream
  /-- accumulator half: key 2^14 bank + 128 row + column -/
  acc : Tab (BitVec 48)
  /-- bank exponents, kept on the leader (R51): key bank, value E + 512 -/
  accE : Tab Nat
  /-- with the team that issued each word -/
  queue : List (Nat × MatOp)
  l1 : List L1Line
  seq : BitVec 19
  taken : Nat
  epoch : BitVec 24
  /-- satisfied witnesses of the open epoch, newest first (R178) -/
  satisfied : List (W64 × Nat)
  /-- answers to remote presentations: witness, refused (R191) -/
  remoteDone : List (W64 × Bool)
  sites : List SiteLine
  tlb : List TlbEntry
  /-- instruction words fetched and held (R138): partition, context, address, word -/
  ibuf : List (Nat × Nat × Nat × BitVec 128)
  log : List LogEntry
  /-- stores that wait to enter the L1, in sequence order -/
  sbuf : List Entering
  mark : Option Mark
  /-- the slot that last won a tie of ready ages (R250) -/
  lastWon : Nat
  /-- the cycle in which the core last issued, and the slots and ready ages of the words issued in it -/
  wonAt : Nat
  won : List (Nat × Nat)
  /-- `%clock` when its site counts were last added at the homes (R324) -/
  countsAt : Nat
  deriving DecidableEq, Repr

/-- What a halted team held on a core, spilled to shadow ways or to the DRAM shadow (R338); `core` is none once a returned
slice gave the team back to its queue (R347). -/
structure Shadow where
  core : Option Nat
  team : Nat
  pool : W32
  groups : Tab Group
  sp : Tab Byte
  tiles : Tab (Option Tile)
  streams : Tab Stream
  acc : Tab (BitVec 48)
  accE : Tab Nat
  log : List LogEntry
  /-- when it was spilled, and whether it lies in shadow ways or has moved on to DRAM -/
  tick : Nat
  inWays : Bool
  deriving DecidableEq, Repr

/-! ### Regions, partitions and contexts -/

inductive IState where
  | held | queued | running | children | complete | ended
  deriving DecidableEq, Repr

/-- A region instance (R295 to R308). -/
structure Inst where
  part : Nat
  ctx : Nat
  rcb : Nat
  num : W64
  state : IState
  status : Nat
  cause : Nat
  entry : W64
  param : W64
  grid : Nat
  groups : Nat
  pair : Bool
  pers : Bool
  borrow : Bool
  endch : Bool
  restart : Bool
  priv : Bool
  ovb : Bool
  pool : W32
  prio : Nat
  chain : BitVec 6
  budget : W64
  spent : Nat
  fdom : Nat
  inw : W64
  outw : W64
  deps : List (Nat × W64)
  parent : Option Nat
  depth : Nat
  /-- the constant copy (R127), key offset -/
  const : Tab Byte
  teamsDone : Nat
  placed : Nat
  children : Nat
  /-- host launch entry it came from (R301) -/
  host : Option Nat
  tag : W64
  order : Nat
  recorded : Bool
  /-- halted whole: by a returned slice (R347), or until a rollback (R392) -/
  frozen : Bool
  deriving DecidableEq, Repr

/-- A team task in a gang queue (R309 to R311). -/
structure Task where
  inst : Nat
  team : Nat
  waited : Nat
  /-- a team that a returned slice gave back, with its state kept (R347) -/
  saved : Option Nat
  /-- number of the relaunch that put it at the head of its queue (R391); 0 for the others -/
  front : Nat
  deriving DecidableEq, Repr

/-- A device-side launch (R242, R303). `ans` is the instance number once accepted; a launch made by the loader (R100) names
no core. -/
structure DevLaunch where
  id : Nat
  core : Nat
  slot : Nat
  outId : Nat
  rcb : Nat
  patch : Option W64
  w : W64
  parent : Option Nat
  ctx : Nat
  ans : Option W64
  deriving DecidableEq, Repr

structure Context where
  valid : Bool
  banks : W32
  pinlim : BitVec 6
  slice : BitVec 32
  root : W64
  priv : W64
  psz : W64
  /-- pin windows (R200): key handle; base, length, in the memory-side cache -/
  pins : Tab (Nat × Nat × Bool)
  /-- a change of BANKS waiting for the halt (R342) -/
  newBanks : Option W32
  deriving DecidableEq, Repr

/-- A module descriptor (R316). -/
structure Desc where
  cb : BitVec 53
  cl : W32
  st : W64
  v : Bool
  osc : BitVec 4
  ns : BitVec 17
  mepoch : W32
  sigcheck : Bool
  /-- the merged witness of the loader's writes for the module (R100) -/
  wit : W64
  /-- the memory that the loader gave the module: virtual and physical address and bytes of each section (R99, R100) -/
  mem : List (Nat × Nat × Nat)
  deriving DecidableEq, Repr

/-- A page image: bytes by offset (others zero) and its poisoned sectors by number within the page (R369). -/
structure Image where
  bytes : Tab Byte
  poison : List Nat
  deriving DecidableEq, Repr

/-- A generation (R362 to R373). Pages are 64 KiB page numbers; images are keyed by page. -/
structure Gen where
  num : Nat
  /-- 0 open, 1 draining, 2 complete, 3 released, 4 discarded (R245) -/
  st : Nat
  epoch : BitVec 24
  written : List Nat
  /-- pages preserved in the reserve: page and stack (R366) -/
  reserve : List Nat
  drained : List Nat
  /-- page images held for this generation -/
  images : Tab Image
  deriving DecidableEq, Repr

structure FaultDom where
  v : Bool
  rtry : BitVec 4
  dbg : Bool
  pol : BitVec 2
  traps : BitVec 32
  gkill : BitVec 16
  runs : BitVec 8
  hasRec : Bool
  rpc : W64
  rxm : W64
  rlanes : W64
  rdetail : W64
  rwho : W32
  rcause : BitVec 16
  /-- `%clock` of the event that FDREC records (R408) -/
  recAt : Nat
  deriving DecidableEq, Repr

/-- An inbound window (R357); `used` counts this interval's atomics by channel. -/
structure InWin where
  base : Nat
  len : Nat
  ctl : W64
  used : Tab Nat
  deriving DecidableEq, Repr

/-- A write held at a home while an epoch closes (R278), and the outstanding words (core, slot, id) that wait for it;
`src` is the core it came from. -/
structure Held where
  src : Nat
  slice : Nat
  bytes : List (Nat × Byte)
  /-- sectors whose poison the write clears (R186) -/
  whole : List Nat
  /-- the write-back of a pinned line that had refused an access: nobody else reads the line before it is performed (R283) -/
  refused : Bool
  epoch : BitVec 24
  waiters : List (Nat × Nat × Nat)
  /-- sectors that the write carries poisoned (R388) -/
  bad : List Nat
  /-- an atomic, or those of its lanes that this home performs, held in its place, with its number -/
  word : Option (LogEntry × BitVec 19)
  /-- the leaf through which the write reached the home, for GC (R366) -/
  at_ : Option Nat
  deriving DecidableEq, Repr

/-- A write that waits for reserve space at its home (R367), from outside the cores or of the part itself; `or` for an atomic OR. -/
structure Stalled where
  bytes : List (Nat × Byte)
  whole : List Nat
  or : Bool
  deriving DecidableEq, Repr

/-- The number that stands for no fault domain (R397). -/
def noDomain : Nat := 0xFFFF

/-- A write of the part itself through a leaf, which waits for the dirty ring, for reserve space or behind another (R351, R353). -/
structure OwnStore where
  leaf : TlbEntry
  pa : Nat
  bytes : List Byte
  /-- fault domain of the region that it is for, where there is one (R355) -/
  dom : Nat
  deriving DecidableEq, Repr

/-- A removal that a `tlbsync` asked for (R202): for which group, wherever it stands now, and of what; `done` once it is complete. -/
structure Sync where
  team : Nat
  grp : Nat
  ctx : Nat
  va : Option Nat
  /-- the epoch that was open as the removal began -/
  epoch : BitVec 24
  done : Bool
  deriving DecidableEq, Repr

/-- An event that the error log reports at the end of its cycle (R396, R398). -/
structure Event where
  part : Nat
  chan : Nat
  slice : Nat
  unit : Nat
  code : Nat
  dom : Nat
  addr : W64
  detail : W64
  deriving DecidableEq, Repr

/-- The partition's epoch controller (R275, R277). -/
structure Epochs where
  closed : BitVec 24
  /-- the epoch that is closing -/
  closing : Option (BitVec 24)
  snap : Bool
  openedAt : Nat
  lastStart : Option Nat
  /-- epochs whose close is demanded -/
  demands : List (BitVec 24)
  /-- snaps waiting: core, slot, outstanding result, s register of the generation -/
  snaps : List (Nat × Nat × Nat × Nat × Nat)
  coresDone : List Nat
  enginesDone : List Nat
  /-- slices whose home holds later writes -/
  holding : List Nat
  /-- slices that have not yet received DONE -/
  undone : List Nat
  /-- slices that have received it and still perform, in their order, what they held (R278) -/
  landing : List Nat
  deriving DecidableEq, Repr

structure Part where
  v : Bool
  shw : BitVec 4
  eng : Nat
  size : Nat
  nctx : Nat
  ctxs : Tab Context
  /-- key 32 context + m -/
  descs : Tab Desc
  ep : Epochs
  held : List Held
  forced : W32
  drbase : Nat
  drsize : Nat
  drtail : W32
  drhead : W32
  /-- appends held by a full ring: page address, context, size code, leaf address -/
  drheld : List (Nat × Nat × Nat × Nat)
  tlbBusy : Bool
  /-- removals asked for through TLBINV and not complete (R354): context, address or all, and the epoch open when it was asked -/
  removals : List (Nat × Option Nat × BitVec 24)
  /-- removals of `tlbsync` words that wait (R202, R360) -/
  syncs : List Sync
  /-- translations that writes of page entries have ended and no removal has reached yet (R20, R202) -/
  lost : List TlbEntry
  /-- the partition has exited to the reeve for a full dirty ring (R353) -/
  ringExit : Bool
  stalled : List Stalled
  /-- writes of the part itself that wait, in their order -/
  ownWaits : List OwnStore
  /-- policies that gang kills of this cycle ask for: domain, gang's core and cause (R392, R408) -/
  policies : List (Nat × Nat × Nat)
  /-- writes that wait for reserve space, by page and writer, each counted once in STALLS (R367) -/
  waitsOn : List (Nat × Nat)
  /-- pages copied into the reserve whose first write has yet to be performed (R366) -/
  copied : List Nat
  /-- inbound atomics that wait at their unit for the next interval (R357, R376), with their windows -/
  inAtoms : List (Nat × Inbound)
  running : Option Nat
  sliceStart : Nat
  halting : Bool
  lqbase : W64
  lqsize : Nat
  lqtail : W32
  lqacc : W32
  cqbase : W64
  cqtail : W32
  cqhead : W32
  lqdef : BitVec 6
  dev : List DevLaunch
  /-- gang queues by gang number -/
  queues : Tab (List Task)
  /-- persistent regions that wait for a partition-wide placement (R314) -/
  persQ : List Task
  /-- the gang after the one that took the last task -/
  nextGang : Nat
  /-- cores reserved for the head persistent instance, by instance -/
  reserved : List (Nat × Nat)
  /-- relaunches of a gang in one instance: instance, gang, count (R391) -/
  relaunch : List (Nat × Nat × Nat)
  accepted : Nat
  grbase : Nat
  grlen : Nat
  genopen : Nat
  stalls : Nat
  grwait : Nat
  /-- a wait for granary space is under way (R368) -/
  grWaits : Bool
  gens : List Gen
  fds : Tab FaultDom
  elbase : Nat
  elsize : Nat
  eltail : W32
  elhead : W32
  eladdr : W64
  eldrop : W32
  elcnt : Tab W32
  wins : Tab InWin
  /-- fault domains that wait for a roll back (R392) -/
  rollback : List Nat
  /-- the core whose copy an engine took last (R334) -/
  copyCore : Nat
  /-- `%clock` of the last inbound interval (R357) and, by gang, of the last balancing (R311) -/
  abudAt : Nat
  balancedAt : Tab Nat
  deriving DecidableEq, Repr

/-! ### Memory side, engines and the rest of the part -/

/-- A line held in L2 or in a memory-side cache (R343 to R345, R375). -/
structure CTag where
  line : Nat
  part : Nat
  ctx : Nat
  chain : BitVec 6
  cls : BitVec 2
  /-- home bank in its slice (R341) -/
  bank : Nat
  tick : Nat
  /-- the pin window that holds it (R344), by handle; 0 for none -/
  pin : Nat
  deriving DecidableEq, Repr

/-- A parsed layout record (R216). -/
structure Layout where
  gbase : W64
  sbase : W64
  stride1 : Nat
  sstride : Nat
  dim0 : Nat
  dim1 : Nat
  box0 : Nat
  box1 : Nat
  tpitch : Nat
  fmtc : BitVec 8
  flags : BitVec 8
  deriving DecidableEq, Repr

/-- What a copy fills; `prefetch` is the work of a `pft` into L2 or the memory-side cache (R199). -/
inductive CopyDst where
  | tile | out | stream | multi
  | prefetch (ms : Bool)
  deriving DecidableEq, Repr

inductive CopyStage where
  | queued
  | moving
  | faulted (code : Nat)
  | pageFault
  | moved
  deriving DecidableEq, Repr

/-- A copy in flight (R219 to R222). -/
structure Copy where
  core : Nat
  slot : Nat
  outId : Nat
  part : Nat
  ctx : Nat
  kind : CopyDst
  lay : Layout
  x0 : Nat
  y0 : Nat
  w : W64
  seq : Option (BitVec 19)
  epoch : BitVec 24
  /-- target tiles: core, entry and the team that holds it; or the stream -/
  targets : List (Nat × Nat × Nat)
  q : Nat
  cc : BitVec 2
  stage : CopyStage
  engine : Option Nat
  /-- elements and scales moved so far, in image order, and the bits of an image byte not yet whole -/
  pos : Nat
  buf : Nat
  team : Nat
  /-- a stream copy past a fault: its code, and whether every later byte is zero (R222) -/
  code : Nat
  zero : Bool
  /-- what the bytes before the fault gave of the element that met it -/
  begun : Nat
  /-- `sflush` discards what is still to arrive (R226) -/
  drop : Bool
  /-- its next write met a full dirty ring (R353, R360) -/
  ring : Bool
  /-- what its group's fence witness covers of the core's own stores, as it issued (R192) -/
  fence : W64
  deriving DecidableEq, Repr

/-- A drain pulled from `core` up to `seq` (R273). -/
structure Drain where
  core : Nat
  seq : BitVec 19
  epoch : BitVec 24
  /-- who presents: core, or an engine copy -/
  byCore : Nat
  w : W64
  written : Bool
  deriving DecidableEq, Repr

inductive SiteUpd where
  | claim (attr : BitVec 16)
  | resolve (attr : BitVec 16)
  | widen
  | pin
  deriving DecidableEq, Repr

/-- A site update on its way to the home (R321). `applied` once its outcome is known. -/
structure SiteMsg where
  part : Nat
  ctx : Nat
  desc : Nat
  site : Nat
  /-- the group that it was sent for, wherever it stands now -/
  team : Nat
  grp : Nat
  version : W32
  upd : SiteUpd
  /-- the claim was applied and its resolve is owed -/
  owed : Bool
  deriving DecidableEq, Repr

/-- A request to another part or the host (R355, R356), or a presentation (R359, `w`). An access is performed
when its result returns: `entry` holds the word and its operands, `seq` the number and epoch it took at issue. With neither it is a
request of the engine that works on copy `outId`. -/
structure Remote where
  core : Nat
  slot : Nat
  outId : Nat
  home : Nat
  /-- the fabric ports that its requests left by, one a line -/
  ports : List Nat
  /-- homes and lines that it reads or writes, or may read once it has come there (R181) -/
  lines : List (Nat × Nat)
  /-- the bytes of this part, and of the host, that it reads or writes: address and length (R269, R410) -/
  spans : List (Nat × Nat)
  w : Option W64
  entry : Option LogEntry
  seq : Option (BitVec 19 × BitVec 24)
  /-- the step in which it was sent -/
  sent : Nat
  deriving DecidableEq, Repr

/-- An `mzero` or `mcopy` whose pages are in flight (R203, R381). -/
structure RowOp where
  core : Nat
  slot : Nat
  outId : Nat
  part : Nat
  /-- pages still to write: destination and source page -/
  pages : List (Nat × Option Nat)
  /-- leaves through which the destinations were reached -/
  leaves : List Nat
  poisoned : Bool
  seq : BitVec 19
  epoch : BitVec 24
  d : Nat
  deriving DecidableEq, Repr

structure Refresh where
  forced : BitVec 32
  high : BitVec 8
  debt : Int
  deriving DecidableEq, Repr

structure Scrub where
  thr : BitVec 4
  base : BitVec 16
  passes : Nat
  pos : Nat
  cecnt : Nat
  deriving DecidableEq, Repr

structure Lend where
  l : Bool
  borrower : BitVec 4
  /-- the lend is in effect -/
  inEffect : Bool
  deriving DecidableEq, Repr

structure Port where
  down : Bool
  /-- flits received in a row that failed their CRC -/
  retries : Nat
  /-- failed retries in a row of a flit that the part sends (R359) -/
  sent : Nat
  deriving DecidableEq, Repr

/-- The agenda: what happens next (log 1). `farWrite`, `imageWrite` and `symbols` are inputs from outside the cores. -/
inductive Turn where
  | issue (core slot : Nat)
  /-- the same, and the word's loads perform, or its store enters the L1, later than it issues (R270) -/
  | issueLate (core slot : Nat)
  /-- a fixed-latency result that the group's next word reads is still being produced for `n` cycles (R65) -/
  | busy (core slot n : Nat)
  /-- invalidations of the line are slow to reach the core (R285) -/
  | lag (core line : Nat)
  | event (i : Instr)
  /-- the host or another part writes a byte of its own memory -/
  | farWrite (key : Nat) (b : Byte)
  /-- a store of a partition's system image, from its control core (R350, R354, R399, R400) -/
  | imageWrite (control pa : Nat) (bs : List Byte)
  /-- `n` symbols of a DRAM sector go bad (R386) -/
  | symbols (sector n : Nat)
  /-- a fabric port (0 to 15), the host port (16) or a granary port (17, 18) sends a flit again, and it arrives or fails (R359, R396) -/
  | portRetry (port : Nat) (ok : Bool)
  /-- a single error is corrected in on-die storage of a slice: its core or bank (R387, R396) -/
  | sramCorrected (slice unit : Nat)
  /-- a dirty or clean line leaves an L1 by replacement (R187) -/
  | evict (core line : Nat)
  /-- pages of a word served (R261, R353) and the like: time only -/
  | tick (cycles : Nat)
  deriving DecidableEq, Repr

/-- Everything but the package's firmware, power and reset state. -/
structure Mach where
  clock : Nat
  tick : Nat
  nextId : Nat
  cur : Nat × Nat
  /-- the word that issues performs late (R270) -/
  late : Bool
  cores : Tab Core
  teams : Tab Team
  insts : Tab Inst
  parts : Tab Part
  /-- by 2 (team id), plus 1 for the follower's half of a pair -/
  shadow : Tab (Option Shadow)
  dram : Tab Byte
  /-- bytes that an L2 bank or a memory-side cache holds dirty over DRAM -/
  cached : List (Nat × Byte)
  poison : List Nat
  symErr : Tab Nat
  /-- events of this cycle that are not in the error logs yet (R398) -/
  events : List Event
  l2 : List CTag
  ms : List CTag
  far : Tab Byte
  copies : Tab (Option Copy)
  drains : Tab (Option Drain)
  siteMsgs : Tab (Option SiteMsg)
  remotes : Tab (Option Remote)
  rowOps : Tab (Option RowOp)
  reserveUsed : Tab Nat
  refresh : Tab Refresh
  scrub : Tab Scrub
  lends : Tab Lend
  domid : W64
  dommem : W64
  routes : Tab (BitVec 16)
  ports : Tab Port
  host : HostMode
  granary : Tab Nat
  /-- stacks and I/O dies that a thermal trip has stopped (R405) -/
  stackTrip : Tab Bool
  ioTrip : Tab Bool
  /-- the partition whose system image a control core runs, for cores 3 to 15 (R399) -/
  images : Tab (Option Nat)
  deriving DecidableEq, Repr

/-- Boot, attestation, power and heat (R399 to R407). -/
structure Firm where
  stopped : Bool
  bootStep : BitVec 8
  bootCode : BitVec 8
  meas : Tab (BitVec 256)
  leaf : Nat
  report : Option (Nat × BitVec 256 × BitVec 256)
  pkgcap : Nat
  /-- grants in milliwatts, by consumer: dies 0-5, stacks 6-17, I/O dies 18-19 -/
  grants : Tab Nat
  /-- issue duty of each compute die, and its thermal cap -/
  duty : Tab Nat
  dutyCap : Tab Nat
  /-- megabytes each stack may still move in this step, its thermal halving, and its doubled refresh -/
  budget : Tab Nat
  halved : Tab Bool
  hot : Tab Bool
  deriving DecidableEq, Repr

structure State where
  fw : Firm
  m : Mach
  agenda : List Turn
  deriving DecidableEq, Repr

/-! ### Values at reset and the defaults of the tables -/

def Tb.reset : Tb := { base := 0, frame := 0, limit := 0, busy := false, leaf := none }

/-- A group as its team's placement starts it, before s1, s2 and pc are set (R11, R249). -/
def Group.start : Group :=
  { team := 0, grp := 0, pc := 0, v := [], s := [], p := [], xm := BitVec.allOnes 64, xs := BitVec.allOnes 64,
    retired := 0, fmt := 0, lc := 0, sig := 0xFFFFFFFF#32, tb := [], calls := [], callSpill := 0, recs := [],
    recSpill := 0, fence := 0, ownFence := 0, outs := [], status := .pending, halted := false, readyAge := 0, readyTick := 0,
    busyUntil := 0, unready := false, since := 0,
    sleepLeft := 0, waita := none, rvGot := none, retireTrap := none, privBase := 0, privSize := 0 }

/-- An empty group slot. -/
def Group.none : Group := { Group.start with xm := 0, status := .ended }

def Team.none : Team :=
  { inst := 0, num := 0, part := 0, ctx := 0, core := 0, pair := false, tslot := 0, tslotF := 0, groups := 0, pool := 0,
    rv := [], act := [], x0 := 0, inv := 0, mstat := 0, ended := true }

def Stream.free : Stream :=
  { owner := Option.none, scl := false, bytes := [], feeds := [] }

def Core.reset : Core :=
  { pool := 0, teams := [], groups := [], sp := [], tiles := [], streams := [], acc := [], accE := [], queue := [],
    l1 := [], seq := 0, taken := 0, epoch := 0, satisfied := [], remoteDone := [], sites := [], tlb := [], ibuf := [],
    log := [], sbuf := [], mark := Option.none, lastWon := 31, wonAt := 0, won := [], countsAt := 0 }

def Inst.none : Inst :=
  { part := 0, ctx := 0, rcb := 0, num := 0, state := .ended, status := 0, cause := 0, entry := 0, param := 0, grid := 0,
    groups := 0, pair := false, pers := false, borrow := false, endch := false, restart := false, priv := false,
    ovb := false, pool := 0, prio := 0, chain := 0, budget := 0, spent := 0, fdom := 0, inw := 0, outw := 0, deps := [],
    parent := Option.none, depth := 0, const := [], teamsDone := 0, placed := 0, children := 0, host := Option.none,
    tag := 0, order := 0, recorded := false, frozen := false }

/-- R335. -/
def Context.reset : Context :=
  { valid := false, banks := 0, pinlim := 0, slice := 64, root := 0, priv := 0, psz := 0, pins := [], newBanks := none }

/-- R316. -/
def Desc.reset : Desc :=
  { cb := 0, cl := 0, st := 0, v := false, osc := 0, ns := 0, mepoch := 0, sigcheck := false, wit := 0, mem := [] }

/-- R389: RTRY resets to 3. -/
def FaultDom.reset : FaultDom :=
  { v := false, rtry := 3, dbg := false, pol := 0, traps := 0, gkill := 0, runs := 0, hasRec := false, rpc := 0, rxm := 0,
    rlanes := 0, rdetail := 0, rwho := 0, rcause := 0, recAt := 0 }

def InWin.reset : InWin := { base := 0, len := 0, ctl := 0, used := [] }

/-- Epoch 0 open, its predecessor closed (log 4). -/
def Epochs.reset : Epochs :=
  { closed := BitVec.allOnes 24, closing := none, snap := false, openedAt := 0, lastStart := none, demands := [], snaps := [],
    coresDone := [], enginesDone := [], holding := [], undone := [], landing := [] }

/-- Generation 1 is open (R362). -/
def Gen.first : Gen :=
  { num := 1, st := 0, epoch := 0, written := [], reserve := [], drained := [], images := [] }

def Part.reset : Part :=
  { v := false, shw := 0, eng := 0, size := 0, nctx := 0, ctxs := [], descs := [], ep := Epochs.reset, held := [],
    forced := 0, drbase := 0, drsize := 0, drtail := 0, drhead := 0, drheld := [], tlbBusy := false, removals := [], syncs := [], lost := [],
    ringExit := false, stalled := [], ownWaits := [], policies := [], waitsOn := [], copied := [], inAtoms := [], running := none,
    sliceStart := 0, halting := false, lqbase := 0, lqsize := 0, lqtail := 0, lqacc := 0, cqbase := 0, cqtail := 0,
    cqhead := 0, lqdef := 7, dev := [], queues := [], persQ := [], nextGang := 0, reserved := [], relaunch := [],
    accepted := 0, grbase := 0, grlen := 0, genopen := 1, stalls := 0, grwait := 0, grWaits := false, gens := [Gen.first], fds := [],
    elbase := 0, elsize := 0, eltail := 0, elhead := 0, eladdr := 0, eldrop := 0, elcnt := [], wins := [],
    rollback := [], copyCore := 0, abudAt := 0, balancedAt := [] }

def Refresh.reset : Refresh := { forced := 0, high := 0, debt := 0 }
/-- R378. -/
def Scrub.reset : Scrub := { thr := 8, base := 0x40, passes := 0, pos := 0, cecnt := 0 }
def Lend.reset : Lend := { l := false, borrower := 0, inEffect := false }
def Port.reset : Port := { down := false, retries := 0, sent := 0 }

def Mach.reset : Mach :=
  { clock := 0, tick := 0, nextId := 1, cur := (0, 0), late := false, cores := [], teams := [], insts := [], parts := [], shadow := [], dram := [],
    cached := [], poison := [], symErr := [], events := [], l2 := [], ms := [], far := [], copies := [], drains := [], siteMsgs := [],
    remotes := [], rowOps := [], reserveUsed := [], refresh := [], scrub := [], lends := [], domid := 0, dommem := 1,
    routes := [], ports := [], host := .untrained, granary := [], stackTrip := [], ioTrip := [], images := [] }

/-- R401 to R405: nothing measured yet, PKGCAP 2,600 W. -/
def Firm.reset : Firm :=
  { stopped := false, bootStep := 0, bootCode := 0, meas := [], leaf := 0, report := none, pkgcap := 2600, grants := [],
    duty := [], dutyCap := [], budget := [], halved := [], hot := [] }

/-- The part right after a cold reset, before boot step 1 (R403, R401). -/
def State.reset : State := { fw := Firm.reset, m := Mach.reset, agenda := [] }

end Sys2Proof.Machine
end

