-- ==== Sys2Proof/Machine/Tab.lean ====
section
/-! DEFINITION. Reading and writing the sparse tables. A write of the default removes the entry, any other
write keeps the keys rising, so equal tables are equal lists. -/

namespace Sys2Proof.Machine

/-- The value at key `n`. -/
def tget {α : Type} (d : α) : Tab α → Nat → α
  | [], _ => d
  | (k, x) :: t, n => if n = k then x else tget d t n

/-- Puts a listed value at its place. -/
def tput {α : Type} : Tab α → Nat → α → Tab α
  | [], n, x => [(n, x)]
  | (k, y) :: t, n, x =>
    if n < k then (n, x) :: (k, y) :: t else if n = k then (n, x) :: t else (k, y) :: tput t n x

/-- Removes a key. -/
def tdel {α : Type} : Tab α → Nat → Tab α
  | [], _ => []
  | (k, y) :: t, n => if n = k then tdel t n else (k, y) :: tdel t n

def tset {α : Type} [DecidableEq α] (d : α) (t : Tab α) (n : Nat) (x : α) : Tab α :=
  if x = d then tdel t n else tput t n x

/-- The canonical form: keys strictly rising, no default value listed. -/
def Tab.wf {α : Type} [DecidableEq α] (d : α) : Tab α → Bool
  | [] => true
  | [(_, x)] => x != d
  | (k, x) :: (k', x') :: t => x != d && decide (k < k') && Tab.wf d ((k', x') :: t)

end Sys2Proof.Machine
end

