-- ==== Sys2Proof/Machine/Reg.lean ====
section
/-! DEFINITION. Named access to the parts of the state, and the one place where registers are read and
written: s0 and p0 are hard-wired (R12), and a register with an outstanding result reads as R259 says. -/

namespace Sys2Proof.Machine

/-! ### Places -/

def Mach.core (m : Mach) (c : Nat) : Core := tget Core.reset m.cores c
def Mach.setCore (m : Mach) (c : Nat) (x : Core) : Mach := { m with cores := tset Core.reset m.cores c x }
def Mach.group (m : Mach) (c k : Nat) : Group := tget Group.none (m.core c).groups k
def Mach.setGroup (m : Mach) (c k : Nat) (g : Group) : Mach :=
  m.setCore c { m.core c with groups := tset Group.none (m.core c).groups k g }
def Mach.team (m : Mach) (t : Nat) : Team := tget Team.none m.teams t
def Mach.setTeam (m : Mach) (t : Nat) (x : Team) : Mach := { m with teams := tset Team.none m.teams t x }
def Mach.inst (m : Mach) (i : Nat) : Inst := tget Inst.none m.insts i
def Mach.setInst (m : Mach) (i : Nat) (x : Inst) : Mach := { m with insts := tset Inst.none m.insts i x }
def Mach.part (m : Mach) (p : Nat) : Part := tget Part.reset m.parts p
def Mach.setPart (m : Mach) (p : Nat) (x : Part) : Mach := { m with parts := tset Part.reset m.parts p x }
def Part.ctxAt (p : Part) (c : Nat) : Context := tget Context.reset p.ctxs c
def Part.setCtx (p : Part) (c : Nat) (x : Context) : Part := { p with ctxs := tset Context.reset p.ctxs c x }
def Part.fd (p : Part) (d : Nat) : FaultDom := tget FaultDom.reset p.fds d
def Part.setFd (p : Part) (d : Nat) (x : FaultDom) : Part := { p with fds := tset FaultDom.reset p.fds d x }
def Part.desc (p : Part) (c i : Nat) : Desc := tget Desc.reset p.descs (32 * c + i)
def Core.tile (c : Core) (t : Nat) : Option Tile := tget none c.tiles t
def Core.setTile (c : Core) (t : Nat) (x : Option Tile) : Core := { c with tiles := tset none c.tiles t x }
def Core.stream (c : Core) (q : Nat) : Stream := tget Stream.free c.streams q
def Core.setStream (c : Core) (q : Nat) (x : Stream) : Core := { c with streams := tset Stream.free c.streams q x }

/-- The group that issues, and its place. -/
def Mach.me (m : Mach) : Group := m.group m.cur.1 m.cur.2
def Mach.setMe (m : Mach) (g : Group) : Mach := m.setGroup m.cur.1 m.cur.2 g
def Mach.modMe (m : Mach) (f : Group → Group) : Mach := m.setMe (f m.me)
def Mach.modCore (m : Mach) (c : Nat) (f : Core → Core) : Mach := m.setCore c (f (m.core c))
def Mach.modPart (m : Mach) (p : Nat) (f : Part → Part) : Mach := m.setPart p (f (m.part p))
def Mach.modTeam (m : Mach) (t : Nat) (f : Team → Team) : Mach := m.setTeam t (f (m.team t))
def Mach.modInst (m : Mach) (i : Nat) (f : Inst → Inst) : Mach := m.setInst i (f (m.inst i))

/-- Rewrites every listed entry of a table. -/
def tmap {α : Type} [DecidableEq α] (d : α) (f : Nat → α → α) (t : Tab α) : Tab α :=
  t.foldr (fun kx acc => tset d acc kx.1 (f kx.1 kx.2)) []

def Mach.mapCores (m : Mach) (f : Nat → Core → Core) : Mach := { m with cores := tmap Core.reset f m.cores }
def Core.mapGroups (c : Core) (f : Nat → Group → Group) : Core := { c with groups := tmap Group.none f c.groups }

/-- R10. -/
def sliceOf (core : Nat) : Nat := core / 96
def gangOf (core : Nat) : Nat := core / 8
def dieOf (core : Nat) : Nat := core / 192
def leaderOf (core : Nat) : Nat := core - core % 2

/-- The valid partition that holds slice `j` (R332). -/
def Mach.partOf (m : Mach) (j : Nat) : Option Nat :=
  (m.parts.find? (fun kp => kp.2.v && decide (kp.1 ≤ j) && decide (j < kp.1 + kp.2.size))).map (·.1)

/-- `%partno` (R21, R358). -/
def Mach.partno (m : Mach) : BitVec 6 := fld m.domid 0 6

/-- VREGS of a pool word (R22). -/
def vregs (pool : W32) : Nat := 8 * ((fld pool 0 5).toNat + 1)
def gsl (pool : W32) : Nat := (fld pool 16 5).toNat + 1
def spk (pool : W32) : Nat := (fld pool 8 8).toNat
def accb (pool : W32) : Nat := (fld pool 21 3).toNat
/-- `%spsize` of a team (R21, R22). -/
def spSize (pool : W32) : Nat := 4096 * spk pool

/-! ### Registers -/

def RegRef.key : RegRef → Nat
  | .v r l => 64 * r + l
  | .s r => 16384 + r
  | .p r l => 16448 + 64 * r + l

/-- Results still bound for a register. -/
def Group.due (g : Group) (d : RegRef) : List PWrite :=
  g.outs.flatMap (fun o => o.writes.filter (fun w => decide (w.dst = d)))

/-- R259: which of the old, the returning and the later value a read yields is open. -/
def seen (t : Nat) (d : RegRef) (x : W64) : List PWrite → W64
  | [] => x
  | w :: ws =>
    let y := match w.late with
      | some o => if Config.seesNew t (d.key + 32768) 0 then o else x
      | none => x
    seen t d (if Config.seesNew t d.key 1 then w.val else y) ws

def Group.rdV (g : Group) (t r l : Nat) : W32 :=
  match g.due (.v r l) with
  | [] => tget 0 g.v (64 * r + l)
  | ws => (seen t (.v r l) ((tget 0 g.v (64 * r + l)).setWidth 64) ws).setWidth 32

/-- R12: s0 reads as zero. -/
def Group.rdS (g : Group) (t r : Nat) : W64 :=
  if r = 0 then 0 else seen t (.s r) (tget 0 g.s r) (g.due (.s r))

def setBit (x : W64) (l : Nat) (b : Bool) : W64 :=
  if b then x ||| (1#64 <<< l) else x &&& ~~~(1#64 <<< l)

/-- Lanes of a predicate that an outstanding word is bound for: each with the value that returns, and the old one where a later word
has overtaken it. -/
def Outst.dueP (o : Outst) (p : Nat) : List (Nat × W64 × Option W64) :=
  o.writes.filterMap (fun w => match w.dst with
    | .p r l => if r = p then some (l, w.val, w.late) else none
    | _ => none)

/-- What a read of predicate `p` makes of one outstanding word: the old, the returning or the later value, decided for the whole
predicate (R259). -/
def seenP (t p : Nat) (x : W64) (ws : List (Nat × W64 × Option W64)) : W64 :=
  if ws.isEmpty then x
  else if Config.seesNew t (RegRef.p p 0).key 1 then ws.foldl (fun y w => setBit y w.1 (w.2.1 == 1)) x
  else if Config.seesNew t ((RegRef.p p 0).key + 32768) 0 then ws.foldl (fun y w => match w.2.2 with
    | some b => setBit y w.1 (b == 1)
    | none => y) x
  else x

/-- R12: p0 reads 1 in every lane. -/
def Group.rdP (g : Group) (t p : Nat) : W64 :=
  if p = 0 then BitVec.allOnes 64 else g.outs.foldl (fun x o => seenP t p x (o.dueP p)) (tget 0 g.p p)

/-- A later word writes a register whose result is outstanding (R259). -/
def overtake (outs : List Outst) (d : RegRef) (old : W64) : List Outst :=
  outs.map (fun o => { o with writes := o.writes.map (fun w =>
    if w.dst = d && w.late == none then { w with late := some old } else w) })

def Group.putV (g : Group) (r l : Nat) (x : W32) : Group :=
  { g with v := tset 0 g.v (64 * r + l) x,
           outs := overtake g.outs (.v r l) ((tget 0 g.v (64 * r + l)).setWidth 64) }

/-- R12: a write to s0 is discarded. -/
def Group.putS (g : Group) (r : Nat) (x : W64) : Group :=
  if r = 0 then g else { g with s := tset 0 g.s r x, outs := overtake g.outs (.s r) (tget 0 g.s r) }

/-- Writes bit `l` of `x` to p[p] in the lanes of `lanes`; p0 discards (R12). -/
def Group.putP (g : Group) (p : Nat) (lanes x : W64) : Group :=
  if p = 0 then g
  else { g with p := tset 0 g.p p ((tget 0 g.p p &&& ~~~lanes) ||| (x &&& lanes)),
                outs := (List.range 64).foldl (fun o l =>
                  if bitAt lanes l then overtake o (.p p l) (if bitAt (tget 0 g.p p) l then 1 else 0) else o) g.outs }

/-- A result that returns: dropped where a later word has written (R259). -/
def Group.deliver (g : Group) (w : PWrite) : Group :=
  if w.late.isSome then g
  else match w.dst with
    | .v r l => { g with v := tset 0 g.v (64 * r + l) (w.val.setWidth 32) }
    | .s r => if r = 0 then g else { g with s := tset 0 g.s r w.val }
    | .p r l => if r = 0 then g else { g with p := tset 0 g.p r (setBit (tget 0 g.p r) l (w.val == 1)) }

/-- The same write made at once by the issuing word. -/
def Group.put (g : Group) (w : PWrite) : Group :=
  match w.dst with
  | .v r l => g.putV r l (w.val.setWidth 32)
  | .s r => g.putS r w.val
  | .p r l => g.putP r (1#64 <<< l) (w.val <<< l)

def wV (r l : Nat) (x : W32) : PWrite := { dst := .v r l, val := x.setWidth 64, late := none }
def wS (r : Nat) (x : W64) : PWrite := { dst := .s r, val := x, late := none }
def wP (p l : Nat) (b : Bool) : PWrite := { dst := .p p l, val := if b then 1 else 0, late := none }

/-! ### Lanes -/

/-- The lanes of a mask in increasing order. -/
def lanesOf (x : W64) : List Nat := (List.range 64).filter (fun l => bitAt x l)

/-- The lanes for which `f` holds, as a mask. -/
def maskOf (f : Nat → Bool) : W64 :=
  (List.range 64).foldl (fun x l => if f l then x ||| (1#64 <<< l) else x) 0

def popcount (x : W64) : Nat := (lanesOf x).length

/-- The lowest lane of a mask. -/
def lowest (x : W64) : Option Nat := (lanesOf x).head?

/-- Pred(f, l) of R79 over all lanes. -/
def Group.pred (g : Group) (t : Nat) (f : Guard) : W64 :=
  let x := g.rdP t f.p.toNat
  if f.neg then ~~~x else x

/-- Perf(l) of R79 over all lanes (R64). -/
def Group.perf (g : Group) (t : Nat) (h : Hdr) : W64 := g.xm &&& g.pred t h.gp

/-- `%core`, `%part` and so on of the issuing group. -/
def Mach.myTeam (m : Mach) : Team := m.team m.me.team
def Mach.myInst (m : Mach) : Inst := m.inst m.myTeam.inst
def Mach.myPart (m : Mach) : Nat := m.myTeam.part
def Mach.myCtx (m : Mach) : Nat := m.myTeam.ctx

/-- Writes f(l) to v[r] of the lanes of `lanes`. -/
def Group.writeV (g : Group) (lanes : W64) (r : Nat) (f : Nat → W32) : Group :=
  (lanesOf lanes).foldl (fun a l => a.putV r l (f l)) g

/-! ### CRC-32C (R137) -/

def crcBits : Nat → W32 → W32
  | 0, x => x
  | n + 1, x => crcBits n (if x.getLsbD 0 then (x >>> 1) ^^^ 0x82F63B78#32 else x >>> 1)

/-- Crc(x, d): the eight bytes of `d`, lowest first. -/
def crc (x : W32) (d : W64) : W32 := crcBits 32 (crcBits 32 (x ^^^ fld d 0 32) ^^^ fld d 32 32)

/-! ### Epochs (R79, R279) -/

/-- EpochLater (R79). -/
def epochLater (a b : BitVec 24) : BitVec 24 := if (a - b).toNat < 2 ^ 23 then a else b

def Epochs.openEpoch (e : Epochs) : BitVec 24 := if e.closing.isSome then e.closed + 2 else e.closed + 1

/-- The stamp of a home, C + 1 (R279). -/
def Epochs.stamp (e : Epochs) : BitVec 24 := e.closed + 1

/-- A register-size list of bytes from a number, and back (R7). -/
def bytesOf (n : Nat) (x : Nat) : List Byte :=
  match n with
  | 0 => []
  | k + 1 => BitVec.ofNat 8 x :: bytesOf k (x / 256)

def natOf (bs : List Byte) : Nat :=
  match bs with
  | [] => 0
  | b :: t => b.toNat + 256 * natOf t

end Sys2Proof.Machine
end

