-- ==== Sys2Proof/Machine/Mem.lean ====
section
/-! DEFINITION. Memory at its homes (R268, R365), the copy-on-write of draining generations (R366), the error
log (R398), the L1 of a core (R178, R187, R188), epoch adoption (R279), page walks and translations (R348 to
R353). A function that answers `none` waits for reserve space (R367). -/

namespace Sys2Proof.Machine

/-! ### Bytes at the home -/

def tfind {α : Type} : List (Nat × α) → Nat → Option α
  | [], _ => none
  | (k, x) :: t, n => if n = k then some x else tfind t n

/-- A byte of device memory as its home holds it. -/
def Mach.homeByte (m : Mach) (pa : Nat) : Byte :=
  match tfind m.cached pa with
  | some b => b
  | none => tget 0 m.dram pa

def Mach.homeBytes (m : Mach) (pa n : Nat) : List Byte := (List.range n).map (fun i => m.homeByte (pa + i))
def Mach.home64 (m : Mach) (pa : Nat) : W64 := BitVec.ofNat 64 (natOf (m.homeBytes pa 8))

/-- A byte written at its home, dirty in a cache over DRAM while one holds its line (R375). -/
def Mach.pokeByte (m : Mach) (pa : Nat) (b : Byte) : Mach :=
  { m with cached := if b = tget 0 m.dram pa then tdel m.cached pa else tput m.cached pa b }


def pageOf (pa : Nat) : Nat := pa / 65536
def stackOf (pa : Nat) : Nat := pa / 2 ^ 36
def stackOfPage (pg : Nat) : Nat := pg / 2 ^ 20
def lineOf (pa : Nat) : Nat := pa / 128
def sectorOf (pa : Nat) : Nat := pa / 32

/-- Dirty cached bytes of addresses that satisfy `f` reach DRAM. A sector with one bad symbol is corrected as it is written (R386). -/
def Mach.flush (m : Mach) (f : Nat → Bool) : Mach :=
  let out := m.cached.filter (fun x => f x.1)
  { m with dram := out.foldl (fun d x => tset 0 d x.1 x.2) m.dram, cached := m.cached.filter (fun x => !f x.1),
           symErr := m.symErr.filter (fun s => s.2 != 1 || !out.any (fun x => sectorOf x.1 == s.1)) }

/-- The copy-on-write reserve (R365) and the shadow area (R338): bytes that no access may touch. -/
def badPa (pa : Nat) : Bool :=
  let row := pa / 2 ^ 20 % 512
  decide (480 ≤ row) || (decide (pa / 2 ^ 29 % 128 = 127) && decide (row ≤ 431))

/-! ### Events for the error log, and bad symbols of DRAM (R386, R395 to R398) -/

/-- An event of channel `chan`: the log reports it at the end of its cycle (R398). -/
def Mach.logEvent (m : Mach) (p chan slice unit code dom : Nat) (addr detail : W64) : Mach :=
  { m with events := m.events ++ [{ part := p, chan := chan, slice := slice, unit := unit, code := code, dom := dom, addr := addr,
                                    detail := detail }] }

/-- R386: a read of a DRAM sector with bad symbols is corrected and logged, or poisons the sector and is logged. The poison mark never
reads as a fresh error. -/
def Mach.touchSector (m : Mach) (s : Nat) : Mach :=
  let n := tget 0 m.symErr s
  if n = 0 || m.poison.contains s then m
  else
    let k := stackOf (32 * s)
    let pc := 32 * s / 1024 % 64
    match m.partOf k with
    | none => m
    | some p =>
      if n = 1 then m.logEvent p 0 k pc 0 0xFFFF (BitVec.ofNat 64 (32 * s)) 0
      else
        let m := { m with symErr := tset 0 m.symErr s 0, poison := s :: m.poison }
        m.logEvent p 1 k pc 0 0xFFFF (BitVec.ofNat 64 (32 * s)) 0

/-- A read of all the sectors of a page in DRAM. -/
def Mach.touchPage (m : Mach) (pg : Nat) : Mach :=
  (m.symErr.filter (fun s => decide (s.1 / 2048 = pg))).foldl (fun m s => m.touchSector s.1) m

/-- The caches of the home hold the line. -/
def Mach.homeHolds (m : Mach) (ln : Nat) : Bool := m.l2.any (fun x => x.line == ln) || m.ms.any (fun x => x.line == ln)

/-- A read of a sector: one that a cache of its home serves does not reach DRAM (R386). -/
def Mach.readSector (m : Mach) (s : Nat) : Mach := if m.homeHolds (s / 4) then m else m.touchSector s

/-- A read of the sectors that hold these bytes. -/
def Mach.readBytes (m : Mach) (pa n : Nat) : Mach :=
  (List.range (n + 31)).foldl (fun m i => if i % 32 = 0 ∧ pa / 32 * 32 + i < pa + n then m.readSector (sectorOf (pa + i)) else m) m

/-- The image of a page as its home holds it; a sector with two bad symbols cannot be read, and counts as poisoned (R386). -/
def Mach.imageOf (m : Mach) (pg : Nat) : Image :=
  let bad := (m.symErr.filter (fun s => decide (1 < s.2) && !m.poison.contains s.1)).map (·.1)
  { bytes := (m.dram.filter (fun x => decide (pageOf x.1 = pg))).map (fun x => (x.1 % 65536, x.2)),
    poison := ((bad ++ m.poison).filter (fun s => decide (s / 2048 = pg))).map (fun s => s % 2048) }

def Gen.owes (g : Gen) (pg : Nat) : Bool := g.st == 1 && g.written.contains pg && (tfind g.images pg).isNone

/-- The generation that the last close ended. -/
def Part.justClosed (x : Part) (g : Gen) : Bool := g.st == 1 && g.num + 1 == x.genopen && g.epoch == x.ep.closed

/-- The generation that a write performed now at a page belongs to: the open one, but that of the epoch just closed where the page's home
has not received DONE, for the home's own view gives the write its epoch (R278, R362). -/
def Part.takesWrite (x : Part) (pg : Nat) (g : Gen) : Bool :=
  if x.ep.undone.contains (stackOfPage pg) && x.gens.any x.justClosed then x.justClosed g else g.st == 0

/-- A write performed now at the page is later than the generation, which still needs an image of it (R366). -/
def Part.owes (x : Part) (pg : Nat) (g : Gen) : Bool := g.owes pg && !x.takesWrite pg g

/-- R366: keeps the page for every draining generation that still needs it; `none` with no reserve page (R367). -/
def Mach.preserve (m : Mach) (pg : Nat) : Option Mach :=
  match m.partOf (stackOfPage pg) with
  | none => some m
  | some p =>
    let owing := ((m.part p).gens.filter ((m.part p).owes pg)).length
    if owing = 0 then some m
    else
      let k := stackOfPage pg
      if tget 0 m.reserveUsed k + owing > 65536 then none
      else
        let m := (m.flush (fun a => decide (pageOf a = pg))).touchPage pg
        let im := m.imageOf pg
        let m := { m with reserveUsed := tset 0 m.reserveUsed k (tget 0 m.reserveUsed k + owing) }
        some (m.modPart p (fun x => { x with
          gens := x.gens.map (fun g => if x.owes pg g then { g with images := tput g.images pg im, reserve := pg :: g.reserve } else g) }))

/-- Draining generations that still need the page, and whether no reserve page is free for them (R366, R367). -/
def Mach.owing (m : Mach) (pg : Nat) : Nat :=
  match m.partOf (stackOfPage pg) with
  | none => 0
  | some p => ((m.part p).gens.filter ((m.part p).owes pg)).length
def Mach.owed (m : Mach) (pg : Nat) : Bool := m.owing pg != 0
def Mach.noRoom (m : Mach) (pg : Nat) : Bool := m.owed pg && decide (65536 < tget 0 m.reserveUsed (stackOfPage pg) + m.owing pg)

/-- Writer `who` waits for reserve space for a page: STALLS counts it once (R367). -/
def Mach.countStall (m : Mach) (pg who : Nat) : Mach :=
  match m.partOf (stackOfPage pg) with
  | none => m
  | some p =>
    if (m.part p).waitsOn.contains (pg, who) then m
    else m.modPart p (fun x => { x with stalls := min (x.stalls + 1) (2 ^ 24 - 1), waitsOn := (pg, who) :: x.waitsOn })

/-- Writers: a group, a line of a core's L1, a copy or a row path, and the part itself. -/
def whoGroup (c k : Nat) : Nat := 4 * (64 * c + k)
def whoLine (c ln : Nat) : Nat := 4 * (2048 * ln + c) + 1
def whoJob (id : Nat) : Nat := 4 * id + 2
def whoOwn (n : Nat) : Nat := 4 * n + 3

/-- The page is one that the generation has written (R362); an image of it that an earlier generation handed on is no longer its
image (R372). -/
def Gen.write (g : Gen) (pg : Nat) : Gen :=
  { g with written := if g.written.contains pg then g.written else pg :: g.written, images := tdel g.images pg,
           reserve := g.reserve.filter (fun q => q != pg) }

/-- The page is written, and its waits are over (R367): it is among what the write's generation has written; a reserve page with an image that
this one no longer needs is freed. -/
def Mach.markWritten (m : Mach) (pg : Nat) : Mach :=
  match m.partOf (stackOfPage pg) with
  | none => m
  | some p =>
    let k := stackOfPage pg
    let freed := (m.part p).gens.any (fun g => (m.part p).takesWrite pg g && g.reserve.contains pg)
    let m := m.modPart p (fun x => { x with waitsOn := x.waitsOn.filter (fun w => w.1 != pg),
                                            copied := x.copied.filter (fun q => q != pg),
                                            gens := x.gens.map (fun g => if x.takesWrite pg g then g.write pg else g) })
    if freed then { m with reserveUsed := tset 0 m.reserveUsed k (tget 0 m.reserveUsed k - 1) } else m

def distinct (l : List Nat) : List Nat := l.foldl (fun a x => if a.contains x then a else a ++ [x]) []

def Group.disarm (g : Group) (scratch : Bool) (block : Nat) : Group :=
  match g.waita with
  | some w => if w.scratch = scratch && w.block = block then { g with waita := some { w with armed := false } } else g
  | Option.none => g

/-- Clean copies of a line leave an L1 (R269), but for one that the invalidation reaches later; waits on it wake (R197). -/
def Core.invalidate (c : Core) (lines : List Nat) : Core :=
  { c with
    l1 := c.l1.filterMap (fun x =>
      if !lines.contains x.line || (x.lag && x.dirty = 0) then some x
      else if x.dirty = 0 then none else some { x with valid := x.dirty }),
    groups := lines.foldl (fun t ln => tmap Group.none (fun _ g => g.disarm false ln) t) c.groups }

/-- Whether the writes cover a whole sector (R186). -/
def coversSector (ws : List (Nat × Byte)) (s : Nat) : Bool :=
  (List.range 32).all (fun i => ws.any (fun w => decide (w.1 = 32 * s + i)))

/-- The sectors that these writes cover wholly. -/
def wholeSectors (ws : List (Nat × Byte)) : List Nat := (distinct (ws.map (fun w => sectorOf w.1))).filter (coversSector ws)

/-! ### Translation (R348, R349) -/

def leafX (w : W64) : Bool := bitAt w 5
def leafW (w : W64) : Bool := bitAt w 4
def leafMS (w : W64) : Bool := bitAt w 6
def leafAC (w : W64) : Bool := bitAt w 7
def leafD (w : W64) : Bool := bitAt w 8
def leafCC (w : W64) : BitVec 2 := fld w 10 2
def leafTag (w : W64) : BitVec 4 := fld w 12 4
def leafChain (w : W64) : BitVec 6 := fld w 52 6
def leafHome (w : W64) : BitVec 6 := fld w 58 6
def leafHost (w : W64) : Bool := bitAt w 2
def leafBase (w : W64) : Nat := 65536 * (fld w 16 36).toNat
/-- Where a leaf's page has its home: a part, or 64 for the host. -/
def homeOf (w : W64) : Nat := if leafHost w then 64 else (leafHome w).toNat

/-- R349: what makes a leaf not valid. -/
def Mach.leafOk (m : Mach) (p : Nat) (w : W64) (size : Nat) : Bool :=
  decide (leafBase w % size = 0) && !bitAt w 1 && (leafTag w == 0 || leafTag w == 5 || leafTag w == 7) &&
    !(leafW w && leafX w) && (leafHost w || bitAt m.dommem (leafHome w).toNat || leafHome w == m.partno) &&
    (leafHost w || leafHome w != m.partno ||
      (decide (p * 2 ^ 36 ≤ leafBase w) && decide (leafBase w + size ≤ (p + (m.part p).size) * 2 ^ 36)))

/-- The levels of R348 from the root down: lowest address bit, index width, size that a leaf maps. -/
def levels : List (Nat × Nat × Option Nat) :=
  [(48, 9, none), (39, 9, none), (30, 9, some (2 ^ 30)), (21, 9, some (2 ^ 21)), (16, 5, some 65536)]

def Mach.walkFrom (m : Mach) (p ctx va : Nat) : List (Nat × Nat × Option Nat) → Nat → Option TlbEntry
  | [], _ => none
  | (lo, len, leaf) :: rest, table =>
    let at_ := table + 8 * (va / 2 ^ lo % 2 ^ len)
    let w := m.home64 at_
    if badPa at_ || !bitAt w 0 then none
    else if bitAt w 3 then
      match leaf with
      | none => none
      | some size =>
        if m.leafOk p w size then some { part := p, ctx := ctx, va := va / size * size, size := size, leaf := w, at_ := at_ } else none
    else if w &&& ~~~0x000FFFFFFFFFFF01#64 = 0 then m.walkFrom p ctx va rest (w &&& 0x000FFFFFFFFFFF00#64).toNat
    else none

def Mach.walk (m : Mach) (p ctx va : Nat) : Option TlbEntry :=
  let r := ((m.part p).ctxAt ctx).root
  if bitAt r 63 then m.walkFrom p ctx va levels (r &&& 0x000FFFFFFFFFF000#64).toNat else none

/-- A word with the form of a valid page entry: a leaf, or a table pointer (R348). -/
def isEntry (w : W64) : Bool := bitAt w 0 && (bitAt w 3 || w &&& ~~~0x000FFFFFFFFFFF01#64 == 0)

/-- The translations of a context, from a table down, whose walks read one of the entries at `as`; `seen` tells that an upper level was one. -/
def Mach.passing (m : Mach) (p ctx : Nat) (as : List Nat) : List (Nat × Nat × Option Nat) → Nat → Nat → Bool → List TlbEntry
  | [], _, _, _ => []
  | (lo, len, leaf) :: rest, table, va, seen => (List.range (2 ^ len)).flatMap (fun i =>
    let at_ := table + 8 * i
    let w := m.home64 at_
    let hit := seen || as.contains at_
    if badPa at_ || !isEntry w then []
    else if bitAt w 3 then
      match leaf with
      | none => []
      | some size => if hit && m.leafOk p w size then [{ part := p, ctx := ctx, va := va + i * 2 ^ lo, size := size, leaf := w, at_ := at_ }] else []
    else m.passing p ctx as rest (w &&& 0x000FFFFFFFFFFF00#64).toNat (va + i * 2 ^ lo) hit)

/-- The aligned words of eight bytes that hold these bytes. -/
def words8 (as : List Nat) : List Nat := as.foldr (fun a l => if l.head? = some (a / 8 * 8) then l else a / 8 * 8 :: l) []

/-- Translations that a write is about to end, of whatever level the entry is that it overwrites, are kept until they are removed: to their frames
the pages translated before (R20, R202). -/
def Mach.noteLeaves (m : Mach) (as : List Nat) : Mach :=
  match m.partOf (stackOf (as.headD 0)) with
  | none => m
  | some p =>
    let roots := (List.range 8).filter (fun ctx => bitAt ((m.part p).ctxAt ctx).root 63)
    let olds := if roots.isEmpty then [] else (words8 as).filter (fun a => isEntry (m.home64 a))
    if olds.isEmpty then m
    else
      let es := roots.flatMap (fun ctx => m.passing p ctx olds levels (((m.part p).ctxAt ctx).root &&& 0x000FFFFFFFFFF000#64).toNat 0 false)
      m.modPart p (fun x => { x with lost := x.lost ++ es.filter (fun e => !x.lost.contains e) })

/-- Writes performed at their homes; those of a line that no cache of its home holds go on to DRAM (R343, R375). `keep` is the core whose own L1 line
they come from; `whole` are the sectors that a store fully writes: their poison is cleared, and a partial write keeps it (R186, R388). -/
def Mach.pokes (m : Mach) (keep : Option Nat) (whole : List Nat) (ws : List (Nat × Byte)) : Mach :=
  let lines := distinct (ws.map (fun w => lineOf w.1))
  let m := ws.foldl (fun m w => m.pokeByte w.1 w.2) (m.noteLeaves (ws.map (·.1)))
  let m := m.flush (fun a => lines.contains (lineOf a) && !m.homeHolds (lineOf a))
  let m := { m with poison := m.poison.filter (fun s => !whole.contains s), symErr := m.symErr.filter (fun s => !whole.contains s.1) }
  let m := m.mapCores (fun k c => if keep = some k then c else c.invalidate lines)
  (distinct (ws.map (fun w => pageOf w.1))).foldl Mach.markWritten m

/-- A write that first keeps the pages of draining generations (R366). -/
def Mach.homeWrite (m : Mach) (keep : Option Nat) (whole : List Nat) (ws : List (Nat × Byte)) : Option Mach :=
  ((distinct (ws.map (fun w => pageOf w.1))).foldlM Mach.preserve m).map (fun m => m.pokes keep whole ws)

def cells (pa : Nat) (bs : List Byte) : List (Nat × Byte) := bs.zipIdx.map (fun x => (pa + x.2, x.1))

/-! ### Who writes (R332, R399) -/

/-- The role of a writer: a firmware, by its control core, or the host. -/
inductive Role where
  | reeve | steward | image (p : Nat) | host | idle
  deriving DecidableEq, Repr

/-- An I/O die has tripped: its links and engines pause (R405). Which ports and engines a die carries the spec does not say: die 0 the lower
half of each, and the host port (16) and the first granary port (17) beside, die 1 the second (18) (DESIGN CHOICE, log 51). -/
def Mach.linkPaused (m : Mach) (port : Nat) : Bool := tget false m.ioTrip (if port < 16 then port / 8 else if port < 18 then 0 else 1)
def Mach.enginePaused (m : Mach) (e : Nat) : Bool := tget false m.ioTrip (e / 24)

/-- Control cores 0 and 1 run the reeve, 2 the steward, and 3 to 15 system images (R399); the host reaches the part through its port. -/
def Mach.role (m : Mach) : Writer → Role
  | .host => if m.linkPaused 16 then .idle else .host
  | .control n =>
    if n < 2 then .reeve
    else if n = 2 then .steward
    else match tget none m.images n with
      | some p => .image p
      | none => .idle

/-- What the steward sets through the reeve (R333, R335, R400). -/
def viaReeve : Role → Bool
  | .reeve | .steward => true
  | _ => false

/-- What the system image of partition `p` may write, and the reeve with it (R332, R399). -/
def byImage (p : Nat) : Role → Bool
  | .reeve => true
  | .image q => q == p
  | _ => false

/-! ### Writes that wait for reserve space by themselves (R367) -/

def Stalled.pages (x : Stalled) : List Nat := distinct (x.bytes.map (fun b => pageOf b.1))
def Stalled.part (x : Stalled) (m : Mach) : Nat := (m.partOf (stackOf ((x.bytes.map (·.1)).headD 0))).getD 0

/-- A write performed unless it waits: for space, or behind an earlier write to its page that does. -/
def Mach.tryWrite (m : Mach) (x : Stalled) : Option Mach :=
  if (m.part (x.part m)).stalled.any (fun y => y.pages.any (fun pg => x.pages.contains pg)) then none
  else m.homeWrite none x.whole (if x.or then x.bytes.map (fun b => (b.1, m.homeByte b.1 ||| b.2)) else x.bytes)

def Mach.queueWrite (m : Mach) (x : Stalled) : Mach := m.modPart (x.part m) (fun p => { p with stalled := p.stalled ++ [x] })

/-- A write from outside the cores: performed, or waiting at its home and counted. -/
def Mach.ownWrite (m : Mach) (x : Stalled) : Mach :=
  match m.tryWrite x with
  | some m => m
  | none => (m.queueWrite x).modPart (x.part m) (fun p => { p with stalls := min (p.stalls + 1) (2 ^ 24 - 1) })

/-- Writes that waited go on in their order as space frees. -/
def Mach.retryStalled (m : Mach) (p : Nat) : Mach :=
  (m.part p).stalled.foldl (fun m x => (m.tryWrite x).getD (m.queueWrite x)) (m.modPart p (fun x => { x with stalled := [] }))

/-- A write of the part's own structures; none reaches the reserve or the shadow area (R365, log 98). -/
def Mach.selfWrite (m : Mach) (pa : Nat) (bs : List Byte) : Mach :=
  if badPa pa || badPa (pa + bs.length - 1) then m
  else m.ownWrite { bytes := cells pa bs, whole := wholeSectors (cells pa bs), or := false }

/-- An atomic OR into an entry at its home (R351, R366). -/
def Mach.selfOr (m : Mach) (pa : Nat) (x : W64) : Mach :=
  m.ownWrite { bytes := (cells pa (bytesOf 8 x.toNat)).filter (fun b => b.2 != 0), whole := [], or := true }

/-- A byte that a waiting write of the part itself puts at an address of this part. -/
def OwnStore.byteAt (x : OwnStore) (pa : Nat) : Option Byte := if x.pa ≤ pa then x.bytes[pa - x.pa]? else none

/-- A byte as the part's own later read finds it, behind writes of its own that wait. -/
def Mach.ownByte (m : Mach) (pa : Nat) : Byte :=
  let b := (m.parts.flatMap (fun kp => kp.2.stalled)).foldl (fun b x => match x.bytes.find? (fun c => c.1 == pa) with
    | some c => if x.or then b ||| c.2 else c.2
    | none => b) (m.homeByte pa)
  (m.parts.flatMap (fun kp => kp.2.ownWaits)).foldl (fun b x => (x.byteAt pa).getD b) b

/-- The page has been copied into the reserve, and its first write is still to come (R366). -/
def Mach.copiedFor (m : Mach) (pg : Nat) : Bool :=
  match m.partOf (stackOfPage pg) with
  | none => false
  | some p => (m.part p).copied.contains pg

/-- GC of the leaf through which a write that triggered a copy reached the home (R366): `m'` comes after the write to `m`. -/
def Mach.setGC (m m' : Mach) (at_ pg : Nat) : Mach := if m.owed pg || m.copiedFor pg then m'.selfOr at_ 0x200#64 else m'

/-- Eight bytes, and four, as the part's own read finds them. -/
def Mach.own64 (m : Mach) (pa : Nat) : W64 := BitVec.ofNat 64 (natOf ((List.range 8).map (fun i => m.ownByte (pa + i))))
def Mach.own32 (m : Mach) (pa : Nat) : W32 := BitVec.ofNat 32 (natOf ((List.range 4).map (fun i => m.ownByte (pa + i))))

/-! ### The error log (R395 to R398) -/

def satAdd1 (x : W32) : W32 := if x = BitVec.allOnes 32 then x else x + 1

/-- One event as the log handles it (R398). -/
def Mach.writeEvent (m : Mach) (e : Event) : Mach :=
  let m := m.modPart e.part (fun x => { x with elcnt := tset 0 x.elcnt e.chan (tget 0 x.elcnt e.chan + 1) })
  let x := m.part e.part
  if (x.eltail - x.elhead).toNat < x.elsize then
    let head := e.chan + 256 * e.slice + 2 ^ 16 * e.unit + 2 ^ 32 * e.code + 2 ^ 48 * e.dom
    let snap := (List.range 12).flatMap (fun n => bytesOf 2 (tget 0 x.elcnt n).toNat)
    let bs := bytesOf 8 head ++ bytesOf 8 e.addr.toNat ++ bytesOf 8 e.detail.toNat ++ bytesOf 8 m.clock ++ snap
      ++ bytesOf 4 x.eldrop.toNat ++ bytesOf 4 0
    let m := m.selfWrite (x.elbase + 64 * (x.eltail.toNat % x.elsize)) bs
    m.modPart e.part (fun x => { x with eladdr := e.addr, eltail := x.eltail + 1 })
  else m.modPart e.part (fun x => { x with eldrop := satAdd1 x.eldrop })

/-- Channel, slice and unit: the order of the events of one cycle (R398). -/
def Event.key (e : Event) : Nat := (4096 * e.chan + e.slice) * 4096 + e.unit

/-- An event in its place among those of its cycle, behind those of its own key. -/
def insertEvent (e : Event) : List Event → List Event
  | [] => [e]
  | x :: t => if e.key < x.key then e :: x :: t else x :: insertEvent e t

/-- The events of a cycle, in their order, go to the logs. -/
def Mach.writeEvents (m : Mach) : Mach :=
  (m.events.foldl (fun l e => insertEvent e l) []).foldl Mach.writeEvent { m with events := [] }

/-! ### The caches of a home (R338, R343, R344, R375) -/

/-- Ways of an L2 set that hold data (R338), and the ways of a set that pinned lines may take (R344). -/
def Part.ways (x : Part) : Nat := 16 - x.shw.toNat

def sameL2 (a b : CTag) : Bool :=
  stackOf (128 * a.line) == stackOf (128 * b.line) && a.bank == b.bank && Config.l2Set a.line % 1024 == Config.l2Set b.line % 1024
def sameMs (a b : CTag) : Bool := stackOf (128 * a.line) == stackOf (128 * b.line) && Config.msSet a.line % 32768 == Config.msSet b.line % 32768

/-- The line that leaves a full set: the least recent, protected lines last and pinned ones never. -/
def victim (set : List CTag) : Option CTag :=
  match (set.filter (fun x => x.pin == 0 && x.cls != 2)).getLast? with
  | some v => some v
  | none => (set.filter (fun x => x.pin == 0)).getLast?

/-- A line as it enters a set: protected and pinned as far as the set's limits allow. -/
def CTag.admitted (t : CTag) (l : List CTag) (same : CTag → CTag → Bool) (pins : Nat) : CTag :=
  { t with
    cls := if t.cls = 2 && decide (8 ≤ l.length) && decide (8 ≤ (l.filter (fun x => x.cls == 2 && same t x)).length) then 0 else t.cls,
    pin := if l.length < pins ∨ (l.filter (fun x => x.pin != 0 && same t x)).length < pins then t.pin else 0 }

/-- A hit: the line becomes the most recent, and a window that names it holds it from now on. -/
def CTag.again (x : CTag) (pin : Nat) (l : List CTag) (same : CTag → CTag → Bool) (pins : Nat) : CTag :=
  if x.pin = 0 ∧ pin ≠ 0 then { x with pin := ({ x with pin := pin }.admitted l same pins).pin } else x

/-- The most recent first; an evict-first line in the least-recent place. -/
def enterTag (l : List CTag) (t : CTag) : List CTag := if t.cls = 1 then l ++ [t] else t :: l

def without (l : List CTag) (ln : Nat) : List CTag := l.filter (fun x => x.line != ln)

/-- A memory-side line leaves: what it holds dirty goes to DRAM. -/
def Mach.msEvict (m : Mach) (ln : Nat) : Mach := { m.flush (fun a => lineOf a == ln) with ms := without m.ms ln }

def Mach.msFill (m : Mach) (t : CTag) : Mach :=
  match m.ms.find? (fun x => x.line == t.line) with
  | some x =>
    let rest := without m.ms t.line
    { m with ms := enterTag rest (x.again t.pin rest sameMs ((m.part t.part).ways - 2)) }
  | none =>
    let m := if m.ms.length < 16 then m
      else
        let set := m.ms.filter (sameMs t)
        if set.length < 16 then m else ((victim set).map (fun v => m.msEvict v.line)).getD m
    { m with ms := enterTag m.ms (t.admitted m.ms sameMs ((m.part t.part).ways - 2)) }

/-- An L2 line leaves: what it holds dirty goes to the memory-side cache. -/
def Mach.l2Evict (m : Mach) (v : CTag) : Mach :=
  let m := { m with l2 := without m.l2 v.line }
  if m.cached.any (fun x => lineOf x.1 == v.line) then m.msFill { v with pin := 0 } else m

def Mach.l2Fill (m : Mach) (t : CTag) : Mach :=
  let ways := (m.part t.part).ways
  let m := if m.l2.length < ways then m
    else
      let set := m.l2.filter (sameL2 t)
      if set.length < ways then m else ((victim set).map m.l2Evict).getD m
  { m with l2 := enterTag m.l2 (t.admitted m.l2 sameL2 (ways - 2)) }

/-- A line that no cache of its home holds is read from DRAM, but for the sectors `whole` that the access overwrites (R375, R386). -/
def Mach.readLine (m : Mach) (ln : Nat) (whole : List Nat) : Mach :=
  if m.homeHolds ln then m
  else (List.range 4).foldl (fun m i => if whole.contains (4 * ln + i) then m else m.touchSector (4 * ln + i)) m

/-- An access that reaches a line's home: an L2 hit, or a miss that fills the memory-side cache and L2 unless its class fills
nothing. `pinMs` is a window of the memory-side cache that holds the line; `whole` are the sectors that the access overwrites. -/
def Mach.l2Access (m : Mach) (t : CTag) (pinMs : Nat) (whole : List Nat) : Mach :=
  match m.l2.find? (fun x => x.line == t.line) with
  | some x =>
    let rest := without m.l2 t.line
    { m with l2 := enterTag rest (x.again t.pin rest sameL2 ((m.part t.part).ways - 2)) }
  | none => if t.cls = 3 then m else ((m.readLine t.line whole).msFill { t with pin := pinMs }).l2Fill t

/-- An atomic at the base die: the line's L2 copy is written back and dropped, and the line stays in the memory-side cache (R376). -/
def Mach.msAccess (m : Mach) (t : CTag) (pinMs : Nat) : Mach :=
  let m := match m.l2.find? (fun x => x.line == t.line) with
    | some x => m.l2Evict x
    | none => m
  if t.cls = 3 then m else (m.readLine t.line []).msFill { t with pin := pinMs }

/-- The bit number of the n-th set bit of a mask. -/
def nthBank (banks : W32) (n : Nat) : Nat := (((List.range 32).filter (fun i => bitAt banks i))[n]?).getD 0

/-- R341: the home bank of a line within its slice. -/
def homeBank (banks : W32) (pa : Nat) : Nat :=
  let x : BitVec 52 := BitVec.ofNat 52 pa
  let h : BitVec 12 := fld x 7 12 ^^^ fld x 19 12 ^^^ fld x 31 12 ^^^ (fld x 43 9).setWidth 12
  nthBank banks (h.toNat % popcount (banks.setWidth 64))

/-- The tag of a line of a context. -/
def Mach.tagFor (m : Mach) (p ctx ln : Nat) (chain : BitVec 6) (cls : BitVec 2) (pin : Nat) : CTag :=
  { line := ln, part := p, ctx := ctx, chain := chain, cls := cls, bank := homeBank ((m.part p).ctxAt ctx).banks (128 * ln),
    tick := m.tick, pin := pin }

/-- The pin window of the context, in L2 or in the memory-side cache, that holds the virtual address (R200); 0 for none. -/
def Context.windowOf (x : Context) (va : Nat) (ms : Bool) : Nat :=
  ((x.pins.find? (fun w => w.2.2.2 == ms && decide (w.2.1 ≤ va) && decide (va < w.2.1 + w.2.2.1))).map (·.1)).getD 0

/-! ### Witness fields (R81, R184) -/

def wKind (w : W64) : BitVec 2 := fld w 62 2
def wScope (w : W64) : BitVec 2 := fld w 60 2
def wPartno (w : W64) : BitVec 6 := fld w 54 6
def wCore (w : W64) : Nat := (fld w 43 11).toNat
def wOrigin (w : W64) : Nat := (fld w 50 4).toNat
def wSeq (w : W64) : BitVec 19 := fld w 24 19
def wEpoch (w : W64) : BitVec 24 := fld w 0 24

/-- Owner or borrower of a core's slice (R81, R346). -/
def Mach.partOfCore (m : Mach) (c : Nat) : Option Nat :=
  let l := tget Lend.reset m.lends (sliceOf c)
  if l.inEffect then some l.borrower.toNat else m.partOf (sliceOf c)

def Mach.originPart (m : Mach) (w : W64) : Option Nat :=
  if wKind w = 2 then some (wOrigin w) else m.partOfCore (wCore w)

/-! ### Epochs at homes and cores (R277 to R279) -/

/-- The stamp that the homes of a slice return: C + 1 as the home knows C. -/
def Mach.stampAt (m : Mach) (p slice : Nat) : BitVec 24 :=
  if (m.part p).ep.undone.contains slice then (m.part p).ep.closed else (m.part p).ep.stamp

/-- No close runs, and the homes have received the last DONE and performed what they held. -/
def Epochs.idle (ep : Epochs) : Bool := ep.closing.isNone && ep.undone.isEmpty && ep.landing.isEmpty

/-- The epoch `x` is not later than `e`. -/
def upTo (e x : BitVec 24) : Bool := epochLater x e == e

/-- R278: the home holds a write of an epoch later than the one that is closing. It does so from the start of the close, for
no home may perform such a write while its stamp is earlier (R279), until what it holds has been performed, in arrival order. -/
def Mach.holds (m : Mach) (p slice : Nat) (e : BitVec 24) : Bool :=
  match (m.part p).ep.closing with
  | some k => decide (e ≠ k) && epochLater e k == e
  | none => ((m.part p).ep.undone.contains slice || (m.part p).ep.landing.contains slice) && decide (e ≠ (m.part p).ep.closed) &&
      epochLater e (m.part p).ep.closed == e

/-- Sectors that arrive poisoned (R388). -/
def Mach.taint (m : Mach) (bad : List Nat) : Mach := { m with poison := bad.filter (fun s => !m.poison.contains s) ++ m.poison }

/-- A write of epoch `e` sent to its home from core `src`: performed, or held there (the flag). A write that reached the home through
a leaf that a walk still holds, `at_`, sets GC there when it makes a page be copied (R366). -/
def Mach.sendHome (m : Mach) (keep : Option Nat) (p src : Nat) (e : BitVec 24) (waiters : List (Nat × Nat × Nat))
    (refused : Bool) (whole bad : List Nat) (at_ : Option Nat) (ws : List (Nat × Byte)) : Option (Mach × Bool) :=
  match ws with
  | [] => some (m, false)
  | w :: _ =>
    let slice := stackOf w.1
    if m.holds p slice e then
      some (m.modPart p (fun x => { x with held := x.held ++
          [{ src := src, slice := slice, bytes := ws, whole := whole, refused := refused, epoch := e, waiters := waiters, bad := bad, word := none,
             at_ := at_ }] }), true)
    else (m.homeWrite keep whole ws).map (fun m1 =>
      let m2 := m1.taint bad
      (match at_ with
        | some a => m.setGC m2 a (pageOf w.1)
        | none => m2, false))

/-! ### Lines of an L1 -/

def Core.line? (c : Core) (ln : Nat) : Option L1Line := c.l1.find? (fun x => x.line == ln)
def Core.dropLine (c : Core) (ln : Nat) : Core := { c with l1 := c.l1.filter (fun x => x.line != ln) }

/-- Puts a line in its place: most recent first, evict-first lines in the least-recent place (R343). -/
def Core.setLine (c : Core) (x : L1Line) : Core :=
  let rest := c.l1.filter (fun y => y.line != x.line)
  { c with l1 := if x.cls = 1 then rest ++ [x] else x :: rest }

/-- Some group pins the line (R188). -/
def L1Line.pinned (x : L1Line) : Bool := !x.pins.isEmpty

/-- The pins once a store of a group that pins has entered. -/
def L1Line.pinsWith (x : L1Line) (pin : Option Nat) : List Nat :=
  match pin with
  | some k => if x.pins.contains k then x.pins else x.pins ++ [k]
  | none => x.pins

def L1Line.byte (x : L1Line) (i : Nat) : Byte := fld x.data (8 * i) 8

def L1Line.put (x : L1Line) (i : Nat) (b : Byte) : L1Line :=
  { x with data := (x.data &&& ~~~(0xFF#1024 <<< (8 * i))) ||| (b.setWidth 1024 <<< (8 * i)) }

def L1Line.holdsAll (x : L1Line) (i n : Nat) : Bool := (List.range n).all (fun k => bitAt x.valid (i + k))

def L1Line.dirtyBytes (x : L1Line) : List (Nat × Byte) :=
  ((List.range 128).filter (fun i => bitAt x.dirty i)).map (fun i => (128 * x.line + i, x.byte i))

/-- The sectors that the line's data clears of poison. -/
def L1Line.wholes (x : L1Line) : List Nat := ((List.range 4).filter (fun i => bitAt x.whole i)).map (fun i => 4 * x.line + i)

/-- The sectors that its write-back carries poisoned. -/
def L1Line.bads (x : L1Line) : List Nat :=
  ((List.range 4).filter (fun i => bitAt x.poison i && fld x.dirty (32 * i) 32 != 0)).map (fun i => 4 * x.line + i)

def L1Line.lastEpoch (x : L1Line) : BitVec 24 :=
  match x.stores with
  | [] => x.stamp
  | r :: rs => rs.foldl (fun e s => epochLater e s.epoch) r.epoch

/-- Whether an epoch is closed as the controller has it. -/
def Mach.isClosed (m : Mach) (p : Nat) (e : BitVec 24) : Bool := epochLater (m.part p).ep.closed e == (m.part p).ep.closed

/-- An epoch is closed, or is closing and this core has made its write-back for it: none follows that would take the store along. -/
def Mach.closedAt (m : Mach) (c p : Nat) (e : BitVec 24) : Bool :=
  m.isClosed p e || (match (m.part p).ep.closing with
    | some k => epochLater e k == k && (m.part p).ep.coresDone.contains c
    | none => false)

/-- A write-back that its home may hold, and that no other core's access may pass: of a line that has refused one (R283), or with a store of a
closed epoch, whose witness is satisfied (R188, R272). -/
def Mach.mustLand (m : Mach) (c : Nat) (x : L1Line) : Bool :=
  x.refusedAt.isSome || x.owed || x.stores.any (fun r => m.closedAt c x.part r.epoch)

/-- The dirty bytes of a line go to its home; the line stays, clean and unpinned (R187). -/
def Mach.writeBack (m : Mach) (c ln : Nat) : Option Mach :=
  match (m.core c).line? ln with
  | none => some m
  | some x =>
    let y := { x with dirty := 0, stores := [], pins := [], refusedAt := none, owed := false, whole := 0, cls := if x.cls = 3 then 1 else x.cls }
    if x.dirty = 0 then some (m.modCore c (fun k => k.setLine y))
    else
      let m := m.l2Access (m.tagFor x.part x.ctx ln x.chain x.cls 0) 0 x.wholes
      (m.sendHome (some c) x.part c x.lastEpoch [] (m.mustLand c x) x.wholes x.bads none x.dirtyBytes).map (fun r =>
        r.1.modCore c (fun k => k.setLine y))

/-- The first of these pages, written in turn, for which no reserve space is left (R367). -/
def Mach.stuckOf (m : Mach) : List Nat → Option Nat
  | [] => none
  | pg :: t => match m.preserve pg with
    | none => some pg
    | some m => m.stuckOf t

/-- The first of these lines of the core, written back in turn, whose write-back finds no reserve space. -/
def Mach.stuckLine (m : Mach) (c : Nat) : List Nat → Option Nat
  | [] => none
  | ln :: t => match m.writeBack c ln with
    | none => some ln
    | some m => m.stuckLine c t

/-- The write-back of a line of core `c` waits for reserve space. -/
def lineWaits (c ln : Nat) : Why := .reserve (pageOf (128 * ln)) (whoLine c ln)

/-- What the write-backs of these lines, in turn, wait for. -/
def Mach.linesWait (m : Mach) (c : Nat) (lns : List Nat) : Why := lineWaits c ((m.stuckLine c lns).getD (lns.headD 0))

/-- The write-back among those of these lines that waits for reserve space counts as stalled (R367). -/
def Mach.stallLines (m : Mach) (c : Nat) (lns : List Nat) : Mach :=
  match m.stuckLine c lns with
  | some ln => m.countStall (pageOf (128 * ln)) (whoLine c ln)
  | none => m

/-- The widen of the line writes it back: with a store of a closed epoch (R188), or of the closing one once its core has made the close
write-back (R272), and where it refused an access, which never returns a value that the home holds from before the widen (R283). While
a close runs the latter is left to the next drain or close that reaches the line (R287), and the line refuses accesses until then (log 72). -/
def Mach.widenWrites (m : Mach) (c : Nat) (x : L1Line) : Bool :=
  x.stores.any (fun r => m.closedAt c x.part r.epoch) || ((x.refusedAt.isSome || x.owed) && (m.part x.part).ep.closing.isNone)

/-- A pinned line becomes a device line; `none` waits for reserve space to write it back. -/
def Mach.widenLine (m : Mach) (c ln : Nat) : Option Mach :=
  match (m.core c).line? ln with
  | none => some m
  | some x =>
    if !x.pinned then some m
    else
      let m' := m.modCore c (fun k => k.setLine { x with pins := [], refusedAt := none, owed := x.owed || x.refusedAt.isSome })
      if m.widenWrites c x then m'.writeBack c ln else some m'

/-- A widen that is counted as forced and logged on channel 7 (R188). -/
def Mach.forceWiden (m : Mach) (c ln : Nat) : Option Mach :=
  match (m.core c).line? ln with
  | none => some m
  | some x =>
    (m.widenLine c ln).map (fun m =>
      (m.modPart x.part (fun p => { p with forced := p.forced + 1 })).logEvent x.part 7 (sliceOf c) c 0 0xFFFF
        (BitVec.ofNat 64 (128 * ln)) 0)

/-- The 128 sets of 20 ways of an L1 (R26, R343). -/
def sameL1 (a b : Nat) : Bool := Config.l1Set a % 128 == Config.l1Set b % 128

/-- The line that leaves an L1 as another comes in: the least recent of a full set, protected ones last and pinned ones never (R26). -/
def Core.l1Victim (k : Core) (ln : Nat) : Option Nat :=
  if k.l1.length < 20 then none
  else
    let inSet := k.l1.filter (fun x => sameL1 x.line ln)
    let free := inSet.filter (fun x => !x.pinned)
    if inSet.length < 20 then none
    else match (free.filter (fun x => x.cls != 2)).getLast? with
      | some v => some v.line
      | none => free.getLast?.map (·.line)

/-- Room for one more line in an L1: a line that leaves is written back first (R187). -/
def Mach.l1Room (m : Mach) (c ln : Nat) : Option Mach :=
  match (m.core c).l1Victim ln with
  | none => some m
  | some v => (m.writeBack c v).map (fun m => m.modCore c (fun k => k.dropLine v))

/-- What the room for a line waits for: the write-back of the line that would leave. -/
def Mach.roomWaits (m : Mach) (c ln : Nat) : Why := lineWaits c (((m.core c).l1Victim ln).getD ln)

/-- The class with which a line enters an L1: at most 10 of a set are protected (R343). -/
def Core.l1Class (k : Core) (ln : Nat) (cls : BitVec 2) : BitVec 2 :=
  if cls = 2 && decide (10 ≤ k.l1.length) && decide (10 ≤ (k.l1.filter (fun x => x.cls == 2 && x.line != ln && sameL1 x.line ln)).length)
      then 0 else cls

/-- The sectors of a line that its home holds poisoned. -/
def Mach.homePoison (m : Mach) (ln : Nat) : BitVec 4 :=
  (List.range 4).foldl (fun b i => if m.poison.contains (4 * ln + i) then b ||| (1#4 <<< i) else b) 0

/-- How an access reaches a line: for whom, in which class, and through which page and windows. -/
structure Reach where
  part : Nat
  ctx : Nat
  cls : BitVec 2
  chain : BitVec 6
  pin : Nat
  pinMs : Nat

/-- The access reaches the caches of the line's home. -/
def Mach.reachHome (m : Mach) (r : Reach) (ln : Nat) (whole : List Nat) : Mach := m.l2Access (m.tagFor r.part r.ctx ln r.chain r.cls r.pin)
    r.pinMs whole

/-- An atomic reaches the line at its L2 bank, or at its base die on a page with the memory-side attribute (R268, R376). -/
def Mach.reachAtomic (m : Mach) (r : Reach) (ln : Nat) (ms : Bool) : Mach :=
  if ms then m.msAccess (m.tagFor r.part r.ctx ln r.chain r.cls r.pin) r.pinMs else m.reachHome r ln []

/-- The line as its home holds it now, under the dirty bytes that the L1 already has (R178, R269). -/
def Mach.freshLine (m : Mach) (old : Option L1Line) (r : Reach) (ln : Nat) (cls : BitVec 2) : L1Line :=
  let base : L1Line :=
    { line := ln, part := r.part, ctx := r.ctx, data := BitVec.ofNat 1024 (natOf (m.homeBytes (128 * ln) 128)),
      valid := BitVec.allOnes 128, dirty := 0, stamp := m.stampAt r.part (stackOf (128 * ln)), tick := m.tick, pins := [],
      pinTick := 0, refusedAt := none, owed := false, whole := 0, stores := [], cls := cls, poison := m.homePoison ln, lag := false,
      chain := r.chain }
  match old with
  | none => base
  | some y =>
    let z := (List.range 128).foldl (fun (z : L1Line) i => if bitAt y.dirty i then z.put i (y.byte i) else z) base
    let kept := (List.range 4).foldl (fun (b : BitVec 4) i => if fld y.dirty (32 * i) 32 = 0 then b else b ||| (1#4 <<< i)) 0
    { z with dirty := y.dirty, stores := y.stores, pins := y.pins, pinTick := y.pinTick, refusedAt := y.refusedAt, owed := y.owed, whole := y.whole,
             poison := (base.poison ||| (y.poison &&& kept)) &&& ~~~y.whole }

/-- Reads the line at its home into the L1. -/
def Mach.fillLine (m : Mach) (c : Nat) (r : Reach) (ln : Nat) : Option Mach :=
  match (match (m.core c).line? ln with
    | some _ => some m
    | none => m.l1Room c ln) with
  | none => none
  | some m =>
    let m := m.readLine ln []
    some (m.modCore c (fun k => k.setLine (m.freshLine (k.line? ln) r ln (k.l1Class ln r.cls))))

/-- The line's stamp and the witness's epoch count in one frame (R279). -/
def Mach.sameFrame (m : Mach) (p : Nat) (w : W64) : Bool := wPartno w == m.partno && m.originPart w == some p

/-- R178: the line was filled after each of these witnesses was satisfied here. -/
def Mach.usableFor (m : Mach) (c : Nat) (x : L1Line) (ws : List W64) : Bool :=
  ws.all (fun w =>
    wKind w == 0 ||
    (wKind w != 3 && decide (x.stamp ≠ wEpoch w) && epochLater x.stamp (wEpoch w) == x.stamp && m.sameFrame x.part w) ||
    (m.core c).satisfied.any (fun s => s.1 == w && decide (s.2 ≤ x.tick)))

/-- The core whose write-back of the line a home still holds, and no other core may pass (R272, R278, R283). -/
def Mach.widenHeld (m : Mach) (ln : Nat) : Option Nat :=
  m.parts.findSome? (fun kp => (kp.2.held.find? (fun h => h.refused && h.bytes.any (fun b => lineOf b.1 == ln))).map (·.src))

/-- The line refuses other cores: pinned (R188), or widened after it refused an access and not written back yet (R283). -/
def L1Line.refuses (x : L1Line) : Bool := x.pinned || (x.owed && x.dirty != 0)

/-- The core with another L1's line that refuses this one. -/
def Mach.refuserOf (m : Mach) (c ln : Nat) : Option Nat :=
  (m.cores.find? (fun kc => kc.1 != c && (match kc.2.line? ln with
    | some x => x.refuses
    | none => false))).map (·.1)

/-- Another core's line that refuses, or its write-back as its pin ended, not performed yet. -/
def Mach.pinnedElsewhere (m : Mach) (c ln : Nat) : Option Nat :=
  match m.refuserOf c ln with
  | some k => some k
  | none => (m.widenHeld ln).filter (fun k => k != c)

/-- The line's stack has tripped, and no cache of its home holds it: demand for it stops (R405). -/
def Mach.demandStops (m : Mach) (ln : Nat) : Bool := tget false m.stackTrip (stackOf (128 * ln)) && !m.homeHolds ln

/-- No core has this number: it stands for the trip that keeps an access from a line. -/
def tripCore : Nat := 2000

/-- A tripped stack keeps an access from a line. -/
def Mach.tripKeeps (m : Mach) (ln : Nat) : Option Nat := if m.demandStops ln then some tripCore else none

/-- What keeps core `c` from reaching a line at its home: another core's pin, or a tripped stack. -/
def Mach.keptFrom (m : Mach) (c ln : Nat) : Option Nat :=
  match m.pinnedElsewhere c ln with
  | some k => some k
  | none => m.tripKeeps ln

/-- What keeps an atomic that its home has held from the line: what has arrived before it is performed, and what comes after it does not
keep it (R278), but for another core's pin (R188), or a tripped stack. -/
def Mach.keptAtHome (m : Mach) (c ln : Nat) : Option Nat :=
  match m.refuserOf c ln with
  | some k => some k
  | none => m.tripKeeps ln

/-- The line refuses an access: its clock for the forced widen starts (R188). -/
def Mach.refuse (m : Mach) (k ln : Nat) : Mach :=
  match (m.core k).line? ln with
  | some x => m.modCore k (fun c => { c with l1 := c.l1.map (fun y =>
      if y.line = ln && y.pinned && x.refusedAt.isNone then { y with refusedAt := some m.clock } else y) })
  | none => m

/-- Whether a write of core `c` to this line is held at the home (R278). -/
def Mach.heldFrom (m : Mach) (p c ln : Nat) : Bool :=
  (m.part p).held.any (fun h => h.src == c && h.bytes.any (fun b => lineOf b.1 == ln))

/-- What an access to memory answers: done, or what it waits for. -/
inductive Acc (α : Type) where
  | ok (m : Mach) (x : α)
  | hold (m : Mach) (why : Why)

/-- Bytes read, whether a poisoned sector was among them, and the home's stamp when the home served them. -/
structure RdVal where
  bytes : List Byte
  poisoned : Bool
  stamp : Option (BitVec 24)

/-- Poison as a reader in core `c` meets it: that of the copy in its L1, else the home's (R388). -/
def Mach.poisonedAt (m : Mach) (c pa n : Nat) : Bool :=
  (distinct ((List.range n).map (fun i => sectorOf (pa + i)))).any (fun s => match (m.core c).line? (s / 4) with
    | some x => bitAt x.poison (s % 4)
    | none => m.poison.contains s)

/-- A read of device memory through the L1 of core `c`, presenting the witnesses `ws` (R178). -/
def Mach.loadDev (m : Mach) (c : Nat) (r : Reach) (pa n : Nat) (sys : Bool) (ws : List W64) : Acc RdVal :=
  let ln := lineOf pa
  let i := pa % 128
  let serve (m : Mach) (st : Option (BitVec 24)) : Acc RdVal :=
    match (m.core c).line? ln with
    | some x =>
      .ok (m.modCore c (fun k => k.setLine x)) { bytes := (List.range n).map (fun k => x.byte (i + k)), poisoned := m.poisonedAt c pa n, stamp := st }
    | none => .ok m { bytes := m.homeBytes pa n, poisoned := m.poisonedAt c pa n, stamp := st }
  let goHome (m : Mach) : Acc RdVal :=
    match m.keptFrom c ln with
    | some k => .hold (m.refuse k ln) (.pinned k ln)
    | none =>
      if m.heldFrom r.part c ln then .hold m .heldClose
      else
        let st := some (m.stampAt r.part (stackOf pa))
        let m := m.reachHome r ln []
        if r.cls = 3 && ((m.core c).line? ln).isNone then serve (m.readBytes pa n) st
        else match m.fillLine c r ln with
          | some m => serve m st
          | none => .hold m (m.roomWaits c ln)
  match (m.core c).line? ln with
  | none => goHome m
  | some x =>
    if !x.pinned && (m.pinnedElsewhere c ln).isSome then goHome m
    else if x.holdsAll i n && (x.pinned || (!sys && m.usableFor c x ws)) then serve m none
    else if x.pinned || x.dirty = 0 then goHome m
    else match m.writeBack c ln with
      | none => .hold m (lineWaits c ln)
      | some m => goHome m

/-- A device, core or group store entering the L1 of core `c` (R187, R188). -/
def Mach.storeL1 (m : Mach) (c : Nat) (h : Reach) (pa : Nat) (bs : List Byte) (pin : Option Nat) (r : StoreRec) : Acc Unit :=
  let ln := lineOf pa
  match m.pinnedElsewhere c ln with
  | some k => .hold (m.refuse k ln) (.pinned k ln)
  | none =>
    match (match (m.core c).line? ln with
      | some _ => some m
      | none => m.l1Room c ln) with
    | none => .hold m (m.roomWaits c ln)
    | some m =>
      let x : L1Line := ((m.core c).line? ln).getD
        { line := ln, part := h.part, ctx := h.ctx, data := 0, valid := 0, dirty := 0, stamp := m.stampAt h.part (stackOf pa), tick := m.tick,
          pins := [], pinTick := 0, refusedAt := none, owed := false, whole := 0, stores := [], cls := (m.core c).l1Class ln h.cls,
          poison := m.homePoison ln,
          lag := false, chain := h.chain }
      let pinNow := pin.isSome && !x.pinned
      let full := (m.core c).l1.filter (fun y => y.pinned && sameL1 y.line ln)
      let oldest := if pinNow && decide (16 ≤ ((m.core c).l1.filter (fun y => y.pinned)).length) && decide (16 ≤ full.length) then
          full.foldl (fun (o : Option L1Line) y => match o with
            | none => some y
            | some z => if y.pinTick < z.pinTick then some y else some z) none
        else none
      match (match oldest with
        | some v => m.forceWiden c v.line
        | none => some m) with
      | none => .hold m (lineWaits c ((oldest.map (·.line)).getD ln))
      | some m =>
        let x := bs.zipIdx.foldl (fun x b =>
          let y := x.put (pa % 128 + b.2) b.1
          { y with valid := y.valid ||| (1#128 <<< (pa % 128 + b.2)), dirty := y.dirty ||| (1#128 <<< (pa % 128 + b.2)) }) x
        let x := { x with stores := x.stores ++ [r], pins := x.pinsWith pin, pinTick := if pinNow then m.tick else x.pinTick,
                           refusedAt := if pinNow then none else x.refusedAt }
        .ok ((m.modCore c (fun k => k.setLine x)).modCore c (fun k => k.mapGroups (fun _ g => g.disarm false ln))) ()

/-- Sectors of the core's lines that a store word has written whole (R186). -/
def Core.markWhole (c : Core) (ss : List Nat) : Core :=
  { c with l1 := c.l1.map (fun x =>
      let w := ss.foldl (fun (w : BitVec 4) s => if s / 4 = x.line then w ||| (1#4 <<< (s % 4)) else w) 0
      { x with whole := x.whole ||| w, poison := x.poison &&& ~~~w }) }

/-- The core's own older copy of bytes that it writes at the home. -/
def Core.forget (c : Core) (pa n : Nat) : Core :=
  { c with l1 := c.l1.map (fun x =>
      if x.line = lineOf pa then
        let k := (List.range n).foldl (fun (k : BitVec 128) i => k ||| (1#128 <<< (pa % 128 + i))) 0
        { x with valid := x.valid &&& ~~~k, dirty := x.dirty &&& ~~~k }
      else x) }

/-- The dirty device lines of a core; for a snapshot, pinned lines with a store of an epoch up to `e` as well (R277, R363). -/
def Core.closeLines (k : Core) (e : BitVec 24) (snap : Bool) : List Nat :=
  (k.l1.filter (fun x => x.dirty != 0 && (!x.pinned || (snap && x.stores.any (fun r => upTo e r.epoch))))).map (·.line)

/-- They go home. It waits for the core's stores that have not entered the L1. -/
def Mach.closeAtCore (m : Mach) (c : Nat) (e : BitVec 24) (snap : Bool) : Option Mach :=
  if !(m.core c).sbuf.isEmpty then none else ((m.core c).closeLines e snap).foldlM (fun m ln => m.writeBack c ln) m

/-- A close at the core that waits: where its stores have entered the L1, a write-back waits for reserve space, and counts as stalled (R367). -/
def Mach.stallClose (m : Mach) (c : Nat) (e : BitVec 24) (snap : Bool) : Mach :=
  if (m.core c).sbuf.isEmpty then m.stallLines c ((m.core c).closeLines e snap) else m

/-- R279, R363: the core's counter moves to the later epoch; a close it has not yet carried out is carried out first. -/
def Mach.adoptEpoch (m : Mach) (c p : Nat) (e : BitVec 24) : Option Mach :=
  let k := m.core c
  if epochLater k.epoch e = k.epoch then some m
  else
    let ep := (m.part p).ep
    let go (m : Mach) := m.modCore c (fun k => { k with epoch := e, taken := 0, satisfied := [] })
    match ep.closing with
    | none => some (go m)
    | some x =>
      if ep.coresDone.contains c || epochLater x e = x then some (go m)
      else (m.closeAtCore c x ep.snap).map (fun m =>
        go (m.modPart p (fun y => { y with ep := { y.ep with coresDone := c :: y.ep.coresDone } })))

/-- An adoption that waits, for the close that it brings with it. -/
def Mach.stallAdopt (m : Mach) (c p : Nat) : Mach :=
  match (m.part p).ep.closing with
  | some e => m.stallClose c e (m.part p).ep.snap
  | none => m

/-! ### Translation (R350, R351) -/

/-- The translation an access of core `c` uses: a cached one until it is removed, else a walk (log 6). -/
def Mach.translate (m : Mach) (c p ctx va : Nat) (write : Bool) : Option TlbEntry :=
  match (m.core c).tlb.find? (fun e => e.part == p && e.ctx == ctx && decide (e.va ≤ va) && decide (va < e.va + e.size)) with
  | some e => if write && !leafD e.leaf then m.walk p ctx va else some e
  | none => m.walk p ctx va

/-- Addresses of the table entries that a walk reads, from a table down. -/
def Mach.walkReads (m : Mach) (va : Nat) : List (Nat × Nat × Option Nat) → Nat → List Nat
  | [], _ => []
  | (lo, len, _) :: rest, table =>
    let at_ := table + 8 * (va / 2 ^ lo % 2 ^ len)
    let w := m.home64 at_
    if badPa at_ then [] else at_ :: (if bitAt w 0 && !bitAt w 3 then m.walkReads va rest (w &&& 0x000FFFFFFFFFFF00#64).toNat else [])

/-- A walk's own effects: its lines are read at their homes, where they enter L2 as evict-last (R350). -/
def Mach.walked (m : Mach) (p ctx va : Nat) : Mach :=
  let r := ((m.part p).ctxAt ctx).root
  (m.walkReads va levels (r &&& 0x000FFFFFFFFFF000#64).toNat).foldl (fun m a =>
    m.l2Access (m.tagFor p ctx (lineOf a) 0 2 0) 0 []) m

/-- The core holds a translation that it has used; one that it did not hold was walked for. -/
def Mach.cacheTlb (m : Mach) (c : Nat) (e : TlbEntry) : Mach :=
  if (m.core c).tlb.contains e then m
  else (m.walked e.part e.ctx e.va).modCore c (fun k =>
    { k with tlb := e :: k.tlb.filter (fun x => !(x.part == e.part && x.ctx == e.ctx && x.va == e.va)) })

/-- What a first write through a leaf meets: D set, the ring full (R353), or no reserve space for the entry's page (R367). -/
inductive Dirtied where
  | ok (m : Mach)
  | full
  | wait (page : Nat)

/-- R351: sets D at the entry's home, for which the entry is walked for again (R350), and appends one record to the dirty ring. -/
def Mach.setDirty (m : Mach) (p : Nat) (e : TlbEntry) : Dirtied :=
  let now := m.home64 e.at_
  let x := m.part p
  let m := if leafD now then m else m.walked p e.ctx e.va
  if leafD now then .ok m
  else if x.drsize ≠ 0 ∧ (x.drtail - x.drhead).toNat ≥ x.drsize then .full
  else match m.homeWrite none [] (cells e.at_ (bytesOf 8 (now ||| 0x100#64).toNat)) with
  | none => .wait (pageOf e.at_)
  | some m' =>
    if x.drsize = 0 then .ok m'
    else
      let code := if e.size = 65536 then 0 else if e.size = 2 ^ 21 then 1 else 2
      let m' := m'.selfWrite (x.drbase + 16 * (x.drtail.toNat % x.drsize)) (bytesOf 8 e.va ++ bytesOf 8 (e.ctx + 256 * code))
      .ok (m'.modPart p (fun y => { y with drtail := y.drtail + 1 }))

/-- An append to a full ring waits there, and the partition exits to the reeve (R353). -/
def Mach.holdAppend (m : Mach) (p : Nat) (e : TlbEntry) : Mach :=
  let code := if e.size = 65536 then 0 else if e.size = 2 ^ 21 then 1 else 2
  m.modPart p (fun x => { x with
    ringExit := true,
    drheld := if x.drheld.any (fun y => y.2.2.2 == e.at_) then x.drheld else x.drheld ++ [(e.va, e.ctx, code, e.at_)] })

/-- The class that governs a line: the word's, else the page's (R343). -/
def lineClass (cc : BitVec 2) (e : TlbEntry) : BitVec 2 := if cc = 0 then leafCC e.leaf else cc

/-- How an access of a context reaches a line through a leaf. -/
def Mach.reachOf (m : Mach) (p ctx pa : Nat) (e : TlbEntry) (cc : BitVec 2) : Reach :=
  let va := e.va + (pa - leafBase e.leaf)
  let x := (m.part p).ctxAt ctx
  { part := p, ctx := ctx, cls := lineClass cc e, chain := leafChain e.leaf, pin := x.windowOf va false, pinMs := x.windowOf va true }

/-- The port by which requests for part `home` on line `x` leave: one of ROUTE's PORTS, chosen by a hash (R358, R359); to the host, its
port (R356), numbered 16. -/
def Mach.exitPort (m : Mach) (home x : Nat) : Nat :=
  let l := (List.range 16).filter (fun k => bitAt (tget 0 m.routes home) k)
  if home = 64 then 16 else l.getD (Config.routeHash x % l.length) 0

/-- The ports that requests for these homes and lines leave by. -/
def Mach.exitPorts (m : Mach) (places : List (Nat × Nat)) : List Nat :=
  (places.filter (fun x => x.1 != m.partno.toNat)).map (fun x => m.exitPort x.1 x.2)

/-- A link among these is down: what leaves by it is refused (R359). -/
def Mach.linkLost (m : Mach) (ports : List Nat) : Bool := ports.any (fun k => (tget Port.reset m.ports k).down)
/-- Nothing passes through these ports: one is down, or paused (R359, R405). -/
def Mach.linkShut (m : Mach) (ports : List Nat) : Bool := m.linkLost ports || ports.any m.linkPaused

/-- Memory outside the part: the host's (home 64) and other parts'. -/
def farKey (home pa : Nat) : Nat := (home + 1) * 2 ^ 64 + pa
def Mach.farBytes (m : Mach) (home pa n : Nat) : List Byte := (List.range n).map (fun i => tget 0 m.far (farKey home (pa + i)))
def Mach.farWrite (m : Mach) (home pa : Nat) (bs : List Byte) : Mach :=
  { m with far := bs.zipIdx.foldl (fun f b => tset 0 f (farKey home (pa + b.2)) b.1) m.far }

/-- An access of the part itself to another part is refused: its link is down, or the target takes it inside none of its windows, which
only that part knows (R355, log 99). -/
def Mach.farRefused (m : Mach) (home pa : Nat) : Bool :=
  home != 64 && (m.linkLost [m.exitPort home (lineOf pa)] || Config.windowRefuses home pa m.tick)

/-- The link to a home outside the part is paused (R405). -/
def Mach.farPaused (m : Mach) (home pa : Nat) : Bool := home != m.partno.toNat && m.linkPaused (m.exitPort home (lineOf pa))

/-- A policy that is due at the end of the cycle (R408). -/
def Mach.askPolicy (m : Mach) (p dom c cause : Nat) : Mach := m.modPart p (fun x => { x with policies := x.policies ++ [(dom, c, cause)] })

/-- The cause of an uncorrectable error consumed (R77), which a refused remote access acts as (R393). -/
def errorCause : Nat := 0x31

/-- An access of the part itself is refused by another part, for a region of this fault domain: an error record on channel 9, and the domain's
policy (R355, R393). Without a domain there is the record alone. -/
def Mach.selfRefused (m : Mach) (p dom port : Nat) : Mach :=
  let m := m.logEvent p 9 0xFF port 5 (if dom < 64 then dom else noDomain) 0 (0xC000000000000005#64)
  if dom < 64 then m.askPolicy p dom (96 * p) errorCause else m

/-- A waiting write of the part itself, performed now if D can be set, its page written (R351, R353, R367) and its link used (R405). One to
another part that is refused is lost (R355). -/
def Mach.ownStoreNow (m : Mach) (p : Nat) (x : OwnStore) : Option Mach :=
  let home := homeOf x.leaf.leaf
  if m.farPaused home x.pa then none
  else match m.setDirty p x.leaf with
  | .full | .wait _ => none
  | .ok m1 =>
    if home = m.partno.toNat then
      (m1.homeWrite none (wholeSectors (cells x.pa x.bytes)) (cells x.pa x.bytes)).map (fun m2 => m1.setGC m2 x.leaf.at_ (pageOf x.pa))
    else if m.farRefused home x.pa then some (m1.selfRefused p x.dom (m.exitPort home (lineOf x.pa)))
    else some (m1.farWrite home x.pa x.bytes)

/-- The write waits: for its link, for an append to a full ring, which waits there, or for reserve space. -/
def Mach.ownStoreWait (m : Mach) (p : Nat) (x : OwnStore) : Mach :=
  let m := if m.farPaused (homeOf x.leaf.leaf) x.pa then m else match m.setDirty p x.leaf with
    | .full => m.holdAppend p x.leaf
    | .wait pg => m.countStall pg (whoOwn x.leaf.at_)
    | .ok _ => m.countStall (pageOf x.pa) (whoOwn x.pa)
  m.modPart p (fun y => { y with ownWaits := y.ownWaits ++ [x] })

/-- Performed unless it must wait, itself or behind an earlier one to its page. -/
def Mach.ownStoreTry (m : Mach) (p : Nat) (x : OwnStore) : Mach :=
  if (m.part p).ownWaits.any (fun y => y.leaf.at_ == x.leaf.at_) then m.modPart p (fun y => { y with ownWaits := y.ownWaits ++ [x] })
  else (m.ownStoreNow p x).getD (m.ownStoreWait p x)

/-- A store of the part itself through a leaf, performed at the home of its page. -/
def Mach.ownStore (m : Mach) (p dom : Nat) (e : TlbEntry) (pa : Nat) (bs : List Byte) : Mach :=
  m.ownStoreTry p { leaf := e, pa := pa, bytes := bs, dom := dom }

/-- The context runs: it is not halted, nor halting (R336). -/
def Mach.ctxRuns (m : Mach) (p ctx : Nat) : Bool := (m.part p).running == some ctx && !(m.part p).halting

/-- Waiting writes of the part itself go on in their order, those of a halted context once it runs again (R360). -/
def Mach.proceedOwn (m : Mach) (p : Nat) : Mach :=
  (m.part p).ownWaits.foldl (fun m x =>
    if m.ctxRuns p x.leaf.ctx then m.ownStoreTry p x else m.modPart p (fun y => { y with ownWaits := y.ownWaits ++ [x] }))
    (m.modPart p (fun y => { y with ownWaits := [] }))

end Sys2Proof.Machine
end

