-- ==== Sys2Proof/Machine/Ops.lean ====
section
/-! DEFINITION. The operations that every word shares: parking, the trap (R76, R389 to R392) and the return from
it (FDRES, R394), presentation of witnesses (R81), sequence numbers (R185), sequencing (R66 to R69, R253 to
R257), and the issue of one word (R64, R78, R137, R259 to R262). -/

namespace Sys2Proof.Machine

/-- A trap as raised: cause (R77), LANES and DETAIL (R76). -/
structure Trap where
  cause : Nat
  lanes : W64
  detail : W64
  deriving DecidableEq, Repr

/-! ### Group states (R248) -/

/-- The waits that R248 calls WAITING; the others are PARKED. -/
def Why.waits : Why → Bool
  | .present _ | .rendezvous _ | .waita | .launchAccept _ | .twait _ | .chunk _ _ => true
  | _ => false

def Group.park (g : Group) (why : Why) : Group :=
  { g with status := if why.waits then .waiting why else .parked why }

/-- A group parks; a write of its that waits for reserve space counts as stalled (R367). -/
def Mach.park (m : Mach) (why : Why) : Mach :=
  let m := match why with
    | .reserve pg who => m.countStall pg who
    | _ => m
  m.modMe (fun g => g.park why)

/-- A line whose write-back finds no reserve space as its pin ends: it waits for the next write-back that reaches it, and refuses
accesses until then (R188, R367). -/
def Mach.widenWaiting (m : Mach) (c : Nat) (x : L1Line) : Mach :=
  (m.modCore c (fun k => k.setLine { x with pins := [], refusedAt := none, owed := true })).countStall
    (pageOf (128 * x.line)) (whoLine c x.line)

/-- A group's pin of a line ends. The line is widened unless another group pins it too. -/
def Mach.endPin (m : Mach) (c slot : Nat) (x : L1Line) : Mach :=
  if x.pins.all (fun k => k == slot) then (m.widenLine c x.line).getD (m.widenWaiting c x)
  else m.modCore c (fun k => { k with l1 := k.l1.map (fun y => if y.line = x.line then { y with pins := y.pins.erase slot } else y) })

/-- The pins of a group end: every line that it alone pinned becomes an ordinary dirty line (R188, R189). -/
def Mach.widenAll (m : Mach) (c slot : Nat) : Mach :=
  ((m.core c).l1.filter (fun x => x.pins.contains slot)).foldl (fun m x => m.endPin c slot x) m

/-- No lane remains (R69): the pins end; the slot is released once every result has returned. -/
def Mach.endGroup (m : Mach) (c slot : Nat) : Mach :=
  (m.widenAll c slot).setGroup c slot { (m.group c slot) with status := .ended, xm := 0, recs := [], waita := none }

/-! ### Ending teams and regions (R390 to R392) -/

def Team.onCore (t : Team) (c : Nat) : Bool := t.core == c || (t.pair && t.core + 1 == c)
def Team.slotOn (t : Team) (c : Nat) : Nat := if t.core = c then t.tslot else t.tslotF
def Team.cores (t : Team) : List Nat := if t.pair then [t.core, t.core + 1] else [t.core]

def slotsOf (c : Core) (team : Nat) : List Nat := (c.groups.filter (fun kg => kg.2.team == team)).map (·.1)

/-! ### What of a team is on its cores, and what is spilled (R338) -/

def Mach.shadowKey (m : Mach) (id c : Nat) : Nat := 2 * id + (if (m.team id).core = c then 0 else 1)

/-- What of a team's half is spilled from core `c`: some of its groups, or all that it held there. -/
def Mach.shadowOn (m : Mach) (id c : Nat) : Option Shadow :=
  match tget none m.shadow (m.shadowKey id c) with
  | some x => if x.core = some c then some x else none
  | none => none

def Mach.residents (m : Mach) (c : Nat) : List Nat := (m.core c).teams.map (·.2)

/-- Group slots that a team holds on a core, resident or spilled. -/
def Mach.heldSlots (m : Mach) (c id : Nat) : List Nat :=
  slotsOf (m.core c) id ++ (match m.shadowOn id c with
  | some x => x.groups.map (·.1)
  | none => [])

/-- Rewrites a group of a team where it is: in its slot, or spilled from it (R338). -/
def Mach.modWhere (m : Mach) (id c s : Nat) (f : Group → Group) : Mach :=
  if (m.group c s).team = id then m.setGroup c s (f (m.group c s))
  else
    let key := m.shadowKey id c
    { m with shadow := tset none m.shadow key ((tget none m.shadow key).map (fun x =>
        if x.groups.any (fun g => g.1 == s) then { x with groups := tset Group.none x.groups s (f (tget Group.none x.groups s)) } else x)) }

def poisonTile (x : Option Tile) (code : BitVec 16) : Option Tile :=
  x.map (fun t => if t.st = .filling || t.st = .draining then { t with st := .poisoned, fcode := code, ring := none } else t)

/-- A stream as a team leaves it: free if the team owned it, and without the feeds of the team; flushed feeds of an earlier owner go on (R224,
R226). -/
def Stream.without (s : Stream) (team : Nat) : Stream :=
  { (if s.owner = some team then Stream.free else s) with feeds := s.feeds.filter (fun f => f.team != team) }

/-- Releases what a team holds on a core: tiles (R213) and streams (R224). -/
def Core.releaseTeam (c : Core) (team : Nat) : Core :=
  { c with
    tiles := tmap none (fun _ x => match x with
      | some t => if t.team = team then none else some t
      | none => none) c.tiles,
    streams := tmap Stream.free (fun _ s => s.without team) c.streams }

def CopyDst.isPrefetch : CopyDst → Bool
  | .prefetch _ => true
  | _ => false

/-- A copy of an ended team ends with its error record (R390); a prefetch just ends. -/
def Mach.killCopy (m : Mach) (id k : Nat) : Mach :=
  let t := m.team id
  let x : Mach := { m with copies := tset none m.copies k none }
  if ((tget none m.copies k).map (·.kind.isPrefetch)).getD false then x else x.logEvent t.part 6 (sliceOf t.core)
      (((tget none m.copies k).bind (·.engine)).getD 0) 1 (m.inst t.inst).fdom 0 0

def Mach.killCopies (m : Mach) (id : Nat) : Mach :=
  let ours := m.copies.filter (fun kx => match kx.2 with
    | some x => x.team == id
    | none => false)
  ours.foldl (fun m kx => m.killCopy id kx.1) m

/-- A store or atomic with its number is on its way to another part (R355), or waits at its home (R278). -/
def Mach.sentStore (m : Mach) (id : Nat) : Bool :=
  (match tget none m.remotes id with
   | some r => r.seq.isSome
   | none => false) ||
  m.parts.any (fun kp => kp.2.held.any (fun h => h.waiters.any (fun w => w.2.2 == id)))

/-- A snap of a group that is killed asks for no close any more; one whose close runs is answered to nobody. -/
def Epochs.dropSnaps (ep : Epochs) (c k : Nat) : Epochs :=
  let l := if ep.snap && ep.closing.isSome then ep.snaps.take 1 else []
  { ep with snaps := l ++ (ep.snaps.drop l.length).filter (fun s => !(s.1 == c && s.2.1 == k)) }

/-- A group ends where it stands, and what it waits for returns nothing; a store already sequenced is still performed (R390). -/
def Mach.killGroup (m : Mach) (c k : Nat) : Mach :=
  let x := (m.endGroup c k).modPart (m.team (m.group c k).team).part (fun p => { p with ep := p.ep.dropSnaps c k })
  x.setGroup c k { x.group c k with outs := (m.group c k).outs.map (fun o => { o with writes := [], ready := o.ready || !m.sentStore o.id }) }

/-- Error records of words that end unfinished on a core, one each: deferred words and matrix words (R247, R267; log 78). -/
def Mach.recordEnds (m : Mach) (id c n : Nat) : Mach :=
  (List.range n).foldl (fun m _ => m.logEvent (m.team id).part 5 (sliceOf c) c 1 (m.inst (m.team id).inst).fdom 0 0) m

/-- Words of a team that a core still holds unfinished. -/
def Core.unfinished (k : Core) (id : Nat) : Nat :=
  (k.log.filter (fun e => !e.done && (slotsOf k id).contains e.slot)).length + (k.queue.filter (fun q => q.1 == id)).length

/-- What a core still holds of an ended team: its tiles poisoned, its streams free, its words in queues gone. -/
def Core.dropTeam (k : Core) (id : Nat) : Core :=
  { k with
    tiles := tmap none (fun _ x => match x with
      | some y => if y.team = id then poisonTile (some y) 1 else some y
      | none => none) k.tiles,
    streams := tmap Stream.free (fun _ s => s.without id) k.streams,
    log := k.log.filter (fun e => !(slotsOf k id).contains e.slot),
    queue := k.queue.filter (fun q => q.1 != id) }

/-- Deferred words of a team that lie spilled with its half on a core. -/
def Mach.spilledWords (m : Mach) (id c : Nat) : Nat :=
  match tget none m.shadow (m.shadowKey id c) with
  | some x => (x.log.filter (fun e => !e.done)).length
  | none => 0

def Mach.killOnCore (m : Mach) (id c : Nat) : Mach :=
  let n := (m.core c).unfinished id + m.spilledWords id c
  let m := m.recordEnds id c n
  ((slotsOf (m.core c) id).foldl (fun m k => m.killGroup c k) m).modCore c (fun k => k.dropTeam id)

/-- A team's launches and loads in flight, and what it had spilled, are gone; stores already sequenced stand (R390). -/
def Mach.dropAsked (m : Mach) (id : Nat) : Mach :=
  let t := m.team id
  let own (c k : Nat) : Bool := t.onCore c && (slotsOf (m.core c) id).contains k
  { m.modPart t.part (fun p => { p with dev := p.dev.filter (fun d => !own d.core d.slot) }) with
    shadow := tset none (tset none m.shadow (2 * id) none) (2 * id + 1) none,
    remotes := tmap none (fun _ x => match x with
      | some r => if own r.core r.slot && r.seq.isNone then none else some r
      | none => none) m.remotes }

/-- Every group of the team stops and ends; its work in flight ends with error records (R390). -/
def Mach.killTeam (m : Mach) (id : Nat) : Mach :=
  (((m.team id).cores.foldl (fun m c => m.killOnCore id c) (m.killCopies id)).dropAsked id).modTeam id (fun t => { t with ended := true, rv := [] })

def Mach.teamsOf (m : Mach) (f : Team → Bool) : List Nat :=
  (m.teams.filter (fun kt => !kt.2.ended && f kt.2)).map (·.1)

/-- FDCFG.V: a domain is in use while one of its regions has neither completed nor ended (R389). -/
def Mach.sweepDoms (m : Mach) (p : Nat) : Mach :=
  let live (d : Nat) : Bool := m.insts.any (fun ki => ki.2.part == p && ki.2.fdom == d && ki.2.state != .ended && ki.2.state != .complete)
  m.modPart p (fun x => (List.range 64).foldl (fun (x : Part) d => x.setFd d { (x.fd d) with v := live d }) x)

/-- Marks whose task has left its queue are cleared (R313). -/
def Mach.sweepMarks (m : Mach) : Mach :=
  let queued (g : Nat) (k : Mark) : Bool := m.parts.any (fun kp =>
    (tget [] kp.2.queues g).any (fun t => t.inst == k.inst && t.team == k.team) || kp.2.persQ.any (fun t => t.inst == k.inst))
  m.mapCores (fun c k => match k.mark with
    | some x => if queued (gangOf c) x then k else { k with mark := none }
    | none => k)

/-- A region instance leaves the machine in state ENDED (R304). -/
def Mach.endInst (m : Mach) (i status cause : Nat) (record : Bool) : Mach :=
  let x := m.inst i
  let m := (m.teamsOf (fun t => t.inst == i)).foldl Mach.killTeam m
  let m := m.modPart x.part (fun p =>
    { p with queues := tmap [] (fun _ q => q.filter (fun t => t.inst != i)) p.queues, persQ := p.persQ.filter (fun t => t.inst != i),
             reserved := p.reserved.filter (fun r => r.1 != i) })
  let m := (m.setInst i { x with state := .ended, status := status, cause := cause, recorded := x.recorded || !record }).sweepMarks.sweepDoms x.part
  match x.parent with
  | some j => m.modInst j (fun y => { y with children := y.children - 1 })
  | none => m

/-- The instances of a partition that are still alive. -/
def Mach.liveInsts (m : Mach) (p : Nat) (f : Inst → Bool) : List Nat :=
  (m.insts.filter (fun ki => ki.2.part == p && ki.2.state != .ended && ki.2.state != .complete && f ki.2)).map (·.1)

/-- Runs an instance again from its retained acceptance state, INST and TAG unchanged (R392). It is the same instance: cycles spent
stay spent (R308), and a child that still runs is still waited for (R303). -/
def Mach.rerun (m : Mach) (i : Nat) : Mach :=
  let m := match (m.inst i).parent with
    | some j => m.modInst j (fun y => { y with children := y.children + 1 })
    | none => m
  (m.modInst i (fun x => { x with state := .held, status := 0, cause := 0, teamsDone := 0, placed := 0, recorded := false,
                                  frozen := false })).sweepDoms (m.inst i).part

/-- The instance that opened a fault domain, while it lives. -/
def Mach.domRoot (m : Mach) (p dom : Nat) : Option Nat :=
  (m.insts.find? (fun ki => ki.2.part == p && ki.2.fdom == dom && ki.2.state != .complete && ki.2.state != .ended &&
    (match ki.2.parent with
     | some j => (m.inst j).fdom != dom
     | none => true))).map (·.1)

def Mach.killDomain (m : Mach) (p dom status cause : Nat) (record : Bool) : Mach :=
  (m.liveInsts p (fun x => x.fdom == dom)).foldl (fun m i => m.endInst i status cause record) m

/-- A group halts, its sleep suspended and its time in the active set stopped (R132, R251, R337). -/
def Group.halt (g : Group) (now : Nat) : Group :=
  if g.halted then g
  else match g.status with
    | .sleeping t => { g with halted := true, sleepLeft := t - now }
    | _ => { g with halted := true, since := now - g.since }

/-- A group goes on in the state that it held (R337), ready as of now (R250); one of the active set that finds no free place there joins the pending
set (R251; DESIGN CHOICE, log 85). -/
def Group.resume (g : Group) (free : Bool) (now : Nat) : Group :=
  if !g.halted then g
  else match g.status with
    | .sleeping _ => { g with halted := false, status := .sleeping (now + g.sleepLeft), sleepLeft := 0 }
    | .active => { g with halted := false, status := if free then .active else .pending, since := now - g.since, readyAge := now }
    | _ => { g with halted := false, since := now - g.since, readyAge := now }

def Group.isActive (g : Group) : Bool := g.status == .active && !g.halted
def Core.activeCount (k : Core) : Nat := (k.groups.filter (fun x => x.2.isActive)).length

/-- The halted groups of a team on a core go on, as far as the active set has places in slot order. -/
def Core.resume (k : Core) (id now : Nat) : Core :=
  k.groups.foldl (fun k x => if x.2.team = id then { k with groups := tset Group.none k.groups x.1 (x.2.resume (decide (k.activeCount < 8)) now)
      } else k)
    k

/-- Every group of an instance halts, and stays halted when its context resumes. -/
def Mach.haltInst (m : Mach) (i : Nat) : Mach :=
  (m.teamsOf (fun t => t.inst == i)).foldl (fun m id =>
    (m.team id).cores.foldl (fun m c => m.modCore c (fun k =>
      k.mapGroups (fun _ g => if g.team = id then g.halt m.clock else g))) m) (m.modInst i (fun y => { y with frozen := true }))

/-- The policy of a fault domain (R392), for a gang of core `c`. -/
def Mach.policy (m : Mach) (p dom c cause : Nat) : Mach :=
  let fd := (m.part p).fd dom
  let kill := m.killDomain p dom 2 cause true
  match fd.pol.toNat with
  | 1 =>
    if fd.runs.toNat < fd.rtry.toNat then
      match m.domRoot p dom with
      | none => kill
      | some r =>
        let m := (m.killDomain p dom 2 cause false).rerun r
        m.modPart p (fun x => x.setFd dom { (x.fd dom) with runs := (x.fd dom).runs + 1 })
    else kill
  | 2 =>
    if (m.part p).gens.any (fun g => g.st == 2) then
      let m := (m.liveInsts p (fun x => x.fdom == dom)).foldl (fun m i =>
        m.haltInst i) m
      (m.modPart p (fun x => { x with rollback := if x.rollback.contains dom then x.rollback else x.rollback ++ [dom] })).logEvent p 5 (sliceOf c) c
        cause dom 0 0
    else kill
  | _ => kill

/-- The policies of a cycle are applied, each domain's once, for the gang of the lowest core (R408). -/
def Mach.applyPolicies (m : Mach) (p : Nat) : Mach :=
  let l := (m.part p).policies
  (l.filter (fun x => l.all (fun y => y.1 != x.1 || decide (x.2.1 ≤ y.2.1)))).foldl
    (fun m x => if (m.part p).policies.any (fun y => y.1 == x.1) then
        (m.policy p x.1 x.2.1 x.2.2).modPart p (fun q => { q with policies := q.policies.filter (fun y => y.1 != x.1) })
      else m) m

/-- R390, R391: every team of the region on the gang ends; the gang is relaunched, or the policy is due. -/
def Mach.killGang (m : Mach) (i gang cause : Nat) : Mach :=
  let x := m.inst i
  let p := x.part
  let ids := m.teamsOf (fun t => t.inst == i && gangOf t.core == gang)
  let tasks : List Task := ids.map (fun id => { inst := i, team := (m.team id).num.toNat, waited := 0, saved := none, front := m.tick + 1 })
  let m := ids.foldl Mach.killTeam m
  let m := m.modPart p (fun q => q.setFd x.fdom
    { (q.fd x.fdom) with gkill := if (q.fd x.fdom).gkill = BitVec.allOnes 16 then (q.fd x.fdom).gkill else (q.fd x.fdom).gkill + 1 })
  let m := m.logEvent p 5 (gang / 12) (8 * gang) cause x.fdom 0 0
  let count := match (m.part p).relaunch.find? (fun r => r.1 == i && r.2.1 == gang) with
    | some r => r.2.2
    | none => 0
  if x.restart && decide (count < ((m.part p).fd x.fdom).rtry.toNat) then
    (m.modPart p (fun q =>
      { q with relaunch := (i, gang, count + 1) :: q.relaunch.filter (fun r => !(r.1 == i && r.2.1 == gang)),
               queues := tset [] q.queues gang (tasks ++ tget [] q.queues gang) })).modInst i
      (fun y => { y with placed := y.placed - tasks.length })
  else m.askPolicy p x.fdom (8 * gang) cause

/-! ### Taking a trap (R76, R389) -/

/-- WHO (R76). -/
def Mach.who (m : Mach) (c k : Nat) : W32 :=
  let g := m.group c k
  let t := m.team g.team
  BitVec.ofNat 32 (c * 2 ^ 21 + g.grp % 32 * 2 ^ 16 + t.ctx % 8 * 2 ^ 13 + t.part % 16 * 2 ^ 9)

/-- The record is kept: it is of an earlier cycle, or of a lower core of this one (R389, R408). -/
def FaultDom.keeps (f : FaultDom) (who : W32) (now : Nat) : Bool := f.hasRec && !(f.recAt == now && decide (fld who 21 11 < fld f.rwho 21 11))

def FaultDom.record (f : FaultDom) (pc xm : W64) (t : Trap) (who : W32) (now : Nat) : FaultDom :=
  let f := { f with traps := satAdd1 f.traps }
  if f.keeps who now then f
  else { f with hasRec := true, rpc := pc, rxm := xm, rlanes := t.lanes, rdetail := t.detail, rwho := who, rcause := BitVec.ofNat 16 t.cause,
                recAt := now }

/-- The domain of a group's region (R389), and whether it waits for a roll back. -/
def Mach.domOf (m : Mach) (c k : Nat) : Nat := (m.inst (m.team (m.group c k).team).inst).fdom
def Mach.rollsBack (m : Mach) (c k : Nat) : Bool := (m.part (m.team (m.group c k).team).part).rollback.contains (m.domOf c k)

/-- The trap's record goes to the fault domain of the group's region, unless the domain rolls back, and the trap to the log. -/
def Mach.noteTrap (m : Mach) (c k : Nat) (pc : W64) (t : Trap) : Mach :=
  let p := (m.team (m.group c k).team).part
  let f (x : Part) : Part := x.setFd (m.domOf c k) ((x.fd (m.domOf c k)).record pc (m.group c k).xm t (m.who c k) m.clock)
  (m.modPart p (if m.rollsBack c k then id else f)).logEvent p 5 (sliceOf c) c t.cause (m.domOf c k) 0 pc

/-- A breakpoint in a domain with DBG stops its group alone (R394). -/
def Mach.stopsAt (m : Mach) (c k : Nat) (t : Trap) : Bool :=
  t.cause == 9 && ((m.part (m.team (m.group c k).team).part).fd (m.domOf c k)).dbg

/-- Trap(c): it is recorded and logged; a stopping breakpoint stops its group alone (R394), every other trap kills the gang (R390).
While the domain rolls back, it is logged only (R408). -/
def takeTrap (m : Mach) (c k : Nat) (pc : W64) (t : Trap) : Mach :=
  let m' := m.noteTrap c k pc t
  if m.rollsBack c k then m'
  else if m.stopsAt c k t then m'.setGroup c k { (m'.group c k) with status := .parked .brkStop }
  else m'.killGang (m.team (m.group c k).team).inst (gangOf c) t.cause

/-- The return from a breakpoint: the group goes on at pc + 1 (R394). -/
def resumeBrk (m : Mach) (c k : Nat) : Mach :=
  let g := m.group c k
  m.setGroup c k { g with status := .pending, pc := g.pc + 1, readyAge := m.clock, readyTick := m.tick, unready := false }

/-- A refused remote access or presentation (R355, R393): channel 9, then the gang is killed as for an uncorrectable error consumed. -/
def refusedRemote (m : Mach) (c k port : Nat) : Mach :=
  let tm := m.team (m.group c k).team
  (m.logEvent tm.part 9 0xFF port 5 (m.inst tm.inst).fdom 0 (0xC000000000000005#64)).killGang tm.inst (gangOf c) errorCause

/-! ### Witnesses (R81, R82, R184) -/

def failW (code : Nat) : W64 := BitVec.ofNat 64 (3 * 2 ^ 62 + code % 65536)
/-- Performed(w) of R79. -/
def performed (w : W64) : Bool := wKind w == 1 && wScope w == 3

def pointW (scope : Nat) (part : BitVec 6) (core : Nat) (seq : BitVec 19) (e : BitVec 24) : W64 :=
  BitVec.ofNat 64 (2 ^ 62 + scope * 2 ^ 60 + part.toNat * 2 ^ 54 + core * 2 ^ 43 + seq.toNat * 2 ^ 24 + e.toNat)
def epochW (scope : Nat) (part : BitVec 6) (origin : Nat) (e : BitVec 24) : W64 :=
  BitVec.ofNat 64 (2 ^ 63 + scope * 2 ^ 60 + part.toNat * 2 ^ 54 + origin % 16 * 2 ^ 50 + e.toNat)

def sameOrigin (m : Mach) (a b : W64) : Bool :=
  if wPartno a ≠ wPartno b then false
  else if wPartno a = m.partno then m.originPart a == m.originPart b
  else wKind a == 2 && wKind b == 2 && wOrigin a == wOrigin b

/-- WMerge (R82). Where the slices of both cores belong to no partition, OriginPartition is taken as 0 (DESIGN CHOICE, log 79). -/
def wMerge (m : Mach) (a b : W64) : W64 :=
  if wKind a = 3 then a
  else if wKind b = 3 then b
  else if wKind a = 0 then b
  else if wKind b = 0 then a
  else
    let sc := if (wScope b).toNat ≤ (wScope a).toNat then wScope a else wScope b
    if wKind a = 1 && wKind b = 1 && fld a 43 17 == fld b 43 17 then
      let x :=
        if wEpoch a = wEpoch b then (if (wSeq a - wSeq b).toNat < 2 ^ 18 then a else b)
        else if epochLater (wEpoch a) (wEpoch b) = wEpoch a then a else b
      (x &&& ~~~0x3000000000000000#64) ||| (sc.setWidth 64 <<< 60)
    else if !sameOrigin m a b then
      (if performed b then a else if performed a then b else failW 6)
    else epochW sc.toNat (wPartno a) ((m.originPart a).getD 0) (epochLater (wEpoch a) (wEpoch b))

/-- What a presentation meets (R81), before anything is pulled or awaited. -/
inductive Present where
  | ok
  | fail
  | future
  | other
  | past (e : BitVec 24)
  | awaitDone (e : BitVec 24)
  | closeOpen (e : BitVec 24)
  | own (e : BitVec 24)
  | drain (core : Nat) (seq : BitVec 19) (e : BitVec 24)
  | remote
  deriving DecidableEq, Repr

def Mach.classify (m : Mach) (c p : Nat) (w : W64) : Present :=
  if wKind w = 0 then .ok
  else if wKind w = 3 then .fail
  else if wPartno w ≠ m.partno then (if performed w then .other else .remote)
  else if m.originPart w ≠ some p then .other
  else
    let ep := (m.part p).ep
    let e := wEpoch w
    let d := (ep.openEpoch - e).toNat
    if d ≥ 2 ^ 23 then .future
    else if ep.closing = some e then .awaitDone e
    else if d > 0 then .past e
    else if wKind w = 2 then .closeOpen e
    else if wCore w = c || performed w then .own e
    else .drain (wCore w) (wSeq w) e

/-- Causes 0x15 and 0x14 of a presentation. -/
def Mach.presentTrap (m : Mach) (c p : Nat) (lanes w : W64) : Option Trap :=
  match m.classify c p w with
  | .fail => some { cause := 0x15, lanes := lanes, detail := w &&& 0xFFFF#64 }
  | .future => some { cause := 0x14, lanes := lanes, detail := 0 }
  | _ => none

def Core.noteSatisfied (c : Core) (w : W64) (tick : Nat) : Core :=
  if c.satisfied.any (fun s => s.1 == w) then c else { c with satisfied := ((w, tick) :: c.satisfied).take 16 }

def Mach.fresh (m : Mach) : Mach × Nat := ({ m with nextId := m.nextId + 1 }, m.nextId)

def Mach.demandClose (m : Mach) (p : Nat) (e : BitVec 24) : Mach :=
  m.modPart p (fun x => { x with ep := { x.ep with demands := if x.ep.demands.contains e then x.ep.demands else e :: x.ep.demands } })

/-- Starts the drain that answers `w` unless one is on its way (R273). -/
def Mach.startDrain (m : Mach) (by_ : Nat) (core : Nat) (seq : BitVec 19) (e : BitVec 24) (w : W64) : Mach :=
  if m.drains.any (fun kd => match kd.2 with
      | some d => d.byCore == by_ && d.w == w
      | none => false) then m
  else
    let (m, id) := m.fresh
    { m with drains := tset none m.drains id (some { core := core, seq := seq, epoch := e, byCore := by_, w := w, written := false }) }

/-- Another part of the domain answers a presentation of `w`; one to a part outside MEM is refused (R359). -/
def Mach.answers (m : Mach) (w : W64) : Bool := bitAt m.dommem (wPartno w).toNat

/-- The answer to a presentation, as the core keeps it (R191). -/
def Mach.noteAnswer (m : Mach) (c : Nat) (w : W64) (refused : Bool) : Mach :=
  m.modCore c (fun k => { k with remoteDone := (w, refused) :: k.remoteDone.filter (fun x => x.1 != w) })

/-- RemotePresent (R359) on its way from a core. -/
def Mach.sendPresent (m : Mach) (c slot : Nat) (w : W64) : Mach :=
  if m.remotes.any (fun kr => match kr.2 with
      | some r => r.core == c && r.w == some w
      | none => false) then m
  else
    let (m, id) := m.fresh
    let r : Remote := { core := c, slot := slot, outId := 0, home := (wPartno w).toNat, ports := [m.exitPort (wPartno w).toNat w.toNat], lines := [],
                        spans := [], w := some w,
                        entry := none, seq := none, sent := m.tick }
    { m with remotes := tset none m.remotes id (some r) }

/-! ### Work of a core that a number covers (R272, R273) -/

def seqUpTo (q s : BitVec 19) : Bool := decide ((s - q).toNat < 2 ^ 18)

/-- A number of epoch `x` was taken at or before number `s` of epoch `e`. -/
def sequencedBy (q s : BitVec 19) (x e : BitVec 24) : Bool := if x = e then seqUpTo q s else epochLater x e == e

def isAtomic : Instr → Bool
  | .atom .. | .atomG .. | .fatom .. | .fatomG .. | .atoms .. | .atomsG .. => true
  | _ => false

/-- Work of a core up to a number that is still under way (R273): copies, row paths, and words on their way to their homes that are atomics or
write to this part. -/
def Mach.workUnderWay (m : Mach) (c : Nat) (s : BitVec 19) (e : BitVec 24) : Bool :=
  m.copies.any (fun kx => match kx.2 with
    | some x => x.core == c && (match x.seq with
      | some q => sequencedBy q s x.epoch e
      | none => false)
    | none => false) ||
  m.rowOps.any (fun kx => match kx.2 with
    | some x => x.core == c && sequencedBy x.seq s x.epoch e
    | none => false) ||
  m.remotes.any (fun kx => match kx.2 with
    | some x => x.core == c && (match x.entry, x.seq with
      | some y, some (q, e') => (isAtomic y.word || x.lines.any (fun l => l.1 == m.partno.toNat)) && sequencedBy q s e' e
      | _, _ => false)
    | none => false)

/-- WPresent: satisfied (and noted, R178), or the group waits for what was started. A refused remote presentation is
answered `refused`. An adoption that its close keeps waiting is part of WPresent (R81, R279). -/
inductive PresentRes where
  | ok (m : Mach)
  | hold (m : Mach) (why : Why)
  | refused

def Mach.present (m : Mach) (c slot p : Nat) (w : W64) : PresentRes :=
  let note (m : Mach) := PresentRes.ok (m.modCore c (fun k => k.noteSatisfied w m.tick))
  let adopt (e : BitVec 24) (f : Mach → PresentRes) :=
    match m.adoptEpoch c p e with
    | some m => f m
    | none => .hold (m.stallAdopt c p) (.present w)
  match m.classify c p w with
  | .ok | .fail | .future => .ok m
  | .other => note m
  | .past e => adopt e note
  | .awaitDone e => adopt e (fun m => .hold m (.present w))
  | .closeOpen e => adopt e (fun m => .hold (m.demandClose p e) (.present w))
  | .own e => adopt e (fun m => if !performed w && m.workUnderWay c (wSeq w) e then .hold m (.present w) else note m)
  | .drain k s e => adopt e (fun m =>
      if (m.core c).satisfied.any (fun x => x.1 == w) then .ok m else .hold (m.startDrain c k s e w) (.present w))
  | .remote =>
    if !m.answers w then .refused
    else match (m.core c).remoteDone.find? (fun x => x.1 == w) with
    | some (_, false) => note m
    | some (_, true) => .refused
    | none => .hold (m.sendPresent c slot w) (.present w)

/-! ### Sequence numbers (R185) -/

inductive SeqRes where
  | ok (m : Mach) (seq : BitVec 19) (e : BitVec 24)
  | hold (m : Mach) (why : Why)

/-- A `snap` of the core whose close has not started, or whose next epoch the core has not yet adopted (R244). -/
def Epochs.snapHolds (ep : Epochs) (c : Nat) (e : BitVec 24) : Bool :=
  match ep.snap, ep.closing, ep.snaps with
  | true, some x, s :: rest => rest.any (fun t => t.1 == c) || (s.1 == c && epochLater e x == x)
  | _, _, l => l.any (fun s => s.1 == c)

/-- A core takes its next number; with the last one of an epoch that is open it demands the epoch's close (R185). -/
def Mach.takeSeq (m : Mach) (c p : Nat) : Mach :=
  let k := m.core c
  let m' := m.setCore c { k with seq := k.seq + 1, taken := k.taken + 1 }
  if 2 ^ 18 - 1 ≤ k.taken + 1 ∧ k.epoch = (m.part p).ep.openEpoch then m'.demandClose p k.epoch else m'

/-- The next store sequence number of a core and the epoch it belongs to. -/
def Mach.nextSeq (m : Mach) (c p : Nat) : SeqRes :=
  let k := m.core c
  if (m.part p).ep.snapHolds c k.epoch then .hold m (.snapClose k.epoch)
  else if k.taken ≥ 2 ^ 18 - 1 then
    .hold (if k.epoch = (m.part p).ep.openEpoch then m.demandClose p k.epoch else m) (.seqLimit k.epoch)
  else .ok (m.takeSeq c p) k.seq k.epoch

/-! ### Private space (R68, R256, R335) -/

/-- The virtual address of a pointer: one of the private space lies in its area (R30, R335). -/
def ptrVa (privBase : Nat) (ptr : W64) : Nat := (if fld ptr 60 4 = 3 then privBase else 0) + (fld ptr 0 57).toNat

/-- Where a byte of a group's private space lies: its leaf and its physical address; the reserve and the shadow area are never mapped
(R365). -/
def Mach.privAt (m : Mach) (c k off : Nat) (write : Bool) : Option (TlbEntry × Nat) :=
  let g := m.group c k
  let t := m.team g.team
  (m.translate c t.part t.ctx (g.privBase + off) write).bind (fun e =>
    let pa := leafBase e.leaf + (g.privBase + off) % e.size
    if homeOf e.leaf = m.partno.toNat ∧ badPa pa then none else some (e, pa))

/-- Writes eight bytes of a group's private space at their home; a refusal by another part ends the gang (R355). -/
def Mach.privWrite8 (m : Mach) (c k off : Nat) (x : Nat) : Mach :=
  match m.privAt c k off true with
  | none => m.walked (m.team (m.group c k).team).part (m.team (m.group c k).team).ctx ((m.group c k).privBase + off)
  | some (e, pa) =>
    if homeOf e.leaf ≠ m.partno.toNat ∧ m.farRefused (homeOf e.leaf) pa then refusedRemote m c k (m.exitPort (homeOf e.leaf) (lineOf pa))
    else (m.cacheTlb c e).ownStore (m.team (m.group c k).team).part (m.inst (m.team (m.group c k).team).inst).fdom e pa (bytesOf 8 x)

def Mach.privWrite (m : Mach) (c k off : Nat) (xs : List Nat) : Mach :=
  xs.zipIdx.foldl (fun m x => m.privWrite8 c k (off + 8 * x.2) x.1) m

/-- Eight bytes of the private area; of an area that the system image has not mapped, a free value (log 9). -/
def Mach.privRead8 (m : Mach) (c k off : Nat) : Nat :=
  match m.privAt c k off false with
  | none => (Config.freeValue (m.tick + off)).toNat
  | some (e, pa) =>
    if homeOf e.leaf ≠ m.partno.toNat then natOf (m.farBytes (homeOf e.leaf) pa 8)
    else natOf ((List.range 8).map (fun i => m.ownByte (pa + i)))

/-- What reading eight bytes of the private area does beside: DRAM sectors are read (R386), and a refusal by another part ends the gang
(R355). -/
def Mach.privReach8 (m : Mach) (c k off : Nat) : Mach :=
  match m.privAt c k off false with
  | none => m.walked (m.team (m.group c k).team).part (m.team (m.group c k).team).ctx ((m.group c k).privBase + off)
  | some (e, pa) =>
    let m := m.cacheTlb c e
    if homeOf e.leaf = m.partno.toNat then m.readBytes pa 8
    else if m.farRefused (homeOf e.leaf) pa then refusedRemote m c k (m.exitPort (homeOf e.leaf) (lineOf pa))
    else m

/-- Reads `n` words of the private area; a group whose gang a refusal ended goes no further. -/
def Mach.privReading (m : Mach) (c k off n : Nat) (f : Mach → Mach) : Mach :=
  let m := (List.range n).foldl (fun m i => m.privReach8 c k (off + 8 * i)) m
  if (m.group c k).status = .ended then m else f m

/-- The record of a spilled reconvergence entry (R256). -/
def Reconv.words (e : Reconv) : List Nat :=
  [e.save.toNat, e.take.toNat, e.target.toNat, e.ja.toNat + 2 ^ 53 * e.jv.toNat + 2 ^ 54 * e.phase.toNat, e.fmt.toNat, e.arr.toNat]

def Reconv.ofWords (w : Nat → Nat) : Reconv :=
  { save := BitVec.ofNat 64 (w 0), take := BitVec.ofNat 64 (w 1), target := BitVec.ofNat 53 (w 2), ja := BitVec.ofNat 53 (w 3),
    jv := (w 3).testBit 53, phase := (w 3).testBit 54, fmt := BitVec.ofNat 13 (w 4), arr := BitVec.ofNat 64 (w 5) }

/-! ### Reconvergence (R253 to R256) -/

/-- Lowest private byte of the reconvergence area. -/
def Group.recFloor (g : Group) (extra : Nat) : Int := (g.privSize : Int) - 48 * (g.recSpill + extra)

/-- Pops the top entry; popping the last held one reloads the most recently spilled record (R256). -/
def Mach.popRec (m : Mach) (c k : Nat) : Mach :=
  let g := m.group c k
  match g.recs with
  | [] => m
  | [_] =>
    if g.recSpill = 0 then m.setGroup c k { g with recs := [] }
    else
      let off := g.privSize - 48 * g.recSpill
      m.privReading c k off 6 (fun m =>
        m.setGroup c k { g with recs := [Reconv.ofWords (fun i => m.privRead8 c k (off + 8 * i))], recSpill := g.recSpill - 1 })
  | _ :: r => m.setGroup c k { g with recs := r }

/-- Merge(E) of R254 on the top entry, with its fold into SIG (R137). -/
def Mach.merge (m : Mach) (c k : Nat) : Mach :=
  let g := m.group c k
  match g.recs with
  | [] => m
  | e :: _ =>
    let arr := (e.arr ||| g.xm) &&& ~~~g.retired
    let keep := e.save &&& ~~~g.retired
    let m := m.popRec c k
    let g' := m.group c k
    if g'.status = .ended then m
    else m.setGroup c k { g' with sig := crc g.sig (arr ^^^ keep), xm := keep, fmt := e.fmt.setWidth 32,
                                  pc := if e.jv then e.ja.setWidth 64 else g.pc }

/-- The taken phase of the top entry begins (R254, R255): `reached` says whether a join word was reached at `a`. -/
def Mach.takePhase (m : Mach) (c k : Nat) (reached : Bool) : Mach :=
  let g := m.group c k
  match g.recs with
  | [] => m
  | e :: r =>
    let e' := { e with ja := if reached then g.pc.setWidth 53 else e.ja, jv := reached, phase := true, arr := if reached then g.xm else 0 }
    m.setGroup c k { g with recs := e' :: r, xm := e.take &&& ~~~g.retired, fmt := e.fmt.setWidth 32, pc := e.target.setWidth 64 }

/-- After lanes have retired (R69, R255): goes on with the pending entry, or the group ends. -/
def Mach.afterRetire (c k : Nat) : Nat → Mach → Mach
  | 0, m => m.endGroup c k
  | n + 1, m =>
    let g := m.group c k
    match g.recs with
    | [] => m.endGroup c k
    | e :: _ =>
      let m := if e.phase then m.merge c k else m.takePhase c k false
      if (m.group c k).xm = 0 then Mach.afterRetire c k n m else m

/-- RetireLanes(XM) of R69. -/
def Mach.retire (m : Mach) (c k : Nat) : Mach :=
  let g := m.group c k
  Mach.afterRetire c k (2 * (g.recs.length + g.recSpill) + 1) (m.setGroup c k { g with retired := g.retired ||| g.xm, xm := 0 })

/-- A divergent branch pushes an entry; the ninth spills the oldest (R253, R256). -/
def Mach.pushRec (m : Mach) (c k : Nat) (taken target fall : W64) : Except Trap Mach :=
  let g := m.group c k
  let e : Reconv := { save := g.xm, take := taken, target := target.setWidth 53, ja := 0, jv := false, phase := false,
                      fmt := g.fmt.setWidth 13, arr := 0 }
  let go (m : Mach) (old : List Reconv) (spilled : Nat) : Mach :=
    m.setGroup c k { (m.group c k) with recs := e :: old, recSpill := spilled, xm := g.xm &&& ~~~taken, pc := fall }
  if g.recs.length < 8 then .ok (go m g.recs g.recSpill)
  else if g.recFloor 1 < 8 * (g.callSpill : Int) then .error { cause := 4, lanes := taken, detail := 1 }
  else match g.recs.getLast? with
    | none => .ok (go m g.recs g.recSpill)
    | some o => .ok (go (m.privWrite c k (g.privSize - 48 * (g.recSpill + 1)) o.words) g.recs.dropLast (g.recSpill + 1))

/-! ### Sequencing (R66 to R69) -/

def offset (pc : W64) (t : BitVec 28) : W64 := pc + t.signExtend 64

/-- Branch(taken, t, f) of R67. -/
def Mach.branch (m : Mach) (c k : Nat) (taken target fall : W64) (uni : Bool) : Except Trap Mach :=
  let g := m.group c k
  if taken = 0 then .ok (m.setGroup c k { g with pc := fall })
  else if taken = g.xm then .ok (m.setGroup c k { g with pc := target })
  else if uni then .error { cause := 6, lanes := taken, detail := 0 }
  else m.pushRec c k taken target fall

/-- The call-stack causes of a word, judged at issue (R78). -/
def Group.callTrap (g : Group) : Nas → Option Trap
  | .call _ =>
    if g.calls.length = 16 && decide (g.recFloor 0 < 8 * ((g.callSpill : Int) + 1)) then some { cause := 4, lanes := g.xm, detail := 0 }
    else Option.none
  | .ret => if g.calls.isEmpty && g.callSpill == 0 then some { cause := 4, lanes := g.xm, detail := 0 } else Option.none
  | _ => Option.none

def Mach.callPush (m : Mach) (c k : Nat) (a : W64) : Mach :=
  let g := m.group c k
  if g.calls.length < 16 then m.setGroup c k { g with calls := a :: g.calls }
  else match g.calls.getLast? with
    | none => m
    | some o =>
      let m := m.privWrite c k (8 * g.callSpill) [o.toNat]
      m.setGroup c k { (m.group c k) with calls := a :: g.calls.dropLast, callSpill := g.callSpill + 1 }

def Mach.callPop (m : Mach) (c k : Nat) : Mach :=
  let g := m.group c k
  match g.calls with
  | a :: r => m.setGroup c k { g with calls := r, pc := a }
  | [] =>
    m.privReading c k (8 * (g.callSpill - 1)) 1 (fun m =>
      m.setGroup c k { g with callSpill := g.callSpill - 1, pc := BitVec.ofNat 64 (m.privRead8 c k (8 * (g.callSpill - 1))) })

/-- The effect of NAS for the word at `pc` that group (c, k) has performed (R67). -/
def Mach.sequence (m : Mach) (c k : Nat) (pc : W64) : Nas → Except Trap Mach
  | .seq => .ok (m.setGroup c k { (m.group c k) with pc := pc + 1 })
  | .go t => .ok (m.setGroup c k { (m.group c k) with pc := offset pc t })
  | .iff t b u =>
    let g := m.group c k
    m.branch c k (g.xm &&& g.pred m.tick b) (offset pc t) (pc + 1) u
  | .loop t b u =>
    let g := m.group c k
    let lc := g.lc - 1
    (m.setGroup c k { g with lc := lc }).branch c k (if lc = 0 then 0 else g.xm &&& g.pred m.tick b) (offset pc t) (pc + 1) u
  | .call t =>
    let m := m.callPush c k (pc + 1)
    .ok (m.setGroup c k { (m.group c k) with pc := offset pc t })
  | .ret => .ok (m.callPop c k)
  | .jumpi r => .ok (m.setGroup c k { (m.group c k) with pc := (m.group c k).rdS m.tick r.toNat })
  | .fin => .ok (m.retire c k)

/-! ### What the word alone decides: registers named and sites borne (R13, R71) -/

/-- Elements per register (R43). -/
def perReg (code : Nat) : Nat :=
  match code with
  | 0 => 1
  | 1 | 2 => 2
  | 5 | 7 => 8
  | _ => 4

/-- Registers of the source and target spans of a SUB 0 `cvt` (R156, R157). -/
def cvtSpans (src tgt : Nat) : Nat × Nat :=
  let n := max (perReg src) (perReg tgt)
  (n / perReg src, n / perReg tgt)

def vR (r : V) (n : Nat) : Nat := r.toNat + n
def vW (r : V) (w : Bool) : Nat := r.toNat + (if w then 2 else 1)
def vS (w : Bool) : Src → Nat
  | .v r => vW r w
  | _ => 0
def vD (w : Bool) : Dst → Nat
  | .v r => vW r w
  | .s _ => 0
def vA : Addr → Nat
  | .ub _ o => vW o false
  | .lp p => vW p true
def vZ (r : V) : Sz → Nat
  | .w8 => r.toNat + 2
  | .w16 => r.toNat + 4
  | _ => r.toNat + 1
def vmax (l : List Nat) : Nat := l.foldl max 0

/-- One more than the highest vector register that a word names. -/
def vTop (fmt : W32) : Instr → Nat
  | .rds _ d _ => vD false d
  | .add _ m d a b | .sub _ m d a b | .mul _ m d a b | .mulhi _ m d a b | .div _ m d a b | .rem _ m d a b | .min _ m d a b
  | .max _ m d a b => vmax [vD m.w d, vS m.w a, vS m.w b]
  | .mad _ m d a b c | .madhi _ m d a b c | .sad _ m d a b c | .clamp _ m d a b c => vmax [vD m.w d, vS m.w a, vS m.w b, vS m.w c]
  | .abs _ m d a | .neg _ m d a => vmax [vD m.w d, vS m.w a]
  | .addc _ _ w d a b _ => vmax [vW d w, vS w a, vS w b]
  | .lea _ _ _ d a b => vmax [vD true d, vS true a, vS false b]
  | .and _ w d a b | .or _ w d a b | .xor _ w d a b | .shl _ w d a b | .shr _ w d a b | .sar _ w d a b | .rot _ w d a b
  | .bfx _ _ w d a b => vmax [vD w d, vS w a, vS w b]
  | .not _ w d a | .popc _ w d a | .clz _ w d a | .brev _ w d a => vmax [vD w d, vS w a]
  | .bfi _ w d a b c | .lop3 _ w d a b c _ => vmax [vD w d, vS w a, vS w b, vS w c]
  | .sel _ w d a b _ => vmax [vW d w, vS w a, vS w b]
  | .perm _ d a b c => vmax [vD false d, vS false a, vS false b, vS false c]
  | .cmp _ _ m _ _ _ a b => vmax [vS m.w a, vS m.w b]
  | .fcmp _ _ _ _ _ _ a b => vmax [vS false a, vS false b]
  | .pset _ _ (.nz r) => vW r false
  | .ucheck _ _ w _ a => vW a w
  | .mov _ w d a => vmax [vD w d, vS w a]
  | .movG _ _ w d a => vmax [vD w d, vS w a]
  | .movi _ w d _ => vD w d
  | .movh _ d _ => vD true d
  | .bcast _ w d a _ | .bcastG _ _ w d a _ => vmax [vW d w, vW a w]
  | .vtos _ w _ _ a => vW a w
  | .stov _ w d _ => vW d w
  | .fadd _ _ _ d a b | .fsub _ _ _ d a b | .fmul _ _ _ d a b | .fmin _ _ d a b | .fmax _ _ d a b | .fsgn _ _ _ d a b =>
    vmax [vD false d, vS false a, vS false b]
  | .ffma _ _ _ d a b c => vmax [vD false d, vS false a, vS false b, vS false c]
  | .frcp _ _ d a | .frsq _ _ d a | .fsqrt _ _ _ d a | .fexp2 _ _ d a | .flog2 _ _ d a | .fsinpi _ _ d a | .fcospi _ _ d a
  | .frnd _ _ _ d a | .fclass _ _ d a => vmax [vD false d, vS false a]
  | .faddG _ _ _ d a b | .fsubG _ _ _ d a b | .fmulG _ _ _ d a b | .fminG _ _ d a b | .fmaxG _ _ d a b | .fsgnG _ _ _ d a b =>
    vmax [vW d false, vS false a, vS false b]
  | .ffmaG _ _ _ d a b c => vmax [vW d false, vS false a, vS false b, vS false c]
  | .frcpG _ _ d a | .frsqG _ _ d a | .fsqrtG _ _ _ d a | .fexp2G _ _ d a | .flog2G _ _ d a | .fsinpiG _ _ d a | .fcospiG _ _ d a
  | .frndG _ _ _ d a | .fclassG _ _ d a => vmax [vW d false, vS false a]
  | .ladd _ _ d a b | .lmul _ _ d a b => vmax [vW d false, vS false a, vS false b]
  | .lfma _ _ d a b c | .dot4 _ _ d a b c | .dot4G _ _ d a b c => vmax [vW d false, vS false a, vS false b, vS false c]
  | .cvt _ _ tg sr d a c =>
    let sp := cvtSpans sr.toNat tg.toNat
    vmax [vR d sp.2, (match a with
      | .v r => vR r sp.1
      | _ => 0), vS false c]
  | .cvtG _ _ _ d a c =>
    let sp := cvtSpans (fld fmt 0 4).toNat (fld fmt 8 4).toNat
    vmax [vR d sp.2, (match a with
      | .v r => vR r sp.1
      | _ => 0), (if fld fmt 0 4 = 5 ∨ fld fmt 8 4 = 5 then vS false c else 0)]
  | .cvtF2i _ _ d a | .cvtF2u _ _ d a | .cvtI2f _ _ d a | .cvtU2f _ _ d a => vmax [vD false d, vS false a]
  | .pack _ d a => vmax [vR d 3, vR a 4]
  | .unpack _ d a => vmax [vR d 4, vR a 3]
  | .scale _ _ _ d a b => vmax [vW d false, vS false a, vS false b]
  | .qnt _ _ d a | .dqnt _ _ d a => vmax [vW d false, vS false a]
  | .shfl _ _ w d a b | .shup _ _ w d a b | .shdn _ _ w d a b | .shxor _ _ w d a b => vmax [vW d w, vW a w, vS false b]
  | .redadd _ m _ a | .redmin _ m _ a | .redmax _ m _ a => vW a m.w
  | .scan _ _ m d a => vmax [vW d m.w, vW a m.w]
  | .fredadd _ _ a => vW a false
  | .compact _ w d a _ _ => vmax [vW d w, vW a w]
  | .ld _ z _ d ad _ _ | .ldG _ _ z d ad _ _ | .ldt _ z d _ ad _ _ | .ldtG _ _ z d _ ad _ _ => vmax [vZ d z, vA ad]
  | .ldx _ n _ d ad _ _ | .ldxG _ _ n _ d ad _ _ => vmax [vR d (2 ^ n.toNat), vA ad]
  | .st _ z _ _ ad x _ | .stG _ _ z _ ad x _ | .stt _ z _ _ ad x _ => vmax [vZ x z, vA ad]
  | .stx _ n _ _ ad x _ | .stxG _ _ n _ _ ad x _ => vmax [vR x (2 ^ n.toNat), vA ad]
  | .wmrgRed _ _ a _ => vW a true
  | .atom _ _ _ w d ad x _ _ _ | .atomG _ _ _ _ w d ad x _ _ _ => vmax [vW d w, vW x w, vA ad]
  | .fatom _ _ d ad x _ _ _ | .fatomG _ _ _ d ad x _ _ _ => vmax [vW d false, vW x false, vA ad]
  | .waita _ _ w d ad _ _ _ | .waitaG _ _ _ w d ad _ _ _ => vmax [vW d w, vA ad]
  | .pfl _ _ ad | .inv _ _ ad | .wb _ _ _ ad => vA ad
  | .accld _ f d _ _ => vR d (if f = 0 then 2 else 1)
  | _ => 0

/-- The site that a generic word bears, or that a `sitex` names. -/
def siteOf : Instr → Option Nat
  | .sitex _ _ n | .sitexCnt _ _ n | .sitexReset _ n | .sitexPin _ n | .movG _ n _ _ _ | .bcastG _ n _ _ _ _ | .faddG _ n _ _ _ _
  | .fsubG _ n _ _ _ _ | .fmulG _ n _ _ _ _ | .ffmaG _ n _ _ _ _ _ | .fminG _ n _ _ _ | .fmaxG _ n _ _ _ | .fsgnG _ n _ _ _ _
  | .frcpG _ n _ _ | .frsqG _ n _ _ | .fsqrtG _ n _ _ _ | .fexp2G _ n _ _ | .flog2G _ n _ _ | .fsinpiG _ n _ _ | .fcospiG _ n _ _
  | .frndG _ n _ _ _ | .fclassG _ n _ _ | .dot4G _ n _ _ _ _ | .cvtG _ n _ _ _ _ | .ldG _ n _ _ _ _ _ | .ldsG _ n _ _ _ _ _ _
  | .ldxG _ n _ _ _ _ _ _ | .ldtG _ n _ _ _ _ _ _ | .stG _ n _ _ _ _ _ | .stxG _ n _ _ _ _ _ _ | .atomG _ n _ _ _ _ _ _ _ _ _
  | .fatomG _ n _ _ _ _ _ _ _ | .atomsG _ n _ _ _ _ _ _ _ _ _ | .waitaG _ n _ _ _ _ _ _ _ | .mmpG _ n _ _ _ _ | .mmpsG _ n _ _ _ _ =>
    some n.toNat
  | _ => none

/-- R316: the valid descriptor whose range holds the address. -/
def Mach.descAt (m : Mach) (p ctx : Nat) (pc : W64) : Option (Nat × Desc) :=
  (List.range 32).findSome? (fun i =>
    let d := (m.part p).desc ctx i
    if d.v && decide (d.cb.toNat ≤ pc.toNat) && decide (pc.toNat < d.cb.toNat + d.cl.toNat) then some (i, d) else none)

/-- Words whose results are long-latency, and stores: they count against the limit of 32 (R258, R259). -/
def isLong : Instr → Bool
  | .ld .. | .ldG .. | .lds .. | .ldsG .. | .ldx .. | .ldxG .. | .ldt .. | .ldtG .. | .st .. | .stG .. | .sts .. | .stt .. | .stx .. | .stxG ..
  | .atom .. | .atomG .. | .fatom .. | .fatomG .. | .atoms .. | .atomsG .. | .waita .. | .waitaG .. | .wb .. | .mzero .. | .mcopy ..
  | .chainCnt .. | .copy .. | .copyOut .. | .copyQ .. | .copyMc .. | .rrot .. | .mstat .. | .mstatClr .. | .mstatEn .. | .accld ..
  | .launch .. | .replay .. | .snap .. | .genq .. | .genrel .. | .genrb .. => true
  | _ => false

/-- Words that may issue while a deferred word is outstanding (R262): classes 0x1 to 0x8 and six of class 0x0. -/
def passesDeferred : Instr → Bool
  | .nop .. | .lcset .. | .lcsetR .. | .lcsetGet .. | .xmset .. | .xmsetAnd .. | .xmsetOr .. | .xmget .. | .rds .. | .wrs .. => true
  | .trap .. | .brk .. | .sleep .. | .yield .. | .sigck .. | .iflush .. | .sitex .. | .sitexCnt .. | .sitexReset .. | .sitexPin .. => false
  | i => (toRaw i).op.toNat ≥ 0x10 && (toRaw i).op.toNat < 0x90

/-- A group has deferred words not yet replayed (R262). -/
def Mach.hasDeferred (m : Mach) (c k : Nat) : Bool := (m.core c).log.any (fun e => e.slot == k)

def isSitex : Instr → Bool
  | .sitex .. | .sitexCnt .. | .sitexReset .. | .sitexPin .. => true
  | _ => false

/-- Some site update sent for a generic word of the group is neither applied nor discarded at its home (R361). -/
def Mach.sitesOwed (m : Mach) (c k : Nat) : Bool :=
  m.siteMsgs.any (fun kx => match kx.2 with
    | some x => x.team == (m.group c k).team && x.grp == (m.group c k).grp
    | none => false)

/-- What keeps a word from issuing whatever its operands are (R65, R259, R262, R361). -/
def Mach.blocked (m : Mach) (i : Instr) (h : Hdr) : Option Why :=
  let g := m.me
  if m.hasDeferred m.cur.1 m.cur.2 && (h.sw || !passesDeferred i) then some .deferred
  else if h.sw && !g.outs.isEmpty then some .switch
  else if isLong i && decide (32 ≤ g.outs.length) then some .outsFull
  else if isSitex i && m.sitesOwed m.cur.1 m.cur.2 then some .siteOwed
  else none

/-- `genrb` is privileged (R74). -/
def needsPriv : Instr → Bool
  | .genrb .. => true
  | _ => false

/-- A format register value whose FA, FB or FD is a reserved code (R16). -/
def badFmt (x : BitVec 13) : Bool :=
  decide (9 < (fld x 0 4).toNat) || decide (9 < (fld x 4 4).toNat) || decide (9 < (fld x 8 4).toNat)

/-- Cause 0x01 that only the group's registers decide: `fmtset.r` (R153), and a generic `cvt` whose formats forbid
its rounding or its scalar source (R156, R158, R160), whatever its guard (DESIGN CHOICE, log 117). -/
def Mach.illegalNow (m : Mach) (i : Instr) : Option Trap :=
  let g := m.me
  match i with
  | .fmtsetR h a =>
    let v := fld (g.rdS m.tick a.toNat) 0 13
    if g.perf m.tick h ≠ 0 ∧ badFmt v then some { cause := 1, lanes := g.xm, detail := v.setWidth 64 } else none
  | .cvtG _ _ r _ a _ =>
    let tgt := (fld g.fmt 8 4).toNat
    let long := match a with
      | .v _ => false
      | _ => decide (1 < (cvtSpans (fld g.fmt 0 4).toNat tgt).1)
    if long || (r != .ne && (tgt == 8 || tgt == 9)) then some { cause := 1, lanes := g.xm, detail := 0 } else none
  | _ => none

/-- Causes 0x01, 0x07, 0x03 and 0x05, which the word and the limits of its team decide (R74, R13, R71). DETAIL of a cause for which
R76 names no value is 0 (DESIGN CHOICE, log 96). -/
def Mach.staticTrap (m : Mach) (i : Instr) : Option Trap :=
  let g := m.me
  if (m.illegalNow i).isSome then m.illegalNow i
  else if needsPriv i && !m.myInst.priv then some { cause := 7, lanes := g.xm, detail := 0 }
  else if vregs m.myTeam.pool < vTop g.fmt i then some { cause := 3, lanes := g.xm, detail := 0 }
  else match siteOf i with
    | none => none
    | some n =>
      if n < (match m.descAt m.myPart m.myCtx g.pc with
        | some d => d.2.ns.toNat
        | none => 0) then none
      else some { cause := 5, lanes := g.xm, detail := BitVec.ofNat 64 n }

/-! ### The issue of a word -/

/-- A word's own effect: the causes it judges at issue, what it may wait for, and its effect. -/
structure Word where
  pre : Mach → Option Trap := fun _ => none
  wait : Mach → Option (Mach × Why) := fun _ => none
  run : Mach → Mach

/-- The hash of the word into SIG (R137); `sigck` folds by itself. -/
def Mach.hash (m : Mach) (i : Instr) : Mach :=
  match i with
  | .sigck .. => m
  | i => m.modMe (fun g => { g with sig := crc g.sig (fld (encode i) 0 64) })

def keepsSig : Instr → Bool
  | .wrs .. => true
  | _ => false

/-- The causes judged at issue, in R78's order: the word's static ones, its own, the call stack's, then 0x25. -/
def Mach.issueTrap (m : Mach) (i : Instr) (h : Hdr) (w : Word) : Option Trap :=
  match m.staticTrap i with
  | some t => some t
  | none => match w.pre m with
    | some t => some t
    | none => m.me.callTrap h.nas

/-- A cause judged after the effect: the effect stands, the word is not in SIG (R77). -/
def trapAfter (m m' : Mach) (i : Instr) (pc : W64) (t : Trap) : Mach :=
  takeTrap (m'.setGroup m.cur.1 m.cur.2
    { (m'.group m.cur.1 m.cur.2) with sig := if keepsSig i then (m'.group m.cur.1 m.cur.2).sig else m.me.sig, pc := pc })
    m.cur.1 m.cur.2 pc t

/-- What follows a word's effect `m'` (R66, R67): a group that lives sequences, and a cause that sequencing judges comes after
the effect. -/
def Mach.goOn (m m' : Mach) (i : Instr) (h : Hdr) : Mach :=
  if (m'.group m.cur.1 m.cur.2).status = .ended then m'
  else match m'.sequence m.cur.1 m.cur.2 m.me.pc h.nas with
    | .ok m'' => m''
    | .error t => trapAfter m m' i m.me.pc t

/-- The word performs its effect and sequences (R66). -/
def Mach.perform (m : Mach) (i : Instr) (h : Hdr) (w : Word) : Mach := m.goOn (w.run (m.hash i)) i h

/-- A word issues (R64, R78). A retired step's pending 0x25 is taken before the effect, and so before a 0x06 or a spill's 0x04 that
only the effect could show (DESIGN CHOICE, log 81). -/
def Mach.issue (m : Mach) (i : Instr) (h : Hdr) (w : Word) : Mach :=
  match m.blocked i h with
  | some why => m.park why
  | none => match m.issueTrap i h w with
    | some t => takeTrap m m.cur.1 m.cur.2 m.me.pc t
    | none => match m.me.retireTrap with
      | some r => takeTrap m m.cur.1 m.cur.2 r.1 { cause := 0x25, lanes := m.me.xm, detail := r.2.setWidth 64 }
      | none => match w.wait m with
        | some r => r.1.park r.2
        | none => m.perform i h w

/-- Whether the word performs: a group-wide effect happens once when some active lane's guard holds (R64). -/
def Mach.performs (m : Mach) (h : Hdr) : Bool := m.me.perf m.tick h != 0

/-- WPresent by the issuing group: what it waits for, and what follows once it is satisfied (R81). -/
def Mach.presents (m : Mach) (w : W64) : PresentRes := m.present m.cur.1 m.cur.2 m.myPart w
def Mach.presentHold (m : Mach) (w : W64) : Option (Mach × Why) :=
  match m.presents w with
  | .hold m why => some (m, why)
  | _ => none
def Mach.presented (m : Mach) (w : W64) (f : Mach → Mach) : Mach :=
  match m.presents w with
  | .ok m => f m
  | .hold m why => m.park why
  | .refused => refusedRemote m m.cur.1 m.cur.2 (m.exitPort (wPartno w).toNat w.toNat)

/-- A group-wide word that presents `w`, then has effect `f`. -/
def presentWord (h : Hdr) (w : Mach → W64) (f : Mach → Mach) : Word :=
  { pre := fun m => if m.performs h then m.presentTrap m.cur.1 m.myPart m.me.xm (w m) else none,
    wait := fun m => if m.performs h then m.presentHold (w m) else none,
    run := fun m => if m.performs h then m.presented (w m) f else m }

/-- A group-wide word over its effect. -/
def wideWord (h : Hdr) (f : Mach → Mach) : Word := { run := fun m => if m.performs h then f m else m }

/-- The meaning of a word over its effect. -/
def issueWord (i : Instr) (h : Hdr) (w : Word) (s : State) : Host.Outcome State Fault Refusal :=
  .next { s with m := s.m.issue i h w }

/-- A word that only rewrites its own group. -/
def regWord (i : Instr) (h : Hdr) (f : Nat → Group → Group) (s : State) : Host.Outcome State Fault Refusal :=
  issueWord i h { run := fun m => m.modMe (f m.tick) } s

/-- A step of the part that only rewrites the machine. -/
def partStep (f : Mach → Mach) (s : State) : Host.Outcome State Fault Refusal := .next { s with m := f s.m }

/-- A step that happens only when its condition holds; otherwise nothing happens (log 1). -/
def stepIf (ok : Mach → Bool) (f : Mach → Mach) (s : State) : Host.Outcome State Fault Refusal :=
  .next (if ok s.m then { s with m := f s.m } else s)

end Sys2Proof.Machine
end

