-- ==== Sys2Proof/Machine/Operands.lean ====
section
/-! DEFINITION. Every operand form of the computation classes (R62, R101, R102): how a source is read in a lane
and how a result is written, vector or scalar pipe, and the integer types of MOD (R103). An N-bit value is held
zero-extended in 64 bits. -/

namespace Sys2Proof.Machine

/-- v[r] of a lane, or the pair v[r+1]:v[r] (R13). -/
def Group.vec (g : Group) (t : Nat) (w : Bool) (r : Nat) (l : Nat) : W64 :=
  if w then (g.rdV t (r + 1) l) ++ (g.rdV t r l) else (g.rdV t r l).setWidth 64

/-- SrcA, SrcB and SrcC of R101. -/
def Group.src (g : Group) (t : Nat) (w : Bool) (l : Nat) : Src → W64
  | .v r => g.vec t w r.toNat l
  | .s r => if w then g.rdS t r.toNat else (fld (g.rdS t r.toNat) 0 32).setWidth 64
  | .imm i => if w then i.signExtend 64 else i.setWidth 64

/-- Writes one lane of v[r] or of the pair. -/
def Group.putVec (g : Group) (w : Bool) (r l : Nat) (x : W64) : Group :=
  let g := g.putV r l (fld x 0 32)
  if w then g.putV (r + 1) l (fld x 32 32) else g

def Group.vecResult (g : Group) (lanes : W64) (w : Bool) (r : Nat) (f : Nat → W64) : Group :=
  (lanesOf lanes).foldl (fun a l => a.putVec w r l (f l)) g

/-- The 64 bits that a scalar-pipe result of width N leaves in s (R102). -/
def scalarExt (w sx : Bool) (x : W64) : W64 :=
  if w then x else if sx then (fld x 0 32).signExtend 64 else (fld x 0 32).setWidth 64

/-- The result of a computation word: in every performing lane, or once on the scalar pipe (R64, R102). -/
def Group.result (g : Group) (lanes : W64) (w sx : Bool) (d : Dst) (f : Nat → W64) : Group :=
  match d with
  | .v r => g.vecResult lanes w r.toNat f
  | .s r => if lanes = 0 then g else g.putS r.toNat (scalarExt w sx (f 0))

/-- A word of one, two or three sources over an operation on N-bit values. -/
def Group.op1 (g : Group) (t : Nat) (h : Hdr) (w sx : Bool) (d : Dst) (a : Src) (f : W64 → W64) : Group :=
  g.result (g.perf t h) w sx d (fun l => f (g.src t w l a))
def Group.op2 (g : Group) (t : Nat) (h : Hdr) (w sx : Bool) (d : Dst) (a b : Src) (f : W64 → W64 → W64) : Group :=
  g.result (g.perf t h) w sx d (fun l => f (g.src t w l a) (g.src t w l b))
def Group.op3 (g : Group) (t : Nat) (h : Hdr) (w sx : Bool) (d : Dst) (a b c : Src) (f : W64 → W64 → W64 → W64) : Group :=
  g.result (g.perf t h) w sx d (fun l => f (g.src t w l a) (g.src t w l b) (g.src t w l c))

/-! ### Integer types (R103) -/

def nBits (w : Bool) : Nat := if w then 64 else 32

/-- The value of an N-bit pattern under the type of MOD. -/
def ival (m : IntMod) (x : W64) : Int :=
  if m.w then (if m.un then (x.toNat : Int) else x.toInt)
  else if m.un then ((fld x 0 32).toNat : Int) else (fld x 0 32).toInt

/-- The N-bit pattern of an integer, modulo 2^N. -/
def wrapN (w : Bool) (x : Int) : W64 :=
  if w then BitVec.ofInt 64 x else (BitVec.ofInt 32 x).setWidth 64

def ileast (m : IntMod) : Int := if m.un then 0 else -(2 ^ (nBits m.w - 1))
def igreatest (m : IntMod) : Int := if m.un then 2 ^ nBits m.w - 1 else 2 ^ (nBits m.w - 1) - 1

def clampInt (lo hi x : Int) : Int := if x < lo then lo else if hi < x then hi else x

/-- The exact result wrapped, or saturated once (R103). -/
def ifit (m : IntMod) (x : Int) : W64 :=
  wrapN m.w (if m.sat then clampInt (ileast m) (igreatest m) x else x)

end Sys2Proof.Machine
end

