-- ==== Sys2Proof/Machine/Flags.lean ====
section
/-! DEFINITION. Number formats and the flags of matrix steps (R32 to R50, R144 to R148): the value of a pattern,
exact arithmetic on values, one rounding at the end, and the conversions of R46 to R48 under FMT.SAT. -/

namespace Sys2Proof.Machine

/-- A floating value: NaN, an infinity, or (−1)^neg × m × 2^e. -/
inductive FVal where
  | nan
  | inf (neg : Bool)
  | fin (neg : Bool) (m : Nat) (e : Int)
  deriving DecidableEq, Repr

/-- Rounding directions of R144 and R148; `ra` is to nearest with ties away from zero. -/
inductive Dir where
  | ne | rz | rd | ru | ra
  deriving DecidableEq, Repr

def Dir.ofRnd : Rnd → Dir
  | .ne => .ne | .rz => .rz | .rd => .rd | .ru => .ru
def Dir.ofRndInt : RndInt → Dir
  | .rn => .ne | .rz => .rz | .rd => .rd | .ru => .ru | .ra => .ra

/-- A binary floating format (R33, R34). `top` says what an all-ones exponent means. -/
inductive Top where
  | ieee | e4m3 | finite
  deriving DecidableEq, Repr

structure Ffmt where
  eb : Nat
  mb : Nat
  bias : Nat
  top : Top
  deriving DecidableEq, Repr

def F32 : Ffmt := { eb := 8, mb := 23, bias := 127, top := .ieee }
def F16 : Ffmt := { eb := 5, mb := 10, bias := 15, top := .ieee }
def BF16 : Ffmt := { eb := 8, mb := 7, bias := 127, top := .ieee }
def E4M3 : Ffmt := { eb := 4, mb := 3, bias := 7, top := .e4m3 }
def E5M2 : Ffmt := { eb := 5, mb := 2, bias := 15, top := .ieee }
def E2M1 : Ffmt := { eb := 2, mb := 1, bias := 1, top := .finite }

def Ffmt.emin (f : Ffmt) : Int := 1 - (f.bias : Int) - (f.mb : Int)
/-- Significand and exponent of the largest finite value. -/
def Ffmt.largest (f : Ffmt) : Nat × Int :=
  match f.top with
  | .ieee => (2 ^ (f.mb + 1) - 1, (2 ^ f.eb - 2 : Int) + f.emin - 1)
  | .e4m3 => (2 ^ (f.mb + 1) - 2, (2 ^ f.eb - 1 : Int) + f.emin - 1)
  | .finite => (2 ^ (f.mb + 1) - 1, (2 ^ f.eb - 1 : Int) + f.emin - 1)
def Ffmt.sign (f : Ffmt) (neg : Bool) : Nat := if neg then 2 ^ (f.eb + f.mb) else 0
/-- The canonical NaN (R34, R35). -/
def Ffmt.nanBits (f : Ffmt) : Nat :=
  match f.top with
  | .ieee => (2 ^ f.eb - 1) * 2 ^ f.mb + 2 ^ (f.mb - 1)
  | .e4m3 => 0x7F
  | .finite => 0
def Ffmt.infBits (f : Ffmt) (neg : Bool) : Nat := f.sign neg + (2 ^ f.eb - 1) * 2 ^ f.mb

/-- The value of a pattern (R33, R34). -/
def Ffmt.val (f : Ffmt) (x : Nat) : FVal :=
  let neg := x.testBit (f.eb + f.mb)
  let e := x / 2 ^ f.mb % 2 ^ f.eb
  let m := x % 2 ^ f.mb
  if e = 2 ^ f.eb - 1 && f.top == .ieee then (if m = 0 then .inf neg else .nan)
  else if e = 2 ^ f.eb - 1 && f.top == .e4m3 && m == 2 ^ f.mb - 1 then .nan
  else if e = 0 then .fin neg m f.emin
  else .fin neg (2 ^ f.mb + m) (f.emin + (e : Int) - 1)

/-! ### Rounding -/

/-- m ÷ 2^sh as an integer in direction `d` of a value with sign `neg`. -/
def roundShift (d : Dir) (neg : Bool) (m sh : Nat) : Nat :=
  let q := m / 2 ^ sh
  let r := m % 2 ^ sh
  let up := match d with
    | .ne => decide (2 ^ sh < 2 * r) || (decide (2 * r = 2 ^ sh) && decide (r ≠ 0) && q % 2 == 1)
    | .ra => decide (2 ^ sh ≤ 2 * r) && decide (r ≠ 0)
    | .rz => false
    | .rd => neg && decide (r ≠ 0)
    | .ru => !neg && decide (r ≠ 0)
  if up then q + 1 else q

/-- m × 2^e rounded to an integer. -/
def roundInt (d : Dir) (neg : Bool) (m : Nat) (e : Int) : Nat :=
  if 0 ≤ e then m * 2 ^ e.toNat else roundShift d neg m (-e).toNat

/-- Significand and exponent after rounding, as if the exponent had no upper bound (R46). -/
def Ffmt.round (f : Ffmt) (d : Dir) (neg : Bool) (m : Nat) (e : Int) : Nat × Int :=
  if m = 0 then (0, f.emin)
  else
    let len : Int := (Nat.log2 m : Int) + 1
    let e' := max (e + len - (f.mb + 1)) f.emin
    let r := if e' ≤ e then m * 2 ^ (e - e').toNat else roundShift d neg m (e' - e).toNat
    if r = 2 ^ (f.mb + 1) then (2 ^ f.mb, e' + 1) else (r, e')

def Ffmt.pack (f : Ffmt) (neg : Bool) (r : Nat) (e : Int) : Nat :=
  f.sign neg + (if r < 2 ^ f.mb then r else (e - f.emin + 1).toNat * 2 ^ f.mb + (r - 2 ^ f.mb))

def Ffmt.overflows (f : Ffmt) (r : Nat) (e : Int) : Bool :=
  let l := f.largest
  decide (l.2 < e) && decide (r ≠ 0) || (decide (e = l.2) && decide (l.1 < r))

def Ffmt.largestBits (f : Ffmt) (neg : Bool) : Nat := f.pack neg f.largest.1 f.largest.2

/-- The direction points toward zero for this sign (R144). -/
def Dir.toZero (d : Dir) (neg : Bool) : Bool :=
  match d with
  | .rz => true
  | .rd => !neg
  | .ru => neg
  | _ => false

/-- Round(r, format, XA) of R144, with overflow to infinity or to the largest finite value. -/
def Ffmt.enc (f : Ffmt) (d : Dir) : FVal → Nat
  | .nan => f.nanBits
  | .inf neg => f.infBits neg
  | .fin neg m e =>
    let r := f.round d neg m e
    if f.overflows r.1 r.2 then (if d.toZero neg then f.largestBits neg else f.infBits neg) else f.pack neg r.1 r.2

/-! ### Exact arithmetic -/

def FVal.isNan : FVal → Bool
  | .nan => true
  | _ => false
def FVal.negate : FVal → FVal
  | .nan => .nan
  | .inf n => .inf (!n)
  | .fin n m e => .fin (!n) m e
/-- The value as a signed significand at exponent `e0`, at or below its own. -/
def sigAt (neg : Bool) (m : Nat) (e e0 : Int) : Int := (if neg then -1 else 1) * ((m * 2 ^ (e - e0).toNat : Nat) : Int)

/-- a + b, exact; `d` decides the sign of an exact zero (R144). -/
def FVal.add (d : Dir) : FVal → FVal → FVal
  | .nan, _ => .nan
  | _, .nan => .nan
  | .inf a, .inf b => if a = b then .inf a else .nan
  | .inf a, .fin _ _ _ => .inf a
  | .fin _ _ _, .inf b => .inf b
  | .fin na ma ea, .fin nb mb eb =>
    if ma = 0 && mb == 0 then .fin (if na = nb then na else d == .rd) 0 0
    else
      let e := min ea eb
      let s := sigAt na ma ea e + sigAt nb mb eb e
      if s = 0 then .fin (d == .rd) 0 0 else .fin (decide (s < 0)) s.natAbs e

def FVal.mul : FVal → FVal → FVal
  | .nan, _ => .nan
  | _, .nan => .nan
  | .inf a, .inf b => .inf (a != b)
  | .inf a, .fin n m _ => if m = 0 then .nan else .inf (a != n)
  | .fin n m _, .inf b => if m = 0 then .nan else .inf (n != b)
  | .fin na ma ea, .fin nb mb eb => .fin (na != nb) (ma * mb) (ea + eb)

/-- x × 2^k. -/
def FVal.scale (k : Int) : FVal → FVal
  | .fin n m e => .fin n m (e + k)
  | x => x

/-- a < b for values that are not NaN; −0 and +0 are equal. -/
def FVal.lt : FVal → FVal → Bool
  | .nan, _ => false
  | _, .nan => false
  | .inf a, .inf b => a && !b
  | .inf a, .fin _ _ _ => a
  | .fin _ _ _, .inf b => !b
  | .fin na ma ea, .fin nb mb eb =>
    let e := min ea eb
    decide (sigAt na ma ea e < sigAt nb mb eb e)
def FVal.eq (a b : FVal) : Bool := !a.isNan && !b.isNan && !a.lt b && !b.lt a

def FVal.isZero : FVal → Bool
  | .fin _ m _ => m == 0
  | _ => false
def FVal.neg? : FVal → Bool
  | .nan => false
  | .inf n => n
  | .fin n _ _ => n

/-! ### Roots, reciprocals and the transcendentals (R45, R147) -/

/-- Integer square root by bits from 2^k down. -/
def isqrtFrom (n : Nat) : Nat → Nat → Nat
  | 0, r => if (r + 1) * (r + 1) ≤ n then r + 1 else r
  | k + 1, r => isqrtFrom n k (if (r + 2 ^ (k + 1)) * (r + 2 ^ (k + 1)) ≤ n then r + 2 ^ (k + 1) else r)
def isqrt (n : Nat) : Nat := isqrtFrom n (Nat.log2 n / 2 + 1) 0

/-- A truncated positive value with a sticky bit below it. -/
def sticky (neg : Bool) (q : Nat) (exact : Bool) (e : Int) : FVal := .fin neg (2 * q + (if exact then 0 else 1)) (e - 1)

def FVal.sqrt : FVal → FVal
  | .nan => .nan
  | .inf n => if n then .nan else .inf false
  | .fin n m e =>
    if m = 0 then .fin n 0 0
    else if n then .nan
    else
      let odd := e % 2
      let x := m * 2 ^ (odd.toNat + 80)
      let s := isqrt x
      sticky false s (decide (s * s = x)) ((e - odd - 80) / 2)

def FVal.rcp : FVal → FVal
  | .nan => .nan
  | .inf n => .fin n 0 0
  | .fin n m e =>
    if m = 0 then .inf n
    else
      let k := Nat.log2 m + 80
      sticky n (2 ^ k / m) (decide (2 ^ k % m = 0)) (-(k : Int) - e)

def FVal.rsq : FVal → FVal
  | .nan => .nan
  | .inf n => if n then .nan else .fin false 0 0
  | .fin n m e =>
    if m = 0 then .inf n
    else if n then .nan
    else
      -- 1/sqrt(m 2^e) with e even: sqrt(2^k / m) 2^(-e/2 - k/2)
      let odd := (e % 2).toNat
      let m := m * 2 ^ odd
      let e := e - odd
      let k := 2 * (Nat.log2 m + 80)
      let s := isqrt (2 ^ k / m)
      sticky false s (decide (s * s * m = 2 ^ k)) (-(k : Int) / 2 - e / 2)

/-- Fraction bits of the fixed-point series below (log 7). -/
def fixBits : Nat := 400

/-- Sum of an odd series: x, then each power multiplied by `y`, divided by 2k+1, with signs `alt`. -/
def oddSeries (alt : Bool) (y : Int) : Nat → Nat → Int → Int
  | 0, _, _ => 0
  | n + 1, k, pw =>
    (if alt && k % 2 == 1 then -1 else 1) * (pw / (2 * (k : Int) + 1)) + oddSeries alt y n (k + 1) (pw * y / 2 ^ fixBits)
def atanInv (n : Nat) : Int := oddSeries true (2 ^ fixBits / ((n : Int) * n)) 220 0 (2 ^ fixBits / n)
def piFix : Int := 16 * atanInv 5 - 4 * atanInv 239
/-- ln of (1+z)/(1-z). -/
def atanh2 (z : Int) : Int := 2 * oddSeries false (z * z / 2 ^ fixBits) 140 0 z
def ln2Fix : Int := atanh2 (2 ^ fixBits / 3)

/-- Taylor series: term, then each term times x ÷ (k (k+1) …) as `step` says. -/
def expSeries (x : Int) : Nat → Nat → Int → Int
  | 0, _, _ => 0
  | n + 1, k, tm => tm + expSeries x n (k + 1) (tm * x / 2 ^ fixBits / ((k : Int) + 1))
/-- sin from term x (k = 1) or cos from term 1 (k = 0). -/
def trigSeries (x2 : Int) : Nat → Nat → Int → Int
  | 0, _, _ => 0
  | n + 1, k, tm => tm + trigSeries x2 n (k + 2) (-(tm * x2 / 2 ^ fixBits / (((k : Int) + 1) * (k + 2))))

/-- m × 2^e in fixed point, truncated. -/
def toFix (m : Nat) (e : Int) : Int :=
  let k := e + fixBits
  if 0 ≤ k then (m * 2 ^ k.toNat : Nat) else ((m / 2 ^ (-k).toNat : Nat) : Int)

def FVal.exp2 : FVal → FVal
  | .nan => .nan
  | .inf n => if n then .fin false 0 0 else .inf false
  | .fin n m e =>
    if m = 0 then .fin false 1 0
    else if 2 ^ 11 ≤ (if 0 ≤ e then m * 2 ^ e.toNat else m / 2 ^ (-e).toNat) then
      (if n then .fin false 1 (-2048) else .fin false 1 2048)
    else
      let x : Int := (if n then -1 else 1) * toFix m e
      let k := x / 2 ^ fixBits
      let f := x % 2 ^ fixBits
      if f = 0 then .fin false 1 k
      else sticky false (expSeries (f * ln2Fix / 2 ^ fixBits) 110 0 (2 ^ fixBits)).toNat false (k - fixBits)

def FVal.log2 : FVal → FVal
  | .nan => .nan
  | .inf n => if n then .nan else .inf false
  | .fin n m e =>
    if m = 0 then .inf true
    else if n then .nan
    else
      let l := Nat.log2 m
      let k : Int := e + l
      if m = 2 ^ l then (if k = 0 then .fin false 0 0 else .fin (decide (k < 0)) k.natAbs 0)
      else
        -- m / 2^l in (1, 2): ln = 2 atanh((m - 2^l)/(m + 2^l))
        let z : Int := ((m - 2 ^ l : Nat) : Int) * 2 ^ fixBits / ((m + 2 ^ l : Nat) : Int)
        let x : Int := k * 2 ^ fixBits + atanh2 z * 2 ^ fixBits / ln2Fix
        sticky (decide (x < 0)) x.natAbs false (-(fixBits : Int))

/-- sin(π x) or cos(π x) for 0 < x < 1/2 in fixed point. -/
def sinFix (x : Int) : Int :=
  let a := x * piFix / 2 ^ fixBits
  trigSeries (a * a / 2 ^ fixBits) 60 1 a
def cosFix (x : Int) : Int :=
  let a := x * piFix / 2 ^ fixBits
  trigSeries (a * a / 2 ^ fixBits) 60 0 (2 ^ fixBits)

def half : Int := 2 ^ (fixBits - 1)
def one : Int := 2 ^ fixBits

/-- sin(π x) for a fixed-point x in [0, 2), with its sign. -/
def sinTurn (x : Int) : FVal :=
  let neg := decide (one ≤ x)
  let y := if one ≤ x then x - one else x
  if y = 0 then .fin neg 0 0
  else if y = half then .fin neg 1 0
  else sticky neg (if y < half then sinFix y else sinFix (one - y)).natAbs false (-(fixBits : Int))

def FVal.sinpi : FVal → FVal
  | .nan => .nan
  | .inf _ => .nan
  | .fin n m e =>
    if m = 0 then .fin n 0 0
    else if 0 ≤ e || m % 2 ^ (-e).toNat == 0 then .fin n 0 0
    else
      let r := sinTurn (toFix (m % 2 ^ ((-e).toNat + 1)) e)
      if n then r.negate else r

def FVal.cospi : FVal → FVal
  | .nan => .nan
  | .inf _ => .nan
  | .fin _ m e =>
    if m = 0 then .fin false 1 0
    else if 0 ≤ e then (if (m * 2 ^ e.toNat) % 2 = 0 then .fin false 1 0 else .fin true 1 0)
    else
      let x := toFix (m % 2 ^ ((-e).toNat + 1)) e
      -- cos(πx): 1 at 0, +0 at 1/2 and 3/2, -1 at 1
      if x = 0 then .fin false 1 0
      else if x = one then .fin true 1 0
      else
        let y := if one < x then 2 * one - x else x
        if y = half then .fin false 0 0
        else if y < half then sticky false (cosFix y).natAbs false (-(fixBits : Int))
        else sticky true (cosFix (one - y)).natAbs false (-(fixBits : Int))

/-- R148: an integral value in direction `d`; a zero keeps the sign. -/
def FVal.toIntegral (d : Dir) : FVal → FVal
  | .fin n m e => .fin n (roundInt d n m e) 0
  | x => x

/-! ### Logarithmic formats (R39 to R41, R48) -/

def T6 (k : Nat) : Nat := [0x1000, 0x1307, 0x16A1, 0x1AE9].getD k 0
def T8 (k : Nat) : Nat := [0x1000, 0x1173, 0x1307, 0x14C0, 0x16A1, 0x18AD, 0x1AE9, 0x1D58].getD k 0

/-- Magnitude of log code L: significand and exponent. -/
def lgMag (lg8 : Bool) (l : Nat) : Nat × Int :=
  if l = 0 then (0, 0)
  else if lg8 then (T8 (l % 8), ((l / 8 : Nat) : Int) - 20) else (T6 (l % 4), ((l / 4 : Nat) : Int) - 16)

def lgBits (lg8 : Bool) : Nat := if lg8 then 7 else 5

/-- The arithmetic value of a code (R39, R40). -/
def lgVal (lg8 : Bool) (x : Nat) : FVal :=
  let r := lgMag lg8 (x % 2 ^ lgBits lg8)
  .fin (x.testBit (lgBits lg8)) r.1 r.2

/-- The product of two codes, from the sum of their logarithm fields (R41). -/
def lgProduct (lg8 : Bool) (x y : Nat) : FVal :=
  let a := x % 2 ^ lgBits lg8
  let b := y % 2 ^ lgBits lg8
  let neg := x.testBit (lgBits lg8) != y.testBit (lgBits lg8)
  if a = 0 || b == 0 then .fin neg 0 0
  else if lg8 then .fin neg (T8 ((a + b) % 8)) ((((a + b) / 8 : Nat) : Int) - 28)
  else .fin neg (T6 ((a + b) % 4)) ((((a + b) / 4 : Nat) : Int) - 20)

/-- The code of the nearest arithmetic value among L = 0 … n, ties to L[0] = 0. -/
def nearestLog (lg8 : Bool) (m : Nat) (e : Int) : Nat → Nat
  | 0 => 0
  | n + 1 =>
    let best := nearestLog lg8 m e n
    let dist (l : Nat) : Nat :=
      let c := lgMag lg8 l
      let e0 := min e (-20)
      (sigAt false m e e0 - sigAt false c.1 c.2 e0).natAbs
    if dist (n + 1) < dist best || (decide (dist (n + 1) = dist best) && (n + 1) % 2 == 0) then n + 1 else best

/-- ToLog(x) of R48. A nonzero magnitude that becomes zero keeps its sign. -/
def toLog (lg8 : Bool) : FVal → Nat
  | .nan => 0
  | .inf n => (if n then 2 ^ lgBits lg8 else 0) + (2 ^ lgBits lg8 - 1)
  | .fin n m e =>
    (if n then 2 ^ lgBits lg8 else 0) +
      (if m = 0 then 0
       else if 16 < (Nat.log2 m : Int) + e then 2 ^ lgBits lg8 - 1
       else nearestLog lg8 m e (2 ^ lgBits lg8 - 1))

/-! ### Formats by code (R16), element values and conversions -/

def fmtOf (code : Nat) : Option Ffmt :=
  match code with
  | 0 => some F32
  | 1 => some F16
  | 2 => some BF16
  | 3 => some E4M3
  | 4 => some E5M2
  | 5 => some E2M1
  | _ => none

/-- Bits of an element in a register (R43; LG6 in byte form). -/
def elemBits (code : Nat) : Nat := 32 / perReg code

def signedVal (n x : Nat) : Int := (BitVec.ofNat n x).toInt
def FVal.ofInt (x : Int) : FVal := .fin (decide (x < 0)) x.natAbs 0

/-- The value of an element pattern of a format. -/
def elemVal (code x : Nat) : FVal :=
  match fmtOf code with
  | some f => f.val (x % 2 ^ (f.eb + f.mb + 1))
  | none =>
    if code = 6 then FVal.ofInt (signedVal 8 x)
    else if code = 7 then FVal.ofInt (signedVal 4 x)
    else lgVal (code == 9) x

/-- R46: to a binary floating format; a directed rounding that points toward zero stops at the largest value (R158). -/
def convFloat (f : Ffmt) (d : Dir) (sat : Bool) (v : FVal) : Nat :=
  let big (neg : Bool) : Nat :=
    match f.top with
    | .ieee => if f.eb = 5 && f.mb == 2 && sat then f.largestBits neg else f.infBits neg
    | .e4m3 => if sat then f.largestBits neg else 0x7F
    | .finite => f.largestBits neg
  match v with
  | .nan => f.nanBits
  | .inf neg => big neg
  | .fin neg m e =>
    let r := f.round d neg m e
    if f.overflows r.1 r.2 then (if d.toZero neg then f.largestBits neg else big neg) else f.pack neg r.1 r.2

/-- R47 and R161: to a signed integer of n bits. -/
def convInt (n : Nat) (d : Dir) (sat : Bool) (v : FVal) : Nat :=
  let indef := 2 ^ (n - 1)
  let big := 2 ^ (n - 1) - 1
  match v with
  | .nan => if sat then 0 else indef
  | .inf neg => if sat then (if neg then indef else big) else indef
  | .fin neg m e =>
    if m ≠ 0 ∧ (n : Int) + 1 < (Nat.log2 m : Int) + e then (if sat then (if neg then indef else big) else indef)
    else
      let r := roundInt d neg m e
      if neg then (if r ≤ 2 ^ (n - 1) then (2 ^ n - r) % 2 ^ n else indef)
      else if r ≤ big then r else if sat then big else indef

/-- R161: to an unsigned 32-bit integer. -/
def convUint32 (d : Dir) (sat : Bool) (v : FVal) : Nat :=
  match v with
  | .nan => if sat then 0 else 2 ^ 32 - 1
  | .inf neg => if sat && neg then 0 else 2 ^ 32 - 1
  | .fin neg m e =>
    if m ≠ 0 ∧ 40 < (Nat.log2 m : Int) + e then (if sat && neg then 0 else 2 ^ 32 - 1)
    else
      let r := roundInt d neg m e
      if neg && decide (r ≠ 0) then (if sat then 0 else 2 ^ 32 - 1)
      else if r < 2 ^ 32 then r else 2 ^ 32 - 1

/-- A value converted to the format of a code (R46 to R48) under FMT.SAT. -/
def convTo (code : Nat) (d : Dir) (sat : Bool) (v : FVal) : Nat :=
  match fmtOf code with
  | some f => convFloat f d sat v
  | none =>
    if code = 6 then convInt 8 d sat v
    else if code = 7 then convInt 4 d sat v
    else toLog (code == 9) v

/-- FMT fields (R15). -/
def fmtA (x : W32) : Nat := (fld x 0 4).toNat
def fmtB (x : W32) : Nat := (fld x 4 4).toNat
def fmtD (x : W32) : Nat := (fld x 8 4).toNat
def fmtSat (x : W32) : Bool := bitAt x 12

/-- Element i of a 32-bit register in the packing of R43. -/
def elemAt (code : Nat) (x : W32) (i : Nat) : Nat := x.toNat / 2 ^ (elemBits code * i) % 2 ^ elemBits code

/-- E8M0 scale exponent (R37); 0xFF is NaN. -/
def scaleExp (c : Nat) : Int := (c : Int) - 127

/-- The format of MOD. -/
def vfFmt : VF → Ffmt
  | .fp32 => F32
  | .f16 => F16
  | .bf16 => BF16

/-- RoundF32 of R79. -/
def roundF32 (v : FVal) : W32 := BitVec.ofNat 32 (F32.enc .ne v)
def f32 (x : W32) : FVal := F32.val x.toNat

end Sys2Proof.Machine
end

