-- ==== Sys2Proof/Machine/Compare.lean ====
section
/-! DEFINITION. Class 0x3, compares and masks (R114 to R121). -/

namespace Sys2Proof.Machine

def condHolds (k : Cond) (a b : Int) : Bool :=
  match k with
  | .eq => a == b
  | .ne => a != b
  | .lt => decide (a < b)
  | .le => decide (a ≤ b)
  | .gt => decide (b < a)
  | .ge => decide (b ≤ a)

/-- R116. -/
def fcondHolds (k : FCond) (a b : FVal) : Bool :=
  match k with
  | .eq => a.eq b
  | .ne => !a.eq b
  | .lt => a.lt b
  | .le => a.lt b || a.eq b
  | .gt => b.lt a
  | .ge => b.lt a || a.eq b
  | .nan => a.isNan || b.isNan
  | .num => !a.isNan && !b.isNan

/-- How the result meets the destination (XA, R114). -/
def combMix (x : Comb) (old new : W64) : W64 :=
  match x with
  | .wr => new
  | .and => old &&& new
  | .or => old ||| new

/-- Writes a compare's results into p[d] of the performing lanes; on the scalar pipe one result goes to all of them. -/
def Group.cmpResult (g : Group) (t : Nat) (h : Hdr) (x : Comb) (sp : Bool) (d : P) (f : Nat → Bool) : Group :=
  g.putP d.toNat (g.perf t h) (combMix x (g.rdP t d.toNat) (maskOf (fun l => f (if sp then 0 else l))))

/-- The value of a 32-bit operand in the format of MOD: all of it for FP32, bits [15:0] otherwise. -/
def vfVal (f : VF) (x : W64) : FVal :=
  (vfFmt f).val (match f with
    | .fp32 => (fld x 0 32).toNat
    | _ => (fld x 0 16).toNat)

def execCmp (h : Hdr) (k : Cond) (m : IntMod) (x : Comb) (sp : Bool) (d : P) (a b : Src) :=
  regWord (.cmp h k m x sp d a b) h (fun t g =>
    g.cmpResult t h x sp d (fun l => condHolds k (ival m (g.src t m.w l a)) (ival m (g.src t m.w l b))))
def execFcmp (h : Hdr) (k : FCond) (f : VF) (x : Comb) (sp : Bool) (d : P) (a b : Src) :=
  regWord (.fcmp h k f x sp d a b) h (fun t g =>
    g.cmpResult t h x sp d (fun l => fcondHolds k (vfVal f (g.src t false l a)) (vfVal f (g.src t false l b))))

/-- R117. -/
def plogBits (k : PlogOp) (a b : W64) : W64 :=
  match k with
  | .and => a &&& b
  | .or => a ||| b
  | .xor => a ^^^ b
  | .andn => a &&& ~~~b
  | .orn => a ||| ~~~b
  | .not => ~~~a

def execPlog (h : Hdr) (k : PlogOp) (d a b : P) :=
  regWord (.plog h k d a b) h (fun t g => g.putP d.toNat (g.perf t h) (plogBits k (g.rdP t a.toNat) (g.rdP t b.toNat)))

/-- R118, over the performing lanes `l` with the predicate's lanes `x` among them. -/
def ptestBits (k : PtestOp) (l x : W64) : W64 :=
  match k with
  | .any => if x = 0 then 0 else 1
  | .all => if x = l then 1 else 0
  | .none => if x = 0 then 1 else 0
  | .cnt => BitVec.ofNat 64 (popcount x)

/-- A word that writes one s register when it performs. -/
def Group.wideS (g : Group) (t : Nat) (h : Hdr) (d : S) (x : W64) : Group := if g.perf t h = 0 then g else g.putS d.toNat x

def execPtest (h : Hdr) (k : PtestOp) (d : S) (a : P) :=
  regWord (.ptest h k d a) h (fun t g => g.wideS t h d (ptestBits k (g.perf t h) (g.perf t h &&& g.rdP t a.toNat)))
def execBallot (h : Hdr) (d : S) (a : P) :=
  regWord (.ballot h d a) h (fun t g => g.wideS t h d (g.perf t h &&& g.rdP t a.toNat))

/-- R119: the lowest candidate alone. -/
def lowestBit (x : W64) : W64 :=
  match lowest x with
  | some l => 1#64 <<< l
  | none => 0

def execElect (h : Hdr) (d a : P) :=
  regWord (.elect h d a) h (fun t g => g.putP d.toNat (g.perf t h) (lowestBit (g.perf t h &&& g.rdP t a.toNat)))

def psetBits (g : Group) (t : Nat) : PsetSrc → W64
  | .s r => g.rdS t r.toNat
  | .nz r => maskOf (fun l => g.rdV t r.toNat l != 0)
  | .k b => if b then BitVec.allOnes 64 else 0

def execPset (h : Hdr) (d : P) (x : PsetSrc) :=
  regWord (.pset h d x) h (fun t g => g.putP d.toNat (g.perf t h) (psetBits g t x))

/-- Active lanes whose value differs from that of the lowest lane taking part (R121, R257). -/
def Group.differing (g : Group) (t : Nat) (w : Bool) (a : V) (among part : W64) : W64 :=
  match lowest part with
  | .none => 0
  | .some r => maskOf (fun l => bitAt among l && g.vec t w a.toNat l != g.vec t w a.toNat r)

/-- R121: the answer goes to every active lane, whatever its guard; `.trap` has no effect and raises cause 0x06. -/
def execUcheck (h : Hdr) (tr w : Bool) (d : P) (a : V) :=
  issueWord (.ucheck h tr w d a) h
    { pre := fun m =>
        let part := m.me.perf m.tick h
        if tr && m.me.differing m.tick w a part part != 0 then
          match m.me.callTrap h.nas with
          | some t => some t
          | none => some { cause := 6, lanes := m.me.differing m.tick w a m.me.xm part, detail := 0 }
        else none,
      run := fun m => m.modMe (fun g =>
        if tr then g
        else
          let part := g.perf m.tick h
          g.putP d.toNat g.xm (if g.differing m.tick w a part part = 0 then BitVec.allOnes 64 else 0)) }

end Sys2Proof.Machine
end

