-- ==== Sys2Proof/Machine/Site.lean ====
section
/-! DEFINITION. What a generic word does to its site (R320 to R326): it waits for the entry in the core's site
cache, counts, and sends its update to the home. Every form writes the same values, so the effect is the word's own. -/

namespace Sys2Proof.Machine

def siteKey (s : SiteLine) (p ctx d n : Nat) : Bool := s.part == p && s.ctx == ctx && s.desc == d && s.site == n

def Core.siteLine (c : Core) (p ctx d n : Nat) : Option SiteLine := c.sites.find? (fun s => siteKey s p ctx d n)

/-- Fields of an entry (R318), read with its module epoch: an older epoch reads as FRESH with WC 0 and ATTR 0 (R320). -/
structure SiteView where
  state : BitVec 2
  wc : BitVec 4
  attr : BitVec 16
  deriving DecidableEq, Repr

def siteView (lo : W64) (mepoch : W32) : SiteView :=
  if fld lo 32 32 = mepoch then { state := fld lo 0 2, wc := fld lo 2 4, attr := fld lo 16 16 } else { state := 0, wc := 0, attr := 0 }

/-- Bits [63:0] of an entry after an update; class and reserved bits are kept, SEPOCH becomes MEPOCH (R321). -/
def siteWrite (lo : W64) (v : SiteView) (mepoch : W32) : W64 :=
  mepoch ++ v.attr ++ fld lo 10 6 ++ (0 : BitVec 4) ++ v.wc ++ v.state

/-- The new fields that an update writes (R320, R321). -/
def SiteUpd.apply (u : SiteUpd) (v : SiteView) : SiteView :=
  match u with
  | .claim _ => { v with state := 2 }
  | .resolve a => { v with state := 1, attr := a }
  | .widen => { state := 0, wc := if v.wc = 15 then 15 else v.wc + 1, attr := 0 }
  | .pin => { v with state := 3, attr := 0 }

/-- The update that R320 sends, if any, and whether the guard failed. -/
def siteMove (v : SiteView) (osc : BitVec 4) (attr : BitVec 16) (guard : BitVec 16 → Bool) : Option SiteUpd × Bool :=
  match v.state.toNat with
  | 0 => if osc.toNat ≤ v.wc.toNat then (some .pin, false) else (some (.claim attr), false)
  | 1 => if guard v.attr then (none, false) else (some .widen, true)
  | _ => (none, false)

def satAddNat (x : Nat) (k : Nat) : Nat := min (x + k) (2 ^ 32 - 1)

/-- R320 for the generic word at the group's pc with site `n`. -/
def Mach.touchSite (m : Mach) (n : Nat) (attr : BitVec 16) (guard : BitVec 16 → Bool) : Mach :=
  let c := m.cur.1
  match m.descAt m.myPart m.myCtx m.me.pc with
  | none => m
  | some (d, ds) =>
    match (m.core c).siteLine m.myPart m.myCtx d n with
    | none => m
    | some s =>
      let r := siteMove (siteView s.lo ds.mepoch) ds.osc attr guard
      let s' := { s with xd := s.xd + 1, fd := if r.2 then s.fd + 1 else s.fd }
      let m1 := m.modCore c (fun k => { k with sites := k.sites.map (fun y => if siteKey y m.myPart m.myCtx d n then s' else y) })
      match r.1 with
      | none => m1
      | some u =>
        let msg : SiteMsg := { part := m.myPart, ctx := m.myCtx, desc := d, site := n, team := m.me.team, grp := m.me.grp, version := s.version,
                               upd := u, owed := false }
        { m1 with siteMsgs := tset none m1.siteMsgs m1.nextId (some msg), nextId := m1.nextId + 1 }

/-- Waits until the entry is in the core's site cache (R325). -/
def Mach.siteWait (m : Mach) (n : Nat) : Option Why :=
  match m.descAt m.myPart m.myCtx m.me.pc with
  | none => none
  | some (d, _) =>
    match (m.core m.cur.1).siteLine m.myPart m.myCtx d n with
    | none => some (.siteFill d n)
    | some _ => none

/-! ### The table at its home (R317, R321, R324, R326) -/

/-- Physical addresses of an entry and of its version word; the reserve and the shadow area are never mapped (R365). -/
def Mach.siteAt (m : Mach) (p ctx d n : Nat) : Option (Nat × Nat) :=
  let ds := (m.part p).desc ctx d
  let at_ (va : Nat) := ((m.walk p ctx va).map (fun e => leafBase e.leaf + va % e.size)).filter (fun pa => !badPa pa)
  let st := (fld ds.st 0 57).toNat
  match at_ (st + 16 * n), at_ (st + 16 * ds.ns.toNat + 4 * n) with
  | some a, some v => some (a, v)
  | _, _ => none

/-- What reaching an entry at its home does beside: the walks' lines enter L2, and the sectors are read (R350, R386). -/
def Mach.siteReach (m : Mach) (p ctx d n : Nat) : Mach :=
  let ds := (m.part p).desc ctx d
  let st := (fld ds.st 0 57).toNat
  let m := (m.walked p ctx (st + 16 * n)).walked p ctx (st + 16 * ds.ns.toNat + 4 * n)
  match m.siteAt p ctx d n with
  | some (a, v) => (m.readBytes a 16).readBytes v 4
  | none => m

/-- The page for which an update of an entry waits: its own, or its version's (R367). -/
def Mach.siteStuck (m : Mach) (p ctx d n : Nat) : Option Nat := (m.siteAt p ctx d n).bind (fun x => m.stuckOf [pageOf x.1, pageOf x.2])

def Mach.siteVersion (m : Mach) (v : Nat) : W32 := m.own32 v

/-- Count deltas of a cached entry are added at the home (R324). -/
def Mach.addCounts (m : Mach) (s : SiteLine) : Mach :=
  if s.xd = 0 ∧ s.fd = 0 then m
  else match m.siteAt s.part s.ctx s.desc s.site with
    | none => m
    | some (a, _) =>
      let m := m.siteReach s.part s.ctx s.desc s.site
      let hi := m.own64 (a + 8)
      m.selfWrite (a + 8) (bytesOf 4 (satAddNat (fld hi 0 32).toNat s.xd) ++ bytesOf 4 (satAddNat (fld hi 32 32).toNat s.fd))

/-- The deltas of the chosen entries of a core are added at the home and cleared; `drop` removes the copies. -/
def Mach.flushSites (m : Mach) (c : Nat) (f : SiteLine → Bool) (drop : Bool) : Mach :=
  let m' := ((m.core c).sites.filter f).foldl Mach.addCounts m
  let clear (y : SiteLine) : SiteLine := if f y then { y with xd := 0, fd := 0 } else y
  let left (l : List SiteLine) : List SiteLine := if drop then l.filter (fun s => !f s) else l.map clear
  m'.modCore c (fun k => { k with sites := left k.sites })

/-- Every site cache of the partition adds its deltas for one entry (R329), and drops its copy where asked (R326). -/
def Mach.collectSite (m : Mach) (p ctx d n : Nat) (drop : Bool) : Mach :=
  m.cores.foldl (fun m kc => m.flushSites kc.1 (fun s => siteKey s p ctx d n) drop) m

/-- Writes bits [63:0] at the home, adds one to the version, and makes the update visible (R321, R326). An entry whose page is not mapped has
none, and nothing is written (DESIGN CHOICE, log 123). -/
def Mach.applySite (m : Mach) (p ctx d n : Nat) (f : SiteView → SiteView) : Mach :=
  match m.siteAt p ctx d n with
  | none => m
  | some (a, v) =>
    let m := m.siteReach p ctx d n
    let e := ((m.part p).desc ctx d).mepoch
    let lo := m.own64 a
    let m' := m.selfWrite a (bytesOf 8 (siteWrite lo (f (siteView lo e)) e).toNat)
    (m'.selfWrite v (bytesOf 4 (m.siteVersion v + 1).toNat)).collectSite p ctx d n true

/-- A generic word over the word it performs. -/
def Word.generic (w : Word) (n : BitVec 16) (attr : Mach → BitVec 16) (guard : Mach → BitVec 16 → Bool) : Word :=
  { w with
    wait := fun m => match m.siteWait n.toNat with
      | some why => some (m, why)
      | none => w.wait m,
    run := fun m => w.run (m.touchSite n.toNat (attr m) (guard m)) }

/-- A word that rewrites its own group, as a Word. -/
def groupWord (f : Nat → Group → Group) : Word := { run := fun m => m.modMe (f m.tick) }

/-- The site of a format word: class 2, attribute FA (R150). -/
def faWord (i : Instr) (h : Hdr) (n : BitVec 16) (f : Nat → Group → Group) :=
  issueWord i h ((groupWord f).generic n (fun m => BitVec.ofNat 16 (fmtA m.me.fmt)) (fun m a => a == BitVec.ofNat 16 (fmtA m.me.fmt)))

end Sys2Proof.Machine
end

