-- ==== Sys2Proof/Machine/Moves.lean ====
section
/-! DEFINITION. Class 0x4, the moves (R122 to R129). -/

namespace Sys2Proof.Machine

/-- R123: a scalar-pipe `mov` copies all 64 bits under either MOD. -/
def Group.copySrc (g : Group) (t : Nat) (h : Hdr) (w : Bool) (d : Dst) (a : Src) : Group :=
  match d with
  | .v _ => g.op1 t h w false d a id
  | .s _ => g.op1 t h true false d a id

def execMov (h : Hdr) (w : Bool) (d : Dst) (a : Src) := regWord (.mov h w d a) h (fun t g => g.copySrc t h w d a)

/-- The source is equal in every active lane (R124). -/
def Group.uniformSrc (g : Group) (t : Nat) (w : Bool) (a : Src) : Bool :=
  match lowest g.xm with
  | .none => true
  | .some r => (lanesOf g.xm).all (fun l => g.src t w l a == g.src t w r a)

def flagAttr (b : Bool) : BitVec 16 := if b then 1 else 0

/-- A generic word whose site holds a uniform flag (R124): class 3. -/
def flagWord (i : Instr) (h : Hdr) (n : BitVec 16) (u : Nat → Group → Bool) (f : Nat → Group → Group) :=
  issueWord i h ((groupWord f).generic n (fun m => flagAttr (u m.tick m.me)) (fun m a => !bitAt a 0 || u m.tick m.me))

def execMovG (h : Hdr) (n : BitVec 16) (w : Bool) (d : Dst) (a : Src) :=
  flagWord (.movG h n w d a) h n (fun t g => g.uniformSrc t w a) (fun t g => g.copySrc t h w d a)

def execMovi (h : Hdr) (w : Bool) (d : Dst) (imm : W32) :=
  regWord (.movi h w d imm) h (fun t g => g.result (g.perf t h) w false d (fun _ => if w then imm.signExtend 64 else imm.setWidth 64))

/-- R123: the upper half; bits [31:0] are kept. -/
def execMovh (h : Hdr) (d : Dst) (imm : W32) :=
  regWord (.movh h d imm) h (fun t g =>
    match d with
    | .v r => g.writeV (g.perf t h) (r.toNat + 1) (fun _ => imm)
    | .s r => g.wideS t h r (imm ++ fld (g.rdS t r.toNat) 0 32))

/-- The source lane b[5:0] of `bcast` (R125). -/
def Group.bcastLane (g : Group) (t : Nat) (b : Src) : Nat := (fld (g.src t true 0 b) 0 6).toNat
def Group.bcast (g : Group) (t : Nat) (h : Hdr) (w : Bool) (d a : V) (b : Src) : Group :=
  g.vecResult (g.perf t h) w d.toNat (fun _ => g.vec t w a.toNat (g.bcastLane t b))

def execBcast (h : Hdr) (w : Bool) (d a : V) (b : Src) := regWord (.bcast h w d a b) h (fun t g => g.bcast t h w d a b)
/-- For `bcast` the guard also asks that the source lane is active (R124). -/
def execBcastG (h : Hdr) (n : BitVec 16) (w : Bool) (d a : V) (b : Src) :=
  flagWord (.bcastG h n w d a b) h n (fun t g => g.uniformSrc t w (.v a) && bitAt g.xm (g.bcastLane t b)) (fun t g => g.bcast t h w d a b)

/-- R126: with no lane named, the lowest performing lane. -/
def vtosLane (perf : W64) (ln : Option (BitVec 6)) : Option Nat :=
  match ln with
  | some l => some l.toNat
  | none => lowest perf

def execVtos (h : Hdr) (w : Bool) (ln : Option (BitVec 6)) (d : S) (a : V) :=
  regWord (.vtos h w ln d a) h (fun t g =>
    match vtosLane (g.perf t h) ln with
    | .some l => g.wideS t h d (g.vec t w a.toNat l)
    | .none => g)
def execStov (h : Hdr) (w : Bool) (d : V) (a : S) :=
  regWord (.stov h w d a) h (fun t g => g.vecResult (g.perf t h) w d.toNat (fun _ => g.rdS t a.toNat))

/-- R127. It has no pointer, and DETAIL of its cause 0x10 is the offset (DESIGN CHOICE, log 116). -/
def execLdk (h : Hdr) (w : Bool) (d : S) (off : W32) :=
  let n := if w then 8 else 4
  issueWord (.ldk h w d off) h
    { pre := fun m =>
        if m.performs h && (off.toNat % n != 0 || decide (4096 < off.toNat + n)) then
          some { cause := 0x10, lanes := m.me.xm, detail := off.setWidth 64 }
        else none,
      run := fun m =>
        let k := m.myInst.const
        m.modMe (fun g => g.wideS m.tick h d (BitVec.ofNat 64 (natOf ((List.range n).map (fun i => tget 0 k (off.toNat + i)))))) }

/-! ### Translation registers (R18, R128, R129) -/

/-- What `tbset` finds for its pointer through the core's TLB: the leaf, FRAME and LIMIT, or nothing and V stays 0 (R128). -/
def Mach.tbFrame (m : Mach) (c p ctx privBase privSize : Nat) (ptr : W64) : Option (TlbEntry × W64 × W64) :=
  let off := (fld ptr 0 57).toNat
  let va := ptrVa privBase ptr
  if (fld ptr 60 4 = 0 ∨ (fld ptr 60 4 = 3 ∧ off < privSize)) ∧ fld ptr 57 3 = 0 then
    match m.translate c p ctx va false with
    | none => none
    | some e =>
      if leafW e.leaf && !(homeOf e.leaf == m.partno.toNat && badPa (leafBase e.leaf + va % e.size)) then
        some (e, BitVec.ofNat 64 (2 ^ 63 + leafBase e.leaf + va % e.size), BitVec.ofNat 64 (e.size - va % e.size))
      else none
  else none

/-- BASE := s[SA] and V := 0; the translation follows in the background. While V = 0, PA and LEN read 0 (DESIGN CHOICE, log 83). -/
def execTbset (h : Hdr) (d : Q) (a : S) :=
  issueWord (.tbset h d a) h (wideWord h (fun m => m.modMe (fun g =>
    { g with tb := tset Tb.reset g.tb d.toNat { base := g.rdS m.tick a.toNat, frame := 0, limit := 0, busy := true, leaf := none } })))

/-- The background translation of a `tbset` ends (R128); one removed in flight left nothing to do (R20). -/
def execTbsetTranslationDone (c k tb : Nat) :=
  stepIf (fun m => (tget Tb.reset (m.group c k).tb tb).busy)
    (fun m =>
      let g := m.group c k
      let t := tget Tb.reset g.tb tb
      let tm := m.team g.team
      match m.tbFrame c tm.part tm.ctx g.privBase g.privSize t.base with
      | none => (m.walked tm.part tm.ctx (ptrVa g.privBase t.base)).setGroup c k { g with tb := tset Tb.reset g.tb tb { t with busy := false } }
      | some (e, f, l) =>
        (m.setGroup c k { g with tb := tset Tb.reset g.tb tb { t with frame := f, limit := l, busy := false, leaf := some e } }).cacheTlb c e)

def execTbget (h : Hdr) (k : TbWord) (d : S) (a : Q) :=
  regWord (.tbget h k d a) h (fun t g =>
    let x := tget Tb.reset g.tb a.toNat
    g.wideS t h d (match k with
      | .base => x.base
      | .frame => x.frame
      | .limit => x.limit))

end Sys2Proof.Machine
end

