-- ==== Sys2Proof/Machine/Control.lean ====
section
/-! DEFINITION. Class 0x0, control and system words (R130 to R139). -/

namespace Sys2Proof.Machine

def execNop (h : Hdr) := issueWord (.nop h) h { run := id }

/-- R131. -/
def execTrap (h : Hdr) (imm : W32) :=
  issueWord (.trap h imm) h
    { pre := fun m => if m.performs h then some { cause := 8, lanes := m.me.xm, detail := imm.setWidth 64 } else none, run := id }
def execBrk (h : Hdr) (imm : W32) :=
  issueWord (.brk h imm) h
    { pre := fun m => if m.performs h then some { cause := 9, lanes := m.me.xm, detail := imm.setWidth 64 } else none, run := id }

/-- `yield` goes behind every pending group (R133, R251). -/
def Mach.yieldMe (m : Mach) : Mach := m.modMe (fun g => { g with status := .pending, readyAge := m.clock, readyTick := m.tick, unready := false })

/-- R132: `sleep 0` behaves as `yield`. -/
def Mach.sleepMe (m : Mach) (n : Nat) : Mach :=
  if n = 0 then m.yieldMe else m.modMe (fun g => { g with status := .sleeping (m.clock + n) })

def execSleep (h : Hdr) (imm : W32) := issueWord (.sleep h imm) h (wideWord h (fun m => m.sleepMe imm.toNat))
def execYield (h : Hdr) := issueWord (.yield h) h (wideWord h Mach.yieldMe)

/-- SIG as `sigck` folds it (R137). -/
def Group.sigFold (g : Group) : W32 := crc g.sig (g.xm ^^^ g.xs)

def Mach.sigcheck (m : Mach) : Bool :=
  match m.descAt m.myPart m.myCtx m.me.pc with
  | some d => d.2.sigcheck
  | none => false

/-- R137: folds, compares and resets whatever its guard holds. In a module without SIGCHECK it folds and sets XS all the same, where R97 says that it
does nothing but sequence (DEDUCED, log 115). -/
def execSigck (h : Hdr) (imm : W32) :=
  issueWord (.sigck h imm) h
    { pre := fun m => if m.sigcheck && m.me.sigFold != imm then some { cause := 0x30, lanes := m.me.xm, detail := 0 } else none,
      run := fun m =>
        let on := m.sigcheck
        m.modMe (fun g => { g with sig := if on then 0xFFFFFFFF#32 else g.sigFold, xs := g.xm }) }

/-- A word that rewrites its own group when it performs. -/
def Group.wide (g : Group) (t : Nat) (h : Hdr) (f : Group → Group) : Group := if g.perf t h = 0 then g else f g

def execLcset (h : Hdr) (imm : W32) := regWord (.lcset h imm) h (fun t g => g.wide t h (fun g => { g with lc := imm }))
def execLcsetR (h : Hdr) (a : S) :=
  regWord (.lcsetR h a) h (fun t g => g.wide t h (fun g => { g with lc := fld (g.rdS t a.toNat) 0 32 }))
def execLcsetGet (h : Hdr) (d : S) := regWord (.lcsetGet h d) h (fun t g => g.wideS t h d (g.lc.setWidth 64))

/-- PATH of R135: the lanes with which the running path began. -/
def Group.path (g : Group) : W64 :=
  (match g.recs with
    | [] => BitVec.allOnes 64
    | e :: _ => if e.phase then e.take else e.save &&& ~~~e.take) &&& ~~~g.retired

def execXmset (h : Hdr) (a : S) :=
  regWord (.xmset h a) h (fun t g => g.wide t h (fun g => { g with xm := g.rdS t a.toNat &&& g.path }))
def execXmsetAnd (h : Hdr) (a : S) :=
  regWord (.xmsetAnd h a) h (fun t g => g.wide t h (fun g => { g with xm := g.xm &&& g.rdS t a.toNat }))
def execXmsetOr (h : Hdr) (a : S) :=
  regWord (.xmsetOr h a) h (fun t g => g.wide t h (fun g => { g with xm := g.xm ||| (g.rdS t a.toNat &&& g.path) }))
def execXmget (h : Hdr) (d : S) := regWord (.xmget h d) h (fun t g => g.wideS t h d g.xm)

/-! ### Special registers (R21, R136) -/

/-- Scratchpad units of 4 KiB still free on a core (R22). -/
def Mach.freeSpk (m : Mach) (c : Nat) : Nat :=
  let k := m.core c
  (2048 - vregs k.pool * gsl k.pool - 384 * accb k.pool) / 16 - (k.teams.map (fun t => spk (m.team t.2).pool)).sum

/-- `%pool`: the core's word, in which SPK reads as what is still free. -/
def Mach.poolWord (m : Mach) (c : Nat) : W32 :=
  ((m.core c).pool &&& ~~~0xFF00#32) ||| (BitVec.ofNat 32 (m.freeSpk c % 256) <<< 8)

def Mach.special (m : Mach) (idx : Nat) : W64 :=
  let c := m.cur.1
  let n (x : Nat) : W64 := BitVec.ofNat 64 x
  match idx with
  | 0x01 => n m.me.grp
  | 0x02 => m.myTeam.num.setWidth 64
  | 0x03 => n c
  | 0x04 => n (c % 2)
  | 0x05 => n (c % 8)
  | 0x06 => n (sliceOf c)
  | 0x07 => n m.myPart
  | 0x08 => n m.myCtx
  | 0x09 => m.partno.setWidth 64
  | 0x0A => (m.core c).epoch.setWidth 64
  | 0x0B => n m.clock
  | 0x0C => n m.myInst.rcb
  | 0x0D => m.myInst.param
  | 0x0E => m.myInst.inw
  | 0x0F => (m.poolWord c).setWidth 64
  | 0x10 => n (spSize m.myTeam.pool)
  | 0x11 => n m.me.privSize
  | 0x12 => n m.me.calls.length
  | 0x13 => m.me.sig.setWidth 64
  | _ => 0

/-- `%sig` reads as SIG with this very word folded in, since every word is hashed before its effect (R137). -/
def execRds (h : Hdr) (d : Dst) (idx : BitVec 5) :=
  issueWord (.rds h d idx) h
    { run := fun m =>
        let x := m.special idx.toNat
        m.modMe (fun g =>
          match d with
          | .v r => g.writeV (g.perf m.tick h) r.toNat (fun l => BitVec.ofNat 32 l)
          | .s r => g.wideS m.tick h r x) }

def execWrs (h : Hdr) (a : S) :=
  regWord (.wrs h a) h (fun t g => g.wide t h (fun g => { g with sig := fld (g.rdS t a.toNat) 0 32 }))

/-- R138: the core forgets every instruction word that it holds. -/
def execIflush (h : Hdr) (w : S) :=
  issueWord (.iflush h w) h (presentWord h (fun m => m.me.rdS m.tick w.toNat)
    (fun m => m.modCore m.cur.1 (fun k => { k with ibuf := [] })))

/-! ### `sitex` (R139, R329) -/

/-- The module that holds the word, and the site it names. -/
def Mach.mySite (m : Mach) : Option Nat := (m.descAt m.myPart m.myCtx m.me.pc).map (·.1)

/-- Some site cache holds counts of the entry that are not at its home yet. -/
def Mach.countsOwed (m : Mach) (i n : Nat) : Bool :=
  m.cores.any (fun kc => kc.2.sites.any (fun s => siteKey s m.myPart m.myCtx i n && (s.xd != 0 || s.fd != 0)))

/-- A `sitex` issues only once what it does at the home can be done: it waits for reserve space where the entry's page cannot be written now, an
update always, a query while counts are owed (R326, R329, R367). One that waits when its context halts has not issued (R141). -/
def Mach.siteHold (m : Mach) (n : Nat) (query : Bool) : Option (Mach × Why) :=
  match m.mySite with
  | none => none
  | some i =>
    if query && !m.countsOwed i n then none
    else (m.siteStuck m.myPart m.myCtx i n).map (fun pg =>
      (m.countStall pg (whoOwn (((m.siteAt m.myPart m.myCtx i n).map (·.1)).getD 0)), .siteRoom pg))

/-- A query: every site cache adds its deltas, then the entry is read at its home. One of an entry whose page is not mapped writes nothing (DESIGN
CHOICE, log 123). -/
def Mach.siteQuery (m : Mach) (h : Hdr) (d : S) (n : Nat) (upper : Bool) : Mach :=
  match m.mySite with
  | none => m
  | some i =>
    let m := (m.collectSite m.myPart m.myCtx i n false).siteReach m.myPart m.myCtx i n
    match m.siteAt m.myPart m.myCtx i n with
    | none => m
    | some (a, _) => m.modMe (fun g => g.wideS m.tick h d (m.own64 (if upper then a + 8 else a)))

def Mach.siteUpdate (m : Mach) (n : Nat) (f : SiteView → SiteView) : Mach :=
  match m.mySite with
  | none => m
  | some i => m.applySite m.myPart m.myCtx i n f

/-- A `sitex` on a site, a query or an update, over its effect. -/
def sitexWord (h : Hdr) (n : Nat) (query : Bool) (f : Mach → Mach) : Word :=
  { wideWord h f with wait := fun m => if m.performs h then m.siteHold n query else none }

def execSitex (h : Hdr) (d : S) (site : BitVec 16) :=
  issueWord (.sitex h d site) h (sitexWord h site.toNat true (fun m => m.siteQuery h d site.toNat false))
def execSitexCnt (h : Hdr) (d : S) (site : BitVec 16) :=
  issueWord (.sitexCnt h d site) h (sitexWord h site.toNat true (fun m => m.siteQuery h d site.toNat true))
def execSitexReset (h : Hdr) (site : BitVec 16) :=
  issueWord (.sitexReset h site) h (sitexWord h site.toNat false (fun m => m.siteUpdate site.toNat (fun _ => { state := 0, wc := 0, attr := 0 })))
/-- The widen count stays as R320 reads it. -/
def execSitexPin (h : Hdr) (site : BitVec 16) :=
  issueWord (.sitexPin h site) h (sitexWord h site.toNat false (fun m => m.siteUpdate site.toNat (fun v => { v with state := 3, attr := 0 })))

end Sys2Proof.Machine
end

