-- ==== Sys2Proof/Machine/Float.lean ====
section
/-! DEFINITION. Class 0x5, the float vector instructions (R142 to R150), native and generic. -/

namespace Sys2Proof.Machine

/-- An operation on the elements of 32-bit registers (R143): one FP32 element, or two of 16 bits. -/
def perElem (f : VF) (op : Ffmt → Nat → Nat → Nat → Nat) (x y z : W64) : W64 :=
  match f with
  | .fp32 => BitVec.ofNat 64 (op F32 (fld x 0 32).toNat (fld y 0 32).toNat (fld z 0 32).toNat)
  | k =>
    let e (i : Nat) : Nat := op (vfFmt k) (fld x (16 * i) 16).toNat (fld y (16 * i) 16).toNat (fld z (16 * i) 16).toNat
    BitVec.ofNat 64 (e 0 + 2 ^ 16 * e 1)

/-- A source of class 0x5: an immediate of a 16-bit format supplies IMM[15:0] to both elements (R143). -/
def Group.fsrc (g : Group) (t : Nat) (f : VF) (l : Nat) (s : Src) : W64 :=
  match s, f with
  | .imm i, .fp32 => i.setWidth 64
  | .imm i, _ => (fld i 0 16 ++ fld i 0 16).setWidth 64
  | s, _ => g.src t false l s

/-- A float word over an operation on elements; absent sources read s0. -/
def Group.fop (g : Group) (t : Nat) (h : Hdr) (f : VF) (d : Dst) (a b c : Src) (op : Ffmt → Nat → Nat → Nat → Nat) : Group :=
  g.result (g.perf t h) false false d (fun l => perElem f op (g.fsrc t f l a) (g.fsrc t f l b) (g.fsrc t f l c))

/-- The format that FMT.FA names (R150). -/
def faVF (fmt : W32) : VF :=
  match fmtA fmt with
  | 1 => .f16
  | 2 => .bf16
  | _ => .fp32

def z0 : Src := .s 0

/-! The element operations. -/

def opAdd (r : Rnd) (f : Ffmt) (x y _z : Nat) : Nat := f.enc (Dir.ofRnd r) ((f.val x).add (Dir.ofRnd r) (f.val y))
def opSub (r : Rnd) (f : Ffmt) (x y _z : Nat) : Nat := f.enc (Dir.ofRnd r) ((f.val x).add (Dir.ofRnd r) (f.val y).negate)
def opMul (r : Rnd) (f : Ffmt) (x y _z : Nat) : Nat := f.enc (Dir.ofRnd r) ((f.val x).mul (f.val y))
def opFma (r : Rnd) (f : Ffmt) (x y z : Nat) : Nat :=
  f.enc (Dir.ofRnd r) (((f.val x).mul (f.val y)).add (Dir.ofRnd r) (f.val z))
/-- R146: −0 orders below +0; one NaN yields the other operand. -/
def opMinMax (big : Bool) (f : Ffmt) (x y _z : Nat) : Nat :=
  let a := f.val x
  let b := f.val y
  if a.isNan && b.isNan then f.nanBits
  else if a.isNan then y
  else if b.isNan then x
  else
    let less := a.lt b || (a.eq b && a.neg? && !b.neg?)
    if less != big then x else y
def opSgn (k : SgnOp) (f : Ffmt) (x y _z : Nat) : Nat :=
  let s := 2 ^ (f.eb + f.mb)
  let mag := x % s
  let sx := x / s % 2
  let sy := y / s % 2
  if (f.val x).isNan then f.nanBits
  else match k with
    | .cpy => mag + s * sy
    | .neg => mag + s * (1 - sy)
    | .xor => mag + s * ((sx + sy) % 2)
    | .abs => mag
def opUn (fn : FVal → FVal) (r : Rnd) (f : Ffmt) (x _y _z : Nat) : Nat := f.enc (Dir.ofRnd r) (fn (f.val x))
/-- R148: integral values of the format are exact in it; an infinity is kept. -/
def opRnd (k : RndInt) (f : Ffmt) (x _y _z : Nat) : Nat := f.enc .ne ((f.val x).toIntegral (Dir.ofRndInt k))
/-- R149. -/
def opClass (f : Ffmt) (x _y _z : Nat) : Nat :=
  match f.val x with
  | .nan => 2 ^ 8
  | .inf n => if n then 2 ^ 0 else 2 ^ 7
  | .fin n m _ =>
    if m = 0 then (if n then 2 ^ 3 else 2 ^ 4)
    else if m < 2 ^ f.mb then (if n then 2 ^ 2 else 2 ^ 5)
    else if n then 2 ^ 1 else 2 ^ 6

def execFadd (h : Hdr) (f : VF) (r : Rnd) (d : Dst) (a b : Src) :=
  regWord (.fadd h f r d a b) h (fun t g => g.fop t h f d a b z0 (opAdd r))
def execFsub (h : Hdr) (f : VF) (r : Rnd) (d : Dst) (a b : Src) :=
  regWord (.fsub h f r d a b) h (fun t g => g.fop t h f d a b z0 (opSub r))
def execFmul (h : Hdr) (f : VF) (r : Rnd) (d : Dst) (a b : Src) :=
  regWord (.fmul h f r d a b) h (fun t g => g.fop t h f d a b z0 (opMul r))
def execFfma (h : Hdr) (f : VF) (r : Rnd) (d : Dst) (a b c : Src) :=
  regWord (.ffma h f r d a b c) h (fun t g => g.fop t h f d a b c (opFma r))
def execFmin (h : Hdr) (f : VF) (d : Dst) (a b : Src) :=
  regWord (.fmin h f d a b) h (fun t g => g.fop t h f d a b z0 (opMinMax false))
def execFmax (h : Hdr) (f : VF) (d : Dst) (a b : Src) :=
  regWord (.fmax h f d a b) h (fun t g => g.fop t h f d a b z0 (opMinMax true))
def execFsgn (h : Hdr) (k : SgnOp) (f : VF) (d : Dst) (a b : Src) :=
  regWord (.fsgn h k f d a b) h (fun t g => g.fop t h f d a b z0 (opSgn k))
def execFrcp (h : Hdr) (f : VF) (d : Dst) (a : Src) :=
  regWord (.frcp h f d a) h (fun t g => g.fop t h f d a z0 z0 (opUn FVal.rcp .ne))
def execFrsq (h : Hdr) (f : VF) (d : Dst) (a : Src) :=
  regWord (.frsq h f d a) h (fun t g => g.fop t h f d a z0 z0 (opUn FVal.rsq .ne))
def execFsqrt (h : Hdr) (f : VF) (r : Rnd) (d : Dst) (a : Src) :=
  regWord (.fsqrt h f r d a) h (fun t g => g.fop t h f d a z0 z0 (opUn FVal.sqrt r))
def execFexp2 (h : Hdr) (f : VF) (d : Dst) (a : Src) :=
  regWord (.fexp2 h f d a) h (fun t g => g.fop t h f d a z0 z0 (opUn FVal.exp2 .ne))
def execFlog2 (h : Hdr) (f : VF) (d : Dst) (a : Src) :=
  regWord (.flog2 h f d a) h (fun t g => g.fop t h f d a z0 z0 (opUn FVal.log2 .ne))
def execFsinpi (h : Hdr) (f : VF) (d : Dst) (a : Src) :=
  regWord (.fsinpi h f d a) h (fun t g => g.fop t h f d a z0 z0 (opUn FVal.sinpi .ne))
def execFcospi (h : Hdr) (f : VF) (d : Dst) (a : Src) :=
  regWord (.fcospi h f d a) h (fun t g => g.fop t h f d a z0 z0 (opUn FVal.cospi .ne))
def execFrnd (h : Hdr) (k : RndInt) (f : VF) (d : Dst) (a : Src) :=
  regWord (.frnd h k f d a) h (fun t g => g.fop t h f d a z0 z0 (opRnd k))
def execFclass (h : Hdr) (f : VF) (d : Dst) (a : Src) :=
  regWord (.fclass h f d a) h (fun t g => g.fop t h f d a z0 z0 opClass)

/-! The generic forms compute in the format of the group's own FMT.FA, whatever the site holds (R150). -/

def execFaddG (h : Hdr) (n : BitVec 16) (r : Rnd) (d : V) (a b : Src) :=
  faWord (.faddG h n r d a b) h n (fun t g => g.fop t h (faVF g.fmt) (.v d) a b z0 (opAdd r))
def execFsubG (h : Hdr) (n : BitVec 16) (r : Rnd) (d : V) (a b : Src) :=
  faWord (.fsubG h n r d a b) h n (fun t g => g.fop t h (faVF g.fmt) (.v d) a b z0 (opSub r))
def execFmulG (h : Hdr) (n : BitVec 16) (r : Rnd) (d : V) (a b : Src) :=
  faWord (.fmulG h n r d a b) h n (fun t g => g.fop t h (faVF g.fmt) (.v d) a b z0 (opMul r))
def execFfmaG (h : Hdr) (n : BitVec 16) (r : Rnd) (d : V) (a b c : Src) :=
  faWord (.ffmaG h n r d a b c) h n (fun t g => g.fop t h (faVF g.fmt) (.v d) a b c (opFma r))
def execFminG (h : Hdr) (n : BitVec 16) (d : V) (a b : Src) :=
  faWord (.fminG h n d a b) h n (fun t g => g.fop t h (faVF g.fmt) (.v d) a b z0 (opMinMax false))
def execFmaxG (h : Hdr) (n : BitVec 16) (d : V) (a b : Src) :=
  faWord (.fmaxG h n d a b) h n (fun t g => g.fop t h (faVF g.fmt) (.v d) a b z0 (opMinMax true))
def execFsgnG (h : Hdr) (n : BitVec 16) (k : SgnOp) (d : V) (a b : Src) :=
  faWord (.fsgnG h n k d a b) h n (fun t g => g.fop t h (faVF g.fmt) (.v d) a b z0 (opSgn k))
def execFrcpG (h : Hdr) (n : BitVec 16) (d : V) (a : Src) :=
  faWord (.frcpG h n d a) h n (fun t g => g.fop t h (faVF g.fmt) (.v d) a z0 z0 (opUn FVal.rcp .ne))
def execFrsqG (h : Hdr) (n : BitVec 16) (d : V) (a : Src) :=
  faWord (.frsqG h n d a) h n (fun t g => g.fop t h (faVF g.fmt) (.v d) a z0 z0 (opUn FVal.rsq .ne))
def execFsqrtG (h : Hdr) (n : BitVec 16) (r : Rnd) (d : V) (a : Src) :=
  faWord (.fsqrtG h n r d a) h n (fun t g => g.fop t h (faVF g.fmt) (.v d) a z0 z0 (opUn FVal.sqrt r))
def execFexp2G (h : Hdr) (n : BitVec 16) (d : V) (a : Src) :=
  faWord (.fexp2G h n d a) h n (fun t g => g.fop t h (faVF g.fmt) (.v d) a z0 z0 (opUn FVal.exp2 .ne))
def execFlog2G (h : Hdr) (n : BitVec 16) (d : V) (a : Src) :=
  faWord (.flog2G h n d a) h n (fun t g => g.fop t h (faVF g.fmt) (.v d) a z0 z0 (opUn FVal.log2 .ne))
def execFsinpiG (h : Hdr) (n : BitVec 16) (d : V) (a : Src) :=
  faWord (.fsinpiG h n d a) h n (fun t g => g.fop t h (faVF g.fmt) (.v d) a z0 z0 (opUn FVal.sinpi .ne))
def execFcospiG (h : Hdr) (n : BitVec 16) (d : V) (a : Src) :=
  faWord (.fcospiG h n d a) h n (fun t g => g.fop t h (faVF g.fmt) (.v d) a z0 z0 (opUn FVal.cospi .ne))
def execFrndG (h : Hdr) (n : BitVec 16) (k : RndInt) (d : V) (a : Src) :=
  faWord (.frndG h n k d a) h n (fun t g => g.fop t h (faVF g.fmt) (.v d) a z0 z0 (opRnd k))
def execFclassG (h : Hdr) (n : BitVec 16) (d : V) (a : Src) :=
  faWord (.fclassG h n d a) h n (fun t g => g.fop t h (faVF g.fmt) (.v d) a z0 z0 opClass)

end Sys2Proof.Machine
end

