-- ==== Sys2Proof/Machine/LogFmt.lean ====
section
/-! DEFINITION. Class 0x6: the log-domain operations, the format register and `dot4` (R151 to R155). -/

namespace Sys2Proof.Machine

/-- An operation on the four byte-form elements of a register (R152); LG6 writes bits [8j+7:8j+6] as zero. -/
def perByte (f : Nat → Nat → Nat → Nat) (x y z : W64) : W64 :=
  BitVec.ofNat 64 (natOf ((List.range 4).map (fun j =>
    BitVec.ofNat 8 (f (fld x (8 * j) 8).toNat (fld y (8 * j) 8).toNat (fld z (8 * j) 8).toNat))))

def FVal.isNegZero : FVal → Bool
  | .fin n m _ => n && m == 0
  | _ => false

/-- The sum of two addends in a log format: a zero result is +0 unless every addend is −0 (R152, log 108). -/
def logSum (lg8 : Bool) (x y : FVal) : Nat :=
  let r := toLog lg8 (x.add .ne y)
  if r = 2 ^ lgBits lg8 ∧ !(x.isNegZero && y.isNegZero) then 0 else r

def execLadd (h : Hdr) (lg8 : Bool) (d : V) (a b : Src) :=
  regWord (.ladd h lg8 d a b) h (fun t g =>
    g.op2 t h false false (.v d) a b (fun x y => perByte (fun p q _ => logSum lg8 (lgVal lg8 p) (lgVal lg8 q)) x y 0))
def execLmul (h : Hdr) (lg8 : Bool) (d : V) (a b : Src) :=
  regWord (.lmul h lg8 d a b) h (fun t g =>
    g.op2 t h false false (.v d) a b (fun x y => perByte (fun p q _ => toLog lg8 (lgProduct lg8 p q)) x y 0))
def execLfma (h : Hdr) (lg8 : Bool) (d : V) (a b c : Src) :=
  regWord (.lfma h lg8 d a b c) h (fun t g =>
    g.op3 t h false false (.v d) a b c (perByte (fun p q r => logSum lg8 (lgProduct lg8 p q) (lgVal lg8 r))))

/-! ### FMT (R153) -/

def fmtPut (k : FmtSel) (fmt : W32) (imm : BitVec 13) : W32 :=
  match k with
  | .all => imm.setWidth 32
  | .a => (fmt &&& ~~~0xF#32) ||| (fld imm 0 4).setWidth 32
  | .b => (fmt &&& ~~~0xF0#32) ||| ((fld imm 0 4).setWidth 32 <<< 4)
  | .d => (fmt &&& ~~~0xF00#32) ||| ((fld imm 0 4).setWidth 32 <<< 8)
  | .sat => (fmt &&& ~~~0x1000#32) ||| ((fld imm 0 1).setWidth 32 <<< 12)

def execFmtset (h : Hdr) (k : FmtSel) (imm : BitVec 13) :=
  regWord (.fmtset h k imm) h (fun t g => if g.perf t h = 0 then g else { g with fmt := fmtPut k g.fmt imm })
/-- A reserved code is refused before the effect (`Mach.illegalNow`). -/
def execFmtsetR (h : Hdr) (a : S) :=
  regWord (.fmtsetR h a) h (fun t g => if g.perf t h = 0 then g else { g with fmt := (fld (g.rdS t a.toNat) 0 13).setWidth 32 })
def execFmtget (h : Hdr) (d : S) := regWord (.fmtget h d) h (fun t g => g.wideS t h d (g.fmt.setWidth 64))

/-! ### `dot4` (R155) -/

def dotCode : DotFmt → Nat
  | .e4m3 => 3
  | .e5m2 => 4
  | .i8 => 6
  | .lg6 => 8
  | .lg8 => 9
  | .e2m1 => 5
  | .i4 => 7

/-- The product of two elements: R41 for the log formats, exact for the others (R79). -/
def product (code x y : Nat) : FVal :=
  if code = 8 ∨ code = 9 then lgProduct (code == 9) x y else (elemVal code x).mul (elemVal code y)

/-- Four products and c, summed exactly and rounded once; a code without a form gives the canonical NaN. -/
def dot4Val (code : Nat) (x y z : W32) : W32 :=
  let n (i : Nat) : Int := signedVal (elemBits code) (elemAt code x i) * signedVal (elemBits code) (elemAt code y i)
  let p (i : Nat) : FVal := product code (elemAt code x i) (elemAt code y i)
  if code = 6 ∨ code = 7 then BitVec.ofInt 32 (z.toInt + n 0 + n 1 + n 2 + n 3)
  else if code < 3 then 0x7FC00000#32
  else roundF32 (((((f32 z).add .ne (p 0)).add .ne (p 1)).add .ne (p 2)).add .ne (p 3))

def Group.dot4 (g : Group) (t : Nat) (h : Hdr) (code : Nat) (d : V) (a b c : Src) : Group :=
  g.op3 t h false false (.v d) a b c (fun x y z => (dot4Val code (fld x 0 32) (fld y 0 32) (fld z 0 32)).setWidth 64)

def execDot4 (h : Hdr) (f : DotFmt) (d : V) (a b c : Src) :=
  regWord (.dot4 h f d a b c) h (fun t g => g.dot4 t h (dotCode f) d a b c)
def execDot4G (h : Hdr) (n : BitVec 16) (d : V) (a b c : Src) :=
  faWord (.dot4G h n d a b c) h n (fun t g => g.dot4 t h (fmtA g.fmt) d a b c)

end Sys2Proof.Machine
end

