-- ==== Sys2Proof/Machine/Convert.lean ====
section
/-! DEFINITION. Class 0x7, conversions, packing and block quantisation (R156 to R164). -/

namespace Sys2Proof.Machine

/-- What a scale of 0xFF makes of a target element (R159). -/
def nanScaleElem (tgt : Nat) (sat : Bool) : Nat :=
  match tgt with
  | 0 => F32.nanBits
  | 1 => F16.nanBits
  | 2 => BF16.nanBits
  | 3 => E4M3.nanBits
  | 4 => E5M2.nanBits
  | 6 => if sat then 0 else 0x80
  | 7 => if sat then 0 else 8
  | _ => 0

/-- One element converted (R158, R159); equal codes copy, a NaN becoming the canonical one. -/
def cvtElem (src tgt : Nat) (d : Dir) (sat : Bool) (c x : Nat) : Nat :=
  let v := elemVal src x
  if (src = 5 ∨ tgt = 5) ∧ c = 255 then nanScaleElem tgt sat
  else if src = tgt then (if v.isNan then nanScaleElem tgt sat else if src = 8 then x % 64 else x)
  else
    let v := if src = 5 then v.scale (scaleExp c) else v
    let v := if tgt = 5 then v.scale (-scaleExp c) else v
    convTo tgt d sat v

/-- Register j of a converted span whose source registers are `xs` (R157). -/
def cvtReg (src tgt : Nat) (d : Dir) (sat : Bool) (c : Nat) (xs : Nat → W32) (j : Nat) : W32 :=
  BitVec.ofNat 32 ((List.range (perReg tgt)).map (fun k =>
    let i := j * perReg tgt + k
    2 ^ (elemBits tgt * k) *
      (if i < max (perReg src) (perReg tgt) then cvtElem src tgt d sat c (elemAt src (xs (i / perReg src)) (i % perReg src)) else 0))).sum

/-- Writes registers r, r+1, … (n of them) of the given lanes. -/
def Group.putSpan (g : Group) (lanes : W64) (r n : Nat) (f : Nat → Nat → W32) : Group :=
  (lanesOf lanes).foldl (fun a l => (List.range n).foldl (fun a j => a.putV (r + j) l (f l j)) a) g

/-- A register of a source span: v[SA+i], or the one s register. -/
def Group.spanSrc (g : Group) (t : Nat) (a : Src) (l i : Nat) : W32 :=
  match a with
  | .v r => g.rdV t (r.toNat + i) l
  | a => fld (g.src t false l a) 0 32

def Group.cvt (g : Group) (t : Nat) (h : Hdr) (r : Rnd) (tgt src : Nat) (d : V) (a c : Src) : Group :=
  g.putSpan (g.perf t h) d.toNat (cvtSpans src tgt).2 (fun l j =>
    cvtReg src tgt (Dir.ofRnd r) (fmtSat g.fmt) (fld (g.src t false l c) 0 8).toNat (g.spanSrc t a l) j)

def execCvt (h : Hdr) (r : Rnd) (tgt src : BitVec 4) (d : V) (a c : Src) :=
  regWord (.cvt h r tgt src d a c) h (fun t g => g.cvt t h r tgt.toNat src.toNat d a c)

/-- FD × 16 + FA (R160). -/
def fdfa (fmt : W32) : BitVec 16 := BitVec.ofNat 16 (16 * fmtD fmt + fmtA fmt)

def execCvtG (h : Hdr) (n : BitVec 16) (r : Rnd) (d : V) (a c : Src) :=
  issueWord (.cvtG h n r d a c) h
    ((groupWord (fun t g => g.cvt t h r (fmtD g.fmt) (fmtA g.fmt) d a c)).generic n (fun m => fdfa m.me.fmt) (fun m x => x == fdfa m.me.fmt))

/-! FP32 and 32-bit integers (R161). -/

def execCvtF2i (h : Hdr) (r : Rnd) (d : Dst) (a : Src) :=
  regWord (.cvtF2i h r d a) h (fun t g =>
    g.op1 t h false true d a (fun x => BitVec.ofNat 64 (convInt 32 (Dir.ofRnd r) (fmtSat g.fmt) (f32 (fld x 0 32)))))
def execCvtF2u (h : Hdr) (r : Rnd) (d : Dst) (a : Src) :=
  regWord (.cvtF2u h r d a) h (fun t g =>
    g.op1 t h false false d a (fun x => BitVec.ofNat 64 (convUint32 (Dir.ofRnd r) (fmtSat g.fmt) (f32 (fld x 0 32)))))
def execCvtI2f (h : Hdr) (r : Rnd) (d : Dst) (a : Src) :=
  regWord (.cvtI2f h r d a) h (fun t g =>
    g.op1 t h false false d a (fun x => BitVec.ofNat 64 (F32.enc (Dir.ofRnd r) (FVal.ofInt (fld x 0 32).toInt))))
def execCvtU2f (h : Hdr) (r : Rnd) (d : Dst) (a : Src) :=
  regWord (.cvtU2f h r d a) h (fun t g =>
    g.op1 t h false false d a (fun x => BitVec.ofNat 64 (F32.enc (Dir.ofRnd r) (FVal.ofInt (fld x 0 32).toNat))))

/-! LG6 between byte form and stream form (R42, R162). -/

/-- The 96-bit stream of sixteen elements. -/
def packStream (xs : Nat → W32) : Nat :=
  ((List.range 16).map (fun e => 2 ^ (6 * e) * (elemAt 8 (xs (e / 4)) (e % 4) % 64))).sum

def execPack (h : Hdr) (d a : V) :=
  regWord (.pack h d a) h (fun t g =>
    g.putSpan (g.perf t h) d.toNat 3 (fun l j => BitVec.ofNat 32 (packStream (fun i => g.rdV t (a.toNat + i) l) / 2 ^ (32 * j))))

/-- Register j of the byte form of a lane's stream. -/
def Group.unpackAt (g : Group) (t : Nat) (a : V) (l j : Nat) : W32 :=
  let s := (g.rdV t a.toNat l).toNat + 2 ^ 32 * (g.rdV t (a.toNat + 1) l).toNat + 2 ^ 64 * (g.rdV t (a.toNat + 2) l).toNat
  BitVec.ofNat 32 ((List.range 4).map (fun k => 2 ^ (8 * k) * (s / 2 ^ (6 * (4 * j + k)) % 64))).sum

def execUnpack (h : Hdr) (d a : V) :=
  regWord (.unpack h d a) h (fun t g => g.putSpan (g.perf t h) d.toNat 4 (g.unpackAt t a))

/-- R163. -/
def opScale (inv : Bool) (c : Nat) (f : Ffmt) (x _y _z : Nat) : Nat :=
  if c = 255 then f.nanBits else f.enc .ne ((f.val x).scale (if inv then -scaleExp c else scaleExp c))

def execScale (h : Hdr) (inv : Bool) (f : VF) (d : V) (a b : Src) :=
  regWord (.scale h inv f d a b) h (fun t g =>
    g.op2 t h false false (.v d) a b (fun x y => perElem f (opScale inv (fld y 0 8).toNat) x 0 0))

/-! Block quantisation (R164). -/

def qCode : QFmt → Nat
  | .mx4 => 5
  | .mx8 => 3
  | .i8 => 6
def qEmax : QFmt → Int
  | .mx4 => 2
  | .mx8 => 8
  | .i8 => 6

/-- Floor(log2 |x|) of a finite non-zero value. -/
def FVal.ilog2 : FVal → Option Int
  | .fin _ m e => if m = 0 then none else some ((Nat.log2 m : Int) + e)
  | _ => none

/-- The shared scale code of the values that take part. -/
def blockScale (emax : Int) (xs : List FVal) : Nat :=
  if xs.any (fun v => match v with
    | .fin _ _ _ => false
    | _ => true) then 255
  else match xs.filterMap FVal.ilog2 with
    | [] => 127
    | k :: ks => (max (ks.foldl max k - emax) (-127) + 127).toNat

/-- The value of a lane, and the scale code of block `b`. -/
def Group.qntVal (g : Group) (t : Nat) (a : Src) (l : Nat) : FVal := f32 (fld (g.src t false l a) 0 32)
def Group.qntScale (g : Group) (t : Nat) (h : Hdr) (k : QFmt) (a : Src) (b : Nat) : Nat :=
  blockScale (qEmax k) (((lanesOf (g.perf t h)).filter (fun l => l / 32 == b)).map (g.qntVal t a))

/-- A quantised element with its block's scale above it. -/
def Group.qntOf (g : Group) (k : QFmt) (c : Nat) (x : FVal) : W32 :=
  BitVec.ofNat 32 (256 * c + (if c = 255 then 0 else convTo (qCode k) .ne (fmtSat g.fmt) (x.scale (-scaleExp c))))

def execQnt (h : Hdr) (k : QFmt) (d : V) (a : Src) :=
  regWord (.qnt h k d a) h (fun t g =>
    let c0 := g.qntScale t h k a 0
    let c1 := g.qntScale t h k a 1
    g.writeV (g.perf t h) d.toNat (fun l => g.qntOf k (if l / 32 = 0 then c0 else c1) (g.qntVal t a l)))

def dqntN (k : QFmt) (x : W64) : W64 :=
  let c := (fld x 8 8).toNat
  (if c = 255 then 0x7FC00000#32
   else roundF32 ((elemVal (qCode k) (x.toNat % (if k = .mx4 then 16 else 256))).scale (scaleExp c))).setWidth 64

def execDqnt (h : Hdr) (k : QFmt) (d : V) (a : Src) := regWord (.dqnt h k d a) h (fun t g => g.op1 t h false false (.v d) a (dqntN k))

end Sys2Proof.Machine
end

