-- ==== Sys2Proof/Machine/Logic.lean ====
section
/-! DEFINITION. Class 0x2, the logic instructions (R109 to R113), on N-bit patterns. -/

namespace Sys2Proof.Machine

/-- The low N bits. -/
def lowN (w : Bool) (x : W64) : W64 := if w then x else (fld x 0 32).setWidth 64

def execAnd (h : Hdr) (w : Bool) (d : Dst) (a b : Src) :=
  regWord (.and h w d a b) h (fun t g => g.op2 t h w false d a b (fun x y => x &&& y))
def execOr (h : Hdr) (w : Bool) (d : Dst) (a b : Src) :=
  regWord (.or h w d a b) h (fun t g => g.op2 t h w false d a b (fun x y => x ||| y))
def execXor (h : Hdr) (w : Bool) (d : Dst) (a b : Src) :=
  regWord (.xor h w d a b) h (fun t g => g.op2 t h w false d a b (fun x y => x ^^^ y))
def execNot (h : Hdr) (w : Bool) (d : Dst) (a : Src) :=
  regWord (.not h w d a) h (fun t g => g.op1 t h w false d a (fun x => lowN w (~~~x)))

/-- R110: the count is the whole N-bit value of b. -/
def shlN (w : Bool) (x y : W64) : W64 := if nBits w ≤ y.toNat then 0 else lowN w (x <<< y.toNat)
def shrN (w : Bool) (x y : W64) : W64 := if nBits w ≤ y.toNat then 0 else x >>> y.toNat
def sarN (w : Bool) (x y : W64) : W64 :=
  let k := if nBits w ≤ y.toNat then nBits w - 1 else y.toNat
  if w then x.sshiftRight k else ((fld x 0 32).sshiftRight k).setWidth 64
def rotN (w : Bool) (x y : W64) : W64 :=
  if w then x.rotateLeft (y.toNat % 64) else ((fld x 0 32).rotateLeft (y.toNat % 32)).setWidth 64

def execShl (h : Hdr) (w : Bool) (d : Dst) (a b : Src) :=
  regWord (.shl h w d a b) h (fun t g => g.op2 t h w false d a b (shlN w))
def execShr (h : Hdr) (w : Bool) (d : Dst) (a b : Src) :=
  regWord (.shr h w d a b) h (fun t g => g.op2 t h w false d a b (shrN w))
def execSar (h : Hdr) (w : Bool) (d : Dst) (a b : Src) :=
  regWord (.sar h w d a b) h (fun t g => g.op2 t h w false d a b (sarN w))
def execRot (h : Hdr) (w : Bool) (d : Dst) (a b : Src) :=
  regWord (.rot h w d a b) h (fun t g => g.op2 t h w false d a b (rotN w))

/-- R111: position and length of the field that b names. -/
def fieldPos (y : W64) : Nat := (fld y 0 8).toNat
def fieldLen (y : W64) : Nat := (fld y 8 8).toNat

def bfxN (sx w : Bool) (x y : W64) : W64 :=
  let f := x.toNat / 2 ^ fieldPos y % 2 ^ fieldLen y
  if sx && decide (0 < fieldLen y) && f.testBit (fieldLen y - 1) then wrapN w ((f : Int) - 2 ^ fieldLen y)
  else wrapN w (f : Int)
def bfiN (w : Bool) (x y z : W64) : W64 :=
  let m := lowN w (BitVec.ofNat 64 ((2 ^ fieldLen y - 1) * 2 ^ fieldPos y))
  (x &&& ~~~m) ||| (BitVec.ofNat 64 (z.toNat * 2 ^ fieldPos y) &&& m)

def execBfx (h : Hdr) (sx w : Bool) (d : Dst) (a b : Src) :=
  regWord (.bfx h sx w d a b) h (fun t g => g.op2 t h w false d a b (bfxN sx w))
def execBfi (h : Hdr) (w : Bool) (d : Dst) (a b c : Src) :=
  regWord (.bfi h w d a b c) h (fun t g => g.op3 t h w false d a b c (bfiN w))

def popcN (x : W64) : W64 := BitVec.ofNat 64 (popcount x)
/-- Leading zeros of an N-bit pattern, N for zero (R109). -/
def clzN (w : Bool) (x : W64) : W64 := BitVec.ofNat 64 (nBits w - (((lanesOf x).getLast?).map (· + 1)).getD 0)
def brevN (w : Bool) (x : W64) : W64 := maskOf (fun i => decide (i < nBits w) && bitAt x (nBits w - 1 - i))

def execPopc (h : Hdr) (w : Bool) (d : Dst) (a : Src) := regWord (.popc h w d a) h (fun t g => g.op1 t h w false d a popcN)
def execClz (h : Hdr) (w : Bool) (d : Dst) (a : Src) := regWord (.clz h w d a) h (fun t g => g.op1 t h w false d a (clzN w))
def execBrev (h : Hdr) (w : Bool) (d : Dst) (a : Src) := regWord (.brev h w d a) h (fun t g => g.op1 t h w false d a (brevN w))

/-- R112: bit i is entry 4 a_i + 2 b_i + c_i of the table. -/
def lop3N (w : Bool) (tt : BitVec 8) (x y z : W64) : W64 :=
  maskOf (fun i => decide (i < nBits w) && bitAt tt (4 * (bitAt x i).toNat + 2 * (bitAt y i).toNat + (bitAt z i).toNat))

def execLop3 (h : Hdr) (w : Bool) (d : Dst) (a b c : Src) (tt : BitVec 8) :=
  regWord (.lop3 h w d a b c tt) h (fun t g => g.op3 t h w false d a b c (lop3N w tt))

/-- R113: a where the predicate holds, else b. -/
def execSel (h : Hdr) (w : Bool) (d : V) (a b : Src) (c : P) :=
  regWord (.sel h w d a b c) h (fun t g =>
    let p := g.rdP t c.toNat
    g.vecResult (g.perf t h) w d.toNat (fun l => if bitAt p l then g.src t w l a else g.src t w l b))

/-- R113: result byte i from the eight bytes of b:a, chosen by nibble i of c. -/
def permN (x y z : W64) : W64 :=
  let all : W64 := (fld y 0 32) ++ (fld x 0 32)
  BitVec.ofNat 64 (natOf ((List.range 4).map (fun i =>
    let n := fld z (4 * i) 4
    let b : Byte := fld all (8 * (fld n 0 3).toNat) 8
    if bitAt n 3 then (if bitAt b 7 then 0xFF#8 else 0) else b)))

def execPerm (h : Hdr) (d : Dst) (a b c : Src) :=
  regWord (.perm h d a b c) h (fun t g => g.op3 t h false false d a b c permN)

end Sys2Proof.Machine
end

