-- ==== Sys2Proof/Machine/Access.lean ====
section
/-! DEFINITION. What every word of classes 0x9 to 0xC shares: pointers (R80, R173 to R175), where they lead (R29 to
R31, R349), reads and writes there, the causes in R78's order, deferral to the operand log (R261 to R263), and
words performed at another part or on the host (R355). A word's effect is a function of the machine and of a view
of the group, so that the same effect runs at issue and at replay (R264). -/

namespace Sys2Proof.Machine

/-- The group that a word acts for: its place, its registers as the word reads them, the number of the outstanding
word, whether lanes at other parts are performed now, and a sequence number taken earlier. -/
structure View where
  core : Nat
  slot : Nat
  g : Group
  id : Nat
  away : Bool
  /-- at replay or return, not at issue -/
  again : Bool
  seq : Option (BitVec 19 × BitVec 24)
  /-- an atomic that its home has held, performed there in its place (R278) -/
  held : Bool := false
  /-- bytes that the word read at issue (R183) -/
  seen : List (Nat × Byte) := []

def Mach.view (m : Mach) : View := { core := m.cur.1, slot := m.cur.2, g := m.me, id := m.nextId, away := false, again := false, seq := none }

/-- The registers with every read decided as it stands now (R259), for the operand log; its translation registers are not logged. -/
def Group.frozen (g : Group) (t : Nat) : Group :=
  let ws := g.outs.flatMap (fun o => o.writes)
  ws.foldl (fun a w => match w.dst with
    | .v r l => a.putV r l (g.rdV t r l)
    | .s r => a.putS r (g.rdS t r)
    | .p r l => a.putP r (1#64 <<< l) (g.rdP t r)) { g with outs := [], tb := [] }

/-! ### Pointers -/

/-- A pointer as formed, whether no carry left its field (R31, R80), and the leaf of a tb register that its base is bound to (R19). -/
structure Ptr where
  val : W64
  ok : Bool
  tb : Option TlbEntry := none
  deriving DecidableEq, Repr

def ptrWidth (base : W64) : Option Nat :=
  match (fld base 60 4).toNat with
  | 0 | 3 => some 57
  | 1 | 2 => some 32
  | _ => none

/-- base + offset within the field below the tag. Where R80 forms no pointer, DETAIL of cause 0x10 is the base of a tag that forms none, or the sum
with its carry (DESIGN CHOICE, log 116). -/
def ptrAdd (base : W64) (off : Nat) : Ptr :=
  match ptrWidth base with
  | none => { val := base, ok := false }
  | some w =>
    let sum := base.toNat % 2 ^ w + off
    { val := base + BitVec.ofNat 64 off, ok := decide (sum < 2 ^ w) }

/-- The leaf of the lowest-numbered valid tb register whose BASE the base register holds, for an offset below its LEN (R19, R128). -/
def Group.tbFor (g : Group) (base : W64) (off : Nat) : Option TlbEntry :=
  ((List.range 4).find? (fun n => let t := tget Tb.reset g.tb n
    bitAt t.frame 63 && t.base == base)).bind (fun n =>
      let t := tget Tb.reset g.tb n
      if off < (fld t.limit 0 31).toNat then t.leaf else Option.none)

def Group.ptr (g : Group) (t : Nat) (ad : Addr) (l : Nat) : Ptr :=
  match ad with
  | .ub b o =>
    let off := (g.rdV t o.toNat l).toNat
    { ptrAdd (g.rdS t b.toNat) off with tb := g.tbFor (g.rdS t b.toNat) off }
  | .lp p => { val := g.vec t true p.toNat l, ok := true }

/-- Where a pointer leads. -/
inductive Loc where
  | sp (core key : Nat)
  | dev (pa : Nat) (e : TlbEntry)
  | far (home pa : Nat) (e : TlbEntry)
  | bad
  | unmapped
  deriving DecidableEq, Repr

/-- The team of the same region on a core, for the gang window (R30). A team that is spilled and not reclaimed is not on the core
(DESIGN CHOICE, log 82). -/
def Mach.gangTeam (m : Mach) (inst core : Nat) : Option Nat :=
  ((m.core core).teams.find? (fun t => !(m.team t.2).ended && (m.team t.2).inst == inst)).map (·.2)

def spKey (slot off : Nat) : Nat := 2 ^ 20 * slot + off

/-- A virtual address of the view's context (R349), through a tb register or the TLB (R19); the reserve and the shadow area are never
mapped. -/
def Mach.locateVa (m : Mach) (v : View) (tb : Option TlbEntry) (va n : Nat) (write : Bool) : Loc :=
  let t := m.team v.g.team
  match (match tb.filter (fun e => !write || leafD e.leaf) with
    | some e => some e
    | none => m.translate v.core t.part t.ctx va write) with
  | none => .unmapped
  | some e =>
    let pa := leafBase e.leaf + va % e.size
    if leafHost e.leaf then .far 64 pa e
    else if leafHome e.leaf ≠ m.partno then .far (leafHome e.leaf).toNat pa e
    else if badPa pa || badPa (pa + n - 1) then .unmapped
    else .dev pa e

/-- R29, R30: an access of n bytes at a pointer. -/
def Mach.locate (m : Mach) (v : View) (p : Ptr) (n : Nat) (write : Bool) : Loc :=
  let t := m.team v.g.team
  let x := p.val
  if !p.ok then .bad
  else match (fld x 60 4).toNat with
    | 0 =>
      if fld x 57 3 = 0 ∧ (fld x 0 57).toNat + n ≤ 2 ^ 57 then m.locateVa v p.tb (fld x 0 57).toNat n write else .bad
    | 1 =>
      if fld x 32 28 = 0 ∧ (fld x 0 32).toNat + n ≤ spSize t.pool then .sp v.core (spKey (t.slotOn v.core) (fld x 0 32).toNat) else .bad
    | 2 =>
      let c := 8 * gangOf v.core + (fld x 37 3).toNat
      if fld x 40 20 = 0 ∧ fld x 32 5 = 0 then
        match m.gangTeam t.inst c with
        | none => .bad
        | some id =>
          if (fld x 0 32).toNat + n ≤ spSize (m.team id).pool then .sp c (spKey ((m.team id).slotOn c) (fld x 0 32).toNat) else .bad
      else .bad
    | 3 =>
      if fld x 57 3 = 0 ∧ (fld x 0 57).toNat + n ≤ v.g.privSize then m.locateVa v p.tb (v.g.privBase + (fld x 0 57).toNat) n write else .bad
    | _ => .bad

/-- One access of a word: its lane, its pointer, its size, whether it meets the word's own conditions (alignment and
space, R175), and where it leads. -/
structure Piece where
  lane : Nat
  /-- the lanes that a cause raised by this access names (R76): its lane, or every active lane for a group-wide word (R64) -/
  who : W64
  ptr : W64
  size : Nat
  good : Bool
  loc : Loc

def Mach.piece (m : Mach) (v : View) (l : Nat) (p : Ptr) (n : Nat) (good write : Bool) : Piece :=
  { lane := l, who := 1#64 <<< l, ptr := p.val, size := n, good := good && decide (p.val.toNat % n = 0), loc := m.locate v p n write }

/-- The pointer's tag is the space of the word; a generic word names none (R173, R175). -/
def inSpace (spc : Option (BitVec 2)) (p : W64) : Bool :=
  match spc with
  | none => true
  | some s => fld p 60 4 == s.setWidth 4

def Loc.entry : Loc → Option TlbEntry
  | .dev _ e => some e
  | .far _ _ e => some e
  | _ => none

def Piece.badAddr (p : Piece) : Bool := !p.good || p.loc == .bad
def Piece.noWrite (p : Piece) : Bool :=
  match p.loc.entry with
  | some e => !leafW e.leaf
  | none => false

/-- The LANES of a cause that these accesses raise. -/
def whoOf (ps : List Piece) : W64 := ps.foldl (fun w p => w ||| p.who) 0

def raised (cause : Nat) (ps : List Piece) : Option Trap :=
  match ps with
  | [] => none
  | p :: _ => some { cause := cause, lanes := whoOf ps, detail := p.ptr }

/-- Causes 0x10, 0x13 and 0x12, in that order (R78, R175). -/
def judge (ps : List Piece) (write : Bool) (cannot : Loc → Bool) : Option Trap :=
  if ps.any Piece.badAddr then raised 0x10 (ps.filter Piece.badAddr)
  else if write && ps.any Piece.noWrite then raised 0x13 (ps.filter Piece.noWrite)
  else raised 0x12 (ps.filter (fun p => cannot p.loc))

/-- A word that goes on elsewhere: the homes and lines that it goes to, those that it may turn to from there, the bytes by which it is ordered, its
number and epoch, the results that it has at issue, and the bytes that it read then. -/
structure Away where
  places : List (Nat × Nat)
  after : List (Nat × Nat) := []
  spans : List (Nat × Nat)
  seq : Option (BitVec 19 × BitVec 24)
  now : List PWrite := []
  seen : List (Nat × Byte) := []

/-- What a word reaches beside its pieces: bytes of this part, and places and lines as `Away` has them. -/
structure Beside where
  spans : List (Nat × Nat) := []
  places : List (Nat × Nat) := []
  after : List (Nat × Nat) := []

/-- What running a word's effect comes to. `trap` and `park` change nothing but what the wait itself starts. -/
inductive MemRes where
  | ok (m : Mach) (now later : List PWrite) (ready : Bool) (stamp : Option (BitVec 24))
  | park (m : Mach) (why : Why)
  | fault (lanes : W64) (ptrs : List W64)
  | ring (e : TlbEntry)
  /-- the word is performed later than it issues, at its homes (R270, R355) -/
  | away (m : Mach) (a : Away)
  | poison (m : Mach) (pa : Nat) (lanes : W64)
  /-- an atomic with its number, some of whose lanes homes hold while an epoch closes (R278): their slices, lanes and places; the results
  of its other lanes -/
  | held (m : Mach) (parts : List (Nat × W64 × List Nat)) (seq : BitVec 19) (e : BitVec 24) (later : List PWrite) (stamp : Option (BitVec 24))
  | trap (t : Trap)

/-- The whole word waits for a page (R261), or is performed elsewhere (R355). -/
def faultOf (ps : List Piece) : Option MemRes :=
  match ps.filter (fun p => p.loc == .unmapped) with
  | [] => none
  | p :: t => some (.fault (whoOf (p :: t)) ((p :: t).map (·.ptr)))

/-- Homes and lines outside the part that a word reaches. -/
def farOf (ps : List Piece) : List (Nat × Nat) :=
  ps.filterMap (fun p => match p.loc with
    | .far h pa _ => some (h, lineOf pa)
    | _ => none)

/-! ### Presenting (R81) -/

/-- The words of classes 0x9 to 0xC park at a witness that is not satisfied; they do not wait in WPresent as R248 has it. -/
def Why.parks (why : Why) : Why :=
  match why with
  | .present w => .witness w
  | y => y

/-- Goes on with the machine once `w` is satisfied; a refusal ends as a refused remote access does (R359). -/
def Mach.presenting (m : Mach) (v : View) (w : W64) (f : Mach → MemRes) : MemRes :=
  let p := (m.team v.g.team).part
  match m.presentTrap v.core p v.g.xm w with
  | some t => .trap t
  | none => match m.present v.core v.slot p w with
    | .ok m => f m
    | .hold m why => .park m why.parks
    | .refused => .ok (refusedRemote m v.core v.slot (m.exitPort (wPartno w).toNat w.toNat)) [] [] true none

/-- A word presents once: one that goes on away from its core, with its number where it takes one, has done so (R279). -/
def Mach.presentOnce (m : Mach) (v : View) (w : W64) (f : Mach → MemRes) : MemRes := if v.away then f m else m.presenting v w f

/-! ### Bytes -/

def Mach.spRead (m : Mach) (c key n : Nat) : List Byte := (List.range n).map (fun i => tget 0 (m.core c).sp (key + i))

/-- A scratchpad write, and the waits on its block (R197). -/
def Mach.spWrite (m : Mach) (c key : Nat) (bs : List Byte) : Mach :=
  let m := m.modCore c (fun k => { k with sp := bs.zipIdx.foldl (fun s b => tset 0 s (key + b.2) b.1) k.sp })
  let blocks := distinct (bs.zipIdx.map (fun b => (key + b.2) / 128))
  m.mapCores (fun _ k => k.mapGroups (fun _ g => match g.waita with
    | some w => if w.scratch && w.core == c && blocks.contains w.block then { g with waita := some { w with armed := false } } else g
    | none => g))

/-- A read of one place. -/
def Mach.readLoc (m : Mach) (v : View) (at_ : MAttr) (ws : List W64) (loc : Loc) (n : Nat) : Acc RdVal :=
  let t := m.team v.g.team
  match loc with
  | .sp c key => .ok m { bytes := m.spRead c key n, poisoned := false, stamp := none }
  | .dev pa e =>
    (m.cacheTlb v.core e).loadDev v.core (m.reachOf t.part t.ctx pa e at_.cc) pa n (at_.scp == 3) ws
  | .far h pa e => .ok (m.cacheTlb v.core e) { bytes := m.farBytes h pa n, poisoned := false, stamp := none }
  | _ => .ok m { bytes := [], poisoned := false, stamp := none }

def laterStamp (a b : Option (BitVec 24)) : Option (BitVec 24) :=
  match a, b with
  | some x, some y => some (epochLater x y)
  | some x, none => some x
  | none, y => y

/-- What the reads of a word have given so far: bytes by piece, the latest stamp, and the first poisoned place. -/
structure Reads where
  m : Mach
  bytes : List (Piece × List Byte)
  stamp : Option (BitVec 24)
  bad : Option (Nat × W64)

def locPa : Loc → Nat
  | .dev pa _ => pa
  | .far _ pa _ => pa
  | .sp _ k => k
  | _ => 0

/-- The reads of a word in lane order; the first that must wait makes the word wait. -/
def readAll (v : View) (at_ : MAttr) (ws : List W64) : List Piece → Reads → Except (Mach × Why) Reads
  | [], r => .ok r
  | p :: ps, r =>
    match r.m.readLoc v at_ ws p.loc p.size with
    | .hold m why => .error (m, why)
    | .ok m x =>
      let bad := match r.bad with
        | some (a, l) => some (a, if x.poisoned then l ||| p.who else l)
        | none => if x.poisoned then some (locPa p.loc, p.who) else none
      readAll v at_ ws ps { m := m, bytes := r.bytes ++ [(p, x.bytes)], stamp := laterStamp r.stamp x.stamp, bad := bad }

/-- A wait changes nothing but the pin's clock (R188). -/
def waitOn (m : Mach) (why : Why) : MemRes :=
  match why with
  | .pinned k ln => .park (m.refuse k ln) why
  | why => .park m why

/-- Sets D on every page that the pieces write (R351); a full ring (R353) or reserve (R367) makes the word wait. -/
def dirtyAll (who p : Nat) : List Piece → Mach → Except MemRes Mach
  | [], m => .ok m
  | x :: xs, m =>
    match x.loc.entry with
    | some e => match m.setDirty p e with
      | .ok m => dirtyAll who p xs m
      | .full => .error (.ring e)
      | .wait pg => .error (.park m (.reserve pg who))
    | none => dirtyAll who p xs m

/-- What a store word's pieces share: scope, class, sequence number and epoch. -/
structure StoreCtx where
  v : View
  scp : BitVec 2
  cc : BitVec 2
  seq : BitVec 19
  epoch : BitVec 24

/-- The group for which a store pins its line: of group or core scope, for a group that lives and is not halted, for the halt or the end has
ended its pins (R188). -/
def Mach.pinFor (m : Mach) (c slot team : Nat) (scp : BitVec 2) : Option Nat :=
  let g := m.group c slot
  if scp.toNat ≤ 1 && g.team == team && g.status != .ended && !g.halted then some slot else none

/-- A write of one place (R186, R187), which completes the sectors `whole`; the flag says that the home holds it (R278). -/
def Mach.writeLoc (m : Mach) (c : StoreCtx) (whole : List Nat) (loc : Loc) (bs : List Byte) : Acc Bool :=
  let t := m.team c.v.g.team
  match loc with
  | .sp k key => .ok (m.spWrite k key bs) false
  | .dev pa e =>
    let r := m.reachOf t.part t.ctx pa e c.cc
    let m := m.cacheTlb c.v.core e
    if c.scp = 3 then
      match m.keptFrom c.v.core (lineOf pa) with
      | some k => .hold m (.pinned k (lineOf pa))
      | none => match (m.reachHome r (lineOf pa) whole).sendHome (some c.v.core) t.part c.v.core c.epoch [(c.v.core, c.v.slot, c.v.id)] false whole []
          (some e.at_) (cells pa bs) with
        | none => .hold m (.reserve (pageOf pa) (whoGroup c.v.core c.v.slot))
        | some (m1, held) =>
          .ok (m1.modCore c.v.core (fun k => (k.forget pa bs.length).mapGroups (fun _ g => g.disarm false (lineOf pa)))) held
    else
      match m.storeL1 c.v.core r pa bs (m.pinFor c.v.core c.v.slot c.v.g.team c.scp)
          { epoch := c.epoch, seq := c.seq, slot := c.v.slot } with
      | .ok m _ => .ok (m.modCore c.v.core (fun k => k.markWhole whole)) false
      | .hold m why => .hold m why
  | .far h pa e => .ok ((m.cacheTlb c.v.core e).farWrite h pa bs) false
  | _ => .ok m false

/-- Device bytes that a write of one place touches, with their data. -/
def devCells (x : Loc × List Byte) : List (Nat × Byte) :=
  match x.1 with
  | .dev pa _ => cells pa x.2
  | _ => []

/-- The sectors of `whole` that a place completes: it writes in them, and no place after it does. -/
def completes (whole : List Nat) (x : Loc × List Byte) (t : List (Loc × List Byte)) : List Nat :=
  let touches (s : Nat) (y : Loc × List Byte) : Bool := (devCells y).any (fun w => sectorOf w.1 == s)
  whole.filter (fun s => touches s x && !t.any (touches s))

/-- The places of a store word in lane order; `whole` are the sectors that the word as a whole fully writes (R186). -/
def writeAll (c : StoreCtx) (whole : List Nat) : List (Loc × List Byte) → Mach → Bool → Except (Mach × Why) (Mach × Bool)
  | [], m, held => .ok (m, held)
  | (l, bs) :: t, m, held =>
    match m.writeLoc c (completes whole (l, bs) t) l bs with
    | .hold m why => .error (m, why)
    | .ok m x => writeAll c whole t m (held || x)

/-! ### Stores on their way into the L1 (R270) -/

/-- One store enters, through the leaves it was issued with. -/
def Mach.enter (m : Mach) (c : Nat) (x : Entering) : Except (Mach × Why) Mach :=
  let v : View := { core := c, slot := x.slot, g := { Group.start with team := x.team }, id := 0, away := false, again := true, seq := none }
  (writeAll { v := v, scp := x.scp, cc := x.cc, seq := x.seq, epoch := x.epoch } x.whole
    (x.places.map (fun p => (Loc.dev p.1 p.2.1, p.2.2))) m false).map (·.1)

/-- Stores enter in turn; one that cannot waits, and those behind it with it. -/
def enterAll (c : Nat) : List Entering → Mach → Except (Mach × Why) Mach
  | [], m => .ok m
  | x :: xs, m =>
    match m.enter c x with
    | .ok m => enterAll c xs m
    | .error (_, why) => .error (m.modCore c (fun k => { k with sbuf := x :: xs }), why)

/-- Every store of a core that has its number enters, in sequence order. -/
def Mach.settle (m : Mach) (c : Nat) : Except (Mach × Why) Mach :=
  match (m.core c).sbuf with
  | [] => .ok m
  | l => enterAll c l (m.modCore c (fun k => { k with sbuf := [] }))

/-- The stores of a core enter in turn, as far as the last one that is needed. -/
def Mach.settleUpTo (m : Mach) (c : Nat) (need : Entering → Bool) : Except (Mach × Why) Mach :=
  let l := (m.core c).sbuf
  let n := l.length - (l.reverse.takeWhile (fun x => !need x)).length
  match enterAll c (l.take n) (m.modCore c (fun k => { k with sbuf := [] })) with
  | .ok m => .ok (m.modCore c (fun k => { k with sbuf := l.drop n }))
  | .error (m, why) => .error (m.modCore c (fun k => { k with sbuf := k.sbuf ++ l.drop n }), why)

/-- The core holds the translations by which the pieces are reached; those that it did not hold it has walked for (R350). -/
def Mach.cacheAll (m : Mach) (c : Nat) (ps : List Piece) : Mach := (ps.filterMap (fun p => p.loc.entry)).foldl (fun m e => m.cacheTlb c e) m

/-- Lines of this part that the pieces reach. -/
def linesOf (ps : List Piece) : List Nat :=
  ps.filterMap (fun p => match p.loc with
    | .dev pa _ => some (lineOf pa)
    | _ => none)

/-- Device bytes that the pieces reach: address and length. -/
def spansOf (ps : List Piece) : List (Nat × Nat) :=
  ps.filterMap (fun p => match p.loc with
    | .dev pa _ => some (pa, p.size)
    | _ => none)

/-- Two runs of bytes share one. -/
def meet (x y : Nat × Nat) : Bool := decide (x.1 < y.1 + y.2) && decide (y.1 < x.1 + x.2)

/-- Bytes of the host that the pieces reach, by their keys: they order the accesses of one core to one byte (R269), and to no other (R271). -/
def hostSpans (ps : List Piece) : List (Nat × Nat) :=
  ps.filterMap (fun p => match p.loc with
    | .far 64 pa _ => some (farKey 64 pa, p.size)
    | _ => none)

/-- The request is of an atomic word. -/
def Remote.atomic (r : Remote) : Bool := r.entry.any (fun e => isAtomic e.word)

/-- Request `y` goes before `r`: one to the same line of another part, sent earlier (R359); or, of the same core, one that writes a line of this
part that `r` writes too, or that reaches one of its bytes (R269). Two atomics take effect in the order in which they reach the home (R410). -/
def Remote.precedes (y r : Remote) (own : Nat) : Bool :=
  decide (y.sent < r.sent) &&
    (y.lines.any (fun l => l.1 != 64 && l.1 != own && r.lines.contains l) ||
      (y.core == r.core && !(y.atomic && r.atomic) &&
        ((y.seq.isSome && r.seq.isSome && y.lines.any (fun l => l.1 == own && r.lines.contains l)) ||
          y.spans.any (fun x => r.spans.any (meet x)))))

/-- No request that goes before this one is still under way. -/
def Mach.remoteFirst (m : Mach) (r : Remote) : Bool :=
  m.remotes.all (fun kx => match kx.2 with
    | some y => !y.precedes r m.partno.toNat
    | none => true)

/-- Pages of this part that the pieces reach. -/
def pagesOf (ps : List Piece) : List Nat :=
  ps.filterMap (fun p => match p.loc with
    | .dev pa _ => some (pageOf pa)
    | _ => none)

/-- A witness covers a store of its own core by its number (R270). -/
def Mach.coversOwn (m : Mach) (c : Nat) (w : W64) (x : Entering) : Bool :=
  wKind w == 1 && wPartno w == m.partno && wCore w == c && sequencedBy x.seq (wSeq w) x.epoch (wEpoch w)

/-- Before a load performs, stores that it must see have entered: its own group's to its bytes, and those of its core that a witness which it
presents covers (R270). -/
def Mach.settleFor (m : Mach) (v : View) (ws : List W64) (ps : List Piece) : Except (Mach × Why) Mach :=
  if (m.core v.core).sbuf.isEmpty then .ok m
  else m.settleUpTo v.core (fun x => ws.any (fun w => m.coversOwn v.core w x) ||
    (x.slot == v.slot && x.places.any (fun p => (spansOf ps).any (meet (p.1, p.2.2.length)))))

/-- The reads of a word that must see its group's own stores, and those of its core that its witnesses cover (R178, R270). -/
def readSettled (v : View) (at_ : MAttr) (ws : List W64) (ps : List Piece) (r : Reads) : Except (Mach × Why) Reads :=
  match r.m.settleFor v ws ps with
  | .error x => .error x
  | .ok m => readAll v at_ ws ps { r with m := m }

/-- A load, or an atomic, of these bytes performs later than it issues: it issues late, or an earlier access of its core to one of them has not
performed yet, which orders it unless both are atomics (R269, R270, R410). -/
def Mach.loadsLate (m : Mach) (v : View) (atomic : Bool) (spans : List (Nat × Nat)) : Bool :=
  !v.away && !spans.isEmpty && (m.late || m.remotes.any (fun kr => match kr.2 with
    | some r => r.core == v.core && !(atomic && r.atomic) && r.spans.any (fun x => spans.any (meet x))
    | none => false))

/-- The sequence number of the word: one taken earlier, or the next (R185). -/
def Mach.seqFor (m : Mach) (v : View) : SeqRes :=
  match v.seq with
  | some (q, e) => .ok m q e
  | none => m.nextSeq v.core (m.team v.g.team).part

/-- A witness's scope field (R186). -/
def outScope (scp : BitVec 2) (away : Bool) : Nat := if scp = 3 || away then 3 else scp.toNat

/-- The witness returns after issue: a write-through, or the gang link (R187). -/
def slowStore (v : View) (scp : BitVec 2) (ps : List Piece) : Bool :=
  ps.any (fun p => match p.loc with
    | .sp c _ => c != v.core
    | .dev _ _ => scp == 3
    | .far _ _ _ => true
    | _ => false)

/-- A load of the group has not performed yet: no store enters before it (R186). -/
def Mach.awayLoads (m : Mach) (v : View) : Bool :=
  m.remotes.any (fun kr => match kr.2 with
    | some r => r.core == v.core && r.slot == v.slot && r.entry.isSome && r.seq.isNone && r.outId != v.id
    | none => false)

/-- Homes and lines of a word that is performed away from its core, those outside the part first. -/
def Mach.awayPlaces (m : Mach) (ps : List Piece) : List (Nat × Nat) := farOf ps ++ (linesOf ps).map (fun l => (m.partno.toNat, l))

/-- A write of the group waits at its word: for a load of the group that has not performed yet (R186), or for an earlier write of the core, on its
way to its home, to one of its lines (R269). -/
def Mach.behind (m : Mach) (v : View) (ps : List Piece) : Bool :=
  !v.away && (m.awayLoads v || m.remotes.any (fun kr => match kr.2 with
    | some r => r.core == v.core && r.seq.isSome && (linesOf ps).any (fun l => r.lines.contains (m.partno.toNat, l))
    | none => false))

/-- The bytes that order a word that is performed away from its core. -/
def awaySpans (ps : List Piece) : List (Nat × Nat) := spansOf ps ++ hostSpans ps

/-- Every access of the word is outside the part: nothing of it enters the L1, and it is unordered with what does (R271, R410). -/
def allFar (ps : List Piece) : Bool := ps.all (fun p => match p.loc with
  | .far .. => true
  | _ => false)

/-- A store with its number that enters the L1 later. -/
def enteringOf (v : View) (scp cc : BitVec 2) (q : BitVec 19) (e : BitVec 24) (whole : List Nat) (places : List (Loc × List Byte)) : Entering :=
  { slot := v.slot, team := v.g.team, scp := scp, cc := cc, seq := q, epoch := e, whole := whole,
    places := places.filterMap (fun p => match p.1 with
      | .dev pa l => some (pa, l, p.2)
      | _ => none) }

/-- A store word over its pieces and their data (R186). One that issues late enters its L1 later (R270). `more` is what it reaches beside its pieces
elsewhere, `seen` what it has read at issue. -/
def Mach.storeWord (m : Mach) (v : View) (scp cc : BitVec 2) (wo : S) (ps : List (Piece × List Byte)) (now : List PWrite) (more : Beside := {})
    (seen : List (Nat × Byte) := []) : MemRes :=
  let pieces := ps.map (·.1)
  let part := (m.team v.g.team).part
  let far := farOf pieces
  let slow := slowStore v scp pieces
  let late := m.late && !slow && (linesOf pieces).length == pieces.length
  let out := allFar pieces
  if !out && m.behind v pieces then .park m .remoteLoad
  else match (if late || out then Except.ok m else m.settle v.core) with
  | .error (_, why) => waitOn m why
  | .ok m0 => match m0.seqFor v with
  | .hold m why => .park m why
  | .ok m1 q e =>
    if !far.isEmpty && !v.away then
      .away m1 { places := m1.awayPlaces pieces ++ more.places, after := more.after, spans := awaySpans pieces ++ more.spans, seq := some (q, e),
                 now := now, seen := seen }
    else
      match dirtyAll (whoGroup v.core v.slot) part pieces m1 with
      | .error r => r
      | .ok m2 =>
        let scp := if far.isEmpty then scp else 3
        let places := ps.map (fun x => (x.1.loc, x.2))
        let whole := wholeSectors (places.flatMap devCells)
        let w := wS wo.toNat (pointW (outScope scp (!far.isEmpty)) m.partno v.core q e)
        if late then .ok (m2.modCore v.core (fun k => { k with sbuf := k.sbuf ++ [enteringOf v scp cc q e whole places] })) (w :: now) [] true none
        else match writeAll { v := v, scp := scp, cc := cc, seq := q, epoch := e } whole places m2 false with
        | .error (_, why) => waitOn m why
        | .ok (m3, held) => if slow then .ok m3 now [w] (!held) none else .ok m3 (w :: now) [] true none

/-! ### From a word's effect to its meaning -/

/-- A memory word: its effect, and the registers that it would write. -/
structure MemWord where
  eff : Mach → View → MemRes
  dests : Nat → Group → List RegRef

def Group.value (g : Group) : RegRef → W64
  | .v r l => (tget 0 g.v (64 * r + l)).setWidth 64
  | .s r => tget 0 g.s r
  | .p r l => if bitAt (tget 0 g.p r) l then 1 else 0

/-- Marks destinations outstanding: until the word has performed, a read yields the old value (R259, R262). -/
def Group.markOuts (g : Group) (id : Nat) (pc : W64) (ds : List RegRef) : Group :=
  { g with outs := g.outs ++ [{ id := id, pc := pc, writes := ds.map (fun d => { dst := d, val := g.value d, late := Option.none }), ready := false,
                                stamp := Option.none }] }

/-- Results that will return (R258). -/
def Group.addOuts (g : Group) (id : Nat) (ws : List PWrite) (ready : Bool) (stamp : Option (BitVec 24)) : Group :=
  if ws.isEmpty then g else { g with outs := g.outs ++ [{ id := id, pc := g.pc, writes := ws, ready := ready, stamp := stamp }] }

/-- Poison read into a group (R388): channel 4, then cause 0x31, whose DETAIL is the physical address read (DESIGN CHOICE, log 116). -/
def Mach.consumePoison (m : Mach) (c k pa : Nat) (pc : W64) (lanes : W64) : Mach :=
  let t := m.team (m.group c k).team
  takeTrap (m.logEvent t.part 4 (sliceOf c) c 0 (m.inst t.inst).fdom (BitVec.ofNat 64 pa) 0) c k pc
    { cause := 0x31, lanes := lanes, detail := BitVec.ofNat 64 pa }

/-- Entries of a context that a core's operand log holds, saved ones included. -/
def Mach.logUsed (m : Mach) (c p ctx : Nat) : Nat :=
  let ours (l : List LogEntry) : Nat := (l.filter (fun e => !e.done && (m.team e.g.team).part == p && (m.team e.g.team).ctx == ctx)).length
  ours (m.core c).log + (m.shadow.map (fun kx => match kx.2 with
    | some x => if x.core = some c then ours x.log else 0
    | none => 0)).sum

/-- The operand log of a core holds 16 entries of a context (R263): it is saved and restored with the context. -/
def Mach.logRoom (m : Mach) (c p ctx : Nat) : Bool := decide (m.logUsed c p ctx < 16)

/-- A word as it is kept until it is performed: its operands as they stand. -/
def Mach.entryOf (m : Mach) (i : Instr) (id : Nat) : LogEntry :=
  { slot := m.cur.2, id := id, word := i, pc := m.me.pc, g := { m.me.frozen m.tick with readyAge := m.clock } }

/-- Walks of the issuing group that ended in no leaf: the table lines that they read enter L2 all the same (R350). -/
def Mach.walkedFor (m : Mach) (ps : List W64) : Mach :=
  ps.foldl (fun (m : Mach) p => m.walked m.myPart m.myCtx (ptrVa m.me.privBase p)) m

/-- The word goes to the operand log with its group as it stands (R263). The snapshot's ready age is the time of issue. -/
def Mach.defer (m : Mach) (i : Instr) (w : MemWord) : Mach :=
  let (m, id) := m.fresh
  let g := m.me.frozen m.tick
  let e := m.entryOf i id
  (m.modCore m.cur.1 (fun k => { k with log := k.log ++ [e] })).modMe (fun x => x.markOuts id m.me.pc (w.dests m.tick g))

def lastWrite (ws : List PWrite) (d : RegRef) : Option W64 := ((ws.reverse).find? (fun w => decide (w.dst = d))).map (·.val)

/-- The request of a word that goes on elsewhere. -/
def Mach.request (m : Mach) (c slot : Nat) (e : LogEntry) (a : Away) : Remote :=
  { core := c, slot := slot, outId := e.id, home := (a.places.headD (0, 0)).1, ports := m.exitPorts a.places, lines := a.places ++ a.after,
    spans := a.spans, w := none, entry := some { e with seen := a.seen }, seq := a.seq, sent := m.tick }

/-- The word goes to its homes (R355); what it has written at issue is no result outstanding (R180). -/
def Mach.sendAway (m : Mach) (i : Instr) (w : MemWord) (a : Away) : Mach :=
  let (m, id) := m.fresh
  let r := m.request m.cur.1 m.cur.2 (m.entryOf i id) a
  { m with remotes := tset none m.remotes id (some r) }.modMe (fun x => (a.now.foldl Group.put x).markOuts id m.me.pc
    ((w.dests m.tick m.me).filter (fun d => (lastWrite a.now d).isNone)))

/-- Lanes of an atomic take their places among the writes that the homes of their slices hold (R278). -/
def Mach.holdAtomic (m : Mach) (p c : Nat) (e : LogEntry) (parts : List (Nat × W64 × List Nat)) (q : BitVec 19) (ep : BitVec 24) : Mach :=
  m.modPart p (fun x => { x with held := x.held ++ parts.map (fun y =>
    { src := c, slice := y.1, bytes := y.2.2.map (fun a => (a, 0)), whole := [], refused := false, epoch := ep, waiters := [(c, e.slot, e.id)],
      bad := [],
      word := some ({ e with g := { e.g with xm := y.2.1 } }, q), at_ := none }) })

/-- Results of some lanes go into the destinations that a word holds outstanding. -/
def Group.fillPart (g : Group) (id : Nat) (ws : List PWrite) (ready : Bool) (stamp : Option (BitVec 24)) : Group :=
  { g with outs := g.outs.map (fun o => if o.id = id then
    { o with ready := ready, stamp := laterStamp o.stamp stamp,
             writes := o.writes.map (fun w => { w with val := (lastWrite ws w.dst).getD w.val }) } else o) }

/-- What the issue of a word makes of its effect. -/
def Mach.commit (m : Mach) (i : Instr) (w : MemWord) : Mach :=
  match w.eff m m.view with
  | .ok m' now later ready st =>
    let id := m.nextId
    { m' with nextId := max m'.nextId (id + 1) }.modMe (fun g => (now.foldl Group.put g).addOuts id later ready st)
  | .fault _ ps => (m.walkedFor ps).defer i w
  | .ring e => (m.holdAppend m.myPart e).defer i w
  | .away m' a => m'.sendAway i w a
  | .held m' parts q e later st =>
    let (m', id) := m'.fresh
    (m'.holdAtomic m.myPart m.cur.1 (m'.entryOf i id) parts q e).modMe (fun x =>
      (x.markOuts id m.me.pc (w.dests m.tick m.me)).fillPart id later false st)
  | .poison m' pa lanes => m'.consumePoison m.cur.1 m.cur.2 pa m.me.pc lanes
  | .park m' why => m'.park why
  | .trap t => takeTrap m m.cur.1 m.cur.2 m.me.pc t

def memWord (i : Instr) (w : MemWord) : Word :=
  { pre := fun m => match w.eff m m.view with
      | .trap t => some t
      | _ => none,
    wait := fun m => match w.eff m m.view with
      | .park m' why => some (m', why)
      | .fault _ _ | .ring _ => if m.logRoom m.cur.1 m.myPart m.myCtx then none else some (m, .logFull)
      | _ => none,
    run := fun m => m.commit i w }

/-- Space of a native word, none for a generic one. -/
def nativeSpace (at_ : MAttr) : Option (BitVec 2) := some at_.spc

/-! ### The attribute of an address site (R176) -/

/-- SPACE and MIX of the performing lanes' pointers, with UF. SPACE is the low two bits of the first lane's tag, also where that tag is
0x4 or more, and with no performing lane SPACE and MIX are 0 (DESIGN CHOICE, log 106). -/
def spaceAttr (ps : List W64) (uf : Bool) : BitVec 16 :=
  match ps with
  | [] => if uf then 4 else 0
  | p :: t =>
    if t.all (fun q => fld q 60 4 == fld p 60 4) then (fld p 60 2).setWidth 16 ||| (if uf then 4 else 0) else 8 ||| (if uf then 4 else 0)

/-- The guard of R176: the tags of the active lanes, and equality where the form is `.u`. -/
def spaceGuard (ps : List W64) (eq : Bool) (a : BitVec 16) : Bool :=
  bitAt a 3 || (ps.all (fun p => fld p 60 4 == (fld a 0 2).setWidth 4) && (!bitAt a 2 || eq))

def allEq (ps : List W64) : Bool :=
  match ps with
  | [] => true
  | p :: t => t.all (fun q => q == p)

/-- A generic memory word: `ptrs` gives the pointers of a set of lanes; `uf` is UF where the word fixes it, or none for
`ld` and `st`, where the pointers decide. -/
def memGeneric (i : Instr) (h : Hdr) (n : BitVec 16) (w : MemWord) (ptrs : Nat → Group → W64 → List W64) (uf : Option Bool) : Word :=
  (memWord i w).generic n
    (fun m => spaceAttr (ptrs m.tick m.me (m.me.perf m.tick h)) (uf.getD (allEq (ptrs m.tick m.me m.me.xm))))
    (fun m a => spaceGuard (ptrs m.tick m.me m.me.xm) (uf.isSome || allEq (ptrs m.tick m.me m.me.xm)) a)

def lanePtrs (ad : Addr) (t : Nat) (g : Group) (lanes : W64) : List W64 := (lanesOf lanes).map (fun l => (g.ptr t ad l).val)

end Sys2Proof.Machine
end

