-- ==== Sys2Proof/Machine/Loads.lean ====
section
/-! DEFINITION. Class 0x9, loads (R173 to R182). -/

namespace Sys2Proof.Machine

def szBytes : Sz → Nat
  | .w4 => 4
  | .w8 => 8
  | .w16 => 16
  | .z8 | .s8 => 1
  | .z16 | .s16 => 2

/-- Registers of an access (R174). -/
def szRegs : Sz → Nat
  | .w8 => 2
  | .w16 => 4
  | _ => 1

/-- Register j of a loaded value, extended by MOD (R174). -/
def loadedReg (z : Sz) (bs : List Byte) (j : Nat) : W32 :=
  let x := natOf (bs.drop (4 * j) |>.take 4)
  match z with
  | .s8 => (BitVec.ofNat 8 x).signExtend 32
  | .s16 => (BitVec.ofNat 16 x).signExtend 32
  | _ => BitVec.ofNat 32 x

/-- The value that `lds` writes into s. -/
def loadedS (z : Sz) (bs : List Byte) : W64 :=
  match z with
  | .s8 => (BitVec.ofNat 8 (natOf bs)).signExtend 64
  | .s16 => (BitVec.ofNat 16 (natOf bs)).signExtend 64
  | _ => BitVec.ofNat 64 (natOf bs)

/-- A load over its pieces (R177, R178): causes, a page fault, the presentation, then every read. `fill` makes the results; `more` is
what the word reads beside its pieces. -/
def Mach.loadWord (m : Mach) (v : View) (at_ : MAttr) (w : W64) (after : Option Trap) (ps : List Piece) (more : Beside)
    (fill : List (Piece × List Byte) → List PWrite) : MemRes :=
  let part := (m.team v.g.team).part
  match judge ps false (fun _ => false) with
  | some t => .trap t
  | none => match m.presentTrap v.core part v.g.xm w with
    | some t => .trap t
    | none => match after with
      | some t => .trap t
      | none => match faultOf ps with
        | some r => r
        | none => m.presentOnce v w (fun m1 =>
          if !(farOf ps).isEmpty && !v.away then
            .away m1 { places := farOf ps ++ more.places, after := more.after, spans := awaySpans ps ++ more.spans, seq := none }
          else if m1.loadsLate v false (spansOf ps ++ more.spans) then
            .away m1 { places := (linesOf ps).map (fun l => (m.partno.toNat, l)), spans := spansOf ps ++ more.spans, seq := none }
          else match readSettled v at_ [w, v.g.fence] ps { m := m1, bytes := [], stamp := none, bad := none } with
            | .error (_, why) => waitOn m why
            | .ok r => match r.bad with
              | some (pa, lanes) => .poison r.m pa lanes
              | none => .ok r.m [] (fill r.bytes) true r.stamp)

/-- Pieces of the performing lanes, one each. -/
def Mach.lanePieces (m : Mach) (v : View) (lanes : List Nat) (spc : Option (BitVec 2)) (ad : Addr) (n : Nat) (write : Bool) : List Piece :=
  lanes.map (fun l => let p := v.g.ptr m.tick ad l; m.piece v l p n (inSpace spc p.val) write)

/-- Cause 0x06 of `.u` (R175); the call stack's 0x04 comes before it (R78). -/
def Group.notUniform (g : Group) (t : Nat) (h : Hdr) (u : Bool) (ad : Addr) : Option Trap :=
  if !u then Option.none
  else
    let ps := lanePtrs ad t g g.xm
    if allEq ps then Option.none
    else match g.callTrap h.nas with
      | some x => some x
      | Option.none => some { cause := 6, lanes := maskOf (fun l => bitAt g.xm l && (g.ptr t ad l).val != ps.headD 0), detail := 0 }

def spanWrites (z : Sz) (d : V) (rs : List (Piece × List Byte)) : List PWrite :=
  rs.flatMap (fun x => (List.range (szRegs z)).map (fun j => wV (d.toNat + j) x.1.lane (loadedReg z x.2 j)))

def vDests (lanes : List Nat) (d : V) (n : Nat) : List RegRef :=
  lanes.flatMap (fun l => (List.range n).map (fun j => RegRef.v (d.toNat + j) l))

/-- R177. With no performing lane it presents no witness and judges no operand (DEDUCED, log 26). -/
def ldWord (h : Hdr) (spc : Option (BitVec 2)) (z : Sz) (u : Bool) (d : V) (ad : Addr) (w : S) (at_ : MAttr) : MemWord :=
  { eff := fun m v =>
      let ps := m.lanePieces v (lanesOf (v.g.perf m.tick h)) spc ad (szBytes z) false
      if ps.isEmpty then .ok m [] [] true none
      else m.loadWord v at_ (v.g.rdS m.tick w.toNat) (v.g.notUniform m.tick h u ad) ps {} (spanWrites z d),
    dests := fun t g => vDests (lanesOf (g.perf t h)) d (szRegs z) }

def execLd (h : Hdr) (z : Sz) (u : Bool) (d : V) (ad : Addr) (w : S) (at_ : MAttr) :=
  issueWord (.ld h z u d ad w at_) h (memWord (.ld h z u d ad w at_) (ldWord h (nativeSpace at_) z u d ad w at_))
def execLdG (h : Hdr) (n : BitVec 16) (z : Sz) (d : V) (ad : Addr) (w : S) (at_ : MAttr) :=
  issueWord (.ldG h n z d ad w at_) h
    (memGeneric (.ldG h n z d ad w at_) h n (ldWord h none z false d ad w at_) (lanePtrs ad) none)

/-! ### `lds` (R179): group-wide, one address -/

/-- A base register and an offset; the base may be bound to a tb register (R128). -/
def Group.sPtr (g : Group) (t : Nat) (base : S) (off : W32) : Ptr :=
  { ptrAdd (g.rdS t base.toNat) off.toNat with tb := g.tbFor (g.rdS t base.toNat) off.toNat }

/-- The one piece of a group-wide word, under its lowest performing lane; its causes name every active lane (R64, R76). -/
def Mach.onePiece (m : Mach) (v : View) (h : Hdr) (spc : Option (BitVec 2)) (p : Ptr) (n : Nat) (write : Bool) : List Piece :=
  match lowest (v.g.perf m.tick h) with
  | none => []
  | some l => [{ m.piece v l p n (inSpace spc p.val) write with who := v.g.xm }]

def ldsWord (h : Hdr) (spc : Option (BitVec 2)) (z : Sz) (d base : S) (off : W32) (w : S) (at_ : MAttr) : MemWord :=
  { eff := fun m v =>
      let ps := m.onePiece v h spc (v.g.sPtr m.tick base off) (szBytes z) false
      if ps.isEmpty then .ok m [] [] true none
      else m.loadWord v at_ (v.g.rdS m.tick w.toNat) none ps {} (fun rs => rs.map (fun x => wS d.toNat (loadedS z x.2))),
    dests := fun _ _ => [.s d.toNat] }

def onePtr (base : S) (off : W32) (t : Nat) (g : Group) (lanes : W64) : List W64 :=
  if lanes = 0 then [] else [(g.sPtr t base off).val]

def execLds (h : Hdr) (z : Sz) (d base : S) (off : W32) (w : S) (at_ : MAttr) :=
  issueWord (.lds h z d base off w at_) h (memWord (.lds h z d base off w at_) (ldsWord h (nativeSpace at_) z d base off w at_))
def execLdsG (h : Hdr) (n : BitVec 16) (z : Sz) (d base : S) (off : W32) (w : S) (at_ : MAttr) :=
  issueWord (.ldsG h n z d base off w at_) h
    (memGeneric (.ldsG h n z d base off w at_) h n (ldsWord h none z d base off w at_) (onePtr base off) (some true))

/-! ### `ldt` (R180): a failing lane reads zero and clears its predicate -/

/-- The lane meets no condition that fails it. -/
def Piece.passes (p : Piece) (write : Bool) : Bool := !p.badAddr && p.loc != .unmapped && !(write && p.noWrite)

def ldtWord (h : Hdr) (spc : Option (BitVec 2)) (z : Sz) (d : V) (q : P) (ad : Addr) (w : S) (at_ : MAttr) : MemWord :=
  { eff := fun m v =>
      let all := m.lanePieces v (lanesOf (v.g.perf m.tick h)) spc ad (szBytes z) false
      let ok := all.filter (fun p => p.passes false)
      let failed := all.filter (fun p => !p.passes false)
      if all.isEmpty then .ok m [] [] true none
      else m.loadWord v at_ (v.g.rdS m.tick w.toNat) none ok {} (fun rs =>
        spanWrites z d rs ++ ok.map (fun p => wP q.toNat p.lane true) ++
        failed.flatMap (fun p => (List.range (szRegs z)).map (fun j => wV (d.toNat + j) p.lane 0)) ++ failed.map (fun p => wP q.toNat p.lane false)),
    dests := fun t g => vDests (lanesOf (g.perf t h)) d (szRegs z) ++ (lanesOf (g.perf t h)).map (fun l => RegRef.p q.toNat l) }

def execLdt (h : Hdr) (z : Sz) (d : V) (p : P) (ad : Addr) (w : S) (at_ : MAttr) :=
  issueWord (.ldt h z d p ad w at_) h (memWord (.ldt h z d p ad w at_) (ldtWord h (nativeSpace at_) z d p ad w at_))
def execLdtG (h : Hdr) (n : BitVec 16) (z : Sz) (d : V) (p : P) (ad : Addr) (w : S) (at_ : MAttr) :=
  issueWord (.ldtG h n z d p ad w at_) h
    (memGeneric (.ldtG h n z d p ad w at_) h n (ldtWord h none z d p ad w at_) (lanePtrs ad) (some false))

/-! ### `ldx` (R181, R182) -/

/-- Elements of a register and bytes of an element. -/
def vfPer : VF → Nat
  | .fp32 => 1
  | _ => 2
def vfBytes (f : VF) : Nat := 4 / vfPer f

/-- A pointer formed from a lane's P, with the tb register that P's base register is bound to, for an offset from that base (R19, R128). -/
def Group.xAt (g : Group) (t : Nat) (ad : Addr) (q : Ptr) : Ptr :=
  match ad with
  | .ub b _ =>
    let base := g.rdS t b.toNat
    { q with tb := if base.toNat ≤ q.val.toNat then g.tbFor base (q.val.toNat - base.toNat) else Option.none }
  | .lp _ => q

/-- P and the element index k of a lane (R175, R182). -/
def Group.xPtr (g : Group) (t : Nat) (ad : Addr) (l : Nat) : Ptr × Nat :=
  match ad with
  | .ub b o => (g.xAt t ad (ptrAdd (g.rdS t b.toNat) 0), (g.rdV t o.toNat l).toNat)
  | .lp p => ({ val := g.vec t true p.toNat l, ok := true }, 0)

/-- The format tag of P's page, for a global pointer on a mapped page. -/
def Mach.tagOf (m : Mach) (v : View) (p : Ptr) (write : Bool) : Nat :=
  if fld p.val 60 4 ≠ 0 then 0
  else match m.locate v p 1 write with
    | .dev _ e | .far _ _ e => (leafTag e.leaf).toNat
    | _ => 0

/-- A byte at a place of P's unit: P with its low 16 bits replaced. -/
def unitPtr (p : Ptr) (off : Nat) : Ptr := { p with val := (p.val &&& ~~~0xFFFF#64) + BitVec.ofNat 64 off }

/-- The access of `n` bytes at a place of a lane's unit. -/
def Mach.unitPiece (m : Mach) (v : View) (ad : Addr) (l : Nat) (p : Ptr) (off n : Nat) (good write : Bool) : Piece :=
  m.piece v l (v.g.xAt m.tick ad (unitPtr p off)) n good write

/-- Number of the first element of a lane in P's unit. -/
def firstElem (p : Ptr) (k : Nat) : Nat := 2 * (p.val.toNat % 65536) + k

/-- Bytes at a tagged page that one element's value rests on: its nibble, its scale and C (R181). `c` is C as it reads. -/
def scaleAt (tag m c : Nat) : Nat := 0xF000 + (if tag = 5 then m / 32 else m % c)

/-- C is valid for its tag (R181). -/
def channelsOk (tag c : Nat) : Bool := if tag = 5 then c == 0 else decide (1 ≤ c) && decide (c ≤ 3840)

/-- The value of an element of a tagged page; NaN for a scale of 0xFF or an invalid C. -/
def tagVal (tag c scale nib : Nat) : FVal :=
  if scale = 255 || !channelsOk tag c then .nan else (elemVal (if tag = 5 then 5 else 7) nib).scale (scaleExp scale)

/-- The pieces that a lane of `ldx` reads. Untagged: each element, as one piece. Tagged: C first. A page that is not mapped has no tag
yet, and so no alignment to judge: the word defers (R261). -/
def Mach.xPieces (m : Mach) (v : View) (spc : Option (BitVec 2)) (f : VF) (n : Nat) (ad : Addr) (l : Nat) (write : Bool) : List Piece :=
  let (p, k) := v.g.xPtr m.tick ad l
  let cnt := n * vfPer f
  if fld p.val 60 4 = 0 ∧ m.locate v p 1 write = .unmapped then
    [m.piece v l p 1 (inSpace spc p.val) write]
  else if m.tagOf v p write = 0 then
    (List.range cnt).map (fun j =>
      let q := ptrAdd p.val ((k + j) * vfBytes f)
      m.piece v l (v.g.xAt m.tick ad { q with ok := q.ok && p.ok }) (vfBytes f) (inSpace spc p.val && decide (p.val.toNat % vfBytes f = 0)) write)
  else
    let good := inSpace spc p.val && decide (p.val.toNat % 65536 < 0xF000) && decide (firstElem p k + cnt ≤ 122880) &&
      (!write || (decide (firstElem p k % 2 = 0) && decide (cnt % 2 = 0)))
    [{ m.unitPiece v ad l p 0xFF00 2 good write with ptr := p.val }]

/-- Nibble and scale bytes of a tagged lane's elements, once C is known. -/
def Mach.tagPieces (m : Mach) (v : View) (f : VF) (n c : Nat) (ad : Addr) (l : Nat) (write : Bool) : List Piece :=
  let (p, k) := v.g.xPtr m.tick ad l
  let tag := m.tagOf v p write
  let one (off : Nat) : Piece := m.unitPiece v ad l p off 1 true write
  (List.range (n * vfPer f)).flatMap (fun j =>
    let e := firstElem p k + j
    [one (e / 2), one (if channelsOk tag c then scaleAt tag e c else 0xF000)])

/-- The registers of a lane from its elements' patterns in the MOD format. -/
def packElems (f : VF) (xs : List Nat) (j : Nat) : W32 :=
  BitVec.ofNat 32 (if vfPer f = 1 then xs.getD j 0 else xs.getD (2 * j) 0 + 2 ^ 16 * xs.getD (2 * j + 1) 0)

/-- Element patterns of an untagged lane, and of a tagged one. -/
def plainElems (bs : List (List Byte)) : List Nat := bs.map natOf
def tagElems (f : VF) (tag c first : Nat) : List (List Byte) → Nat → List Nat
  | nb :: sc :: t, j =>
    let nib := natOf nb / (if (first + j) % 2 = 0 then 1 else 16) % 16
    convFloat (vfFmt f) .ne false (tagVal tag c (natOf sc) nib) :: tagElems f tag c first t (j + 1)
  | _, _ => []

def laneBytes (rs : List (Piece × List Byte)) (l : Nat) : List (List Byte) := (rs.filter (fun x => x.1.lane == l)).map (·.2)

/-- Results of `ldx`: the lanes' registers from what was read. -/
def Mach.xResults (m : Mach) (v : View) (f : VF) (n : Nat) (d : V) (ad : Addr) (lanes : List Nat) (cs bs : List (Piece × List Byte)) : List PWrite :=
  lanes.flatMap (fun l =>
    let (p, k) := v.g.xPtr m.tick ad l
    let tag := m.tagOf v p false
    let xs := if tag = 0 then plainElems (laneBytes cs l)
      else tagElems f tag (natOf ((laneBytes cs l).headD [])) (firstElem p k) (laneBytes bs l) 0
    (List.range n).map (fun j => wV (d.toNat + j) l (packElems f xs j)))

/-- The units of tagged lanes: a late word orders itself against loads of any of their bytes. -/
def unitSpans (ps : List Piece) : List (Nat × Nat) := (pagesOf ps).map (fun pg => (65536 * pg, 65536))

/-- The bytes of a lane's nibbles in its unit. -/
def Mach.nibPieces (m : Mach) (v : View) (f : VF) (n : Nat) (ad : Addr) (l : Nat) (write : Bool) : List Piece :=
  let (p, k) := v.g.xPtr m.tick ad l
  let first := firstElem p k
  (List.range ((first + n * vfPer f + 1) / 2 - first / 2)).map (fun j => m.unitPiece v ad l p (first / 2 + j) 1 true write)

/-- Where the scales of a lane's elements may lie: with tag 0x7 C decides, and any line of its unit's scales may be among them (R181). -/
def Mach.scaleRegion (m : Mach) (v : View) (f : VF) (n : Nat) (ad : Addr) (l : Nat) (write : Bool) : List Piece :=
  let (p, k) := v.g.xPtr m.tick ad l
  let tag := m.tagOf v p write
  let offs := if tag = 5 then (List.range (n * vfPer f)).map (fun j => scaleAt tag (firstElem p k + j) 0)
      else (List.range 30).map (fun i => 0xF000 + 128 * i)
  offs.map (fun o => m.unitPiece v ad l p o 1 true write)

/-- What tagged lanes reach beside their C, where they do so elsewhere. -/
def Mach.unitsElsewhere (m : Mach) (v : View) (f : VF) (n : Nat) (ad : Addr) (tagged : List Nat) (write : Bool) : Beside :=
  { places := farOf (tagged.flatMap (fun l => m.nibPieces v f n ad l write)),
    after := farOf (tagged.flatMap (fun l => m.scaleRegion v f n ad l write)) }

/-- The elements of a tagged page are read once C is known; every read sees the group's own earlier stores (R182, R270). -/
def ldxWord (h : Hdr) (spc : Option (BitVec 2)) (cnt : BitVec 2) (f : VF) (d : V) (ad : Addr) (w : S) (at_ : MAttr) : MemWord :=
  let n := 2 ^ cnt.toNat
  { eff := fun m v =>
      let lanes := lanesOf (v.g.perf m.tick h)
      let ps := lanes.flatMap (fun l => m.xPieces v spc f n ad l false)
      let tagged := lanes.filter (fun l => m.tagOf v (v.g.xPtr m.tick ad l).1 false != 0)
      if ps.isEmpty then .ok m [] [] true none
      else
        match m.loadWord v at_ (v.g.rdS m.tick w.toNat) none ps
            { m.unitsElsewhere v f n ad tagged false with spans := unitSpans (ps.filter (fun p => tagged.contains p.lane)) } (fun cs =>
                m.xResults v f n d ad lanes cs []) with
        | .ok m1 now later ready st =>
          if tagged.isEmpty then .ok m1 now later ready st
          else match readSettled v at_ [v.g.rdS m.tick w.toNat, v.g.fence] ps { m := m1, bytes := [], stamp := st, bad := none } with
            | .error (_, why) => waitOn m why
            | .ok r =>
              let c (l : Nat) : Nat := natOf ((laneBytes r.bytes l).headD [])
              let qs := tagged.flatMap (fun l => m.tagPieces v f n (c l) ad l false)
              match readSettled v at_ [v.g.rdS m.tick w.toNat, v.g.fence] qs { r with bytes := [] } with
              | .error (_, why) => waitOn m why
              | .ok r2 => match r2.bad with
                | some (pa, ls) => .poison r2.m pa ls
                | none => .ok r2.m [] (m.xResults v f n d ad lanes r.bytes r2.bytes) true r2.stamp
        | r => r,
    dests := fun t g => vDests (lanesOf (g.perf t h)) d n }

/-- Base pointers of an `ldx` or `stx`. -/
def xPtrs (ad : Addr) (t : Nat) (g : Group) (lanes : W64) : List W64 := (lanesOf lanes).map (fun l => (g.xPtr t ad l).1.val)

def execLdx (h : Hdr) (n : BitVec 2) (f : VF) (d : V) (ad : Addr) (w : S) (at_ : MAttr) :=
  issueWord (.ldx h n f d ad w at_) h (memWord (.ldx h n f d ad w at_) (ldxWord h (nativeSpace at_) n f d ad w at_))
def execLdxG (h : Hdr) (s : BitVec 16) (n : BitVec 2) (f : VF) (d : V) (ad : Addr) (w : S) (at_ : MAttr) :=
  issueWord (.ldxG h s n f d ad w at_) h
    (memGeneric (.ldxG h s n f d ad w at_) h s (ldxWord h none n f d ad w at_) (xPtrs ad) (some false))

end Sys2Proof.Machine
end

