-- ==== Sys2Proof/Machine/Stores.lean ====
section
/-! DEFINITION. Class 0xA, stores and witnesses (R183 to R192). -/

namespace Sys2Proof.Machine

/-- The bytes that a lane's span stores (R174). -/
def Group.storeBytes (g : Group) (t : Nat) (z : Sz) (x : V) (l : Nat) : List Byte :=
  bytesOf (szBytes z) ((List.range (szRegs z)).map (fun j => 2 ^ (32 * j) * (g.rdV t (x.toNat + j) l).toNat)).sum

/-- The causes of a store and its page fault, before it takes a number (R186). -/
def Mach.checkedStore (m : Mach) (v : View) (scp cc : BitVec 2) (wo : S) (after : Option Trap) (ps : List (Piece × List Byte)) : MemRes :=
  match judge (ps.map (·.1)) true (fun _ => false) with
  | some t => .trap t
  | none => match after with
    | some t => .trap t
    | none => match faultOf (ps.map (·.1)) with
      | some r => r
      | none => m.storeWord v scp cc wo ps []

def stWord (h : Hdr) (spc : Option (BitVec 2)) (z : Sz) (u : Bool) (wo : S) (ad : Addr) (x : V) (at_ : MAttr) : MemWord :=
  { eff := fun m v =>
      let ps := m.lanePieces v (lanesOf (v.g.perf m.tick h)) spc ad (szBytes z) true
      if ps.isEmpty then .ok m [] [] true none
      else m.checkedStore v at_.scp at_.cc wo (v.g.notUniform m.tick h u ad) (ps.map (fun p => (p, v.g.storeBytes m.tick z x p.lane))),
    dests := fun _ _ => [.s wo.toNat] }

def execSt (h : Hdr) (z : Sz) (u : Bool) (wo : S) (ad : Addr) (x : V) (at_ : MAttr) :=
  issueWord (.st h z u wo ad x at_) h (memWord (.st h z u wo ad x at_) (stWord h (nativeSpace at_) z u wo ad x at_))
def execStG (h : Hdr) (n : BitVec 16) (z : Sz) (wo : S) (ad : Addr) (x : V) (at_ : MAttr) :=
  issueWord (.stG h n z wo ad x at_) h
    (memGeneric (.stG h n z wo ad x at_) h n (stWord h none z false wo ad x at_) (lanePtrs ad) none)

def stsWord (h : Hdr) (z : Sz) (wo base x : S) (off : W32) (at_ : MAttr) : MemWord :=
  { eff := fun m v =>
      let ps := m.onePiece v h (nativeSpace at_) (v.g.sPtr m.tick base off) (szBytes z) true
      if ps.isEmpty then .ok m [] [] true none
      else m.checkedStore v at_.scp at_.cc wo none (ps.map (fun p => (p, bytesOf (szBytes z) (v.g.rdS m.tick x.toNat).toNat))),
    dests := fun _ _ => [.s wo.toNat] }

def execSts (h : Hdr) (z : Sz) (wo base x : S) (off : W32) (at_ : MAttr) :=
  issueWord (.sts h z wo base x off at_) h (memWord (.sts h z wo base x off at_) (stsWord h z wo base x off at_))

/-- `stt` (R180): failing lanes store nothing; the predicate is written at issue, or at the replay of a word that a full dirty ring
deferred (R353). -/
def sttWord (h : Hdr) (z : Sz) (wo : S) (q : P) (ad : Addr) (x : V) (at_ : MAttr) : MemWord :=
  { eff := fun m v =>
      let all := m.lanePieces v (lanesOf (v.g.perf m.tick h)) (nativeSpace at_) ad (szBytes z) true
      let ok := all.filter (fun p => p.passes true)
      let preds := all.map (fun p => wP q.toNat p.lane (p.passes true))
      if all.isEmpty then .ok m [] [] true none
      else m.storeWord v at_.scp at_.cc wo (ok.map (fun p => (p, v.g.storeBytes m.tick z x p.lane))) preds,
    dests := fun t g => .s wo.toNat :: (lanesOf (g.perf t h)).map (fun l => RegRef.p q.toNat l) }

def execStt (h : Hdr) (z : Sz) (wo : S) (p : P) (ad : Addr) (x : V) (at_ : MAttr) :=
  issueWord (.stt h z wo p ad x at_) h (memWord (.stt h z wo p ad x at_) (sttWord h z wo p ad x at_))

/-! ### `stx` (R183) -/

/-- The elements of a lane's span, in DST order. -/
def Group.xElems (g : Group) (t : Nat) (f : VF) (n : Nat) (x : V) (l : Nat) : List Nat :=
  (List.range (n * vfPer f)).map (fun j => (g.rdV t (x.toNat + j / vfPer f) l).toNat / 2 ^ (16 * (j % vfPer f)) % 2 ^ (8 * vfBytes f))

/-- The nibble that a tagged page stores for an element (R183). -/
def storeNib (f : VF) (tag c scale : Nat) (sat : Bool) (x : Nat) : Nat :=
  if scale = 255 || !channelsOk tag c then 0
  else convTo (if tag = 5 then 5 else 7) .ne sat (((vfFmt f).val x).scale (-scaleExp scale))

/-- Bytes of a tagged lane: pairs of nibbles. -/
def nibBytes : List Nat → List Byte
  | a :: b :: t => BitVec.ofNat 8 (a + 16 * b) :: nibBytes t
  | _ => []

/-- The stores of a lane once the scales of its elements and C are read. -/
def Mach.xStores (m : Mach) (v : View) (f : VF) (n : Nat) (x : V) (ad : Addr) (ps : List Piece) (cs bs : List (Piece × List Byte)) (l : Nat) :
    List (Piece × List Byte) :=
  let tag := m.tagOf v (v.g.xPtr m.tick ad l).1 true
  let es := v.g.xElems m.tick f n x l
  if tag = 0 then ((ps.filter (fun q => q.lane == l)).zip es).map (fun qe => (qe.1, bytesOf (vfBytes f) qe.2))
  else
    let c := natOf ((laneBytes cs l).headD [])
    let scales := laneBytes bs l
    let nibs := es.zipIdx.map (fun e => storeNib f tag c (natOf (scales.getD e.2 [])) (fmtSat v.g.fmt) e.1)
    ((m.nibPieces v f n ad l true).zip (nibBytes nibs)).map (fun b => (b.1, [b.2]))

/-- Scale bytes of a tagged lane's elements. -/
def Mach.scalePieces (m : Mach) (v : View) (f : VF) (n c : Nat) (ad : Addr) (l : Nat) : List Piece :=
  let (p, k) := v.g.xPtr m.tick ad l
  let tag := m.tagOf v p true
  (List.range (n * vfPer f)).map (fun j =>
    m.unitPiece v ad l p (if channelsOk tag c then scaleAt tag (firstElem p k + j) c else 0xF000) 1 true true)

/-- Bytes of this part that the word has read at issue (R183). -/
def View.saw (v : View) (p : Piece) : Option (List Byte) :=
  match p.loc with
  | .dev pa _ => (List.range p.size).mapM (fun i => tfind v.seen (pa + i))
  | _ => none

/-- The reads of C and of scales: as a load of the group would read them at issue, of this part then and of another home once the word has come
there; in group scope, after the group's own earlier stores to them (R183; DESIGN CHOICE, log 105). -/
def Mach.readOnce (m : Mach) (v : View) (at_ : MAttr) (qs : List Piece) : Except (Mach × Why) Reads :=
  match readSettled v { at_ with scp := 0 } [v.g.fence] (qs.filter (fun p => (v.saw p).isNone))
      { m := m, bytes := [], stamp := none, bad := none } with
  | .error x => .error x
  | .ok r => .ok { r with bytes := r.bytes ++ qs.filterMap (fun p => (v.saw p).map (fun bs => (p, bs))) }

/-- C of a lane as it was read. -/
def channelsOf (cs : List (Piece × List Byte)) (l : Nat) : Nat := natOf ((laneBytes cs l).headD [])

/-- C of tagged lanes, by their pieces `tp`, then their scales. -/
def Mach.readScales (m : Mach) (v : View) (at_ : MAttr) (f : VF) (n : Nat) (ad : Addr) (tp : List Piece) : Except (Mach × Why) (Reads × Reads) :=
  match m.readOnce v at_ tp with
  | .error x => .error x
  | .ok r => match r.m.readOnce v at_ (tp.flatMap (fun p => m.scalePieces v f n (channelsOf r.bytes p.lane) ad p.lane)) with
    | .error x => .error x
    | .ok r2 => .ok (r, { r2 with bad := match r.bad with
        | some b => some b
        | none => r2.bad })

/-- A write of the core, on its way to its homes, has yet to reach one of these bytes. -/
def Mach.writesPend (m : Mach) (v : View) (ps : List Piece) : Bool :=
  !v.away && m.remotes.any (fun kr => match kr.2 with
    | some r => r.core == v.core && r.seq.isSome && r.spans.any (fun x => (spansOf ps).any (meet x))
    | none => false)

/-- Bytes of this part as they were read. -/
def Reads.local_ (r : Reads) : List (Nat × Byte) :=
  r.bytes.flatMap (fun x => match x.1.loc with
    | .dev pa _ => cells pa x.2
    | _ => [])

/-- The pieces that a word writes: the elements of untagged lanes, and the nibbles of tagged ones. -/
def Mach.xTargets (m : Mach) (v : View) (f : VF) (n : Nat) (ad : Addr) (ps : List Piece) (tagged : List Nat) : List Piece :=
  ps.filter (fun p => !tagged.contains p.lane) ++ tagged.flatMap (fun l => m.nibPieces v f n ad l true)

/-- A word with a lane elsewhere reads the C and the scales of its lanes on this part at issue, and takes them along. -/
def stxWord (h : Hdr) (spc : Option (BitVec 2)) (cnt : BitVec 2) (f : VF) (wo : S) (ad : Addr) (x : V) (at_ : MAttr) : MemWord :=
  let n := 2 ^ cnt.toNat
  { eff := fun m v =>
      let lanes := lanesOf (v.g.perf m.tick h)
      let ps := lanes.flatMap (fun l => m.xPieces v spc f n ad l true)
      let tagged := lanes.filter (fun l => m.tagOf v (v.g.xPtr m.tick ad l).1 true != 0)
      let leaves := !(farOf ps).isEmpty && !v.away
      let tp := ps.filter (fun p => tagged.contains p.lane && !(leaves && !(farOf [p]).isEmpty))
      if ps.isEmpty then .ok m [] [] true none
      else match judge ps true (fun _ => false) with
        | some t => .trap t
        | none => match faultOf ps with
          | some r => r
          | none =>
            if m.writesPend v (tp ++ tp.flatMap (fun p => m.scaleRegion v f n ad p.lane true)) then .park m .remoteLoad
            else match m.readScales v at_ f n ad tp with
              | .error (_, why) => waitOn m why
              | .ok (r, r2) => match r2.bad with
                | some (pa, ls) => .poison r2.m pa ls
                | none =>
                  if leaves then
                    r2.m.storeWord v at_.scp at_.cc wo ((m.xTargets v f n ad ps tagged).map (fun p => (p, [])))
                      [] { m.unitsElsewhere v f n ad tagged true with places := farOf (ps.filter (fun p => tagged.contains p.lane)) }
                      (r.local_ ++ r2.local_)
                  else r2.m.storeWord v at_.scp at_.cc wo (lanes.flatMap (m.xStores v f n x ad ps r.bytes r2.bytes)) [],
    dests := fun _ _ => [.s wo.toNat] }

def execStx (h : Hdr) (n : BitVec 2) (f : VF) (wo : S) (ad : Addr) (x : V) (at_ : MAttr) :=
  issueWord (.stx h n f wo ad x at_) h (memWord (.stx h n f wo ad x at_) (stxWord h (nativeSpace at_) n f wo ad x at_))
def execStxG (h : Hdr) (s : BitVec 16) (n : BitVec 2) (f : VF) (wo : S) (ad : Addr) (x : V) (at_ : MAttr) :=
  issueWord (.stxG h s n f wo ad x at_) h
    (memGeneric (.stxG h s n f wo ad x at_) h s (stxWord h none n f wo ad x at_) (xPtrs ad) (some false))

/-! ### Witnesses (R189 to R192) -/

def execWmrg (h : Hdr) (d a b : S) :=
  issueWord (.wmrg h d a b) h (wideWord h (fun m => m.modMe (fun g => g.putS d.toNat (wMerge m (g.rdS m.tick a.toNat) (g.rdS m.tick b.toNat)))))

/-- With no performing lane, s[DST] := s[SB] (R190). -/
def execWmrgRed (h : Hdr) (d : S) (a : V) (b : S) :=
  issueWord (.wmrgRed h d a b) h
    { run := fun m => m.modMe (fun g =>
        g.putS d.toNat ((lanesOf (g.perf m.tick h)).foldl (fun x l => wMerge m x (g.vec m.tick true a.toNat l)) (g.rdS m.tick b.toNat))) }

/-- What presenting a witness now would meet, in `wtest`'s codes (R81, R191). -/
def Mach.wMeets (m : Mach) (c p : Nat) (w : W64) : Nat :=
  match m.classify c p w with
  | .ok | .other | .past _ => 1
  | .own e => if m.workUnderWay c (wSeq w) e then 0 else 1
  | .fail => 2
  | .future => 3
  | .awaitDone _ | .closeOpen _ => 0
  | .drain _ _ _ => if (m.core c).satisfied.any (fun s => s.1 == w) then 1 else 0
  | .remote => match (m.core c).remoteDone.find? (fun x => x.1 == w) with
    | some (_, refused) => if refused then 2 else 1
    | none => 0

/-- The state of a witness as `wtest` reports it (R191); a performed one reads 1 whatever its epoch. -/
def Mach.wState (m : Mach) (c p : Nat) (w : W64) : Nat := if performed w then 1 else m.wMeets c p w

/-- Starts what WPresent would start (R191). -/
def Mach.kick (m : Mach) (c slot p : Nat) (w : W64) : Mach :=
  if m.wState c p w ≠ 0 then m
  else match m.classify c p w with
    | .closeOpen e => m.demandClose p e
    | .drain k s e => m.startDrain c k s e w
    | .remote => if m.answers w then m.sendPresent c slot w else m.noteAnswer c w true
    | _ => m

def Mach.wtestMe (m : Mach) (d w : S) : Mach :=
  m.modMe (fun g => g.putS d.toNat (BitVec.ofNat 64 (m.wState m.cur.1 m.myPart (g.rdS m.tick w.toNat))))

def execWtest (h : Hdr) (d w : S) := issueWord (.wtest h d w) h (wideWord h (fun m => m.wtestMe d w))
def execWtestKick (h : Hdr) (d w : S) :=
  issueWord (.wtestKick h d w) h (wideWord h (fun m => (m.wtestMe d w).kick m.cur.1 m.cur.2 m.myPart (m.me.rdS m.tick w.toNat)))

/-- A point witness of a core's own that is not performed yet. -/
def Mach.ownPoint (m : Mach) (c : Nat) (w : W64) : Bool := wKind w == 1 && wPartno w == m.partno && wCore w == c && !performed w

/-- The later of a core's point witnesses, where the first may be null. -/
def laterPoint (a b : W64) : W64 :=
  if wKind a ≠ 1 then b
  else if wEpoch a = wEpoch b then (if seqUpTo (wSeq a) (wSeq b) then b else a)
  else if upTo (wEpoch b) (wEpoch a) then b else a

/-- R192: the fence witness becomes the merge of the old and the new. -/
def Mach.fenceMe (m : Mach) (w : W64) : Mach :=
  m.modMe (fun g => { g with fence := wMerge m g.fence w,
                             ownFence := if m.ownPoint m.cur.1 w then laterPoint g.ownFence w else g.ownFence })

def execWfence (h : Hdr) (w : S) :=
  issueWord (.wfence h w) h (presentWord h (fun m => m.me.rdS m.tick w.toNat)
    (fun m => m.fenceMe (m.me.rdS m.tick w.toNat)))

/-- A line that only this group pins, whose widen must write it back and finds no reserve space (R188, R367). -/
def Mach.widenStuck (m : Mach) (c slot : Nat) : Option Nat :=
  ((m.core c).l1.find? (fun x => x.pins.all (fun k => k == slot) && x.pinned && m.widenWrites c x && m.noRoom (pageOf (128 * x.line)))).map (·.line)

/-- R189: the pins of the group end; the witness carries a number of its own. The word waits where a write-back that belongs to the
widen does (R367). -/
def execWiden (h : Hdr) (d : S) :=
  issueWord (.widen h d) h
    { wait := fun m => if m.performs h then (match m.widenStuck m.cur.1 m.cur.2 with
        | some ln => some (m, lineWaits m.cur.1 ln)
        | none => match m.nextSeq m.cur.1 m.myPart with
          | .hold m why => some (m, why)
          | .ok _ _ _ => none) else none,
      run := fun m =>
        if m.performs h then (match m.nextSeq m.cur.1 m.myPart with
          | .hold m _ => m
          | .ok m q e => (m.widenAll m.cur.1 m.cur.2).modMe (fun g => g.putS d.toNat (pointW 2 m.partno m.cur.1 q e)))
        else m }

end Sys2Proof.Machine
end

