-- ==== Sys2Proof/Machine/Atomics.lean ====
section
/-! DEFINITION. Class 0xB, atomics and waits (R193 to R197). -/

namespace Sys2Proof.Machine

/-- The new value of an integer atomic from the old value, the data and the compare value (R194). -/
def atomNew (k : AtomOp) (mo : IntMod) (old d cmp : W64) : W64 :=
  match k with
  | .add => wrapN mo.w (ival mo old + ival mo d)
  | .and => old &&& d
  | .or => old ||| d
  | .xor => old ^^^ d
  | .min => wrapN mo.w (min (ival mo old) (ival mo d))
  | .max => wrapN mo.w (max (ival mo old) (ival mo d))
  | .exch => d
  | .cas => if old = cmp then d else old

/-- R195. -/
def fatomNew (k : FatomOp) (old d : W64) : W64 :=
  let x := (fld old 0 32).toNat
  let y := (fld d 0 32).toNat
  BitVec.ofNat 64 (match k with
    | .add => opAdd .ne F32 x y 0
    | .min => opMinMax false F32 x y 0
    | .max => opMinMax true F32 x y 0)

/-- The core's own copy of a line goes home before its atomic does (R196); one that the home has held is there before what the core has
written since (R278). -/
def Mach.cleanOwn (m : Mach) (v : View) (ln : Nat) : Option Mach :=
  if v.held then some m else (m.widenLine v.core ln).bind (fun m => m.writeBack v.core ln)

/-- One read-modify-write (R196): in SRAM, in the core's L1 with a pin, at the home, or outside the part. -/
def Mach.rmw (m : Mach) (c : StoreCtx) (at_ : MAttr) (w : W64) (loc : Loc) (n : Nat) (f : W64 → W64) : Acc RdVal :=
  let t := m.team c.v.g.team
  let new (bs : List Byte) : List Byte := bytesOf n (f (BitVec.ofNat 64 (natOf bs))).toNat
  match loc with
  | .sp k key =>
    let bs := m.spRead k key n
    .ok (m.spWrite k key (new bs)) { bytes := bs, poisoned := false, stamp := none }
  | .far h pa e =>
    let bs := m.farBytes h pa n
    .ok ((m.cacheTlb c.v.core e).farWrite h pa (new bs)) { bytes := bs, poisoned := false, stamp := none }
  | .dev pa e =>
    if c.scp.toNat ≤ 1 then
      match m.readLoc c.v at_ [w] loc n with
      | .hold m why => .hold m why
      | .ok m x => match m.writeLoc c [] loc (new x.bytes) with
        | .hold m why => .hold m why
        | .ok m _ => .ok m x
    else
      let ln := lineOf pa
      match (if c.v.held then m.keptAtHome c.v.core ln else m.keptFrom c.v.core ln) with
      | some k => .hold m (.pinned k ln)
      | none =>
        match m.cleanOwn c.v ln with
        | none => .hold m (lineWaits c.v.core ln)
        | some m1 =>
          if m1.heldFrom t.part c.v.core ln && !c.v.away then .hold m1 .heldClose
          else
            let r := m1.reachOf t.part t.ctx pa e at_.cc
            let m2 := ((m1.cacheTlb c.v.core e).reachAtomic r ln (leafMS e.leaf)).readSector (sectorOf pa)
            let bs := m2.homeBytes pa n
            match m2.homeWrite none [] (cells pa (new bs)) with
            | none => .hold m2 (.reserve (pageOf pa) (whoGroup c.v.core c.v.slot))
            | some m3 =>
              .ok (m2.setGC (if c.v.held then m3 else m3.modCore c.v.core (fun k => k.forget pa n)) e.at_ (pageOf pa))
                { bytes := bs, poisoned := m2.poison.contains (sectorOf pa), stamp := some (m2.stampAt t.part (stackOf pa)) }
  | _ => .ok m { bytes := [], poisoned := false, stamp := none }

/-- The lanes of an atomic in increasing order (R194). -/
def rmwAll (c : StoreCtx) (at_ : MAttr) (w : W64) : List (Piece × (W64 → W64)) → Reads → Except (Mach × Why) Reads
  | [], r => .ok r
  | (p, f) :: t, r =>
    match r.m.rmw c at_ w p.loc p.size f with
    | .hold m why => .error (m, why)
    | .ok m x =>
      let bad := match r.bad with
        | some (a, l) => some (a, if x.poisoned then l ||| p.who else l)
        | none => if x.poisoned then some (locPa p.loc, p.who) else none
      rmwAll c at_ w t { m := m, bytes := r.bytes ++ [(p, x.bytes)], stamp := laterStamp r.stamp x.stamp, bad := bad }

/-- Cause 0x12 (R196, R356): a page that is not atomic-capable, or a form the host port does not carry. -/
def cannotAtomic (scp : BitVec 2) (carried : Bool) : Loc → Bool
  | .dev _ e => scp == 3 && !leafAC e.leaf
  | .far h _ e => !leafAC e.leaf || (h == 64 && !carried)
  | _ => false

/-- The slice whose home holds a lane of an atomic of epoch `e` while an earlier one closes (R278). -/
def Mach.holdsLane (m : Mach) (part : Nat) (scp : BitVec 2) (e : BitVec 24) (p : Piece) : Option Nat :=
  match p.loc with
  | .dev pa _ => if scp.toNat ≤ 1 || !m.holds part (stackOf pa) e then none else some (stackOf pa)
  | _ => none

/-- The lanes of an atomic that homes hold: for each slice its lanes, with their places; a word held whole keeps all its active lanes. -/
def Mach.heldParts (m : Mach) (v : View) (part : Nat) (scp : BitVec 2) (e : BitVec 24) (ps : List Piece) : List (Nat × W64 × List Nat) :=
  let ks := distinct (ps.filterMap (m.holdsLane part scp e))
  let whole := ks.length == 1 && ps.all (fun p => (m.holdsLane part scp e p).isSome)
  ks.map (fun k =>
    let mine := ps.filter (fun p => m.holdsLane part scp e p == some k)
    (k, if whole then v.g.xm else mine.foldl (fun w p => w ||| (1#64 <<< p.lane)) 0, mine.map (fun p => locPa p.loc)))

/-- The core's own dirty or pinned copies of the lines go to their homes before an atomic reaches them (R196), by translations that it keeps. -/
def Mach.cleanFor (m : Mach) (v : View) (ps : List Piece) : Option Mach :=
  (distinct (linesOf ps)).foldlM (fun m ln => m.cleanOwn v ln) (m.cacheAll v.core ps)

/-- The atomic performs later than it issues: atomics and loads of one group to different bytes are unordered at the homes (R270, R410). One in the
core's L1 or in SRAM does not. -/
def Mach.atomicLate (m : Mach) (v : View) (scp : BitVec 2) (ps : List Piece) : Bool :=
  decide (2 ≤ scp.toNat) && (linesOf ps).length == ps.length && m.loadsLate v true (spansOf ps)

/-- An atomic word over its pieces and what each does (R194). Its lanes whose homes hold them are performed there later, in their places
(R278); the others are performed now. -/
def Mach.atomicWord (m : Mach) (v : View) (at_ : MAttr) (wo w : S) (carried : Bool) (ps : List (Piece × (W64 → W64)))
    (fill : List (Piece × List Byte) → List PWrite) : MemRes :=
  let part := (m.team v.g.team).part
  let pieces := ps.map (·.1)
  let wit := v.g.rdS m.tick w.toNat
  match judge pieces true (cannotAtomic at_.scp carried) with
  | some t => .trap t
  | none => match m.presentTrap v.core part v.g.xm wit with
    | some t => .trap t
    | none => match faultOf pieces with
      | some r => r
      | none => m.presentOnce v wit (fun m0 =>
        if decide (at_.scp.toNat ≤ 1) && !allFar pieces && m0.behind v pieces then .park m0 .remoteLoad
        else match m0.seqFor v with
        | .hold m why => .park m why
        | .ok m1 q e =>
          if !v.away && (!(farOf pieces).isEmpty || m1.atomicLate v at_.scp pieces) then
            .away m1 { places := m1.awayPlaces pieces, spans := awaySpans pieces, seq := some (q, e) }
          else match dirtyAll (whoGroup v.core v.slot) part pieces m1 with
            | .error r => r
            | .ok m2 =>
              let held (p : Piece) : Bool := (m2.holdsLane part at_.scp e p).isSome
              match m2.cleanFor v (pieces.filter held) with
              | none => .park m (m.linesWait v.core (distinct (linesOf (pieces.filter held))))
              | some m3 =>
                match rmwAll { v := v, scp := at_.scp, cc := at_.cc, seq := q, epoch := e } at_ wit (ps.filter (fun x => !held x.1))
                    { m := m3, bytes := [], stamp := none, bad := none } with
                | .error (_, why) => waitOn m why
                | .ok r => match r.bad with
                  | some (pa, ls) => .poison r.m pa ls
                  | none =>
                    let out := fill r.bytes ++ [wS wo.toNat (pointW (outScope at_.scp (!(farOf pieces).isEmpty)) m.partno v.core q e)]
                    if pieces.any held then .held r.m (m2.heldParts v part at_.scp e pieces) q e out r.stamp
                    else .ok r.m [] out true r.stamp)

def atomSize (w64 : Bool) : Nat := if w64 then 8 else 4

/-- Old values into v[d] of the lanes. -/
def oldWrites (w64 : Bool) (d : V) (rs : List (Piece × List Byte)) : List PWrite :=
  rs.flatMap (fun x => (List.range (if w64 then 2 else 1)).map (fun j => wV (d.toNat + j)
      x.1.lane (BitVec.ofNat 32 (natOf (x.2.drop (4 * j) |>.take 4)))))

def carriedByHost : AtomOp → Bool
  | .add | .exch | .cas => true
  | _ => false

def atomWord (h : Hdr) (spc : Option (BitVec 2)) (k : AtomOp) (un w64 : Bool) (d : V) (ad : Addr) (x : V) (wo w : S) (at_ : MAttr) : MemWord :=
  { eff := fun m v =>
      let ps := m.lanePieces v (lanesOf (v.g.perf m.tick h)) spc ad (atomSize w64) true
      let mo : IntMod := { sat := false, un := un, w := w64 }
      if ps.isEmpty then .ok m [] [] true none
      else m.atomicWord v at_ wo w (carriedByHost k)
        (ps.map (fun p => (p, fun old => atomNew k mo old (v.g.vec m.tick w64 x.toNat p.lane) (v.g.vec m.tick w64 d.toNat p.lane))))
            (oldWrites w64 d),
    dests := fun t g => vDests (lanesOf (g.perf t h)) d (if w64 then 2 else 1) ++ [.s wo.toNat] }

def execAtom (h : Hdr) (k : AtomOp) (un w64 : Bool) (d : V) (ad : Addr) (x : V) (wo w : S) (at_ : MAttr) :=
  issueWord (.atom h k un w64 d ad x wo w at_) h
    (memWord (.atom h k un w64 d ad x wo w at_) (atomWord h (nativeSpace at_) k un w64 d ad x wo w at_))
def execAtomG (h : Hdr) (n : BitVec 16) (k : AtomOp) (un w64 : Bool) (d : V) (ad : Addr) (x : V) (wo w : S) (at_ : MAttr) :=
  issueWord (.atomG h n k un w64 d ad x wo w at_) h
    (memGeneric (.atomG h n k un w64 d ad x wo w at_) h n (atomWord h none k un w64 d ad x wo w at_) (lanePtrs ad) (some false))

def fatomWord (h : Hdr) (spc : Option (BitVec 2)) (k : FatomOp) (d : V) (ad : Addr) (x : V) (wo w : S) (at_ : MAttr) : MemWord :=
  { eff := fun m v =>
      let ps := m.lanePieces v (lanesOf (v.g.perf m.tick h)) spc ad 4 true
      if ps.isEmpty then .ok m [] [] true none
      else m.atomicWord v at_ wo w false
        (ps.map (fun p => (p, fun old => fatomNew k old ((v.g.rdV m.tick x.toNat p.lane).setWidth 64)))) (oldWrites false d),
    dests := fun t g => vDests (lanesOf (g.perf t h)) d 1 ++ [.s wo.toNat] }

def execFatom (h : Hdr) (k : FatomOp) (d : V) (ad : Addr) (x : V) (wo w : S) (at_ : MAttr) :=
  issueWord (.fatom h k d ad x wo w at_) h (memWord (.fatom h k d ad x wo w at_) (fatomWord h (nativeSpace at_) k d ad x wo w at_))
def execFatomG (h : Hdr) (n : BitVec 16) (k : FatomOp) (d : V) (ad : Addr) (x : V) (wo w : S) (at_ : MAttr) :=
  issueWord (.fatomG h n k d ad x wo w at_) h
    (memGeneric (.fatomG h n k d ad x wo w at_) h n (fatomWord h none k d ad x wo w at_) (lanePtrs ad) (some false))

/-- The old value of `atoms` in s: the number that memory held, zero-extended (DEDUCED, log 10). -/
def oldS (bs : List Byte) : W64 := BitVec.ofNat 64 (natOf bs)

def atomsWord (h : Hdr) (spc : Option (BitVec 2)) (k : AtomOp) (un w64 : Bool) (d base x wo w : S) (at_ : MAttr) : MemWord :=
  { eff := fun m v =>
      let ps := m.onePiece v h spc (v.g.sPtr m.tick base 0) (atomSize w64) true
      let mo : IntMod := { sat := false, un := un, w := w64 }
      if ps.isEmpty then .ok m [] [] true none
      else m.atomicWord v at_ wo w (carriedByHost k)
        (ps.map (fun p => (p, fun old => atomNew k mo old (lowN w64 (v.g.rdS m.tick x.toNat)) (lowN w64 (v.g.rdS m.tick d.toNat)))))
        (fun rs => rs.map (fun r => wS d.toNat (oldS r.2))),
    dests := fun _ _ => [.s d.toNat, .s wo.toNat] }

def execAtoms (h : Hdr) (k : AtomOp) (un w64 : Bool) (d base x wo w : S) (at_ : MAttr) :=
  issueWord (.atoms h k un w64 d base x wo w at_) h
    (memWord (.atoms h k un w64 d base x wo w at_) (atomsWord h (nativeSpace at_) k un w64 d base x wo w at_))
def execAtomsG (h : Hdr) (n : BitVec 16) (k : AtomOp) (un w64 : Bool) (d base x wo w : S) (at_ : MAttr) :=
  issueWord (.atomsG h n k un w64 d base x wo w at_) h
    (memGeneric (.atomsG h n k un w64 d base x wo w at_) h n (atomsWord h none k un w64 d base x wo w at_) (onePtr base 0) (some true))

/-! ### `waita` (R197) -/

/-- The wait goes on with this value. -/
def keepsWaiting (ne : Bool) (x cmp : W64) : Bool := if ne then x != cmp else x == cmp

def waitaWrites (w64 : Bool) (d : V) (lanes : W64) (x : W64) : List PWrite :=
  (lanesOf lanes).flatMap (fun l => (List.range (if w64 then 2 else 1)).map (fun j => wV (d.toNat + j) l (fld x (32 * j) 32)))

/-- What the group remembers while it sleeps. -/
def Mach.waitaRec (m : Mach) (v : View) (i : Instr) (cc : BitVec 2) (p : Piece) (ne w64 : Bool) (d : V) (lanes cmp : W64) (timeout : W32)
    : WaitaRec :=
  let base : WaitaRec :=
    { pc := v.g.pc, scratch := false, core := v.core, block := lineOf (locPa p.loc), addr := locPa p.loc, w64 := w64, ne := ne, cmp := cmp,
      dst := d.toNat, lanes := lanes, deadline := if timeout = 0 then none else some (m.clock + timeout.toNat), armed := true,
      word := i, issued := m.clock, va := ptrVa v.g.privBase p.ptr, cc := cc, leaf := p.loc.entry }
  match p.loc with
  | .sp c key => { base with scratch := true, core := c, block := key / 128, addr := key }
  | _ => base

/-- The value is read at its home as it arms. At issue the group sleeps while the condition holds; at replay, or for a
location outside the part, the word stays outstanding for as long. -/
def waitaWord (i : Instr) (h : Hdr) (spc : Option (BitVec 2)) (ne w64 : Bool) (d : V) (ad : Addr) (x : S) (timeout : W32) (at_ : MAttr) : MemWord :=
  { eff := fun m v =>
      let lanes := v.g.perf m.tick h
      let cmp := lowN w64 (v.g.rdS m.tick x.toNat)
      let sleep (m : Mach) (r : Option WaitaRec) : Mach :=
        m.setGroup v.core v.slot { (m.group v.core v.slot) with waita := r, status := .waiting .waita }
      match (lowest lanes).map (fun l => let p := v.g.ptr m.tick ad l; m.piece v l p (atomSize w64) (inSpace spc p.val) false) with
      | none => .ok m [] [] true none
      | some p => match judge [p] false (fun _ => false) with
        | some t => .trap t
        | none => match faultOf [p] with
          | some r => r
          | none =>
            if !(farOf [p]).isEmpty && !v.away then .away (sleep m none) { places := farOf [p], spans := hostSpans [p], seq := none }
            else match readAll v { at_ with scp := 3 } [] [p] { m := m, bytes := [], stamp := none, bad := none } with
              | .error (_, why) => waitOn m why
              | .ok r => match r.bad with
                | some (pa, ls) => .poison r.m pa ls
                | none =>
                  let y := BitVec.ofNat 64 (natOf ((laneBytes r.bytes p.lane).headD []))
                  if !keepsWaiting ne y cmp then .ok r.m (waitaWrites w64 d lanes y) [] true r.stamp
                  else if v.again then
                    (if timeout ≠ 0 ∧ v.g.readyAge + timeout.toNat ≤ m.clock then .ok r.m (waitaWrites w64 d lanes y) [] true r.stamp
                     else .park m .waita)
                  else .ok (sleep r.m (some (m.waitaRec v i at_.cc p ne w64 d lanes cmp timeout))) [] [] true none,
    dests := fun t g => vDests (lanesOf (g.perf t h)) d (if w64 then 2 else 1) }

def execWaita (h : Hdr) (ne w64 : Bool) (d : V) (ad : Addr) (x : S) (timeout : W32) (at_ : MAttr) :=
  issueWord (.waita h ne w64 d ad x timeout at_) h
    (memWord (.waita h ne w64 d ad x timeout at_) (waitaWord (.waita h ne w64 d ad x timeout at_) h (nativeSpace at_) ne w64 d ad x timeout at_))
def execWaitaG (h : Hdr) (n : BitVec 16) (ne w64 : Bool) (d : V) (ad : Addr) (x : S) (timeout : W32) (at_ : MAttr) :=
  issueWord (.waitaG h n ne w64 d ad x timeout at_) h
    (memGeneric (.waitaG h n ne w64 d ad x timeout at_) h n (waitaWord (.waitaG h n ne w64 d ad x timeout at_) h none ne w64 d ad x timeout at_)
      (lanePtrs ad) (some true))

/-- A sleeping `waita` whose page is not mapped any more, or lies elsewhere than in this part, goes on in the operand log like any word that
waits for its page (R261, R355). -/
def Mach.deferWaita (m : Mach) (c k : Nat) (w : WaitaRec) : Mach :=
  let g := m.group c k
  let (m, id) := m.fresh
  let e : LogEntry := { slot := k, id := id, word := w.word, pc := w.pc, g := { g.frozen m.tick with readyAge := w.issued, waita := none } }
  (m.modCore c (fun x => { x with log := x.log ++ [e] })).setGroup c k
    ({ g with waita := none, status := .pending, readyAge := m.clock, readyTick := m.tick, unready := false }.markOuts id w.pc
      (vDests (lanesOf w.lanes) (BitVec.ofNat 8 w.dst) (if w.w64 then 2 else 1)))

/-- Where a sleeping `waita` reads in this part: by its translation, or once that is removed by the one that is found now (R20). -/
def Mach.waitaPlace (m : Mach) (c k : Nat) (w : WaitaRec) : Option WaitaRec :=
  if w.leaf.isSome then some w
  else match m.locateVa { m.view with core := c, slot := k, g := m.group c k } none w.va (atomSize w.w64) false with
    | .dev pa e => some { w with addr := pa, block := lineOf pa, leaf := some e }
    | _ => none

/-- A sleeping `waita` reads again (R197): it ends when the value lets it or its time is up, and sleeps on otherwise. -/
def Mach.waitaAgain (m : Mach) (c k : Nat) (timedOut : Bool) : Mach :=
  let g := m.group c k
  match g.waita with
  | none => m
  | some w =>
    let t := m.team g.team
    let n := atomSize w.w64
    let go (m : Mach) (w : WaitaRec) (bs : List Byte) : Mach :=
      let y := BitVec.ofNat 64 (natOf bs)
      if keepsWaiting w.ne y w.cmp && !timedOut then m.setGroup c k { (m.group c k) with waita := some { w with armed := true } }
      else m.setGroup c k ((waitaWrites w.w64 (BitVec.ofNat 8 w.dst) w.lanes y).foldl Group.put
        { (m.group c k) with waita := none, status := .pending, readyAge := m.clock, readyTick := m.tick, unready := false })
    if w.scratch then go m w (m.spRead w.core w.addr n)
    else match m.waitaPlace c k w with
      | none => (m.walked t.part t.ctx w.va).deferWaita c k w
      | some w' =>
        let m := if w.leaf.isSome then m else (w'.leaf.map (m.cacheTlb c)).getD m
        let w := w'
        let cls := (w.leaf.map (lineClass w.cc)).getD 0
        let chain := (w.leaf.map (fun e => leafChain e.leaf)).getD 0
        match m.loadDev c { part := t.part, ctx := t.ctx, cls := cls, chain := chain, pin := 0, pinMs := 0 } w.addr n true [] with
        | .ok m x => if x.poisoned then m.consumePoison c k w.addr w.pc w.lanes else go m w x.bytes
        | .hold m (.pinned o ln) => m.refuse o ln
        | .hold m _ => m

def execWaitaWake (c k : Nat) := stepIf (fun m => (m.group c k).waita.isSome && !(m.group c k).halted) (fun m => m.waitaAgain c k false)
def execWaitaTimeout (c k : Nat) :=
  stepIf (fun m => !(m.group c k).halted && (match (m.group c k).waita with
    | some w => (match w.deadline with
      | some d => decide (d ≤ m.clock)
      | none => false)
    | none => false)) (fun m => m.waitaAgain c k true)

end Sys2Proof.Machine
end

