-- ==== Sys2Proof/Machine/Cache.lean ====
section
/-! DEFINITION. Class 0xC: cache, translation and memory-side words (R198 to R205), and the row paths of `mzero` and
`mcopy` (R380 to R382). -/

namespace Sys2Proof.Machine

/-- Places of the performing lanes; a lane whose pointer would fault or whose page is not present is dropped (R199, R201). -/
def Mach.named (m : Mach) (v : View) (h : Hdr) (ad : Addr) : List (Nat × TlbEntry) :=
  (lanesOf (v.g.perf m.tick h)).filterMap (fun l =>
    match m.locate v (v.g.ptr m.tick ad l) 1 false with
    | .dev pa e => some (pa, e)
    | _ => none)

/-- A hint: the lines come into the level named, and no value changes (R199). -/
def Mach.prefetch (m : Mach) (v : View) (l : PfLvl) (pe : Nat × TlbEntry) : Mach :=
  let t := m.team v.g.team
  let r := m.reachOf t.part t.ctx pe.1 pe.2 0
  let m := m.cacheTlb v.core pe.2
  let m := if l = .ms then (m.readLine (lineOf pe.1) []).msFill (m.tagFor r.part r.ctx (lineOf pe.1) r.chain r.cls r.pinMs)
    else m.reachHome r (lineOf pe.1) []
  if l ≠ .l1 ∨ ((m.core v.core).line? (lineOf pe.1)).isSome ∨ (m.keptFrom v.core (lineOf pe.1)).isSome ∨
      m.heldFrom t.part v.core (lineOf pe.1) then m
  else (m.fillLine v.core r (lineOf pe.1)).getD m

def execPfl (h : Hdr) (l : PfLvl) (ad : Addr) :=
  issueWord (.pfl h l ad) h { run := fun m => (m.named m.view h ad).foldl (fun x p => x.prefetch m.view l p) m }

/-! ### Pin windows (R200, R344) -/

/-- Lines that a window names in a stack. -/
def Mach.windowLines (m : Mach) (p ctx base len k : Nat) : List Nat :=
  (List.range (len / 65536)).flatMap (fun i => match m.walk p ctx (base + 65536 * i) with
    | some e =>
      let pa := leafBase e.leaf + (base + 65536 * i) % e.size
      if homeOf e.leaf = m.partno.toNat ∧ stackOf pa = k then (List.range 512).map (fun j => lineOf pa + j) else []
    | none => [])

/-- How many of these lines are pinned: at most `lim` of each set (R344). -/
def pinnedOf (set : Nat → Nat) (lim : Nat) (lns : List Nat) : Nat :=
  (lns.foldl (fun (t : Tab Nat × Nat) ln =>
    let n := tget 0 t.1 (set ln)
    if n < lim then (tset 0 t.1 (set ln) (n + 1), t.2 + 1) else t) ([], 0)).2

/-- PINLIM as hardware clamps it, in MiB: 48, and three quarters of the context's L2 in a slice (R344). -/
def pinLimit (x : Context) (shw : BitVec 4) : Nat :=
  min (min x.pinlim.toNat 48) (2 * popcount (x.banks.setWidth 64) * (16 - shw.toNat) * 3 / 64)

def Mach.pinAnswer (m : Mach) (p ctx : Nat) (base len : W64) (ms : Bool) : Option Nat :=
  let x := (m.part p).ctxAt ctx
  let set (ln : Nat) : Nat := if ms then Config.msSet ln % 32768 else 1024 * homeBank x.banks (128 * ln) + Config.l2Set ln % 1024
  let fits := (List.range (m.part p).size).all (fun j =>
    let lns := (x.pins.filter (fun w => w.2.2.2 == ms)).flatMap (fun w => m.windowLines p ctx w.2.1 w.2.2.1 (p + j)) ++
      m.windowLines p ctx base.toNat len.toNat (p + j)
    decide (lns.length ≤ 8192 * pinLimit x (m.part p).shw) || decide (pinnedOf set ((m.part p).ways - 2) lns ≤ 8192 * pinLimit x (m.part p).shw))
  if base.toNat % 65536 = 0 ∧ len.toNat % 65536 = 0 ∧ len ≠ 0 ∧ fld base 57 7 = 0 ∧ 0 < pinLimit x (m.part p).shw ∧ fits then
    (List.range 15).findSome? (fun i => if x.pins.any (fun w => w.1 == i + 1) then none else some (i + 1))
  else none

def execPin (h : Hdr) (ms : Bool) (d a b : S) :=
  issueWord (.pin h ms d a b) h (wideWord h (fun m =>
    let base := m.me.rdS m.tick a.toNat
    let len := m.me.rdS m.tick b.toNat
    match m.pinAnswer m.myPart m.myCtx base len ms with
    | none => m.modMe (fun g => g.putS d.toNat 0)
    | some hd =>
      (m.modPart m.myPart (fun p => let x := p.ctxAt m.myCtx
        p.setCtx m.myCtx { x with pins := tset (0, 0, false) x.pins hd (base.toNat, len.toNat, ms) })).modMe (fun g =>
            g.putS d.toNat (BitVec.ofNat 64 hd))))

/-- The lines that a window holds may be evicted again. -/
def unpinTags (l : List CTag) (p ctx hd : Nat) : List CTag :=
  l.map (fun x => if x.part = p ∧ x.ctx = ctx ∧ x.pin = hd then { x with pin := 0 } else x)

def Mach.unpin (m : Mach) (p ctx hd : Nat) : Mach :=
  let m := { m with l2 := unpinTags m.l2 p ctx hd, ms := unpinTags m.ms p ctx hd }
  m.modPart p (fun q => let x := q.ctxAt ctx
    q.setCtx ctx { x with pins := tdel x.pins hd })

/-- A handle that the context does not hold is ignored. -/
def execUnpin (h : Hdr) (a : S) :=
  issueWord (.unpin h a) h (wideWord h (fun m => m.unpin m.myPart m.myCtx (m.me.rdS m.tick a.toNat).toNat))

/-! ### `inv` and `wb` (R201) -/

/-- Widens and writes back a line of the core; `none` waits for reserve space. -/
def Mach.clean (m : Mach) (c ln : Nat) : Option Mach := (m.widenLine c ln).bind (fun m => m.writeBack c ln)

/-- Widens and writes back lines of the core in turn. -/
def Mach.cleanAll (m : Mach) (c : Nat) (lns : List Nat) : Option Mach := lns.foldlM (fun m ln => m.clean c ln) m

/-- What `inv` and `wb` name: lines of this part on the performing lanes' pages. A lane whose pointer would fault is skipped (R201);
one whose page is not mapped defers the word (R261). -/
def Mach.placesNamed (m : Mach) (v : View) (h : Hdr) (ad : Addr) : List Piece :=
  (lanesOf (v.g.perf m.tick h)).map (fun l => { m.piece v l (v.g.ptr m.tick ad l) 1 true false with good := true })

def Mach.linesNamed (m : Mach) (v : View) (h : Hdr) (ad : Addr) : Except MemRes (List Nat) :=
  match faultOf (m.placesNamed v h ad) with
  | some r => .error r
  | none => .ok (linesOf (m.placesNamed v h ad))

/-- The named lines written back in turn, once their pages have been walked for (R350). -/
def Mach.cleanNamed (m : Mach) (v : View) (h : Hdr) (ad : Addr) (lns : List Nat) : Option Mach :=
  (m.cacheAll v.core (m.placesNamed v h ad)).cleanAll v.core lns

/-- Each line is widened and written back before it leaves the L1, or the memory-side cache. A write-back that a close holds comes
before the memory-side copy goes to DRAM. -/
def invWord (h : Hdr) (ms : Bool) (ad : Addr) : MemWord :=
  { eff := fun m v => match m.linesNamed v h ad with
      | .error r => r
      | .ok lns => match m.cleanNamed v h ad lns with
        | none => .park m (m.linesWait v.core lns)
        | some m1 =>
          if ms then
            (if lns.any (fun ln => m1.heldFrom (m.team v.g.team).part v.core ln) then .park m1 .heldClose
             else .ok (lns.foldl Mach.msEvict m1) [] [] true none)
          else .ok (m1.modCore v.core (fun k => lns.foldl Core.dropLine k)) [] [] true none,
    dests := fun _ _ => [] }

def execInv (h : Hdr) (ms : Bool) (ad : Addr) := issueWord (.inv h ms ad) h (memWord (.inv h ms ad) (invWord h ms ad))

/-- Marks the writes of a line held at the home as owed to a word (R201, R278). -/
def Mach.owe (m : Mach) (p c ln : Nat) (who : Nat × Nat × Nat) : Mach :=
  m.modPart p (fun x => { x with held := x.held.map (fun y =>
    if y.src = c && y.bytes.any (fun b => lineOf b.1 == ln) then { y with waiters := y.waiters ++ [who] } else y) })

/-- With `.dram` the word goes on to DRAM once no close holds its write-backs. -/
def wbWord (h : Hdr) (dram : Bool) (d : S) (ad : Addr) : MemWord :=
  { eff := fun m v =>
      let part := (m.team v.g.team).part
      if v.g.perf m.tick h = 0 then .ok m [] [] true none
      else match m.linesNamed v h ad with
        | .error r => r
        | .ok lns => match m.cleanNamed v h ad lns with
          | none => .park m (m.linesWait v.core lns)
          | some m1 =>
            let held := lns.any (fun ln => m1.heldFrom part v.core ln)
            if dram && held then .park m1 .heldClose
            else match m1.seqFor v with
              | .hold m why => .park m why
              | .ok m2 q e =>
                let m3 := lns.foldl (fun m ln => m.owe part v.core ln (v.core, v.slot, v.id)) m2
                let m4 := if dram then m3.flush (fun a => lns.contains (lineOf a)) else m3
                .ok m4 [] [wS d.toNat (pointW 2 m.partno v.core q e)] (!held) none,
    dests := fun _ _ => [.s d.toNat] }

def execWb (h : Hdr) (dram : Bool) (d : S) (ad : Addr) := issueWord (.wb h dram d ad) h (memWord (.wb h dram d ad) (wbWord h dram d ad))

/-! ### Removing translations (R20, R202, R354) -/

def TlbEntry.covers (e : TlbEntry) (p ctx : Nat) (va : Option Nat) : Bool :=
  e.part == p && e.ctx == ctx && (match va with
    | some a => decide (e.va ≤ a) && decide (a < e.va + e.size)
    | none => true)

/-- The virtual address that a tb register's base names, for tags 0x0 and 0x3 (R30). -/
def Group.tbVa (g : Group) (t : Tb) : Nat := (if fld t.base 60 4 = 3 then g.privBase else 0) + (fld t.base 0 57).toNat

/-- V clears in a tb register whose PA lies in a removed frame; for a whole context, in every one of its groups. A `tbset` in flight to
the removed page is abandoned (R128). -/
def Tb.remove (t : Tb) (va : Nat) (es : List TlbEntry) (pages : List (Nat × Nat)) (all : Bool) : Tb :=
  let pa := (fld t.frame 0 52).toNat
  let lost := match t.leaf with
    | some x => es.any (fun e => homeOf e.leaf == homeOf x.leaf && decide (leafBase e.leaf ≤ pa) && decide (pa < leafBase e.leaf + e.size))
    | none => false
  if all || lost || t.busy && pages.any (fun f => decide (f.1 ≤ va) && decide (va < f.1 + f.2)) then
    { t with frame := 0, limit := 0, busy := false, leaf := none } else t

/-- A sleeping `waita` reads by a removed translation no more (R20). -/
def WaitaRec.remove (w : WaitaRec) (p ctx : Nat) (va : Option Nat) : WaitaRec :=
  if w.leaf.any (fun e => e.covers p ctx va) then { w with leaf := none, armed := false } else w

/-- Every group of the part, spilled ones too. -/
def Mach.allGroups (m : Mach) : List Group :=
  m.cores.flatMap (fun kc => kc.2.groups.map (·.2)) ++ m.shadow.flatMap (fun ks => match ks.2 with
    | some x => x.groups.map (·.2)
    | none => [])

/-- The translations that a removal reaches: those that cores and tb registers hold, the one that a walk gives now, and those that
writes have ended. They tell to which frames the named page translated (log 6). -/
def Mach.removed (m : Mach) (p ctx : Nat) (va : Option Nat) : List TlbEntry :=
  (m.cores.flatMap (fun kc => kc.2.tlb) ++ m.allGroups.flatMap (fun g => g.tb.filterMap (fun t => t.2.leaf)) ++ (m.part p).lost).filter
      (fun e => e.covers p ctx va) ++ (va.bind (m.walk p ctx)).toList

/-- Removes a context's translation of the page that holds `va`, or all of them, on every core (R20). -/
def Mach.removeTlb (m : Mach) (p ctx : Nat) (va : Option Nat) : Mach :=
  let es := m.removed p ctx va
  let pages := es.map (fun e => (e.va, e.size)) ++ (match va with
    | some a => [(a / 65536 * 65536, 65536)]
    | none => [])
  let clear (g : Group) : Group :=
    let t := m.team g.team
    let gone (x : Tb) : Tb := x.remove (g.tbVa x) es (if t.ctx = ctx then pages else []) (va.isNone && t.ctx == ctx)
    if t.part = p then { g with tb := tmap Tb.reset (fun _ x => gone x) g.tb, waita := g.waita.map (fun w => w.remove p ctx va) } else g
  { (m.modPart p (fun y => { y with lost := y.lost.filter (fun e => !e.covers p ctx va) })).mapCores
      (fun _ k => { k.mapGroups (fun _ g => clear g) with tlb := k.tlb.filter (fun e => !e.covers p ctx va) }) with
    shadow := tmap none (fun _ x => x.map (fun y => { y with groups := tmap Group.none (fun _ g => clear g) y.groups })) m.shadow }

/-- A line holds a device store of an epoch up to `e` that has yet to reach its home (R187, R276). -/
def L1Line.unperformed (x : L1Line) (e : BitVec 24) : Bool := x.dirty != 0 && !x.pinned && x.stores.any (fun r => upTo e r.epoch)

/-- An access in flight uses a frame of a translation to be removed: a store on its way into its L1 or waiting there to go home, a row path, a write
or an atomic that a close holds at its home, or a word that performs later, here or at another part. The removal is not complete before it is
performed (R20). The removal brings no line home itself (R187): of the stores in L1s it waits for those up to the epoch `e` that was open as it began
(DESIGN CHOICE, log 6). -/
def Mach.oldPa (m : Mach) (p ctx : Nat) (va : Option Nat) (e : BitVec 24) : Bool :=
  let es := m.removed p ctx va
  let within (home pa : Nat) : Bool := es.any (fun e => homeOf e.leaf == home &&
    decide (leafBase e.leaf ≤ pa) && decide (pa < leafBase e.leaf + e.size))
  let own := m.partno.toNat
  m.rowOps.any (fun kx => match kx.2 with
    | some o => o.part == p && (o.pages.flatMap (fun x => x.1 :: x.2.toList)).any (fun pg => within own (65536 * pg))
    | none => false) ||
  (m.part p).held.any (fun h => upTo e h.epoch && h.bytes.any (fun b => within own b.1)) ||
  m.cores.any (fun kc => kc.2.l1.any (fun x => x.unperformed e && within own (128 * x.line))) ||
  m.cores.any (fun kc => kc.2.sbuf.any (fun x => x.places.any (fun y => within own y.1))) ||
  (m.part p).ownWaits.any (fun x => within (homeOf x.leaf.leaf) x.pa) ||
  m.remotes.any (fun kx => match kx.2 with
    | some r => r.entry.isSome && r.lines.any (fun l => within l.1 (128 * l.2))
    | none => false)

def Mach.syncVa (m : Mach) (all : Bool) (a : S) : Option Nat := if all then none else some (fld (m.me.rdS m.tick a.toNat) 0 57).toNat

/-! ### `mzero` and `mcopy` (R203, R380) -/

/-! ### Presenting for work away from the core (R272, R290, R380) -/

/-- A store of epoch `e` numbered at or before `s` has not entered the L1. -/
def Core.entering (k : Core) (s : BitVec 19) (e : BitVec 24) : Bool := k.sbuf.any (fun x => x.epoch == e && seqUpTo x.seq s)

/-- The same, with the writes and atomics that a home holds and the stores that have not entered the L1. -/
def Mach.workLeft (m : Mach) (p c : Nat) (s : BitVec 19) (e : BitVec 24) : Bool :=
  m.workUnderWay c s e || (m.part p).held.any (fun x => x.src == c) || (m.core c).entering s e

/-- The core's close write-back is still to come: a drain waits for it (R273). -/
def Mach.closeOwed (m : Mach) (p c : Nat) : Bool := (m.part p).ep.closing.isSome && !(m.part p).ep.coresDone.contains c

/-- A store of epoch `e` numbered at or before `s` lies in the line. -/
def L1Line.covered (x : L1Line) (s : BitVec 19) (e : BitVec 24) : Bool := x.stores.any (fun r => r.epoch == e && seqUpTo r.seq s)

/-- A pinned line with a covered store refuses the drain (R188, R273). -/
def L1Line.refuseDrain (x : L1Line) (s : BitVec 19) (e : BitVec 24) (now : Nat) : L1Line :=
  if x.pinned && x.covered s e then { x with refusedAt := some (x.refusedAt.getD now) } else x

/-- The dirty device lines of a core with a store of epoch `e` numbered at or before `s`. -/
def Core.drainSet (k : Core) (s : BitVec 19) (e : BitVec 24) : List Nat :=
  (k.l1.filter (fun x => x.dirty != 0 && !x.pinned && x.covered s e)).map (·.line)

/-- These lines go home (R273), once all such stores are in the L1. -/
def Mach.drainLines (m : Mach) (c : Nat) (s : BitVec 19) (e : BitVec 24) : Option Mach :=
  if (m.core c).entering s e then none
  else
  let sent : Option Mach := ((m.core c).drainSet s e).foldlM (fun m ln => m.writeBack c ln) m
  sent.map (fun m => m.modCore c (fun k => { k with l1 := k.l1.map (fun x => x.refuseDrain s e m.clock) }))

/-- A drain at the core that waits: where its stores have entered the L1, for reserve space (R367). -/
def Mach.stallDrain (m : Mach) (c : Nat) (s : BitVec 19) (e : BitVec 24) : Mach :=
  if (m.core c).entering s e then m else m.stallLines c ((m.core c).drainSet s e)

/-- WPresent for work performed away from the core (R272, R290, R380): a witness of the core's own drains it too. -/
def Mach.presentAway (m : Mach) (c slot p : Nat) (w : W64) : PresentRes :=
  match m.classify c p w with
  | .own e =>
    if performed w then m.present c slot p w
    else match m.adoptEpoch c p e with
      | none => .hold (m.stallAdopt c p) (.present w)
      | some m0 => match m0.drainLines c (wSeq w) e with
        | none => .hold (m0.stallDrain c (wSeq w) e) (.present w)
        | some m1 => if m1.workLeft p c (wSeq w) e then .hold m1 (.present w) else m1.present c slot p w
  | _ => m.present c slot p w

/-! ### `tlbsync` (R202) -/

def Mach.mySync (m : Mach) : Option Sync := (m.part m.myPart).syncs.find? (fun x => x.team == m.me.team && x.grp == m.me.grp)
def Mach.dropSync (m : Mach) : Mach :=
  m.modPart m.myPart (fun y => { y with syncs := y.syncs.filter (fun x => !(x.team == m.me.team && x.grp == m.me.grp)) })

/-- The removal waits in the partition for the accesses in flight, and goes on through a halt of the group (R360). -/
def Mach.askSync (m : Mach) (va : Option Nat) : Mach :=
  m.modPart m.myPart (fun y => { y with syncs := y.syncs ++ [{ team := m.me.team, grp := m.me.grp, ctx := m.myCtx, va := va,
                                                               epoch := (m.part m.myPart).ep.openEpoch, done := false }] })

/-- An access in flight as the machine stands uses a frame that the group's word is to remove. -/
def Mach.oldNow (m : Mach) (va : Option Nat) : Bool := m.oldPa m.myPart m.myCtx va (m.part m.myPart).ep.openEpoch

/-- Removals of `tlbsync` words whose old frames no access in flight uses any more are complete. -/
def Mach.proceedSyncs (m : Mach) (p : Nat) : Mach :=
  let m := m.modPart p (fun y => { y with syncs := y.syncs.filter (fun x => !(m.team x.team).ended) })
  (m.part p).syncs.foldl (fun m x =>
    if x.done || m.oldPa p x.ctx x.va x.epoch then m
    else (m.removeTlb p x.ctx x.va).modPart p (fun y => { y with syncs := y.syncs.map (fun z => if z = x then { z with done := true } else z) })) m

/-- The presented store is at its home before the removal, one of the issuing core too. The word ends once its removal is complete, in
one step where no access in flight uses the old frame. -/
def tlbsyncWord (h : Hdr) (all : Bool) (a w : S) : Word :=
  let wit (m : Mach) : W64 := m.me.rdS m.tick w.toNat
  let shown (m : Mach) : PresentRes := m.presentAway m.cur.1 m.cur.2 m.myPart (wit m)
  { pre := fun m => if m.performs h then m.presentTrap m.cur.1 m.myPart m.me.xm (wit m) else none,
    wait := fun m =>
      if !m.performs h then none
      else match m.mySync with
        | some x => if x.done then none else some (m, .removal x.ctx x.va)
        | none => match shown m with
          | .hold m why => some (m, why)
          | .refused => none
          | .ok m' => if m'.oldNow (m.syncVa all a) then some (m'.askSync (m.syncVa all a), .removal m.myCtx (m.syncVa all a))
              else none,
    run := fun m =>
      if !m.performs h then m
      else if m.mySync.isSome then m.dropSync
      else match shown m with
        | .ok m => m.removeTlb m.myPart m.myCtx (m.syncVa all a)
        | .hold m why => m.park why
        | .refused => refusedRemote m m.cur.1 m.cur.2 (m.exitPort (wPartno (wit m)).toNat (wit m).toNat) }

def execTlbsync (h : Hdr) (all : Bool) (a w : S) := issueWord (.tlbsync h all a w) h (tlbsyncWord h all a w)

/-! ### `mzero` and `mcopy` (R203, R380) -/

/-- The pages of a run of virtual pages, with where each leads. -/
def Mach.runPages (m : Mach) (v : View) (base : W64) (n : Nat) (write : Bool) : List Piece :=
  (List.range n).map (fun i =>
    { lane := (lowest v.g.xm).getD 0, who := v.g.xm, ptr := base + BitVec.ofNat 64 (65536 * i), size := 65536,
      good := decide (base.toNat % 65536 = 0) && fld base 57 7 == 0,
      loc := m.locate v { val := base + BitVec.ofNat 64 (65536 * i), ok := true } 65536 write })

/-- `mzero` (no source) and `mcopy`. -/
def rowWord (h : Hdr) (d a : S) (b : Option S) (w : S) (pages : BitVec 13) : MemWord :=
  { eff := fun m v =>
      let part := (m.team v.g.team).part
      let n := pages.toNat
      let dst := m.runPages v (v.g.rdS m.tick a.toNat) n true
      let src := match b with
        | some r => m.runPages v (v.g.rdS m.tick r.toNat) n false
        | none => []
      let wit := v.g.rdS m.tick w.toNat
      if v.g.perf m.tick h = 0 then .ok m [] [] true none
      else if (dst ++ src).any Piece.badAddr then
        (match raised 0x10 ((dst ++ src).filter Piece.badAddr) with
          | some t => .trap t
          | none => .ok m [] [] true none)
      else if dst.any Piece.noWrite then
        (match raised 0x13 (dst.filter Piece.noWrite) with
          | some t => .trap t
          | none => .ok m [] [] true none)
      else match m.presentTrap v.core part v.g.xm wit with
        | some t => .trap t
        | none => match m.presentAway v.core v.slot part wit with
          | .refused => .ok (refusedRemote m v.core v.slot (m.exitPort (wPartno wit).toNat wit.toNat)) [] [] true none
          | .hold m why => .park m why.parks
          | .ok m0 => match faultOf (dst ++ src) with
            | some r => r
            | none =>
              let m0 := m0.cacheAll v.core (dst ++ src)
              if !(farOf (dst ++ src)).isEmpty then .ok m0 [] [wS d.toNat (failW 1)] true none
              else
                let dp := pagesOf dst
                let sp := pagesOf src
                if (dp.zip sp).any (fun x => stackOfPage x.1 != stackOfPage x.2) then .ok m0 [] [wS d.toNat (failW 2)] true none
                else match m0.seqFor v with
                  | .hold m why => .park m why
                  | .ok m1 q e => match dirtyAll (whoGroup v.core v.slot) part dst m1 with
                    | .error r => r
                    | .ok m2 =>
                      let srcs : List (Option Nat) := if b.isSome then sp.map some else dp.map (fun _ => none)
                      let op : RowOp := { core := v.core, slot := v.slot, outId := v.id, part := part, pages := dp.zip srcs,
                                          leaves := dst.filterMap (fun p => p.loc.entry.map (·.at_)), poisoned := false,
                                          seq := q, epoch := e, d := d.toNat }
                      .ok { m2 with rowOps := tset none m2.rowOps v.id (some op) } []
                        [wS d.toNat (pointW 2 m.partno v.core q e)] false none,
    dests := fun _ _ => [.s d.toNat] }

def execMzero (h : Hdr) (d a w : S) (pages : BitVec 13) :=
  issueWord (.mzero h d a w pages) h (memWord (.mzero h d a w pages) (rowWord h d a none w pages))
def execMcopy (h : Hdr) (d a b w : S) (pages : BitVec 13) :=
  issueWord (.mcopy h d a b w pages) h (memWord (.mcopy h d a b w pages) (rowWord h d a (some b) w pages))

/-- Cached copies of a page leave every L1, dirty and pinned ones too (R188, R203, R206). A store that the word's witness did not cover
stands if it comes after this and is lost if it comes before (R204). -/
def Mach.discardPage (m : Mach) (pg : Nat) : Mach :=
  m.mapCores (fun _ k =>
    let lns := (k.l1.filter (fun x => pageOf (128 * x.line) == pg)).map (·.line)
    lns.foldl (fun k ln => k.mapGroups (fun _ g => g.disarm false ln))
      { k with l1 := k.l1.filter (fun x => pageOf (128 * x.line) != pg) })

/-- A page is read from DRAM, which its dirty lines have reached (R203). -/
def Mach.readPage (m : Mach) (pg : Nat) : Mach := (m.flush (fun a => pageOf a == pg)).touchPage pg

/-- One page of a row path: zeros, or its source page with its poison (R203). `none` waits for reserve space. -/
def Mach.rowPage (m : Mach) (dst : Nat) (src : Option Nat) : Option (Mach × Bool) :=
  (((src.map m.readPage).getD m).preserve dst).map (fun m =>
    let im : Image := match src with
      | some s => m.imageOf s
      | none => { bytes := [], poison := [] }
    let m := m.flush (fun a => pageOf a == dst)
    let m := m.noteLeaves ((List.range 8192).map (fun i => 65536 * dst + 8 * i))
    let dram := (m.dram.filter (fun x => decide (pageOf x.1 ≠ dst)))
    let m := { m with dram := im.bytes.foldl (fun (d : Tab Byte) (b : Nat × Byte) => tset 0 d (65536 * dst + b.1) b.2) dram,
                      poison := im.poison.map (fun s => 2048 * dst + s) ++ m.poison.filter (fun s => decide (s / 2048 ≠ dst)),
                      symErr := m.symErr.filter (fun s => decide (s.1 / 2048 ≠ dst)),
                      l2 := m.l2.filter (fun x => pageOf (128 * x.line) != dst), ms := m.ms.filter (fun x => pageOf (128 * x.line) != dst) }
    ((m.discardPage dst).markWritten dst, !im.poison.isEmpty))

/-- Rewrites the result of an outstanding word and lets it return. -/
def Mach.setResult (m : Mach) (c k id r : Nat) (x : W64) : Mach :=
  let g := m.group c k
  m.setGroup c k { g with outs := g.outs.map (fun o => if o.id = id then
    { o with ready := true, writes := o.writes.map (fun w => if w.dst = .s r then { w with val := x } else w) } else o) }

/-- A word that waited for held writes may return. -/
def Mach.letReturn (m : Mach) (w : Nat × Nat × Nat) : Mach :=
  m.setGroup w.1 w.2.1 { (m.group w.1 w.2.1) with outs := (m.group w.1 w.2.1).outs.map (fun o =>
      if o.id = w.2.2 then { o with ready := true } else o) }

/-- Lines of a page that refuse a reader outside every core, with the cores that pin them (R188, R283). -/
def Mach.refusers (m : Mach) (pg : Nat) : List (Nat × Nat) :=
  m.cores.flatMap (fun kc => (kc.2.l1.filter (fun x => x.refuses && pageOf (128 * x.line) == pg)).map (fun x => (kc.1, x.line)))

/-- A write-back that ended a pin on the page is held at its home (R278, R283). -/
def Mach.widenHeldOn (m : Mach) (pg : Nat) : Bool :=
  m.parts.any (fun kp => kp.2.held.any (fun h => h.refused && h.bytes.any (fun b => pageOf b.1 == pg)))

/-- The bank that a page lies in, with its stack (R365). -/
def bankOf (pg : Nat) : Nat := 16 * stackOfPage pg + pg % 16

/-- The banks that a page of a word occupies, for its destination and its source. -/
def banksOf (p : Nat × Option Nat) : List Nat := (p.1 :: p.2.toList).map bankOf

/-- The banks that this core's earlier words still occupy: words of a core reach a base die in sequence order (R381). -/
def Mach.banksBefore (m : Mach) (o : RowOp) : List Nat :=
  distinct (m.rowOps.flatMap (fun kx => match kx.2 with
    | some y => if y.core == o.core && y.outId != o.outId && sequencedBy y.seq o.seq y.epoch o.epoch then y.pages.flatMap banksOf else []
    | none => []))

/-- The places, among the pages from place `i` on, of those whose turn it is: no page before in one of their banks is left (R381). -/
def rowTurns (busy : List Nat) (i : Nat) : List (Nat × Option Nat) → List Nat
  | [] => []
  | p :: t =>
    let rest := rowTurns ((banksOf p).filter (fun b => !busy.contains b) ++ busy) (i + 1) t
    if (banksOf p).any busy.contains then rest else i :: rest

/-- A page of a word still to write, its leaf, and the word's other pages. -/
def RowOp.split (o : RowOp) (i : Nat) : Option ((Nat × Option Nat) × Option Nat × RowOp) :=
  (o.pages[i]?).map (fun p => (p, o.leaves[i]?, { o with pages := o.pages.eraseIdx i, leaves := o.leaves.eraseIdx i }))

/-- A page of an epoch that the homes hold waits for DONE before it starts (R280). -/
def Mach.rowHeld (m : Mach) (o : RowOp) (p : Nat × Option Nat) : Bool := m.holds o.part (stackOfPage p.1) o.epoch

/-- A source line that is pinned refuses the base die until it is widened (R188). -/
def Mach.rowRefused (m : Mach) (p : Nat × Option Nat) : Bool := p.2.any (fun pg => !(m.refusers pg).isEmpty || m.widenHeldOn pg)

/-- A page whose turn it is cannot be written yet: the refusals are noted, and a write that waits for reserve space counts as stalled (R367). -/
def Mach.rowWaits (m : Mach) (o : RowOp) (p : Nat × Option Nat) : Mach :=
  if m.rowHeld o p then m
  else if m.rowRefused p then (p.2.toList.flatMap m.refusers).foldl (fun m x => m.refuse x.1 x.2) m
  else if m.noRoom p.1 then m.countStall p.1 (whoJob o.outId)
  else m

/-- The page can be written now. -/
def Mach.rowCan (m : Mach) (o : RowOp) (p : Nat × Option Nat) : Bool := !m.rowHeld o p && !m.rowRefused p && !m.noRoom p.1

/-- One of these: where there are several, which the spec does not say, a free value (log 3). -/
def Mach.pickRow (m : Mach) : List Nat → Option Nat
  | [] => none
  | [i] => some i
  | l => l[(Config.freeValue m.tick).toNat % l.length]?

/-- A page of an `mzero` or `mcopy` is written; with the last one its witness returns (R203, R381). -/
def Mach.rowStep (m : Mach) (id : Nat) (p : Nat × Option Nat) (leaf : Option Nat) (o : RowOp) : Mach :=
  match m.rowPage p.1 p.2 with
  | none => m
  | some (m', bad) =>
    let m' := (leaf.map (fun a => m.setGC m' a p.1)).getD m'
    let o := { o with poisoned := o.poisoned || bad }
    if o.pages.isEmpty then
      ({ m' with rowOps := tset none m'.rowOps id none }).setResult o.core o.slot o.outId o.d
        (if o.poisoned then failW 3 else pointW 2 m'.partno o.core o.seq o.epoch)
    else { m' with rowOps := tset none m'.rowOps id (some o) }

/-- The places of the pages of a word whose turn it is. -/
def Mach.rowPlaces (m : Mach) (o : RowOp) : List Nat := rowTurns (m.banksBefore o) 0 o.pages

/-- Some page of the word has its turn. -/
def Mach.rowTurn (m : Mach) (id : Nat) : Bool :=
  match tget none m.rowOps id with
  | none => false
  | some o => !(m.rowPlaces o).isEmpty

/-- One page of a word whose turn it is, and which waits for nothing, is written. -/
def Mach.rowDone (m : Mach) (id : Nat) : Mach :=
  match tget none m.rowOps id with
  | none => m
  | some o =>
    let places := m.rowPlaces o
    let can := places.filter (fun i => (o.pages[i]?).any (m.rowCan o))
    let m := places.foldl (fun m i => ((o.pages[i]?).map (m.rowWaits o)).getD m) m
    match (m.pickRow can).bind o.split with
    | some (p, leaf, rest) => m.rowStep id p leaf rest
    | none => m

def execRowPathComplete (id : Nat) := stepIf (fun m => m.rowTurn id) (fun m => m.rowDone id)

/-! ### Chains (R205, R345) -/

def Mach.demoteChain (m : Mach) (p : Nat) (c : BitVec 6) : Mach :=
  let mine (x : CTag) : Bool := x.part == p && x.chain == c
  { m with ms := m.ms.filter (fun x => !mine x) ++ (m.ms.filter mine).map (fun x => { x with cls := 1 }) }

def Mach.dropChain (m : Mach) (p : Nat) (c : BitVec 6) : Mach :=
  let lns := (m.ms.filter (fun x => x.part == p && x.chain == c)).map (·.line)
  { m.flush (fun a => lns.contains (lineOf a)) with ms := m.ms.filter (fun x => !(x.part == p && x.chain == c)) }

def execChainDemote (h : Hdr) (c : BitVec 6) := issueWord (.chainDemote h c) h (wideWord h (fun m => m.demoteChain m.myPart c))
def execChainDrop (h : Hdr) (c : BitVec 6) := issueWord (.chainDrop h c) h (wideWord h (fun m => m.dropChain m.myPart c))

/-- Memory-side lines that a chain holds. -/
def Mach.chainCount (m : Mach) (p : Nat) (c : BitVec 6) : Nat := (m.ms.filter (fun x => x.part == p && x.chain == c)).length

def chainCntWord (h : Hdr) (d : S) (c : BitVec 6) : MemWord :=
  { eff := fun m v =>
      if v.g.perf m.tick h = 0 then .ok m [] [] true none
      else .ok m [] [wS d.toNat (BitVec.ofNat 64 (m.chainCount (m.team v.g.team).part c))] true none,
    dests := fun _ _ => [.s d.toNat] }

def execChainCnt (h : Hdr) (d : S) (c : BitVec 6) := issueWord (.chainCnt h d c) h (memWord (.chainCnt h d c) (chainCntWord h d c))

end Sys2Proof.Machine
end

