-- ==== Sys2Proof/Machine/Tiles.lean ====
section
/-! DEFINITION. Class 0xD: the tile table (R208 to R215), layout records (R216 to R218), copies as they issue (R219 to
R221), streams (R223 to R226) and ring rotation (R227). What the engines do afterwards is in Copies. -/

namespace Sys2Proof.Machine

/-- A cause of the issuing group, raised for all active lanes (R76). -/
def Mach.raise (m : Mach) (cause : Nat) (detail : W64) : Option Trap := some { cause := cause, lanes := m.me.xm, detail := detail }

/-- The first cause of a list in which each stands at its place in R78's order. -/
def firstTrap (l : List (Option Trap)) : Option Trap := l.findSome? id

/-! ### Tiles by role (R209, R210) -/

/-- Entry `t` of a core, when the team owns it (R27). -/
def Mach.tileOf (m : Mach) (c team t : Nat) : Option Tile :=
  match (m.core c).tile t with
  | some x => if x.team = team then some x else none
  | none => none

def Mach.myTile (m : Mach) (t : T) : Option Tile := m.tileOf m.cur.1 m.me.team t.toNat

/-- Cause 0x22: not owned, or not allocated. -/
def Mach.notMine (m : Mach) (x : Option Tile) : Option Trap := if x.isNone then m.raise 0x22 0 else none

/-- Cause 0x20, with the tile's fault code. -/
def Mach.poisonedTile (m : Mach) (x : Option Tile) : Option Trap :=
  match x with
  | some t => if t.st = .poisoned then m.raise 0x20 (t.fcode.setWidth 64) else none
  | none => none

def readyOnly (x : Option Tile) : Bool :=
  match x with
  | some t => t.st == .ready
  | none => true
def notBusy (x : Option Tile) : Bool :=
  match x with
  | some t => t.st != .filling && t.st != .draining
  | none => true

/-- The word parks until tile `t` lets it issue: `full` asks for READY, else for EMPTY or READY. -/
def Mach.tileWait (m : Mach) (t : T) (full : Bool) : Option (Mach × Why) :=
  if (if full then readyOnly (m.myTile t) else notBusy (m.myTile t)) then none else some (m, .tile t.toNat full)

/-- `twait` waits for READY (R215, R248). -/
def Mach.readyWait (m : Mach) (t : T) : Option (Mach × Why) := if readyOnly (m.myTile t) then none else some (m, .twait t.toNat)

def Mach.setTileAt (m : Mach) (c t : Nat) (x : Option Tile) : Mach := m.modCore c (fun k => k.setTile t x)
def Mach.modTileAt (m : Mach) (c t : Nat) (f : Tile → Tile) : Mach := m.setTileAt c t (((m.core c).tile t).map f)
def Mach.modMyTile (m : Mach) (t : T) (f : Tile → Tile) : Mach := m.modTileAt m.cur.1 t.toNat f

/-- A group-wide word with its causes, its wait and its effect, each only when it performs (R64). -/
def tileWord (h : Hdr) (pre : Mach → List (Option Trap)) (wait : Mach → Option (Mach × Why)) (f : Mach → Mach) : Word :=
  { pre := fun m => if m.performs h then firstTrap (pre m) else none,
    wait := fun m => if m.performs h then wait m else none,
    run := fun m => if m.performs h then f m else m }

/-- Bytes of a tile in the scratchpad of core `c`. -/
def tileKey (x : Tile) : Nat := spKey x.owner.toNat x.off.toNat

/-! ### `tdef`, `tfree`, `tstat`, `twait` (R212 to R215) -/

/-- An own-scratchpad pointer to `n` bytes (R29), as an offset. -/
def Mach.ownOffset (m : Mach) (p : W64) (n align : Nat) : Option Nat :=
  if fld p 60 4 = 1 ∧ fld p 32 28 = 0 ∧ (fld p 0 32).toNat % align = 0 ∧ (fld p 0 32).toNat + n ≤ spSize m.myTeam.pool then
    some (fld p 0 32).toNat
  else none

def powerOf2 (x : Nat) : Bool := x == 2 ^ Nat.log2 x

/-- R212: base, size and chunk of a tile. -/
def Mach.tdefOk (m : Mach) (p size : W64) (chunk : Nat) : Bool :=
  (m.ownOffset p size.toNat 128).isSome && size != 0 && decide (size.toNat % 128 = 0) && decide (size.toNat ≤ 2 ^ 19) && powerOf2 chunk &&
    decide (128 ≤ chunk) && decide (chunk ≤ 2 ^ 19) && decide (size.toNat % chunk = 0)

/-- A team of the same context that is spilled from the core holds the entry, or the stream, still (R338). -/
def Mach.spilledHolds (m : Mach) (f : Shadow → Bool) : Bool :=
  m.shadow.any (fun kx => match kx.2 with
    | some x => x.core == some m.cur.1 && (m.team x.team).part == m.myPart && (m.team x.team).ctx == m.myCtx && f x
    | none => false)

def Mach.newTile (m : Mach) (ready : Bool) (p size : W64) (chunk : W32) : Tile :=
  { rem := 0, chk := 0, fcode := 0, owner := BitVec.ofNat 2 (m.myTeam.slotOn m.cur.1), team := m.me.team, st := if ready then .ready else .empty,
    chunk := chunk.setWidth 20, size := size.setWidth 20, off := fld p 0 20, cw := 0, ring := none }

def execTdef (h : Hdr) (ready : Bool) (t : T) (a b : S) (chunk : W32) :=
  issueWord (.tdef h ready t a b chunk) h (tileWord h
    (fun m =>
      let p := m.me.rdS m.tick a.toNat
      [if ((m.core m.cur.1).tile t.toNat).isSome || m.spilledHolds (fun x => (tget none x.tiles t.toNat).isSome) then m.notMine (m.myTile t)
          else none,
       if m.tdefOk p (m.me.rdS m.tick b.toNat) chunk.toNat then none else m.raise 0x10 p])
    (fun m => m.tileWait t false)
    (fun m => m.setTileAt m.cur.1 t.toNat (some (m.newTile ready (m.me.rdS m.tick a.toNat) (m.me.rdS m.tick b.toNat) chunk))))

def execTfree (h : Hdr) (t : T) :=
  issueWord (.tfree h t) h (tileWord h (fun m => [m.notMine (m.myTile t)]) (fun m => m.tileWait t false)
    (fun m => m.setTileAt m.cur.1 t.toNat none))

def TState.code : TState → Nat
  | .empty => 0 | .filling => 1 | .ready => 2 | .draining => 3 | .poisoned => 4

/-- The words of R208. -/
def Tile.word (x : Tile) : TsWord → W64
  | .state => BitVec.ofNat 64 (x.rem * 2 ^ 44 + x.chk.toNat * 2 ^ 28 + x.fcode.toNat * 2 ^ 12 + x.owner.toNat * 2 ^ 8 + x.st.code)
  | .base => BitVec.ofNat 64 (x.chunk.toNat * 2 ^ 40 + x.size.toNat * 2 ^ 20 + x.off.toNat)
  | .wit => x.cw

def execTstat (h : Hdr) (k : TsWord) (d : S) (t : T) :=
  issueWord (.tstat h k d t) h (tileWord h (fun m => [m.notMine (m.myTile t)]) (fun _ => none)
    (fun m => match m.myTile t with
      | some x => m.modMe (fun g => g.putS d.toNat (x.word k))
      | none => m))

def execTwait (h : Hdr) (d : S) (t : T) :=
  issueWord (.twait h d t) h (tileWord h (fun m => [m.notMine (m.myTile t), m.poisonedTile (m.myTile t)]) (fun m => m.readyWait t)
    (fun m => match m.myTile t with
      | some x => m.modMe (fun g => g.putS d.toNat x.cw)
      | none => m))

/-- R215: parks until CHK > s[SB] or READY. -/
def Mach.chunkWait (m : Mach) (x : Option Tile) (t n : Nat) : Option (Mach × Why) :=
  match x with
  | some y => if y.st = .ready ∨ n < y.chk.toNat then none else some (m, .chunk t n)
  | none => none

def execTwaitCh (h : Hdr) (t : T) (b : S) :=
  issueWord (.twaitCh h t b) h (tileWord h (fun m => [m.notMine (m.myTile t), m.poisonedTile (m.myTile t)])
    (fun m => m.chunkWait (m.myTile t) t.toNat (m.me.rdS m.tick b.toNat).toNat) id)

/-! ### Layout records (R216, R217) -/

/-- Bits per element in memory (R216, R32). -/
def imgBits (code : Nat) : Nat := if code = 8 then 6 else elemBits code

/-- n bytes at an offset of a record, as a number. -/
def fieldAt (r : List Byte) (off n : Nat) : Nat := natOf ((r.drop off).take n)

def layoutOf (r : List Byte) : Layout :=
  { gbase := BitVec.ofNat 64 (fieldAt r 0 8), sbase := BitVec.ofNat 64 (fieldAt r 8 8), stride1 := fieldAt r 16 8, sstride := fieldAt r 24 8,
    dim0 := fieldAt r 0x20 4, dim1 := fieldAt r 0x24 4, box0 := fieldAt r 0x28 2, box1 := fieldAt r 0x2A 2, tpitch := fieldAt r 0x2C 2,
    fmtc := BitVec.ofNat 8 (fieldAt r 0x2E 1), flags := BitVec.ofNat 8 (fieldAt r 0x2F 1) }

def Layout.code (l : Layout) : Nat := (fld l.fmtc 0 4).toNat
def Layout.reserved (l : Layout) : Bool := decide (9 < l.code)
def Layout.b (l : Layout) : Nat := imgBits l.code
/-- ORD 1: slices are dim0 positions. -/
def Layout.ord1 (l : Layout) : Bool := bitAt l.flags 0
def Layout.scl (l : Layout) : Bool := bitAt l.flags 1
/-- Slice length and number of slices. -/
def Layout.len (l : Layout) : Nat := if l.ord1 then l.box1 else l.box0
def Layout.ns (l : Layout) : Nat := if l.ord1 then l.box0 else l.box1
def Layout.sliceBytes (l : Layout) : Nat := l.len * l.b / 8
/-- Scale blocks of 32 slices. -/
def Layout.blocks (l : Layout) : Nat := if l.scl then (l.ns + 31) / 32 else 0
/-- Bytes that a fill writes. -/
def Layout.total (l : Layout) : Nat := l.ns * l.sliceBytes + l.blocks * l.len

def inRange (lo hi x : Nat) : Bool := decide (lo ≤ x) && decide (x ≤ hi)

/-- The checks of R217 in code order, each with whether it holds; those that use b are skipped for a reserved FMTC. -/
def layoutChecks (r : List Byte) : List Bool :=
  let l := layoutOf r
  [ fld l.gbase 57 7 == 0 && decide (l.gbase.toNat % 16 = 0),
    decide (l.stride1 % 16 = 0) && (l.reserved || decide ((l.dim0 * l.b + 7) / 8 ≤ l.stride1)),
    inRange 1 (2 ^ 24) l.dim0 && inRange 1 (2 ^ 24) l.dim1,
    inRange 1 256 l.box0 && inRange 1 256 l.box1 && (l.reserved || decide (l.len * l.b % 128 = 0)),
    !l.reserved && (l.code != 5 || l.scl),
    decide (l.tpitch % 16 = 0) && (l.reserved || decide (l.len * l.b / 8 ≤ l.tpitch)),
    if l.scl then fld l.sbase 60 4 == 0 && decide (l.sbase.toNat % 16 = 0) && decide (l.sstride % 16 = 0) else l.sbase == 0,
    fld l.fmtc 4 4 == 0 && fld l.flags 2 6 == 0 && fieldAt r 0x30 12 == 0 && fieldAt r 0x3E 2 == 0 ]

/-- The first failing code, or 0. -/
def layoutCode (r : List Byte) : Nat :=
  match (layoutChecks r).findIdx? (fun ok => !ok) with
  | some i => i + 1
  | none => 0

/-- The record that a pointer names: own scratchpad, 64-byte aligned, within `%spsize`. -/
def Mach.recordAt (m : Mach) (p : W64) : Option (List Byte) :=
  (m.ownOffset p 64 64).map (fun off => m.spRead m.cur.1 (spKey (m.myTeam.slotOn m.cur.1) off) 64)

def execLayout (h : Hdr) (d : P) (a : S) :=
  issueWord (.layout h d a) h (tileWord h
    (fun m => let p := m.me.rdS m.tick a.toNat
      [if (m.recordAt p).isSome then none else m.raise 0x10 p])
    (fun _ => none)
    (fun m =>
      let p := m.me.rdS m.tick a.toNat
      match m.recordAt p with
      | none => m
      | some r =>
        let code := layoutCode r
        (m.spWrite m.cur.1 (spKey (m.myTeam.slotOn m.cur.1) ((fld p 0 32).toNat + 0x3C)) (bytesOf 2 code)).modMe
          (fun g => g.putP d.toNat (g.perf m.tick h) (if code = 0 then BitVec.allOnes 64 else 0))))

/-! ### Copies at issue (R219 to R221) -/

/-- The form's own checks of R219 that fail, in the order of their codes: of several, DETAIL carries the lowest (DESIGN CHOICE, log 107). `sizes`: of
the target tiles; `sscl`: of the stream. -/
def copyChecks (k : CopyDst) (l : Layout) (x0 y0 : Nat) (sizes : List Nat) (sscl : Bool) (mask : Nat) : List (Nat × Bool) :=
  let small : Nat × Bool := (9, sizes.any (fun s => decide (s < l.ns * l.tpitch + l.blocks * l.len)))
  let pitch : Nat × Bool := (13, decide (x0 * l.b % 128 ≠ 0))
  let block : Nat × Bool := (11, l.scl && decide ((if l.ord1 then x0 else y0) % 32 ≠ 0))
  match k with
  | .tile => [small, block, pitch]
  | .out => [small, (12, l.scl), pitch]
  | .stream => [(10, decide (l.len ≠ 128)), block, pitch, (14, l.scl != sscl)]
  | .prefetch _ => []
  | .multi => [small, block, pitch, (15, decide (mask = 0))]

/-- The team of the issuing region on a core of the gang, 0 for none (R221). A team that is spilled and not reclaimed is not on the core
(DESIGN CHOICE, log 82). -/
def Mach.ringTeam (m : Mach) (c : Nat) : Nat := if c = m.cur.1 then m.me.team else (m.gangTeam m.myTeam.inst c).getD 0

/-- The targets of a copy: core, entry and team. -/
def Mach.copyTargets (m : Mach) (k : CopyDst) (t mask : Nat) : List (Nat × Nat × Nat) :=
  match k with
  | .multi => (List.range 8).filterMap (fun g => let c := 8 * gangOf m.cur.1 + g
      if mask.testBit g then some (c, t, m.ringTeam c) else none)
  | .stream | .prefetch _ => []
  | _ => [(m.cur.1, t, m.me.team)]

/-- The target's entry, where its team holds it. -/
def Mach.targetTile (m : Mach) (x : Nat × Nat × Nat) : Option Tile := if x.2.2 = 0 then none else m.tileOf x.1 x.2.2 x.2.1
def Mach.modTarget (m : Mach) (x : Nat × Nat × Nat) (f : Tile → Tile) : Mach := if (m.targetTile x).isSome then m.modTileAt x.1 x.2.1 f else m

def Mach.copiesOf (m : Mach) (c : Nat) : Nat :=
  (m.copies.filter (fun kx => match kx.2 with
    | some x => x.core == c && !x.kind.isPrefetch
    | none => false)).length

/-- Stream q of the issuing team (R224). -/
def Mach.ownsStream (m : Mach) (c : Nat) (q : Nat) : Bool := ((m.core c).stream q).owner == some m.me.team

/-- The causes of a copy in the order of R219, which puts 0x24 before 0x21; R78's list has them the other way round (DESIGN CHOICE, log
107). -/
def Mach.copyTraps (m : Mach) (k : CopyDst) (t mask : Nat) (q : Q) (a b w : S) : List (Option Trap) :=
  let p := m.me.rdS m.tick a.toNat
  let xy := m.me.rdS m.tick b.toNat
  let ts := (m.copyTargets k t mask).map m.targetTile
  let form : Option Trap := match m.recordAt p with
    | none => none
    | some r =>
      if layoutCode r ≠ 0 then m.raise 0x21 (BitVec.ofNat 64 (layoutCode r))
      else match (copyChecks k (layoutOf r) (fld xy 0 32).toNat (fld xy 32 32).toNat (ts.filterMap (fun x => x.map (fun y => y.size.toNat)))
          ((m.core m.cur.1).stream q.toNat).scl mask).find? (fun c => c.2) with
        | some c => m.raise 0x21 (BitVec.ofNat 64 c.1)
        | none => none
  [ if k = .multi ∧ m.cur.1 % 8 ≠ 0 then m.raise 0x01 0 else none,
    if ts.any Option.isNone || (k == .multi && (m.tileOf m.cur.1 m.me.team t).isNone) then m.raise 0x22 0 else none,
    if k = .stream ∧ !m.ownsStream m.cur.1 q.toNat then m.raise 0x24 0 else none,
    form,
    if (m.recordAt p).isNone then m.raise 0x10 p else none,
    m.presentTrap m.cur.1 m.myPart m.me.xm (m.me.rdS m.tick w.toNat),
    (ts.filterMap m.poisonedTile).head? ]

/-- What a copy adopts at issue (R279, R280): a fresh number and epoch, or neither where it presents the open epoch. The adoption of an
epoch that is closing waits for DONE. -/
inductive CopySeq where
  | ok (m : Mach) (seq : Option (BitVec 19)) (e : BitVec 24)
  | hold (m : Mach) (why : Why)

def Mach.copySeq (m : Mach) (w : W64) : CopySeq :=
  let c := m.cur.1
  let go (m : Mach) : CopySeq := match m.nextSeq c m.myPart with
    | .ok m q e => .ok m (some q) e
    | .hold m why => .hold m why
  let adopt (e : BitVec 24) (f : Mach → CopySeq) : CopySeq := match m.adoptEpoch c m.myPart e with
    | some m => f m
    | none => .hold (m.stallAdopt c m.myPart) (.witness w)
  match m.classify c m.myPart w with
  | .closeOpen e => adopt e (fun m => .ok m none e)
  | .awaitDone e => adopt e (fun m => .hold m (.witness w))
  | .past e | .own e | .drain _ _ e => adopt e go
  | _ => go m

def Mach.copyWait (m : Mach) (k : CopyDst) (t : T) (mask : Nat) (w : S) : Option (Mach × Why) :=
  let ts := (m.copyTargets k t.toNat mask).map m.targetTile
  if k = .out ∧ !ts.all readyOnly then some (m, .tile t.toNat true)
  else if !ts.all notBusy then some (m, if k = .multi then .ringTiles t.toNat mask else .tile t.toNat false)
  else if 64 ≤ m.copiesOf m.cur.1 then some (m, .copiesFull)
  else match m.copySeq (m.me.rdS m.tick w.toNat) with
    | .hold m why => some (m, why)
    | .ok _ _ _ => none

/-- A fill begins (R209, R220). -/
def Tile.fill (x : Tile) (rem : Nat) : Tile := { x with st := .filling, rem := rem, chk := 0, fcode := 0 }

/-- The copy enters the machine (R220): its destination is claimed and its witness becomes an outstanding result. -/
def Mach.startCopy (m : Mach) (k : CopyDst) (cc : BitVec 2) (d a b w : S) (t : T) (q : Q) (mask : Nat) : Mach :=
  let wit := m.me.rdS m.tick w.toNat
  let xy := m.me.rdS m.tick b.toNat
  match m.recordAt (m.me.rdS m.tick a.toNat), m.copySeq wit with
  | some r, .ok m1 seq e =>
    let l := layoutOf r
    let (m2, id) := m1.fresh
    let x : Copy :=
      { core := m.cur.1, slot := m.cur.2, outId := id, part := m.myPart, ctx := m.myCtx, kind := k, lay := l, x0 := (fld xy 0 32).toNat,
        y0 := (fld xy 32 32).toNat, w := wit, seq := seq, epoch := e, targets := m.copyTargets k t.toNat mask, q := q.toNat, cc := cc,
        stage := .queued, engine := none, pos := 0, buf := 0, team := m.me.team, code := 0, zero := false, begun := 0, drop := false, ring := false,
        fence := m.me.ownFence }
    let m3 := x.targets.foldl (fun (m : Mach) y => m.modTarget y (fun z => if k = .out then { z with st := .draining } else z.fill l.total)) m2
    { m3 with copies := tset none m3.copies id (some x) }.modMe (fun g => g.addOuts id [wS d.toNat 0] false none)
  | _, _ => m

def copyWord (h : Hdr) (k : CopyDst) (cc : BitVec 2) (d a b w : S) (t : T) (q : Q) (mask : Nat) : Word :=
  tileWord h (fun m => m.copyTraps k t.toNat mask q a b w) (fun m => m.copyWait k t mask w) (fun m => m.startCopy k cc d a b w t q mask)

def execCopy (h : Hdr) (cc : BitVec 2) (d a b w : S) (t : T) := issueWord (.copy h cc d a b w t) h (copyWord h .tile cc d a b w t 0 0)
def execCopyOut (h : Hdr) (cc : BitVec 2) (d a b w : S) (t : T) := issueWord (.copyOut h cc d a b w t) h (copyWord h .out cc d a b w t 0 0)
def execCopyQ (h : Hdr) (cc : BitVec 2) (d a b w : S) (q : Q) := issueWord (.copyQ h cc d a b w q) h (copyWord h .stream cc d a b w 0 q 0)
def execCopyMc (h : Hdr) (cc : BitVec 2) (d a b w : S) (t : T) (mask : BitVec 8) :=
  issueWord (.copyMc h cc d a b w t mask) h (copyWord h .multi cc d a b w t 0 mask.toNat)

/-! ### Streams (R223 to R226) -/

/-- Copies of a team in flight to its stream q of a core; another context's, whose stream is spilled, are not among them (R247). -/
def Mach.streamCopies (m : Mach) (team c q : Nat) : List Nat :=
  (m.copies.filter (fun kx => match kx.2 with
    | some x => x.team == team && x.core == c && x.kind == .stream && x.q == q
    | none => false)).map (·.1)

/-- Room in a stream of 16 KiB (R223). -/
def Stream.room (s : Stream) : Nat := 16384 - s.bytes.length

def Mach.notOwned (m : Mach) (q : Q) : Option Trap := if m.ownsStream m.cur.1 q.toNat then none else m.raise 0x24 0

/-- R225: the range that a feed takes. -/
def feedOk (x : Option Tile) (off len : W64) : Bool :=
  decide (off.toNat % 16 = 0) && decide (len.toNat % 16 = 0) && len != 0 && (match x with
    | some t => decide (off.toNat + len.toNat ≤ t.size.toNat)
    | none => true)

/-- A `feed` waits while its stream is full (R223, R248); it issues once a byte can enter, and its bytes go on as space frees (DESIGN CHOICE,
log 125). -/
def Mach.feedWait (m : Mach) (q : Q) (t : T) : Option (Mach × Why) :=
  match m.tileWait t true with
  | some x => some x
  | none => if ((m.core m.cur.1).stream q.toNat).room = 0 then some (m, .streamSpace q.toNat) else none

/-- DETAIL of a range that R225 refuses is the byte offset, for a feed has no pointer (DESIGN CHOICE, log 116). -/
def execFeed (h : Hdr) (q : Q) (t : T) (b c : S) :=
  issueWord (.feed h q t b c) h (tileWord h
    (fun m => [m.notMine (m.myTile t), m.notOwned q,
      if feedOk (m.myTile t) (m.me.rdS m.tick b.toNat) (m.me.rdS m.tick c.toNat) then none else m.raise 0x10 (m.me.rdS m.tick b.toNat),
      m.poisonedTile (m.myTile t)])
    (fun m => m.feedWait q t)
    (fun m =>
      let (m1, id) := m.fresh
      let f : Feed := { id := id, team := m.me.team, tile := t.toNat, off := (m.me.rdS m.tick b.toNat).toNat, len := (m.me.rdS m.tick c.toNat).toNat,
                        pos := 0, drop := false }
      (m1.modMyTile t (fun x => { x with st := .draining })).modCore m.cur.1 (fun k => let s := k.stream q.toNat
        k.setStream q.toNat { s with feeds := s.feeds ++ [f] })))

/-- R224: a stream of another team, or one of the team that is in use. -/
def Mach.sdefTrap (m : Mach) (q : Q) : Option Trap :=
  let s := (m.core m.cur.1).stream q.toNat
  match s.owner with
  | none => if m.spilledHolds (fun x => x.streams.any (fun y => y.1 == q.toNat)) then m.raise 0x24 0 else none
  | some o =>
    if o ≠ m.me.team || !s.bytes.isEmpty || !s.feeds.isEmpty || !(m.streamCopies m.me.team m.cur.1 q.toNat).isEmpty then m.raise 0x24 0
    else none

def execSdef (h : Hdr) (q : Q) (scl : Bool) :=
  issueWord (.sdef h q scl) h (tileWord h (fun m => [m.sdefTrap q]) (fun _ => none)
    (fun m => m.modCore m.cur.1 (fun k => k.setStream q.toNat { (k.stream q.toNat) with owner := some m.me.team, scl := scl })))

/-- R226: bytes of the stream and those still to arrive from feeds and copies of its team are discarded; `rel` also releases it. -/
def Mach.flushStream (m : Mach) (q : Q) (rel : Bool) : Mach :=
  let c := m.cur.1
  let ours := m.streamCopies m.me.team c q.toNat
  let dropped (k : Nat) (x : Option Copy) : Option Copy := if ours.contains k then x.map (fun y => { y with drop := true }) else x
  let m := { m with copies := tmap none dropped m.copies }
  let empty (s : Stream) : Stream :=
    { owner := if rel then none else s.owner, scl := s.scl && !rel, bytes := [], feeds := s.feeds.map (fun f => { f with drop := true }) }
  m.modCore c (fun k => k.setStream q.toNat (empty (k.stream q.toNat)))

def execSflush (h : Hdr) (q : Q) :=
  issueWord (.sflush h q) h (tileWord h (fun m => [m.notOwned q]) (fun _ => none) (fun m => m.flushStream q false))
def execSflushRel (h : Hdr) (q : Q) :=
  issueWord (.sflushRel h q) h (tileWord h (fun m => [m.notOwned q]) (fun _ => none) (fun m => m.flushStream q true))

/-! ### Ring rotation (R227) -/

def Mach.ringTiles (m : Mach) (t : Nat) : List (Option Tile) :=
  (List.range 8).map (fun g => let c := 8 * gangOf m.cur.1 + g
    m.targetTile (c, t, m.ringTeam c))

def execRrot (h : Hdr) (d : S) (t : T) :=
  issueWord (.rrot h d t) h (tileWord h
    (fun m => [if (m.ringTiles t.toNat).any Option.isNone then m.raise 0x22 0 else none, m.poisonedTile (m.myTile t)])
    (fun m => m.tileWait t true)
    (fun m =>
      let (m1, id) := m.fresh
      (m1.modMyTile t (fun x => { x with st := .draining, ring := some (m.cur.2, id) })).modMe (fun g => g.addOuts id [wS d.toNat 0] false none)))

end Sys2Proof.Machine
end

