-- ==== Sys2Proof/Machine/Copies.lean ====
section
/-! DEFINITION. What the engines of the commons do with a copy (R218, R220 to R222, R282, R334), the ends of feeds
and of ring rotations (R225, R227), and `pft` (R199). -/

namespace Sys2Proof.Machine

/-! ### The engine's global side -/

/-- What an access of an engine comes to: done, with the value read and whether it was poisoned; a page fault; a fault of
R222; or a wait, for a pin (R188), a close (R278), a full dirty ring (R353) or reserve space (R367). -/
inductive EngRes where
  | ok (m : Mach) (x : Nat) (poison : Bool)
  | page (va : Nat)
  | bad (code : Nat)
  | hold (m : Mach)
  /-- a full dirty ring holds the write -/
  | ring (m : Mach)

/-- No core has this number: an engine is refused by every pin. -/
def noCore : Nat := 1152

/-- For whom an engine acts: its context, the class of its lines (R211), its epoch, and the copy with its issuing group. -/
structure Eng where
  part : Nat
  ctx : Nat
  cc : BitVec 2
  epoch : BitVec 24
  core : Nat
  slot : Nat
  job : Nat

def Copy.eng (x : Copy) : Eng := { part := x.part, ctx := x.ctx, cc := x.cc, epoch := x.epoch, core := x.core, slot := x.slot, job := x.outId }

/-- The engine reaches a line at its home: a walk for each line that it turns to (R350), and the caches of the home in the copy's class
and the page's chain (R343, R345). -/
def Mach.engReach (m : Mach) (g : Eng) (va pa : Nat) (e : TlbEntry) : Mach :=
  if (m.l2.head?.map (·.line)) == some (lineOf pa) then m
  else (m.walked g.part g.ctx va).reachHome (m.reachOf g.part g.ctx pa e g.cc) (lineOf pa) []

def Mach.engRequest (m : Mach) (job : Nat) : Option (Nat × Remote) :=
  m.remotes.findSome? (fun kx => match kx.2 with
    | some r => if r.outId = job && r.entry.isNone && r.w.isNone then some (kx.1, r) else none
    | none => none)

/-- The engine's request for a line of another part (R355): sent first, and performed when its result returns over a link that is up.
The host's memory is reached at once, through a port that does not pause. -/
def Mach.engFar (m : Mach) (g : Eng) (home ln : Nat) : Except Mach Mach :=
  let send (m : Mach) (id : Nat) : Except Mach Mach :=
    let r : Remote := { core := g.core, slot := g.slot, outId := g.job, home := home, ports := m.exitPorts [(home, ln)], lines := [(home, ln)],
                        spans := [], w := none, entry := none, seq := none, sent := m.tick }
    .error { m with remotes := tset none m.remotes id (some r) }
  if home = 64 then (if m.linkPaused 16 then .error m else .ok m)
  else match m.engRequest g.job with
    | some (id, r) => if r.lines = [(home, ln)] then (if m.linkShut r.ports || !m.remoteFirst r then .error m else .ok m) else send m id
    | none => send m.fresh.1 m.fresh.2

/-- The engine's last request has been answered. -/
def Mach.engEnd (m : Mach) (job : Nat) : Mach :=
  match m.engRequest job with
  | some (id, _) => { m with remotes := tset none m.remotes id none }
  | none => m

/-- One byte read at its home (R282). -/
def Mach.engByte (m : Mach) (g : Eng) (va : Nat) : EngRes :=
  if 2 ^ 57 ≤ va then .bad 5
  else match m.walk g.part g.ctx va with
    | none => .page va
    | some e =>
      let pa := leafBase e.leaf + va % e.size
      if homeOf e.leaf ≠ m.partno.toNat then
        (match m.engFar g (homeOf e.leaf) (lineOf pa) with
        | .error m => .hold m
        | .ok m => .ok (m.walked g.part g.ctx va) (natOf (m.farBytes (homeOf e.leaf) pa 1)) false)
      else if badPa pa then .page va
      else match m.keptFrom noCore (lineOf pa) with
        | some k => .hold (m.refuse k (lineOf pa))
        | none =>
          let m := (m.engReach g va pa e).readSector (sectorOf pa)
          .ok m (m.homeByte pa).toNat (m.poison.contains (sectorOf pa))

/-- n bytes read from `va` up, little-endian; with `clear` a poisoned byte counts as zero (R222). -/
def Mach.engBytes (m : Mach) (g : Eng) (clear : Bool) (va : Nat) : Nat → EngRes
  | 0 => .ok m 0 false
  | n + 1 => match m.engByte g va with
    | .ok m x bad => match m.engBytes g clear (va + 1) n with
      | .ok m y bad' => .ok m ((if clear && bad then 0 else x) + 256 * y) (bad || bad')
      | r => r
    | r => r

/-- What the bytes from `va` up give before the first that cannot be read. -/
def Mach.engBefore (m : Mach) (g : Eng) (va : Nat) : Nat → Nat
  | 0 => 0
  | n + 1 => match m.engByte g va with
    | .ok m x bad => (if bad then 0 else x) + 256 * m.engBefore g (va + 1) n
    | _ => 0

/-- One byte written at its home, in the copy's epoch (R220, R222), the last of a run that began at `from_`: with a sector's last byte the
run has written it wholly, and clears its poison (R186, R388). -/
def Mach.engWrite (m : Mach) (g : Eng) (from_ va : Nat) (b : Byte) : EngRes :=
  if 2 ^ 57 ≤ va then .bad 5
  else match m.walk g.part g.ctx va with
    | none => .page va
    | some t =>
      let pa := leafBase t.leaf + va % t.size
      let far := homeOf t.leaf != m.partno.toNat
      if !leafW t.leaf then .bad 3
      else if !far && badPa pa then .page va
      else match (if far then none else m.keptFrom noCore (lineOf pa)) with
        | some k => .hold (m.refuse k (lineOf pa))
        | none =>
          if !far && m.holds g.part (stackOf pa) g.epoch then .hold m
          else match (if far then m.engFar g (homeOf t.leaf) (lineOf pa) else .ok m) with
            | .error m => .hold m
            | .ok m => match m.setDirty g.part t with
              | .full => .ring (m.holdAppend g.part t)
              | .wait pg => .hold (m.countStall pg (whoJob g.job))
              | .ok m =>
                if far then .ok ((m.walked g.part g.ctx va).farWrite (homeOf t.leaf) pa [b]) 0 false
                else
                  let m := m.engReach g va pa t
                  match m.homeWrite none (if va % 32 = 31 ∧ from_ + 31 ≤ va then [sectorOf pa] else []) [(pa, b)] with
                  | none => .hold (m.countStall (pageOf pa) (whoJob g.job))
                  | some m' => .ok (m.setGC m' t.at_ (pageOf pa)) 0 false

def Mach.engWrites (m : Mach) (g : Eng) (from_ va : Nat) : List Byte → EngRes
  | [] => .ok m 0 false
  | b :: bs => match m.engWrite g from_ va b with
    | .ok m _ _ => m.engWrites g from_ (va + 1) bs
    | r => r

/-! ### The image of a box (R218) -/

/-- A unit of an image: the elements of a slice, or the scales of a block of 32 slices. -/
inductive ImgUnit where
  | slice (s : Nat)
  | block (c : Nat)
  deriving DecidableEq, Repr

/-- The units in the order in which they are moved: a tile takes its scales after its slices, a stream before each block. -/
def Copy.units (x : Copy) : List ImgUnit :=
  let l := x.lay
  if x.kind = .stream then
    (List.range l.ns).flatMap (fun s => if l.scl && s % 32 == 0 then [.block (s / 32), .slice s] else [.slice s])
  else (List.range l.ns).map .slice ++ (List.range l.blocks).map .block

/-- Tensor coordinates of position `i` of a slice. -/
def Copy.coords (x : Copy) (s i : Nat) : Nat × Nat := if x.lay.ord1 then (x.x0 + s, x.y0 + i) else (x.x0 + i, x.y0 + s)

def Layout.inside (l : Layout) (xy : Nat × Nat) : Bool := decide (xy.1 < l.dim0) && decide (xy.2 < l.dim1)

/-- Bit address of an element, and byte address of a scale. -/
def Layout.elemBit (l : Layout) (xy : Nat × Nat) : Nat := 8 * (l.gbase.toNat + xy.2 * l.stride1) + xy.1 * l.b
def Layout.scaleAddr (l : Layout) (xy : Nat × Nat) : Nat :=
  if l.ord1 then l.sbase.toNat + xy.2 * l.sstride + xy.1 / 32 else l.sbase.toNat + xy.2 / 32 * l.sstride + xy.1

def itemBits (l : Layout) : ImgUnit → Nat
  | .slice _ => l.b
  | .block _ => 8

/-- Where position `i` of a unit lies: its first byte, its bytes, and its lowest bit in them; none outside the tensor. -/
def Copy.itemAt (x : Copy) (u : ImgUnit) (i : Nat) : Option (Nat × Nat × Nat) :=
  match u with
  | .slice s =>
    let a := x.lay.elemBit (x.coords s i)
    if x.lay.inside (x.coords s i) then some (a / 8, (a % 8 + x.lay.b + 7) / 8, a % 8) else none
  | .block c => if x.lay.inside (x.coords (32 * c) i) then some (x.lay.scaleAddr (x.coords (32 * c) i), 1, 0) else none

/-- Reads position `i` of a unit: an element, or a scale byte; outside the tensor, zero or 0x7F. -/
def Mach.engItem (m : Mach) (x : Copy) (u : ImgUnit) (i : Nat) : EngRes :=
  match x.itemAt u i with
  | none => .ok m (match u with
    | .slice _ => 0
    | .block _ => 0x7F) false
  | some (va, n, sh) => match m.engBytes x.eng true va n with
    | .ok m v bad => .ok m (v / 2 ^ sh % 2 ^ itemBits x.lay u) bad
    | r => r

/-- What the bytes before a fault give of the position that met it. -/
def Mach.itemBegun (m : Mach) (x : Copy) (u : ImgUnit) (i : Nat) : Nat :=
  match x.itemAt u i with
  | none => 0
  | some (va, n, sh) => m.engBefore x.eng va n / 2 ^ sh % 2 ^ itemBits x.lay u

/-- Offset of position `i` of a unit in a tile image. -/
def Layout.tileOff (l : Layout) (u : ImgUnit) (i : Nat) : Nat :=
  match u with
  | .slice s => s * l.tpitch + i * l.b / 8
  | .block c => l.ns * l.tpitch + c * l.len + i

/-! ### Moving -/

/-- Progress of a fill (R208): REM, and CHK over the leading chunks that nothing is left to write into. -/
def Tile.progress (t : Tile) (rem next : Nat) : Tile :=
  { t with rem := rem, chk := BitVec.ofNat 16 (if rem = 0 then t.size.toNat / t.chunk.toNat else next / t.chunk.toNat) }

def Copy.unit (x : Copy) : Option (ImgUnit × Nat) := (x.units[x.pos / x.lay.len]?).map (fun u => (u, x.pos % x.lay.len))

/-- Bytes of the image not yet moved. -/
def Copy.left (x : Copy) : Nat :=
  ((x.units.drop (x.pos / x.lay.len)).map (fun u => x.lay.len * itemBits x.lay u / 8)).sum -
    (match x.unit with
     | some (u, i) => i * itemBits x.lay u / 8
     | none => 0)

def Mach.setCopy (m : Mach) (id : Nat) (x : Option Copy) : Mach := { m with copies := tset none m.copies id x }
def Mach.copyAt (m : Mach) (id : Nat) : Option Copy := tget none m.copies id

/-- No earlier word of the team still writes into the stream (R246). -/
def Mach.firstWriter (m : Mach) (team c q id : Nat) : Bool :=
  ((m.core c).stream q).feeds.all (fun f => decide (id ≤ f.id)) && (m.streamCopies team c q).all (fun k => decide (id ≤ k))

def Mach.pushStream (m : Mach) (c q : Nat) (bs : List Byte) : Mach :=
  m.modCore c (fun k => k.setStream q { (k.stream q) with bytes := (k.stream q).bytes ++ bs })

/-- Bytes written into every target tile that is still filling. -/
def Mach.fillTiles (m : Mach) (x : Copy) (off : Nat) (bs : List Byte) : Mach :=
  x.targets.foldl (fun m t => match m.targetTile t with
    | some y => if y.st = .filling then m.spWrite t.1 (tileKey y + off) bs else m
    | none => m) m

/-- The tiles show how far the fill has come. -/
def Mach.showProgress (m : Mach) (x : Copy) : Mach :=
  let next := match x.unit with
    | some (u, i) => x.lay.tileOff u i
    | none => 0
  if x.kind = .tile ∨ x.kind = .multi then
    x.targets.foldl (fun m t => m.modTarget t (fun y => if y.st = .filling then y.progress x.left next else y)) m
  else m

/-- What moving one element or scale comes to. -/
inductive ItemRes where
  | moved (m : Mach) (x : Copy)
  | stop (m : Mach) (x : Copy)

/-- An element of a `copy.out`, read from the tile image and written to its place. -/
def Mach.outItem (m : Mach) (x : Copy) (y : Tile) (u : ImgUnit) (i : Nat) : EngRes :=
  match u with
  | .block _ => .ok m 0 false
  | .slice s =>
    let xy := x.coords s i
    let b := x.lay.b
    let bit := 8 * (s * x.lay.tpitch) + i * b
    let v := natOf (m.spRead x.core (tileKey y + bit / 8) ((bit % 8 + b + 7) / 8)) / 2 ^ (bit % 8) % 2 ^ b
    let a := x.lay.elemBit xy
    let k := (a % 8 + b + 7) / 8
    if !x.lay.inside xy then .ok m 0 false
    else match (if a % 8 = 0 ∧ b % 8 = 0 then EngRes.ok m 0 false else m.engBytes x.eng false (a / 8) k) with
      | .ok m old _ =>
        m.engWrites x.eng (if x.lay.ord1 then a / 8 else x.lay.elemBit (x.coords s 0) / 8) (a / 8)
            (bytesOf k (old % 2 ^ (a % 8) + v * 2 ^ (a % 8) + old / 2 ^ (a % 8 + b) * 2 ^ (a % 8 + b)))
      | r => r

/-- The image bytes that an element completes, and the copy past it. -/
def Copy.emit (x : Copy) (u : ImgUnit) (i v : Nat) : List Byte × Copy :=
  let r := i * itemBits x.lay u % 8
  let buf := x.buf + v * 2 ^ r
  let n := (r + itemBits x.lay u) / 8
  (bytesOf n buf, { x with pos := x.pos + 1, buf := buf / 2 ^ (8 * n) })

/-- One element or scale of a copy (R220). A fault leaves the copy at that element (R222). -/
def Mach.copyItem (m : Mach) (x : Copy) : ItemRes :=
  match x.unit with
  | none => .stop m { x with stage := .moved }
  | some (u, i) =>
    let fault (m : Mach) (x : Copy) : EngRes → ItemRes
      | .page va => .stop (m.walked x.part x.ctx va) { x with stage := .pageFault }
      | .bad c => .stop m { x with stage := .faulted c }
      | .hold m => .stop m x
      | .ring m => .stop m { x with ring := true }
      | .ok m _ _ => .stop m x
    let intoStream (m : Mach) (x : Copy) (v : Nat) : ItemRes := .moved (m.pushStream x.core x.q (x.emit u i v).1) (x.emit u i v).2
    match x.kind with
    | .prefetch _ => .stop m x
    | .out =>
      match m.targetTile (x.targets.headD (0, 0, 0)) with
      | none => .stop m { x with stage := .moved }
      | some y => match m.outItem x y u i with
        | .ok m _ _ => .moved m { x with pos := x.pos + 1, ring := false }
        | r => fault m x r
    | .stream =>
      if x.drop then .stop m { x with stage := .moved }
      else if !m.firstWriter x.team x.core x.q x.outId || decide (((m.core x.core).stream x.q).room < (x.emit u i 0).1.length) then .stop m x
      else if x.zero then intoStream m { x with begun := 0 } x.begun
      else match m.engItem x u i with
        | .ok m v bad => intoStream m (if bad then { x with code := 1 } else x) v
        | r => fault m { x with begun := m.itemBegun x u i } r
    | _ =>
      match m.engItem x u i with
      | .ok m v bad =>
        if bad then .stop m { x with stage := .faulted 1 }
        else .moved (m.fillTiles x (x.lay.tileOff u i) (x.emit u i v).1) (x.emit u i v).2
      | r => fault m x r

/-- Up to `n` elements. -/
def Mach.copyMoves (m : Mach) (x : Copy) : Nat → Mach × Copy
  | 0 => (m, x)
  | n + 1 => match m.copyItem x with
    | .moved m x => m.copyMoves x n
    | .stop m x => (m, x)

/-! ### The work of a `pft` (R199) -/

/-- Rows of a tensor, and after them the rows of its scales. -/
def Layout.rows (l : Layout) : Nat := l.dim1 + (if l.scl then (if l.ord1 then l.dim1 else (l.dim1 + 31) / 32) else 0)
def Layout.row (l : Layout) (n : Nat) : Nat × Nat :=
  if n < l.dim1 then (l.gbase.toNat + n * l.stride1, (l.dim0 * l.b + 7) / 8)
  else (l.sbase.toNat + (n - l.dim1) * l.sstride, if l.ord1 then (l.dim0 + 31) / 32 else l.dim0)

/-- A line comes into the level named; a page that is not present, or not of this part, is left out. -/
def Mach.prefetchLine (m : Mach) (x : Copy) (ms : Bool) (va : Nat) : Mach :=
  match m.walk x.part x.ctx va with
  | none => m.walked x.part x.ctx va
  | some e =>
    let pa := leafBase e.leaf + va % e.size
    let r := m.reachOf x.part x.ctx pa e 0
    if homeOf e.leaf ≠ m.partno.toNat || badPa pa then m.walked x.part x.ctx va
    else if ms then ((m.walked x.part x.ctx va).readLine (lineOf pa) []).msFill (m.tagFor r.part r.ctx (lineOf pa) r.chain r.cls r.pinMs)
    else m.engReach x.eng va pa e

def Mach.prefetchRow (m : Mach) (x : Copy) (ms : Bool) : Mach :=
  let r := x.lay.row x.pos
  if r.2 = 0 then m
  else (List.range ((r.1 + r.2 - 1) / 128 - r.1 / 128 + 1)).foldl (fun m i => m.prefetchLine x ms (max r.1 (128 * (r.1 / 128 + i)))) m

/-- Up to `n` rows; with the last one the work is gone, unseen. -/
def Mach.prefetchRows (m : Mach) (x : Copy) (ms : Bool) : Nat → Mach × Copy
  | 0 => (m, x)
  | n + 1 => if x.pos < x.lay.rows then (m.prefetchRow x ms).prefetchRows { x with pos := x.pos + 1 } ms n else (m, x)

/-- `pft` hands the tensor of its record to an engine; a bad record, or a pointer outside the own scratchpad, makes it do nothing. -/
def execPft (h : Hdr) (ms : Bool) (a : S) :=
  issueWord (.pft h ms a) h (wideWord h (fun m =>
    match m.recordAt (m.me.rdS m.tick a.toNat) with
    | none => m
    | some r =>
      if layoutCode r ≠ 0 then m
      else
        let x : Copy :=
          { core := m.cur.1, slot := m.cur.2, outId := m.fresh.2, part := m.myPart, ctx := m.myCtx, kind := .prefetch ms, lay := layoutOf r,
            x0 := 0, y0 := 0, w := 0, seq := none, epoch := 0, targets := [], q := 0, cc := 0, stage := .queued, engine := none, pos := 0, buf := 0,
            team := m.me.team, code := 0, zero := false, begun := 0, drop := false, ring := false, fence := 0 }
        { m.fresh.1 with copies := tset none m.fresh.1.copies m.fresh.2 (some x) }))

/-! ### COPY_ENGINE_START, and the engine at work (R220, R334) -/

/-- The stream that a copy fills is spilled from its core. -/
def Mach.streamAway (m : Mach) (x : Copy) : Bool :=
  x.kind == .stream && (m.shadowOn x.team x.core).any (fun y => y.streams.any (fun s => s.1 == x.q))

/-- The rows that a copy uses are on their cores: those of a team that was spilled have been reloaded, its streams too (R247). -/
def Mach.rowsHere (m : Mach) (x : Copy) : Bool :=
  x.kind.isPrefetch ||
  ((m.core x.core).teams.any (fun t => t.2 == x.team) && !m.streamAway x &&
    x.targets.all (fun t => (m.targetTile t).isSome || (m.team t.2.2).ended))

/-- The first of these copies, given by core and number, in the round-robin order of an engine share. -/
def Part.firstCopy (p : Part) (l : List (Nat × Nat)) : Option Nat :=
  let dist (c : Nat) : Nat := (c + 1152 - p.copyCore - 1) % 1152
  (l.foldl (fun (o : Option (Nat × Nat)) q => match o with
    | none => some q
    | some r => if dist q.1 < dist r.1 || (q.1 == r.1 && decide (q.2 < r.2)) then some q else some r) none).map (·.2)

/-- Copies, or `pft` work, that wait for an engine of the partition, with their cores. Those of a context that halts wait for it to resume
(R337). -/
def Mach.waitingCopies (m : Mach) (p : Nat) (pf : Bool) : List (Nat × Nat) :=
  m.copies.filterMap (fun kx => match kx.2 with
    | some x => if x.part = p && x.stage == .queued && x.engine.isNone && (m.part p).running == some x.ctx && !(m.part p).halting &&
        x.kind.isPrefetch == pf then some (x.core, kx.1) else none
    | none => none)

/-- The first that waits on each core; one whose rows are not there yet keeps its place before the core's later ones. -/
def Mach.firstWaiting (m : Mach) (l : List (Nat × Nat)) : List (Nat × Nat) :=
  l.filter (fun q => l.all (fun r => r.1 != q.1 || decide (q.2 ≤ r.2)) && (m.copyAt q.2).any m.rowsHere)

/-- The next copy that an engine of the partition takes: round-robin across cores, in issue order within one, and `pft` work only when
no copy waits (R334). -/
def Mach.nextCopy (m : Mach) (p : Nat) : Option Nat :=
  match m.waitingCopies p false with
  | [] => (m.part p).firstCopy (m.firstWaiting (m.waitingCopies p true))
  | l => (m.part p).firstCopy (m.firstWaiting l)

/-- Engines of a partition at work. -/
def Mach.busyEngines (m : Mach) (p : Nat) : Nat :=
  (m.copies.filter (fun kx => match kx.2 with
    | some x => x.part == p && x.engine.isSome
    | none => false)).length

def Mach.engineFree (m : Mach) (e : Nat) : Bool :=
  decide (e < 48) && m.copies.all (fun kx => match kx.2 with
    | some x => x.engine != some e
    | none => true)

/-- Whether engine `e` may act on this copy now; a write held by a full ring waits for its context to run (R360). -/
def Mach.engineReady (m : Mach) (id e : Nat) : Bool :=
  match m.copyAt id with
  | none => false
  | some x =>
    match x.stage with
    | .queued => !m.enginePaused e && (x.engine == some e ||
        (x.engine.isNone && m.engineFree e && m.nextCopy x.part == some id && decide (m.busyEngines x.part < (m.part x.part).eng)))
    | .moving => !m.enginePaused e && x.engine == some e && (!x.ring || ((m.part x.part).running == some x.ctx && !(m.part x.part).halting))
    | _ => false

/-- A `copy.out` numbered in an epoch that has begun to close since, and whose witness is of that epoch: the close waits for its writes
(R277, R280), so it presents by the drain alone; every other copy waits for DONE (R287; log 84). -/
def Mach.presentsLate (m : Mach) (x : Copy) : Option Bool :=
  match x.seq, m.classify x.core x.part x.w with
  | some _, .awaitDone e => if x.kind != .out then none else some (!m.closeOwed x.part (wCore x.w) && !m.workUnderWay (wCore x.w) (wSeq x.w) e)
  | _, _ => none

/-- A presentation that the copy makes, and what it does once satisfied; one that is refused ends as R359 says. -/
def Mach.copyShows (m : Mach) (x : Copy) (w : W64) (f : Mach → Mach × Option Copy) : Mach × Option Copy :=
  match m.presentAway x.core x.slot x.part w with
  | .hold m _ => (m, none)
  | .refused => (refusedRemote m x.core x.slot (m.exitPort (wPartno w).toNat w.toNat), none)
  | .ok m => f m

/-- What the group's fence witness covered as the copy issued has been performed (R192): the `wfence` returned once it was satisfied, so that only
stores of the core's own may still lie in its L1, and go home by their drain. Of an epoch that closes, they went with the core's close; the
copy does not wait for DONE, for the close may wait for the copy (R277, R280). -/
def Mach.copyFence (m : Mach) (x : Copy) (f : Mach → Mach × Option Copy) : Mach × Option Copy :=
  match m.classify x.core x.part x.fence with
  | .own _ => m.copyShows x x.fence f
  | .awaitDone e => if m.closeOwed x.part x.core || m.workUnderWay x.core (wSeq x.fence) e then (m, none) else f m
  | _ => f m

/-- The fence witness, the copy's own presentation, and its late number (R280). -/
def Mach.copyPresent (m : Mach) (id : Nat) (x : Copy) : Mach × Option Copy :=
  m.copyFence x (fun m => match m.presentsLate x with
  | some ready => (m, if ready then some { x with stage := .moving } else none)
  | none => m.copyShows x x.w (fun m =>
      match x.seq with
      | some _ => (m, some { x with stage := .moving })
      | none => match m.nextSeq x.core x.part with
        | .hold m _ => (m, none)
        | .ok m q e =>
          let y := { x with seq := some q, epoch := e, stage := .moving }
          (m.setCopy id (some y), some y)))

/-- A copy whose last element has moved: the tile of a `copy.out` has been read. -/
def Mach.copyMoved (m : Mach) (id : Nat) (x : Copy) : Mach :=
  let x' := if x.unit.isNone && x.stage == .moving then { x with stage := .moved } else x
  let m := (m.showProgress x').setCopy id (some x')
  if x'.kind = .out && x'.stage == .moved then
    x'.targets.foldl (fun m t => m.modTarget t (fun z => if z.st = .draining then { z with st := .ready } else z)) m
  else m

/-- An engine takes a copy, presents its witness and, once that is satisfied, moves up to `slices` slices. -/
def Mach.engineWork (m : Mach) (id e slices : Nat) : Mach :=
  match m.copyAt id with
  | none => m
  | some x =>
    let y := { x with engine := some e }
    let m := (m.setCopy id (some y)).modPart x.part (fun p => if x.engine.isNone then { p with copyCore := x.core } else p)
    match y.kind with
    | .prefetch ms =>
      let r := m.prefetchRows { y with stage := .moving } ms slices
      r.1.setCopy id (if r.2.pos < r.2.lay.rows then some r.2 else none)
    | _ =>
      let r := if y.stage = .queued then m.copyPresent id y else (m, some y)
      match r.2 with
      | none => r.1
      | some y =>
        let r := r.1.copyMoves y (slices * y.lay.len)
        r.1.copyMoved id r.2

def execCopyEngineStart (id engine slices : Nat) := stepIf (fun m => m.engineReady id engine) (fun m => m.engineWork id engine slices)

/-! ### The end of a copy (R220, R222) -/

/-- The witness of a copy or of an `rrot` goes into the s register that it holds outstanding. -/
def Mach.giveResult (m : Mach) (team c slot id : Nat) (w : W64) : Mach :=
  m.modWhere team c slot (fun g => { g with outs := g.outs.map (fun o =>
    if o.id = id then { o with ready := true, writes := o.writes.map (fun x => { x with val := w }) } else o) })

/-- Every write of the copy is performed: none is held at a home. -/
def Mach.endCopy (m : Mach) (id : Nat) (x : Copy) (w : W64) : Mach :=
  ((m.setCopy id none).engEnd x.outId).giveResult x.team x.core x.slot x.outId w

/-- The error record of a fault (R222, R396): channel 6. -/
def Mach.copyRecord (m : Mach) (x : Copy) (code : Nat) : Mach :=
  m.logEvent x.part 6 (sliceOf x.core) (x.engine.getD 0) code (m.inst (m.team x.team).inst).fdom 0 (failW code)

/-- The tiles of a fill become READY, with the copy's witness (R208, R220). -/
def Mach.readyTiles (m : Mach) (x : Copy) (w : W64) : Mach :=
  x.targets.foldl (fun m t => m.modTarget t (fun y =>
    if y.st = .filling then { (y.progress 0 0) with st := .ready, cw := w } else y)) m

def Copy.witness (m : Mach) (x : Copy) : W64 := pointW 2 m.partno x.core (x.seq.getD 0) x.epoch

def Mach.completeCopy (m : Mach) (id : Nat) : Mach :=
  match m.copyAt id with
  | none => m
  | some x =>
    let w := x.witness m
    if x.code ≠ 0 then (m.copyRecord x x.code).endCopy id x (failW x.code)
    else (if x.kind = .tile ∨ x.kind = .multi then m.readyTiles x w else m).endCopy id x w

def execCopyComplete (id : Nat) :=
  stepIf (fun m => match m.copyAt id with
    | some x => x.stage == .moved
    | none => false) (fun m => m.completeCopy id)

/-- A fault ends the fill (R222): a tile is poisoned, a `copy.out` writes nothing more, a stream receives zeros from here on. A stream copy that met
a poisoned sector before keeps that code, and leaves one record (DESIGN CHOICE, log 122). -/
def Mach.faultCopy (m : Mach) (id code : Nat) : Mach :=
  match m.copyAt id with
  | none => m
  | some x =>
    match x.kind with
    | .stream => m.setCopy id (some { x with stage := .moving, zero := true, code := if x.code = 0 then code else x.code })
    | .out =>
      let m := x.targets.foldl (fun m t => m.modTarget t (fun z => if z.st = .draining then { z with st := .ready } else z)) m
      (m.copyRecord x code).endCopy id x (failW code)
    | _ =>
      let m := x.targets.foldl (fun m t => m.modTarget t (fun z =>
        if z.st = .filling then { z with st := .poisoned, fcode := BitVec.ofNat 16 code } else z)) m
      (m.copyRecord x code).endCopy id x (failW code)

def faultCode : CopyStage → Option Nat
  | .faulted c => some c
  | .pageFault => some 2
  | _ => none

/-- A page fault, or a missing permission, is declined by the image here; the other faults of R222 end the fill by themselves. -/
def execCopyFault (id : Nat) :=
  stepIf (fun m => match m.copyAt id with
    | some x => (faultCode x.stage).isSome
    | none => false)
    (fun m => match m.copyAt id with
      | some x => m.faultCopy id ((faultCode x.stage).getD 0)
      | none => m)

/-- The image has resolved the fault, by mapping the page or granting the permission: the engine translates again and continues from the
element that faulted. -/
def execEngineFaultResolved (id : Nat) :=
  stepIf (fun m => match m.copyAt id with
    | some x => x.stage == .pageFault || x.stage == .faulted 3
    | none => false)
    (fun m => match m.copyAt id with
      | some x => m.setCopy id (some { x with stage := .moving })
      | none => m)

/-! ### Feeds (R225, R226) -/

/-- The first feed of stream `q` of a core goes on: its bytes enter as far as there is space; with the last one, the tile
returns to READY. -/
def Mach.feedOn (m : Mach) (c q : Nat) : Mach :=
  match ((m.core c).stream q).feeds with
  | [] => m
  | f :: rest =>
    let s := (m.core c).stream q
    let n := if f.drop then f.len - f.pos else min (f.len - f.pos) s.room
    let bs := match m.targetTile (c, f.tile, f.team) with
      | some t => if f.drop then [] else m.spRead c (tileKey t + f.off + f.pos) n
      | none => []
    let done := f.pos + n = f.len
    let m := m.modCore c (fun k => k.setStream q { s with bytes := s.bytes ++ bs,
                                                          feeds := if done then rest else { f with pos := f.pos + n } :: rest })
    if done then m.modTarget (c, f.tile, f.team) (fun t => if t.st = .draining then { t with st := .ready } else t) else m

def execFeedComplete (c q : Nat) :=
  stepIf (fun m => match ((m.core c).stream q).feeds with
    | f :: _ => f.drop || m.firstWriter f.team c q f.id
    | [] => false) (fun m => m.feedOn c q)

/-! ### Ring rotation (R227) -/

/-- The eight entries of a gang's ring, once the teams of one region have issued all eight. -/
def Mach.ring (m : Mach) (gang t : Nat) : Option (List (Nat × Tile × Nat × Nat)) :=
  let all : Option (List (Nat × Tile × Nat × Nat)) := (List.range 8).mapM (fun g => match (m.core (8 * gang + g)).tile t with
    | some x => x.ring.map (fun r => (8 * gang + g, x, r.1, r.2))
    | none => none)
  all.bind (fun l => if l.all (fun x => l.all (fun y => (m.team x.2.1.team).inst == (m.team y.2.1.team).inst)) then some l else none)

/-- The contents move to the next core, all eight at once; with unequal sizes no byte moves and the tiles are poisoned: what
s[DST] then receives is open (log 3). -/
def Mach.rotate (m : Mach) (t : Nat) (r : List (Nat × Tile × Nat × Nat)) : Mach :=
  let even := r.all (fun x => r.all (fun y => x.2.1.size == y.2.1.size))
  if even then
    let from_ (c : Nat) : Option (Nat × Tile × Nat × Nat) := r.find? (fun y => c == 8 * gangOf y.1 + (y.1 + 1) % 8)
    let moves := r.filterMap (fun x => (from_ x.1).map (fun y => (x, m.spRead y.1 (tileKey y.2.1) y.2.1.size.toNat, y.2.1.cw)))
    moves.foldl (fun (m : Mach) v =>
      let x := v.1
      ((m.spWrite x.1 (tileKey x.2.1) v.2.1).modTileAt x.1 t (fun z => { z with st := .ready, cw := v.2.2, ring := none })).giveResult
        x.2.1.team x.1 x.2.2.1 x.2.2.2 v.2.2) m
  else
    r.foldl (fun (m : Mach) x =>
      (m.modTileAt x.1 t (fun z => { z with st := .poisoned, fcode := 4, ring := none })).giveResult x.2.1.team x.1 x.2.2.1
        x.2.2.2 (Config.freeValue x.2.2.2)) m

def execRrotRingComplete (gang tile : Nat) :=
  stepIf (fun m => (m.ring gang tile).isSome) (fun m => match m.ring gang tile with
    | some r => m.rotate tile r
    | none => m)

end Sys2Proof.Machine
end

