-- ==== Sys2Proof/Machine/Matrix.lean ====
section
/-! DEFINITION. Class 0xE, the matrix words (R228 to R239), the array's step (R50 to R55) and the output chain of `acco`
(R56, R236). -/

namespace Sys2Proof.Machine

/-! ### The array queue of a pair (R230) -/

/-- Element `j` of bank `n` in a core's half, and its key. -/
def accKey (n i j : Nat) : Nat := 2 ^ 14 * n + 128 * i + j
def Core.accAt (c : Core) (n i j : Nat) : Int := (tget 0 c.acc (accKey n i j)).toInt
/-- E of a bank, kept on the leader (R51). -/
def Core.bankE (c : Core) (n : Nat) : Int := ((tget 0 c.accE n : Nat) : Int) - 512

/-- Every A := 0 in the halves of both cores, and E := −512. -/
def Mach.zeroBank (m : Mach) (lead n : Nat) : Mach :=
  let clear (k : Core) : Core := { k with acc := k.acc.filter (fun x => x.1 / 2 ^ 14 != n) }
  ((m.modCore lead clear).modCore (lead + 1) clear).modCore lead (fun k => { k with accE := tset 0 k.accE n 0 })

/-- The activation table of one core of the pair: at team start, m = 1.0 and c = +0 (R237). -/
def Team.actM (t : Team) (follower : Bool) (n : Nat) : W32 := tget 0x3F800000#32 t.act (n + if follower then 512 else 0)
def Team.actC (t : Team) (follower : Bool) (n : Nat) : W32 := tget 0 t.act (256 + n + if follower then 512 else 0)

/-- The exact value of an element (R51). -/
def accVal (a e : Int) : FVal := .fin (decide (a < 0)) a.natAbs (e - 36)

/-- Element formats of `acco` and `accld` (R228). -/
def outCode (f : BitVec 3) : Nat := [0, 1, 2, 3, 4, 6, 8, 9].getD f.toNat 0

/-- The results of an outstanding word become what the array found. -/
def Mach.arrayResult (m : Mach) (c slot id : Nat) (f : RegRef → W64) : Mach :=
  m.setGroup c slot { (m.group c slot) with outs := (m.group c slot).outs.map (fun o =>
    if o.id = id then { o with ready := true, writes := o.writes.map (fun w => { w with val := f w.dst }) } else o) }

/-- The value that `accld` gives a register of a lane (R239). -/
def accldValue (k : Core) (e : Int) (f : BitVec 3) (acc row v : Nat) (sat : Bool) : RegRef → W64
  | .v r l =>
    let col (j : Nat) : Nat := convTo (outCode f) .ne sat (accVal (k.accAt acc row j) e)
    let b := elemBits (outCode f)
    if outCode f = 0 then BitVec.ofNat 64 (col (2 * l + (r - v))) else BitVec.ofNat 64 (col (2 * l) + 2 ^ b * col (2 * l + 1))
  | _ => 0

/-- A word of the queue that waits for nothing takes effect. -/
def Mach.arrayWord (m : Mach) (lead team : Nat) : MatOp → Mach
  | .accz n => m.zeroBank lead n
  | .atab t x0 inv => m.modTeam team (fun y => { y with act := t, x0 := x0, inv := inv })
  | .mstat clr en slot c _ id =>
    let old := (m.team team).mstat
    let new := match clr with
      | some k => old &&& ~~~(k.setWidth 13)
      | none => old
    let new := match en with
      | some e => (new &&& 0x1F#13) ||| (e.setWidth 13 <<< 8)
      | none => new
    (m.modTeam team (fun y => { y with mstat := new })).arrayResult c slot id (fun _ => old.setWidth 64)
  | .accld f v acc row slot c id _ sat => m.arrayResult c slot id (accldValue (m.core c) ((m.core lead).bankE acc) f acc row v sat)
  | _ => m

def MatOp.waits : MatOp → Bool
  | .step _ => true
  | .acco .. => true
  | _ => false

def Mach.popQueue (m : Mach) (lead : Nat) : Mach := m.modCore lead (fun k => { k with queue := k.queue.tail })

/-- Words at the head of the queue take effect until one must wait (R230). -/
def Mach.settleQueue (lead : Nat) : Nat → Mach → Mach
  | 0, m => m
  | n + 1, m =>
    match (m.core lead).queue with
    | [] => m
    | (t, w) :: _ => if w.waits then m else Mach.settleQueue lead n ((m.popQueue lead).arrayWord lead t w)

def Mach.enqueue (m : Mach) (lead team : Nat) (w : MatOp) : Mach :=
  Mach.settleQueue lead ((m.core lead).queue.length + 1) (m.modCore lead (fun k => { k with queue := k.queue ++ [(team, w)] }))

/-! ### Causes -/

/-- 0x27: the bank. -/
def Mach.bankTrap (m : Mach) (n : Sys2Proof.Acc) : Option Trap := if accb m.myTeam.pool ≤ n.toNat then m.raise 0x27 0 else none
/-- 0x26: not on a pair, or, where `lead` asks for it, on the follower. -/
def Mach.roleTrap (m : Mach) (lead : Bool) : Option Trap :=
  if !m.myTeam.pair || (lead && m.cur.1 % 2 == 1) then m.raise 0x26 0 else none

def Mach.myLead (m : Mach) : Nat := leaderOf m.cur.1
/-- The cores of the pair, or of a team that is not on one. -/
def Mach.halves (m : Mach) : List Nat := m.myTeam.cores

/-! ### `mmp` and `mmps` (R229, R230, R233, R234) -/

/-- MOD of the native forms (R228). -/
def stepCode (f : BitVec 3) : BitVec 4 := [8, 3, 4, 5, 6, 7, 2, 1].getD f.toNat 0

/-- 0x24: a stream that the team does not own on its core, or MXFP4 without scales. -/
def Mach.streamTrap (m : Mach) (c : Nat) (q : Q) (code : BitVec 4) : Option Trap :=
  if !m.ownsStream c q.toNat || (code == 5 && !((m.core c).stream q.toNat).scl) then m.raise 0x24 0 else none

def stepsQueued (k : Core) : Nat := (k.queue.filter (fun x => match x.2 with
  | .step _ => true
  | _ => false)).length

def stepWord (h : Hdr) (f : Mach → BitVec 4 × BitVec 4) (sparse : Bool) (acc : Sys2Proof.Acc) (qa qb : Q) (k : BitVec 9) : Word :=
  tileWord h
    (fun m => [m.bankTrap acc, m.roleTrap true, m.streamTrap m.myLead qa (f m).1, m.streamTrap m.myLead qb (f m).2,
               m.streamTrap (m.myLead + 1) qb (f m).2])
    (fun m => if 8 ≤ stepsQueued (m.core m.myLead) then some (m, .matrixQueue) else none)
    (fun m =>
      let s (c : Nat) (q : Q) : Bool := ((m.core c).stream q.toNat).scl
      m.enqueue m.myLead m.me.team (.step
        { acc := acc.toNat, qa := qa.toNat, qb := qb.toNat, k := k.toNat, fa := (f m).1, fb := (f m).2, sparse := sparse, slot := m.cur.2,
          pc := m.me.pc, sa := s m.myLead qa, sl := s m.myLead qb, sf := s (m.myLead + 1) qb, a := [], bl := [], bf := [] }))

def nativeCodes (f : BitVec 3) (_ : Mach) : BitVec 4 × BitVec 4 := (stepCode f, stepCode f)
/-- FA and FB of the group (R233). -/
def fmtCodes (m : Mach) : BitVec 4 × BitVec 4 := (fld m.me.fmt 0 4, fld m.me.fmt 4 4)

def pairAttr (m : Mach) : BitVec 16 := (fld m.me.fmt 0 8).setWidth 16

def execMmp (h : Hdr) (f : BitVec 3) (acc : Sys2Proof.Acc) (qa qb : Q) (k : BitVec 9) :=
  issueWord (.mmp h f acc qa qb k) h (stepWord h (nativeCodes f) false acc qa qb k)
def execMmpG (h : Hdr) (n : BitVec 16) (acc : Sys2Proof.Acc) (qa qb : Q) (k : BitVec 9) :=
  issueWord (.mmpG h n acc qa qb k) h ((stepWord h fmtCodes false acc qa qb k).generic n pairAttr (fun m a => a == pairAttr m))
def execMmps (h : Hdr) (f : BitVec 3) (acc : Sys2Proof.Acc) (qa qb : Q) (k : BitVec 9) :=
  issueWord (.mmps h f acc qa qb k) h (stepWord h (nativeCodes f) true acc qa qb k)
def execMmpsG (h : Hdr) (n : BitVec 16) (acc : Sys2Proof.Acc) (qa qb : Q) (k : BitVec 9) :=
  issueWord (.mmpsG h n acc qa qb k) h ((stepWord h fmtCodes true acc qa qb k).generic n pairAttr (fun m a => a == pairAttr m))

/-! ### The other words -/

def execAccz (h : Hdr) (acc : Sys2Proof.Acc) :=
  issueWord (.accz h acc) h (tileWord h (fun m => [m.bankTrap acc, m.roleTrap false]) (fun _ => none)
    (fun m => m.enqueue m.myLead m.me.team (.accz acc.toNat)))

def Mach.tilesHere (m : Mach) (t : T) : List (Option Tile) := m.halves.map (fun c => m.tileOf c m.me.team t.toNat)

def accoBytes (f : BitVec 3) : Nat := 128 * 128 * imgBits (outCode f) / 8

/-- A tile too small raises cause 0x10 with DETAIL 0, here and at `atab`: no pointer fails (DESIGN CHOICE, log 116). -/
def execAcco (h : Hdr) (fl : AccoFlags) (f : BitVec 3) (t : T) (acc : Sys2Proof.Acc) (bias : T) (code : BitVec 8) :=
  issueWord (.acco h fl f t acc bias code) h (tileWord h
    (fun m =>
      let dst := m.tilesHere t
      let bs := if fl.bias then m.tilesHere bias else []
      [if (dst ++ bs).any Option.isNone then m.raise 0x22 0 else none, m.bankTrap acc, m.roleTrap true,
       if dst.any (fun x => x.any (fun y => decide (y.size.toNat < accoBytes f))) then m.raise 0x10 0 else none,
       ((dst ++ bs).filterMap m.poisonedTile).head?])
    (fun m =>
      if (fl.bias && !(m.tilesHere bias).all readyOnly) || !(m.tilesHere t).all notBusy then
        some (m, .pairTile ((t.toNat, false) :: if fl.bias then [(bias.toNat, true)] else []))
      else none)
    (fun m =>
      let m1 := m.halves.foldl (fun m c => m.modTileAt c t.toNat (fun x => x.fill (accoBytes f))) m
      m1.enqueue m.myLead m.me.team (.acco fl f t.toNat acc.toNat bias.toNat code (fmtSat m.me.fmt))))

/-- The table read at issue, each core from its own tile. -/
def Mach.readAtab (m : Mach) (t : T) : Tab W32 :=
  m.halves.foldl (fun (a : Tab W32) c => match m.tileOf c m.me.team t.toNat with
    | none => a
    | some x =>
      let off := if c = m.myLead then 0 else 512
      (List.range 256).foldl (fun (a : Tab W32) n =>
        let v (j : Nat) : W32 := BitVec.ofNat 32 (natOf (m.spRead c (tileKey x + 8 * n + 4 * j) 4))
        tset 0 (tset 0x3F800000#32 a (off + n) (v 0)) (off + 256 + n) (v 1)) a) []

def execAtab (h : Hdr) (t : T) (a b : S) :=
  issueWord (.atab h t a b) h (tileWord h
    (fun m =>
      let ts := m.tilesHere t
      [if ts.any Option.isNone then m.raise 0x22 0 else none, m.roleTrap false,
       if ts.any (fun x => x.any (fun y => decide (y.size.toNat < 2048))) then m.raise 0x10 0 else none,
       (ts.filterMap m.poisonedTile).head?])
    (fun m => if (m.tilesHere t).all readyOnly then none else some (m, .pairTile [(t.toNat, true)]))
    (fun m => m.enqueue m.myLead m.me.team
      (.atab (m.readAtab t) (fld (m.me.rdS m.tick a.toNat) 0 32) (fld (m.me.rdS m.tick b.toNat) 0 32))))

def mstatWord (h : Hdr) (d : S) (clr en : Mach → Option (BitVec 5)) : Word :=
  tileWord h (fun m => [m.roleTrap false]) (fun _ => none)
    (fun m =>
      let (m1, id) := m.fresh
      (m1.modMe (fun g => g.addOuts id [wS d.toNat 0] false none)).enqueue m.myLead m.me.team
        (.mstat (clr m) (en m) m.cur.2 m.cur.1 d.toNat id))

def execMstat (h : Hdr) (d : S) := issueWord (.mstat h d) h (mstatWord h d (fun _ => none) (fun _ => none))
def execMstatClr (h : Hdr) (d a : S) :=
  issueWord (.mstatClr h d a) h (mstatWord h d (fun m => some (fld (m.me.rdS m.tick a.toNat) 0 5)) (fun _ => none))
def execMstatEn (h : Hdr) (d a : S) :=
  issueWord (.mstatEn h d a) h (mstatWord h d (fun _ => none) (fun m => some (fld (m.me.rdS m.tick a.toNat) 8 5)))

/-- DETAIL of a row of 128 or more is the row number (DESIGN CHOICE, log 116). -/
def execAccld (h : Hdr) (f : BitVec 3) (d : V) (acc : Sys2Proof.Acc) (row : S) :=
  issueWord (.accld h f d acc row) h (tileWord h
    (fun m =>
      let r := m.me.rdS m.tick row.toNat
      [m.bankTrap acc, m.roleTrap false, if 128 ≤ r.toNat then m.raise 0x10 r else none])
    (fun _ => none)
    (fun m =>
      let (m1, id) := m.fresh
      let lanes := m.me.perf m.tick h
      let ds := (lanesOf lanes).flatMap (fun l => (List.range (if f = 0 then 2 else 1)).map (fun j => wV (d.toNat + j) l 0))
      (m1.modMe (fun g => g.addOuts id ds false none)).enqueue m.myLead m.me.team
        (.accld f d.toNat acc.toNat (m.me.rdS m.tick row.toNat).toNat m.cur.2 m.cur.1 id lanes (fmtSat m.me.fmt))))

/-! ### The step (R50 to R55, R229, R234) -/

def isLog (code : Nat) : Bool := code == 8 || code == 9
/-- A log format and any other (R233). -/
def MatStep.mixed (x : MatStep) : Bool := x.fa != x.fb && (isLog x.fa.toNat || isLog x.fb.toNat)

/-- Stream bytes of one group of positions: a slice, or, for the compressed A, two slices and 64 bytes of metadata. -/
def groupBytes (code : Nat) (sparse : Bool) : Nat := if sparse then 32 * imgBits code + 64 else 16 * imgBits code
/-- Groups of positions in a block of 32. -/
def perBlock (sparse : Bool) : Nat := if sparse then 8 else 32
/-- Bytes that a step takes from a stream (R229). -/
def streamBytes (k code : Nat) (scl sparse : Bool) : Nat :=
  (if scl then 128 * ((k + 31) / 32) else 0) + (if sparse then k / 4 else k) * groupBytes code sparse
/-- Where group `g` of positions begins, and where the scales of block `c` do. -/
def groupAt (code : Nat) (scl sparse : Bool) (g : Nat) : Nat :=
  (if scl then 128 * (g / perBlock sparse + 1) else 0) + g * groupBytes code sparse
def scaleByte (bs : List Byte) (code : Nat) (scl sparse : Bool) (c i : Nat) : Nat :=
  if scl then (bs.getD (c * (128 + perBlock sparse * groupBytes code sparse) + i) 0).toNat else 0x7F

/-- Element `i` of the slice that begins at byte `off` (R32). -/
def sliceElem (bs : List Byte) (code off i : Nat) : Nat :=
  let b := imgBits code
  natOf ((bs.drop (off + i * b / 8)).take 4) / 2 ^ (i * b % 8) % 2 ^ b

/-- Element (i, kk) of a dense stream. -/
def denseElem (bs : List Byte) (code : Nat) (scl : Bool) (i kk : Nat) : Nat := sliceElem bs code (groupAt code scl false kk) i

/-- The two positions that row `i` keeps in a group of four (R234). -/
def keptPair (bs : List Byte) (code : Nat) (scl : Bool) (i g : Nat) : Nat × Nat :=
  let off := groupAt code scl true g + 32 * imgBits code
  let n := (bs.getD (off + i / 2) 0).toNat / 2 ^ (4 * (i % 2)) % 16
  (n % 4, n / 4)

/-- Element (i, kk) of A; none where 2:4 compression removes it, or the row's metadata is illegal. -/
def MatStep.aElem (x : MatStep) (i kk : Nat) : Option Nat :=
  let code := x.fa.toNat
  if x.sparse then
    let p := keptPair x.a code x.sa i (kk / 4)
    let at_ := groupAt code x.sa true (kk / 4)
    if p.2 ≤ p.1 then none
    else if kk % 4 = p.1 then some (sliceElem x.a code at_ i)
    else if kk % 4 = p.2 then some (sliceElem x.a code (at_ + 16 * imgBits code) i) else none
  else some (denseElem x.a code x.sa i kk)

/-- Element (kk, j) of B, with columns 128 to 255 on the follower. -/
def MatStep.bElem (x : MatStep) (kk j : Nat) : Nat :=
  if j < 128 then denseElem x.bl x.fb.toNat x.sl j kk else denseElem x.bf x.fb.toNat x.sf (j - 128) kk

def MatStep.aScale (x : MatStep) (i c : Nat) : Nat := scaleByte x.a x.fa.toNat x.sa x.sparse c i
def MatStep.bScale (x : MatStep) (c j : Nat) : Nat :=
  if j < 128 then scaleByte x.bl x.fb.toNat x.sl false c j else scaleByte x.bf x.fb.toNat x.sf false c (j - 128)

def MatStep.blocks (x : MatStep) : Nat := (x.k + 31) / 32

def FVal.finite : FVal → Bool
  | .fin _ _ _ => true
  | _ => false
def FVal.nonzero (v : FVal) : Bool := v.finite && !v.isZero

/-- The smallest h with every finite magnitude below 2^h, or none where all are zero (R53). -/
def dataH (l : List FVal) : Option Int :=
  l.foldl (fun h v => match v with
    | .fin _ m e => if m = 0 then h else
      let x : Int := e + Nat.log2 m + 1
      match h with
      | some y => some (max x y)
      | none => some x
    | _ => h) none

/-- h of R50. -/
def fixedH (code : Nat) : Option Int :=
  match code with
  | 3 => some 9 | 4 => some 16 | 5 => some 3 | 6 => some 8 | 7 => some 4 | 8 => some 4 | 9 => some 8
  | _ => none
/-- h of an operand; none where all its elements are zero or non-finite, so that the step adds nothing (R53). -/
def operandH (code : Nat) (l : List FVal) : Option Int :=
  if l.any FVal.nonzero then (match fixedH code with
    | some h => some h
    | none => dataH l) else none

/-- The stored values of A; those of a row whose 2:4 metadata is illegal are no elements of the step (log 77). -/
def MatStep.aVals (x : MatStep) : List FVal :=
  (List.range x.k).flatMap (fun kk => (List.range 128).filterMap (fun i => (x.aElem i kk).map (elemVal x.fa.toNat)))
def MatStep.bVals (x : MatStep) : List FVal :=
  (List.range x.k).flatMap (fun kk => (List.range 256).map (fun j => elemVal x.fb.toNat (x.bElem kk j)))

/-- The largest scale exponent of a block among the codes that are not 0xFF. -/
def maxScale (l : List Nat) : Option Int :=
  (l.filter (fun c => c != 0xFF)).foldl (fun (o : Option Int) c => match o with
    | some y => some (max y (scaleExp c))
    | none => some (scaleExp c)) none

/-- max of sa[i][b] + sb[b][j] (R53). -/
def MatStep.scaleTerm (x : MatStep) : Option Int :=
  (List.range x.blocks).foldl (fun (o : Option Int) c =>
    match maxScale ((List.range 128).map (fun i => x.aScale i c)), maxScale ((List.range 256).map (fun j => x.bScale c j)), o with
    | some a, some b, some y => some (max y (a + b))
    | some a, some b, none => some (a + b)
    | _, _, _ => o) none

/-- Estep of R53; none where the step adds nothing. -/
def MatStep.exponent (x : MatStep) : Option Int :=
  match x.scaleTerm, operandH x.fa.toNat x.aVals, operandH x.fb.toNat x.bVals with
  | some s, some a, some b => some (s + a + b)
  | _, _, _ => none

/-- The product of two elements: exact, or by R41 in a log format. -/
def MatStep.product (x : MatStep) (a b : Nat) : FVal :=
  if isLog x.fa.toNat then lgProduct (x.fa == 9) a b else (elemVal x.fa.toNat a).mul (elemVal x.fb.toNat b)

/-- Sign(p) × Floor(|p| × 2^(36 − Enew)). -/
def alignedProduct (v : FVal) (sh : Int) : Int :=
  match v with
  | .fin neg m e => (if neg then -1 else 1) * (roundInt .rz false m (e + sh) : Int)
  | _ => 0

/-- One addend (R52, R54). -/
def MatStep.addend (x : MatStep) (enew : Int) (i j kk : Nat) : Int :=
  match x.aElem i kk with
  | none => 0
  | some a =>
    let b := x.bElem kk j
    let sa := x.aScale i (kk / 32)
    let sb := x.bScale (kk / 32) j
    if sa = 0xFF ∨ sb = 0xFF ∨ !(elemVal x.fa.toNat a).finite ∨ !(elemVal x.fb.toNat b).finite then 0
    else alignedProduct (x.product a b) (scaleExp sa + scaleExp sb + 36 - enew)

/-- Re-alignment of R54: truncated toward zero. -/
def realign (a sh : Int) : Int := if 48 ≤ sh then 0 else a.sign * ((a.natAbs / 2 ^ sh.toNat : Nat) : Int)

def accLimit : Int := 2 ^ 47 - 1

/-- The new A[i][j] before saturation. -/
def MatStep.sum (x : MatStep) (e enew old : Int) (i j : Nat) : Int :=
  realign old (enew - e) + ((List.range x.k).map (x.addend enew i j)).sum

/-- The flags a step finds in its operands: NFS, NANSC and SPRS (R52, R234). -/
def MatStep.flags (x : MatStep) : BitVec 5 :=
  let nfs := (x.aVals ++ x.bVals).any (fun v => !v.finite)
  let nan := (List.range x.blocks).any (fun c =>
    (List.range 128).any (fun i => x.aScale i c == 0xFF) || (List.range 256).any (fun j => x.bScale c j == 0xFF))
  let sprs := x.sparse && (List.range (x.k / 4)).any (fun g => (List.range 128).any (fun i =>
    decide ((keptPair x.a x.fa.toNat x.sa i g).2 ≤ (keptPair x.a x.fa.toNat x.sa i g).1)))
  (if nfs then 1 else 0) ||| (if nan then 2 else 0) ||| (if sprs then 8 else 0)

/-- The step on its bank (R54): the machine, and the flags it sets. A step of mixed formats takes its slices and sets FMTX alone (DESIGN CHOICE,
log 121). -/
def Mach.runStep (m : Mach) (lead : Nat) (x : MatStep) : Mach × BitVec 5 :=
  if x.mixed then (m, 16)
  else
    let fl := x.flags
    match x.exponent with
    | none => (m, fl)
    | some es =>
      let e := (m.core lead).bankE x.acc
      let enew := max e es
      let new (i j : Nat) : Int := x.sum e enew ((m.core (lead + j / 128)).accAt x.acc i (j % 128)) i j
      let sat := (List.range 128).any (fun i => (List.range 256).any (fun j => decide (accLimit < (new i j).natAbs)))
      let half (h : Nat) (k : Core) : Core :=
        { k with acc := (List.range 128).foldl (fun (t : Tab (BitVec 48)) i => (List.range 128).foldl (fun (t : Tab (BitVec 48)) j =>
            tset 0 t (accKey x.acc i j) (BitVec.ofInt 48 (clampInt (-accLimit) accLimit (new i (128 * h + j))))) t) k.acc }
      (((m.modCore lead (half 0)).modCore (lead + 1) (half 1)).modCore lead (fun k => { k with accE := tset 0 k.accE x.acc (enew + 512).toNat }),
        fl ||| (if sat then 4 else 0))

/-- A stream gives what it has, up to `n` bytes. A step that waits on a stream released and claimed anew takes what arrives there by the scales of
its issue, whoever the new owner is (DESIGN CHOICE, log 119). -/
def Mach.takeStream (m : Mach) (c q n : Nat) : Mach × List Byte :=
  let s := (m.core c).stream q
  (m.modCore c (fun k => k.setStream q { s with bytes := s.bytes.drop n }), s.bytes.take n)

/-- The step takes its slices as they arrive (R230); from one stream named as both A and B the leader takes A's bytes first (DESIGN CHOICE,
log 120). -/
def Mach.takeSlices (m : Mach) (lead : Nat) (x : MatStep) : Mach × MatStep :=
  let ra := m.takeStream lead x.qa (streamBytes x.k x.fa.toNat x.sa x.sparse - x.a.length)
  let rl := ra.1.takeStream lead x.qb (streamBytes x.k x.fb.toNat x.sl false - x.bl.length)
  let rf := rl.1.takeStream (lead + 1) x.qb (streamBytes x.k x.fb.toNat x.sf false - x.bf.length)
  (rf.1, { x with a := x.a ++ ra.2, bl := x.bl ++ rl.2, bf := x.bf ++ rf.2 })

def MatStep.full (x : MatStep) : Bool :=
  x.a.length == streamBytes x.k x.fa.toNat x.sa x.sparse && x.bl.length == streamBytes x.k x.fb.toNat x.sl false &&
    x.bf.length == streamBytes x.k x.fb.toNat x.sf false

/-- A retired step sets its flags, and an enabled one traps at its group's next word (R238). -/
def Mach.retireStep (m : Mach) (lead team : Nat) (x : MatStep) (fl : BitVec 5) : Mach :=
  let en := fld (m.team team).mstat 8 5
  let m := m.modTeam team (fun t => { t with mstat := t.mstat ||| fl.setWidth 13 })
  let g := m.group lead x.slot
  if fl &&& en ≠ 0 ∧ g.team = team ∧ g.retireTrap.isNone then m.setGroup lead x.slot { g with retireTrap := some (x.pc, fl) } else m

/-- The step at the head of the queue takes what has come; with every slice present, it is performed and retires. -/
def Mach.stepOn (m : Mach) (lead : Nat) : Mach :=
  match (m.core lead).queue with
  | (team, .step x) :: rest =>
    let r := m.takeSlices lead x
    if r.2.full then
      let p := r.1.runStep lead r.2
      Mach.settleQueue lead (rest.length + 1) ((p.1.retireStep lead team r.2 p.2).popQueue lead)
    else r.1.modCore lead (fun k => { k with queue := (team, .step r.2) :: rest })
  | _ => m

def execMatrixStepExecute (core : Nat) :=
  stepIf (fun m => match (m.core core).queue with
    | (_, .step _) :: _ => true
    | _ => false) (fun m => m.stepOn core)

/-! ### `acco` (R236) -/

/-- The table entry that a value selects. -/
def actIndex (x x0 inv : FVal) : Nat :=
  match (x.add .ne x0.negate).mul inv with
  | .nan => 0
  | .inf neg => if neg then 0 else 255
  | .fin neg m e => if neg then 0 else min 255 (roundInt .rd false m e)

/-- The fused chain over one element. -/
def accoElem (fl : AccoFlags) (code : Nat) (rq : BitVec 8) (sat : Bool) (act : Nat → W32 × W32) (x0 inv bias : W32) (x : FVal) : Nat :=
  let x := if fl.bias then f32 (roundF32 (x.add .ne (f32 bias))) else x
  let x := if fl.act then (if x.isNan then .nan
    else
      let e := act (actIndex x (f32 x0) (f32 inv))
      f32 (roundF32 (((f32 e.1).mul x).add .ne (f32 e.2)))) else x
  let x := if fl.rq then (if rq = 0xFF then .nan else x.scale (127 - (rq.toNat : Int))) else x
  convTo code .ne sat x

/-- Writes one core's half of the bank into its tile. R236 asks no size of a bias tile: of one below 512 bytes the scratchpad bytes behind it are
read (DESIGN CHOICE, log 118). -/
def Mach.accoHalf (m : Mach) (lead h team : Nat) (fl : AccoFlags) (f : BitVec 3) (t acc bias : Nat) (rq : BitVec 8) (sat : Bool) : Mach :=
  let c := lead + h
  let tm := m.team team
  let code := outCode f
  let b := imgBits code
  match m.tileOf c team t with
  | none => m
  | some y =>
    if y.st ≠ .filling then m
    else
      let bs (j : Nat) : W32 := match m.tileOf c team bias with
        | some z => BitVec.ofNat 32 (natOf (m.spRead c (tileKey z + 4 * j) 4))
        | none => 0
      let act (n : Nat) : W32 × W32 := (tm.actM (h == 1) n, tm.actC (h == 1) n)
      let e := (m.core lead).bankE acc
      let row (i : Nat) : Nat := ((List.range 128).map (fun j =>
        2 ^ (b * j) * accoElem fl code rq sat act tm.x0 tm.inv (bs j) (accVal ((m.core c).accAt acc i j) e))).sum
      let m := (List.range 128).foldl (fun (m : Mach) i => m.spWrite c (tileKey y + i * 16 * b) (bytesOf (16 * b) (row i))) m
      m.modTileAt c t (fun z => { (z.progress 0 0) with st := .ready, cw := 0 })

/-- The `acco` at the head of the queue writes both halves. -/
def Mach.accoOn (m : Mach) (lead : Nat) : Mach :=
  match (m.core lead).queue with
  | (team, .acco fl f t acc bias rq sat) :: rest =>
    let m := (m.accoHalf lead 0 team fl f t acc bias rq sat).accoHalf lead 1 team fl f t acc bias rq sat
    let m := if fl.z then m.zeroBank lead acc else m
    Mach.settleQueue lead (rest.length + 1) (m.popQueue lead)
  | _ => m

def execAccoComplete (core : Nat) :=
  stepIf (fun m => match (m.core core).queue with
    | (_, .acco ..) :: _ => true
    | _ => false) (fun m => m.accoOn core)

end Sys2Proof.Machine
end

