-- ==== Sys2Proof/Machine/Gens.lean ====
section
/-! DEFINITION. Generations (R362 to R373): their states and counts, the drain to the granary, release and rollback. The
granary's directory and page maps (R371) are what `Part.gens` holds: no access reaches them. -/

namespace Sys2Proof.Machine

def Part.gen (p : Part) (n : Nat) : Option Gen := p.gens.find? (fun g => g.num == n)
def Part.modGen (p : Part) (n : Nat) (f : Gen → Gen) : Part := { p with gens := p.gens.map (fun g => if g.num = n then f g else g) }
def Part.setGen (p : Part) (x : Gen) : Part := p.modGen x.num (fun _ => x)

/-- Granary units of 64 KiB that `n` images take with their page map (R371). -/
def granaryUnits (n : Nat) : Nat := n + (16 * n + 65535) / 65536
/-- Images of a generation that lie in the granary. -/
def Gen.granaryImages (g : Gen) : Nat := g.images.length - g.reserve.length
def Part.granaryUsed (p : Part) : Nat := (p.gens.map (fun g => granaryUnits g.granaryImages)).sum
/-- The granary has room for one more image of generation `g`: its first unit holds the directory. -/
def Part.granaryRoom (p : Part) (g : Gen) : Bool :=
  decide (p.granaryUsed - granaryUnits g.granaryImages + granaryUnits (g.granaryImages + 1) + 1 ≤ p.grlen)

/-- R364, R367: whether a `snap` must fail with code 4. -/
def Part.snapFull (p : Part) : Bool :=
  p.grlen == 0 || decide (2 ≤ (p.gens.filter (fun g => g.st == 1)).length) ||
    decide (255 ≤ (p.gens.filter (fun g => g.st == 1 || g.st == 2)).length)

/-! ### `genq`, `genrel`, `genrb` -/

/-- Pages of a draining generation whose image has not reached the granary: those in the reserve, one that `genrel` handed on among them (R372),
and those written and not yet read from DRAM. -/
def Gen.toDrain (g : Gen) : List Nat := distinct (g.reserve ++ g.written.filter (fun pg => !g.drained.contains pg))

/-- R245. -/
def Part.genq (p : Part) (n : Nat) : W64 :=
  match p.gen n with
  | none => 0xFF00000000000000#64
  | some g =>
    BitVec.ofNat 64 (g.st * 2 ^ 56 +
      (if g.st = 0 then g.written.length else if g.st = 1 then g.toDrain.length else 0))

/-- Reserve pages of these pages' stacks become free. -/
def Mach.freeReserve (m : Mach) (pgs : List Nat) : Mach :=
  { m with reserveUsed := pgs.foldl (fun t pg => tset 0 t (stackOfPage pg) (tget 0 t (stackOfPage pg) - 1)) m.reserveUsed }

/-- The next later generation that is not released or discarded. -/
def Part.nextGen (p : Part) (n : Nat) : Option Gen :=
  (p.gens.filter (fun g => decide (n < g.num) && decide (g.st < 3))).foldl (fun (o : Option Gen) g => match o with
    | none => some g
    | some h => if g.num < h.num then some g else some h) none

/-- A page of `g` handed to the next generation unless that one holds it (R372): its image, or, while it has none, the duty
to keep one. -/
def Gen.take (h g : Gen) (pg : Nat) : Gen :=
  if h.written.contains pg || (tfind h.images pg).isSome then h
  else match tfind g.images pg with
    | some im => { h with images := tput h.images pg im, reserve := if g.reserve.contains pg then pg :: h.reserve else h.reserve }
    | none => { h with written := pg :: h.written }

def Gen.pages (g : Gen) : List Nat := distinct (g.written ++ g.images.map (·.1))

/-- The oldest draining generation. -/
def Part.draining (p : Part) : Option Gen :=
  (p.gens.filter (fun g => g.st == 1)).foldl (fun (o : Option Gen) g => match o with
    | none => some g
    | some h => if g.num < h.num then some g else some h) none

/-- `genrel` (R372): the new machine and the result. -/
def Mach.genrel (m : Mach) (p n : Nat) : Mach × Nat :=
  match (m.part p).gen n with
  | none => (m, 1)
  | some g =>
    if g.st = 0 then (m, 2)
    else if 3 ≤ g.st then (m, 1)
    else
      let next := (m.part p).nextGen n
      let h := next.map (fun h => g.pages.foldl (fun h pg => h.take g pg) h)
      let holds (pg : Nat) : Bool := match next with
        | some x => x.written.contains pg || (tfind x.images pg).isSome
        | none => true
      let m := (m.freeReserve (g.reserve.filter holds)).modPart p (fun x => { x with grWaits := x.grWaits && x.draining.map (·.num) != some n })
      let done : Gen := { g with st := 3, written := [], reserve := [], drained := [], images := [] }
      ((m.modPart p (fun x => match h with
        | some h => (x.setGen done).setGen h
        | none => x.setGen done)).retryStalled p, 0)

/-- The image of a page in generation `n`: of the newest generation up to it that holds one, or zero (R371). -/
def Part.imageIn (p : Part) (n pg : Nat) : Image :=
  match ((p.gens.filter (fun g => decide (g.num ≤ n))).foldl (fun (o : Option (Nat × Image)) g =>
      match tfind g.images pg, o with
      | some im, some (k, im') => if k < g.num then some (g.num, im) else some (k, im')
      | some im, none => some (g.num, im)
      | none, o => o) none) with
  | some (_, im) => im
  | none => { bytes := [], poison := [] }

/-- A page takes the bytes and the poison of an image. -/
def Mach.restorePage (m : Mach) (pg : Nat) (im : Image) : Mach :=
  let dram := m.dram.filter (fun x => decide (pageOf x.1 ≠ pg))
  { m with dram := im.bytes.foldl (fun (d : Tab Byte) (b : Nat × Byte) => tset 0 d (65536 * pg + b.1) b.2) dram,
           poison := im.poison.map (fun s => 2048 * pg + s) ++ m.poison.filter (fun s => decide (s / 2048 ≠ pg)),
           symErr := m.symErr.filter (fun s => decide (s.1 / 2048 ≠ pg)) }

/-- Every line of the partition leaves every cache, dirty data and all; every translation and site entry goes (R373, R20). -/
def Mach.dropCaches (m : Mach) (p : Nat) : Mach :=
  let mine (a : Nat) : Bool := decide (p ≤ stackOf a) && decide (stackOf a < p + (m.part p).size)
  let m := m.mapCores (fun _ k =>
    let lns := (k.l1.filter (fun x => x.part == p)).map (·.line)
    lns.foldl (fun k ln => k.mapGroups (fun _ g => g.disarm false ln))
      { k with l1 := k.l1.filter (fun x => x.part != p), sites := k.sites.filter (fun s => s.part != p) })
  let m := { m with cached := m.cached.filter (fun x => !mine x.1), l2 := m.l2.filter (fun x => x.part != p),
                    ms := m.ms.filter (fun x => x.part != p) }
  (m.part p).ctxs.foldl (fun m cx => m.removeTlb p cx.1 none) m

/-- Stores on their way into the L1s, words on their way to homes here, writes that homes hold, pages of row paths and writes that wait for
reserve space: what of them is
not the issuer's is gone with the lines it would have changed (R373). The regions have ended, so that what their ends sent home is among it. -/
def Mach.dropInFlight (m : Mach) (p issuer : Nat) : Mach :=
  let mine (team : Nat) : Bool := (m.team team).inst == issuer
  let here (c : Nat) : Bool := (m.partOfCore c) == some p
  let keep (h : Held) : Bool := h.waiters.any (fun w => mine (m.group w.1 w.2.1).team)
  let held := (m.part p).held.filter (fun h => !keep h)
  let abroad (x : OwnStore) : Bool := homeOf x.leaf.leaf != m.partno.toNat
  let gone (r : Remote) : Bool := r.seq.isSome && r.lines.any (fun l => l.1 == m.partno.toNat) && here r.core && !mine (m.group r.core r.slot).team
  let lost := m.remotes.filterMap (fun kr => kr.2.filter gone)
  let m' := { (m.modPart p (fun x => { x with held := x.held.filter keep, stalled := [], ownWaits := x.ownWaits.filter abroad })).mapCores
      (fun c k => if here c then { k with sbuf := k.sbuf.filter (fun x => mine x.team) } else k) with
    remotes := tmap none (fun _ x => x.filter (fun r => !gone r)) m.remotes,
    rowOps := tmap none (fun _ x => match x with
      | some o => if o.part = p ∧ !mine (m.group o.core o.slot).team then none else some o
      | none => none) m.rowOps }
  lost.foldl (fun m r => m.letReturn (r.core, r.slot, r.outId)) (held.foldl (fun m h => h.waiters.foldl (fun m w => m.letReturn w) m) m')

/-- The regions that a rollback ends (R373): all but the issuer's; those of the domains that asked for it end without a record
and their host-accepted roots run again. -/
def Mach.endForRollback (m : Mach) (p issuer : Nat) : Mach :=
  let mine := m.liveInsts p (fun x => (m.part p).rollback.contains x.fdom)
  let roots := mine.filter (fun i => (m.inst i).host.isSome)
  let m := (m.liveInsts p (fun _ => true)).foldl (fun m i =>
    if i = issuer then m
    else if mine.contains i then m.endInst i 4 0 false
    else (m.endInst i 4 0 true).logEvent p 5 0xFF 0 4 (m.inst i).fdom 0 0) m
  (roots.foldl Mach.rerun m).modPart p (fun x => { x with rollback := [] })

/-- `genrb` (R373): the new machine and the result. -/
def Mach.genrb (m : Mach) (p issuer n : Nat) : Mach × Nat :=
  match (m.part p).gen n with
  | none => (m, 1)
  | some g =>
    if g.st = 3 then (m, 1)
    else if g.st ≠ 2 then (m, 2)
    else
      let m := (m.endForRollback p issuer).dropInFlight p issuer
      let later := (m.part p).gens.filter (fun h => decide (n < h.num) && decide (h.st ≠ 3))
      let since := distinct (later.flatMap Gen.pages)
      let m := (m.freeReserve (later.flatMap (fun h => h.reserve))).dropCaches p
      let m := since.foldl (fun m pg => m.restorePage pg ((m.part p).imageIn n pg)) m
      let num := (m.part p).genopen + 1
      ((m.modPart p (fun x =>
        { x with genopen := num, grWaits := false, waitsOn := [], copied := [],
                 gens := { Gen.first with num := num } :: x.gens.map (fun h =>
                   if n < h.num && h.st != 3 then { h with st := 4, written := [], reserve := [], drained := [], images := [] } else h)
                       })).retryStalled p, 0)

/-! ### The drain (R366 to R368) -/

def least (l : List Nat) : Option Nat := l.foldl (fun (o : Option Nat) x => match o with
  | none => some x
  | some y => some (min x y)) none

/-- The next page: one in the reserve first, then in increasing physical order. -/
def Gen.nextPage (g : Gen) : Option Nat :=
  match least g.reserve with
  | some pg => some pg
  | none => least (g.written.filter (fun pg => !g.drained.contains pg))

/-- The granary port that a page of a partition's drain leaves by, numbered after the fabric ports and the host port (log 40). Which of the two
the spec does not say: a free value. -/
def granaryPort (p pg : Nat) : Nat := 17 + Config.granaryPort p pg % 2

/-- A wait for granary space begins at the port of the page: it is counted and logged once (channel 10, R396). -/
def Mach.granaryWait (m : Mach) (p pg : Nat) : Mach :=
  if (m.part p).grWaits then m
  else (m.modPart p (fun x => { x with grWaits := true, grwait := min (x.grwait + 1) (2 ^ 20 - 1) })).logEvent p 10 0xFF (granaryPort p pg)
      0 0xFFFF 0 0

/-- The image of a page of the draining generation `g` reaches the granary: from its reserve page, which is freed, or read from DRAM, and
the page is then preserved without a copy. -/
def Mach.drainImage (m : Mach) (p : Nat) (g : Gen) (pg : Nat) : Mach :=
  let m := m.modPart p (fun x => { x with grWaits := false })
  if g.reserve.contains pg then
    ((m.freeReserve [pg]).modPart p (fun x => x.modGen g.num (fun h =>
      { h with reserve := h.reserve.filter (fun q => q != pg),
               drained := if h.written.contains pg && !h.drained.contains pg then pg :: h.drained else h.drained }))).retryStalled p
  else
    let m := (m.flush (fun a => decide (pageOf a = pg))).touchPage pg
    (m.modPart p (fun x => x.modGen g.num (fun h =>
      { h with images := if (tfind h.images pg).isSome then h.images else tput h.images pg (m.imageOf pg),
               drained := pg :: h.drained }))).retryStalled p

/-- One page of the drain, or a wait for granary space; nothing passes a port whose I/O die has tripped (R405). -/
def Mach.drainPage (m : Mach) (p : Nat) : Mach :=
  match (m.part p).draining with
  | none => m
  | some g => match g.nextPage with
    | none => m
    | some pg => if m.linkPaused (granaryPort p pg) then m
      else if (m.part p).granaryRoom g then m.drainImage p g pg else m.granaryWait p pg

/-- The image of the generation is whole: each home has received DONE of its epoch, so that no write of the epoch is still to come (R278, R362). -/
def Part.settled (x : Part) (g : Gen) : Bool := !x.justClosed g || x.ep.undone.isEmpty

def execGenerationDrainPage (part : Nat) :=
  stepIf (fun m => match (m.part part).draining with
    | some g => g.nextPage.isSome && (m.part part).settled g
    | none => false) (fun m => m.drainPage part)

/-- Every page drained and acknowledged: the generation is complete. -/
def execGenerationComplete (part : Nat) :=
  stepIf (fun m => match (m.part part).draining with
    | some g => g.nextPage.isNone && (m.part part).settled g
    | none => false)
    (fun m => match (m.part part).draining with
      | some g => m.modPart part (fun x => x.setGen { g with st := 2 })
      | none => m)

/-- A first write of the page waits: for the reserve page of its copy (R366, R367). -/
def Mach.writeAwaits (m : Mach) (pg : Nat) : Bool :=
  match m.partOf (stackOfPage pg) with
  | none => false
  | some p => (m.part p).waitsOn.any (fun w => w.1 == pg) || (m.part p).stalled.any (fun x => x.pages.contains pg)

/-- A page is copied into the reserve for the generations that need it, where pages are free, ahead of the write that waits for this (R366). -/
def Mach.copyOnWrite (m : Mach) (pg : Nat) : Mach :=
  match m.preserve pg, m.partOf (stackOfPage pg) with
  | some m', some p => m'.modPart p (fun x => { x with copied := pg :: x.copied })
  | _, _ => m

def execCopyOnWrite (page : Nat) := stepIf (fun m => m.owed page && m.writeAwaits page) (fun m => m.copyOnWrite page)

end Sys2Proof.Machine
end

