-- ==== Sys2Proof/Machine/Teams.lean ====
section
/-! DEFINITION. Class 0xF: rendezvous (R241), device-side launches as they issue (R242, R243), and the words over
generations (R244, R245). -/

namespace Sys2Proof.Machine

/-! ### Rendezvous (R241) -/

def Team.rvAt (t : Team) (r : Nat) : Rv := tget .unset t.rv r
def Mach.setRv (m : Mach) (r : Nat) (x : Rv) : Mach := m.modTeam m.me.team (fun t => { t with rv := tset .unset t.rv r x })

def Mach.rvinitTrap (m : Mach) (r : Nat) : Option Trap :=
  match m.myTeam.rvAt r with
  | .opened _ a _ => if 0 < a then m.raise 0x23 0 else none
  | _ => none

def execRvinit (h : Hdr) (r : RvN) (n : BitVec 16) :=
  issueWord (.rvinit h r n) h (tileWord h (fun m => [m.rvinitTrap r.toNat]) (fun _ => none) (fun m => m.setRv r.toNat (.opened n.toNat 0 0)))

def Mach.rvarrTrap (m : Mach) (r : Nat) : Option Trap :=
  match m.myTeam.rvAt r with
  | .opened .. => none
  | _ => m.raise 0x23 0

def Group.rvDone (g : Group) (team r : Nat) (x : W64) : Group :=
  if g.team = team && g.status == .waiting (.rendezvous r) then { g with rvGot := some x } else g

/-- A round is complete: every group of the team that waits in it has its merge, one whose rows are spilled too. -/
def Mach.rvComplete (m : Mach) (r : Nat) (x : W64) : Mach :=
  let id := m.me.team
  let m := m.myTeam.cores.foldl (fun (m : Mach) c => m.modCore c (fun k => k.mapGroups (fun _ g => g.rvDone id r x))) (m.setRv r (.complete x))
  { m with shadow := tmap none (fun _ y => y.map (fun z => { z with groups := tmap Group.none (fun _ g => g.rvDone id r x) z.groups })) m.shadow }

def Mach.rvarrive (m : Mach) (r : Nat) (w : W64) : Mach :=
  match m.myTeam.rvAt r with
  | .opened n a x =>
    if a + 1 = n then m.rvComplete r (wMerge m x w) else m.setRv r (.opened n (a + 1) (wMerge m x w))
  | _ => m

def execRvarr (h : Hdr) (r : RvN) (a : S) :=
  issueWord (.rvarr h r a) h
    (tileWord h (fun m => [m.rvarrTrap r.toNat]) (fun _ => none) (fun m => m.rvarrive r.toNat (m.me.rdS m.tick a.toNat)))

def Mach.rvwaitTrap (m : Mach) (r : Nat) : Option Trap :=
  match m.me.rvGot, m.myTeam.rvAt r with
  | none, .unset => m.raise 0x23 0
  | _, _ => none

def Mach.rvwaitHold (m : Mach) (r : Nat) : Option (Mach × Why) :=
  match m.me.rvGot, m.myTeam.rvAt r with
  | none, .opened .. => some (m, .rendezvous r)
  | _, _ => none

/-- The merge of the round that the group waited for, else of the complete round. -/
def Mach.rvMerge (m : Mach) (r : Nat) : W64 :=
  match m.me.rvGot, m.myTeam.rvAt r with
  | some x, _ => x
  | none, .complete x => x
  | none, _ => 0

def execRvwait (h : Hdr) (d : S) (r : RvN) :=
  issueWord (.rvwait h d r) h (tileWord h (fun m => [m.rvwaitTrap r.toNat]) (fun m => m.rvwaitHold r.toNat)
    (fun m => m.modMe (fun g => { (g.putS d.toNat (m.rvMerge r.toNat)) with rvGot := none })))

/-! ### `launch` and `replay` (R242, R243) -/

/-- A global pointer to a region control block. -/
def rcbPtr (p : W64) : Bool := fld p 57 7 == 0 && decide (p.toNat % 256 = 0)

/-- A patch pointer: global or of the own scratchpad, aligned to 8 bytes. -/
def Mach.patchPtr (m : Mach) (p : W64) : Bool :=
  (fld p 57 7 == 0 && decide (p.toNat % 8 = 0)) || (m.ownOffset p 8 8).isSome

/-- The launch that the issuing group has in the queue. -/
def Mach.myLaunch (m : Mach) : Option DevLaunch :=
  (m.part m.myPart).dev.find? (fun d => d.core == m.cur.1 && d.slot == m.cur.2)

def Mach.launchTraps (m : Mach) (a : S) (b : Option S) (w : S) : List (Option Trap) :=
  let p := m.me.rdS m.tick a.toNat
  if m.myLaunch.isSome then []
  else
    [ if rcbPtr p then none else m.raise 0x10 p,
      match b with
      | some r => if m.patchPtr (m.me.rdS m.tick r.toNat) then none else m.raise 0x10 (m.me.rdS m.tick r.toNat)
      | none => none,
      m.presentTrap m.cur.1 m.myPart m.me.xm (m.me.rdS m.tick w.toNat) ]

/-- Places a launch in the partition's queue, or waits for space in it (R303). -/
def Mach.postLaunch (m : Mach) (rcb : Nat) (patch : Option W64) (w : W64) : Mach × Why :=
  if 1024 ≤ ((m.part m.myPart).dev.filter (fun d => d.ans.isNone)).length then (m, .launchQueue)
  else
    let (m, id) := m.fresh
    let d : DevLaunch := { id := id, core := m.cur.1, slot := m.cur.2, outId := id, rcb := rcb, patch := patch, w := w, parent := some m.myTeam.inst,
                           ctx := m.myCtx, ans := none }
    (m.modPart m.myPart (fun p => { p with dev := p.dev ++ [d] }), .launchAccept id)

/-- Presents (a witness of the core's own drains it: the block is read at its home, R272), queues the launch, and waits at the word until the
block has been checked. -/
def Mach.launchWait (m : Mach) (a : S) (b : Option S) (w : S) : Option (Mach × Why) :=
  match m.myLaunch with
  | some d => if d.ans.isSome then none else some (m, .launchAccept d.id)
  | none => match m.presentAway m.cur.1 m.cur.2 m.myPart (m.me.rdS m.tick w.toNat) with
    | .hold m why => some (m, why)
    | .refused => none
    | .ok m => some (m.postLaunch (m.me.rdS m.tick a.toNat).toNat (b.map (fun r => m.me.rdS m.tick r.toNat)) (m.me.rdS m.tick w.toNat))

/-- The accepted instance's number returns; a presentation refused elsewhere ends as R359 says. -/
def Mach.launchRun (m : Mach) (d w : S) : Mach :=
  match m.myLaunch with
  | none => m.presented (m.me.rdS m.tick w.toNat) id
  | some x =>
    (m.modPart m.myPart (fun p => { p with dev := p.dev.filter (fun y => y.id != x.id) })).modMe
      (fun g => g.addOuts x.outId [wS d.toNat (x.ans.getD 0)] true none)

def launchWord (h : Hdr) (d a : S) (b : Option S) (w : S) : Word :=
  tileWord h (fun m => m.launchTraps a b w) (fun m => m.launchWait a b w) (fun m => m.launchRun d w)

def execLaunch (h : Hdr) (d a w : S) := issueWord (.launch h d a w) h (launchWord h d a none w)
def execReplay (h : Hdr) (d a b w : S) := issueWord (.replay h d a b w) h (launchWord h d a (some b) w)

/-! ### `snap`, `genq`, `genrel`, `genrb` (R244, R245) -/

/-- The snap joins those that wait; both registers are outstanding until its epoch has closed. -/
def Mach.askSnap (m : Mach) (d g : S) : Mach :=
  let (m, id) := m.fresh
  (m.modPart m.myPart (fun p =>
    { p with ep := { p.ep with snaps := p.ep.snaps ++ [(m.cur.1, m.cur.2, id, d.toNat, g.toNat)] } })).modMe
    (fun x => x.addOuts id [wS d.toNat 0, wS g.toNat 0] false none)

def execSnap (h : Hdr) (d g : S) := issueWord (.snap h d g) h (wideWord h (fun m => m.askSnap d g))

/-- A long-latency result that is ready. -/
def Mach.answer (m : Mach) (d : S) (x : W64) : Mach :=
  let (m, id) := m.fresh
  m.modMe (fun g => g.addOuts id [wS d.toNat x] true none)

def execGenq (h : Hdr) (d a : S) :=
  issueWord (.genq h d a) h (wideWord h (fun m => m.answer d ((m.part m.myPart).genq (m.me.rdS m.tick a.toNat).toNat)))

def execGenrel (h : Hdr) (d a : S) :=
  issueWord (.genrel h d a) h (wideWord h (fun m =>
    let r := m.genrel m.myPart (m.me.rdS m.tick a.toNat).toNat
    r.1.answer d (BitVec.ofNat 64 r.2)))

def execGenrb (h : Hdr) (d a : S) :=
  issueWord (.genrb h d a) h (wideWord h (fun m =>
    let r := m.genrb m.myPart m.myTeam.inst (m.me.rdS m.tick a.toNat).toNat
    r.1.answer d (BitVec.ofNat 64 r.2)))

end Sys2Proof.Machine
end

