-- ==== Sys2Proof/Machine/Fetch.lean ====
section
/-! DEFINITION. How a core chooses a group and fetches its next word (R70, R138, R250, R251, R254), and what a memory word
is, for the steps that perform it later. -/

namespace Sys2Proof.Machine

/-! ### The active set (R250, R251) -/

def Group.isPending (g : Group) : Bool := g.status == .pending && !g.halted

/-- Its next word need not park, and no fixed-latency result that the word reads is still being produced (R248). -/
def Group.isReady (g : Group) (now : Nat) : Bool := !g.unready && decide (g.busyUntil ≤ now)

/-- The cycle since which it has been continuously ready (R250). -/
def Group.age (g : Group) : Nat := max g.readyAge g.busyUntil

/-- Slot `a` with group `x` is chosen before slot `b` with group `y`: older, or of one age and next in turn after slot `after` (R250). -/
def ahead (after a b : Nat) (x y : Group) : Bool :=
  let dist (n : Nat) : Nat := (n + 32 - after % 32 - 1) % 32
  decide (x.age < y.age) || (x.age == y.age && decide (dist a < dist b))

/-- The slot of the oldest group that satisfies `f`; ties go round-robin, starting after `after`. -/
def Core.oldest (k : Core) (f : Nat → Group → Bool) (after : Nat) : Option Nat :=
  ((k.groups.filter (fun x => f x.1 x.2)).foldl (fun (o : Option (Nat × Group)) x => match o with
    | none => some x
    | some y => if ahead after x.1 y.1 x.2 y.2 then some x else some y)
    none).map (·.1)

/-- The pending group that takes a free place: the ready one with the oldest ready age. Of two with one age, the one that joined the pending
set in an earlier step is ahead, so that a group that yields or is rotated out is behind those already there (R133, R251); of two that joined
in one step, the lower slot (DESIGN CHOICE, log 85: R251 gives no rule). -/
def Core.nextPending (k : Core) (now : Nat) : Option Nat :=
  ((k.groups.filter (fun x => x.2.isPending && x.2.isReady now)).foldl (fun (o : Option (Nat × Group)) x => match o with
    | none => some x
    | some y => if x.2.age < y.2.age || (x.2.age == y.2.age && decide (x.2.readyTick < y.2.readyTick)) then some x else some y) none).map (·.1)

/-- Free places of the active set are taken by ready pending groups. -/
def Core.fill (now : Nat) : Nat → Core → Core
  | 0, k => k
  | n + 1, k =>
    if 8 ≤ k.activeCount then k
    else match k.nextPending now with
      | none => k
      | some s =>
        Core.fill now n { k with groups := tset Group.none k.groups s { (tget Group.none k.groups s) with status := .active, since := now } }

def Mach.fillActive (m : Mach) (c : Nat) : Mach := m.modCore c (Core.fill m.clock 8)

/-- The group that a core issues from first, of those that satisfy `f`: the one longest ready. -/
def Mach.choose (m : Mach) (c : Nat) (f : Nat → Bool) : Option Nat :=
  (m.core c).oldest (fun k g => f k && g.isActive && decide (g.busyUntil ≤ m.clock)) (m.core c).lastWon

/-! ### Fetch (R70, R138) -/

inductive Fetched where
  | word (m : Mach) (w : BitVec 128)
  | fault (m : Mach)
  | poison (m : Mach) (pa : Nat)
  | hold (m : Mach)
  /-- another part refuses it, by way of this port (R355) -/
  | refused (port : Nat)

def wordOf (bs : List Byte) : BitVec 128 := BitVec.ofNat 128 (natOf bs)

/-- The 16 bytes of a word as the core finds them: its own dirty bytes over the home's. -/
def Mach.codeBytes (m : Mach) (c pa : Nat) : List Byte :=
  match (m.core c).line? (lineOf pa) with
  | none => m.homeBytes pa 16
  | some x => (List.range 16).map (fun i => if bitAt x.dirty (pa % 128 + i) then x.byte (pa % 128 + i) else m.homeByte (pa + i))

def Mach.holdWord (m : Mach) (c p ctx a : Nat) (w : BitVec 128) : Mach := m.modCore c (fun k => { k with ibuf := (p, ctx, a, w) :: k.ibuf })

/-- The word at `pc`: one that the core holds, else read from memory; a write of the core's own that a close holds at the home is waited for
(R138, R278). A word of another part or of the host is read there each time: no core keeps remote memory (R1, R271). -/
def Mach.fetch (m : Mach) (c p ctx : Nat) (pc : W64) : Fetched :=
  if fld pc 53 11 ≠ 0 then .fault m
  else
    let va := 16 * pc.toNat
    match m.translate c p ctx va false with
    | none => .fault (m.walked p ctx va)
    | some e =>
      let pa := leafBase e.leaf + va % e.size
      let m := m.cacheTlb c e
      if !leafX e.leaf then .fault m
      else match (m.core c).ibuf.find? (fun x => x.1 == p && x.2.1 == ctx && x.2.2.1 == va) with
        | some x => .word m x.2.2.2
        | none =>
          if homeOf e.leaf ≠ m.partno.toNat then
            (if m.farPaused (homeOf e.leaf) pa then .hold m
             else if m.farRefused (homeOf e.leaf) pa then .refused (m.exitPort (homeOf e.leaf) (lineOf pa))
             else .word m (wordOf (m.farBytes (homeOf e.leaf) pa 16)))
          else if badPa pa then .fault m
          else match m.keptFrom c (lineOf pa) with
            | some k => .hold (m.refuse k (lineOf pa))
            | none =>
              let m := (m.reachHome (m.reachOf p ctx pa e 0) (lineOf pa) []).readBytes pa 16
              if m.heldFrom p c (lineOf pa) then .hold m
              else if m.poisonedAt c pa 16 then .poison m pa
              else
                let w := wordOf (m.codeBytes c pa)
                .word (m.holdWord c p ctx va w) w

/-- What keeps a core from the line of a word that it must read: another core's pin, or a tripped stack. -/
def Mach.fetchKept (m : Mach) (c p ctx : Nat) (pc : W64) : Option (Nat × Nat) :=
  match m.translate c p ctx (16 * pc.toNat) false with
  | none => none
  | some e =>
    let pa := leafBase e.leaf + 16 * pc.toNat % e.size
    if homeOf e.leaf ≠ m.partno.toNat then none else (m.keptFrom c (lineOf pa)).map (fun k => (k, lineOf pa))

/-- J of a word (R60). -/
def joinBit (w : BitVec 128) : Bool := bitAt w 63

/-- Whether a join word at the group's pc meets its top entry (R254). -/
def Group.atJoin (g : Group) : Bool :=
  match g.recs with
  | [] => false
  | e :: _ => !e.phase || !e.jv || g.pc == e.ja.setWidth 64

/-- What the group's next turn is. -/
inductive NextOf where
  | join (m : Mach)
  | issue (m : Mach) (i : Instr)
  | trap (m : Mach) (t : Trap)
  | poison (m : Mach) (pa : Nat)
  | hold (m : Mach)
  | refused (port : Nat)

/-- DETAIL of cause 0x01: of a `fmtset` immediate form with a reserved code, the value that it would place (R153); else 0. -/
def illegalDetail (w : BitVec 128) : W64 :=
  let r := Raw.unpack w
  let v := fld r.imm 0 13
  let one := fld r.imm 0 4
  if r.op ≠ 0x64 ∨ r.g = 1 then 0
  else if r.sub = 0 then (if badFmt v then v.setWidth 64 else 0)
  else if (r.sub = 2 ∨ r.sub = 3 ∨ r.sub = 4) ∧ 9 < one.toNat then one.setWidth 64
  else 0

/-- A pattern that does not decode traps at once; its SW bit waits for nothing, for it is no word (DESIGN CHOICE, log 86). -/
def Mach.nextOf (m : Mach) (c k : Nat) : NextOf :=
  let g := m.group c k
  let t := m.team g.team
  match m.fetch c t.part t.ctx g.pc with
  | .fault m => .trap m { cause := 2, lanes := g.xm, detail := 0 }
  | .poison m pa => .poison m pa
  | .hold m => .hold m
  | .refused port => .refused port
  | .word m w =>
    if joinBit w && g.atJoin then .join m
    else match decode w with
      | some i => .issue m i
      | none => .trap m { cause := 1, lanes := g.xm, detail := illegalDetail w }

/-! ### Memory words by name -/

/-- The effect of a word of classes 0x9 to 0xC that may be performed after its issue. -/
def memWordOf : Instr → Option MemWord
  | .ld h z u d ad w at_ => some (ldWord h (nativeSpace at_) z u d ad w at_)
  | .ldG h _ z d ad w at_ => some (ldWord h none z false d ad w at_)
  | .lds h z d base off w at_ => some (ldsWord h (nativeSpace at_) z d base off w at_)
  | .ldsG h _ z d base off w at_ => some (ldsWord h none z d base off w at_)
  | .ldx h n f d ad w at_ => some (ldxWord h (nativeSpace at_) n f d ad w at_)
  | .ldxG h _ n f d ad w at_ => some (ldxWord h none n f d ad w at_)
  | .ldt h z d p ad w at_ => some (ldtWord h (nativeSpace at_) z d p ad w at_)
  | .ldtG h _ z d p ad w at_ => some (ldtWord h none z d p ad w at_)
  | .st h z u wo ad x at_ => some (stWord h (nativeSpace at_) z u wo ad x at_)
  | .stG h _ z wo ad x at_ => some (stWord h none z false wo ad x at_)
  | .sts h z wo base x off at_ => some (stsWord h z wo base x off at_)
  | .stt h z wo p ad x at_ => some (sttWord h z wo p ad x at_)
  | .stx h n f wo ad x at_ => some (stxWord h (nativeSpace at_) n f wo ad x at_)
  | .stxG h _ n f wo ad x at_ => some (stxWord h none n f wo ad x at_)
  | .atom h k un w64 d ad x wo w at_ => some (atomWord h (nativeSpace at_) k un w64 d ad x wo w at_)
  | .atomG h _ k un w64 d ad x wo w at_ => some (atomWord h none k un w64 d ad x wo w at_)
  | .fatom h k d ad x wo w at_ => some (fatomWord h (nativeSpace at_) k d ad x wo w at_)
  | .fatomG h _ k d ad x wo w at_ => some (fatomWord h none k d ad x wo w at_)
  | .atoms h k un w64 d base x wo w at_ => some (atomsWord h (nativeSpace at_) k un w64 d base x wo w at_)
  | .atomsG h _ k un w64 d base x wo w at_ => some (atomsWord h none k un w64 d base x wo w at_)
  | .waita h ne w64 d ad x timeout at_ => some (waitaWord (.waita h ne w64 d ad x timeout at_) h (nativeSpace at_) ne w64 d ad x timeout at_)
  | .waitaG h n ne w64 d ad x timeout at_ => some (waitaWord (.waitaG h n ne w64 d ad x timeout at_) h none ne w64 d ad x timeout at_)
  | .wb h dram d ad => some (wbWord h dram d ad)
  | .mzero h d a w pages => some (rowWord h d a none w pages)
  | .mcopy h d a b w pages => some (rowWord h d a (some b) w pages)
  | .inv h ms ad => some (invWord h ms ad)
  | .chainCnt h d c => some (chainCntWord h d c)
  | _ => none

def isWaita : Instr → Bool
  | .waita .. | .waitaG .. => true
  | _ => false

/-- A step that the part takes by itself, and not a word of a program: it has no encoding. -/
def isStep (i : Instr) : Bool := (toRaw i).op == 0xFF

end Sys2Proof.Machine
end

