-- ==== Sys2Proof/Machine/KernelSteps.lean ====
section
/-! DEFINITION. The part's steps on a group: joins (R254), release of slots (R69), returning results (R258, R259), waits that
end (R248), rotation (R251), sleeps (R132) and replays (R264). -/

namespace Sys2Proof.Machine

/-! ### RECONVERGENCE_JOIN -/

/-- One round of R254's loop on the top entry, the join word having been reached. -/
def Mach.joinRound (m : Mach) (c k : Nat) : Mach :=
  match (m.group c k).recs with
  | [] => m
  | e :: _ =>
    if e.phase then m.merge c k
    else
      let m := m.takePhase c k true
      if (m.group c k).xm = 0 then m.merge c k else m

/-- The group's next word is a join word that meets its top entry. -/
def Mach.joins (m : Mach) (c k : Nat) : Bool :=
  (m.group c k).isActive && (match m.nextOf c k with
    | .join _ => true
    | _ => false)

def execReconvergenceJoin (c k : Nat) :=
  stepIf (fun m => m.joins c k) (fun m => match m.nextOf c k with
    | .join m => m.joinRound c k
    | _ => m)

/-! ### GROUP_SLOT_RELEASE -/

/-- The team's last group has gone: what it held is released (R213, R224, R231). -/
def Mach.releaseTeam (m : Mach) (id : Nat) : Mach :=
  let t := m.team id
  let m := t.cores.foldl (fun m c => m.modCore c (fun k =>
    { k.releaseTeam id with teams := k.teams.filter (fun x => x.2 != id) })) m
  let m := if t.ended then m else m.modInst t.inst (fun x =>
    let n := x.teamsDone + 1
    { x with teamsDone := n, state := if x.state = .running && n == x.grid && decide (0 < x.children) then .children else x.state })
  m.setTeam id Team.none

/-- No group of the team is left, resident or spilled. -/
def Mach.teamEmpty (m : Mach) (id : Nat) : Bool := (m.team id).cores.all (fun c => (m.heldSlots c id).isEmpty)
/-- Something of the team is spilled. -/
def Mach.teamAway (m : Mach) (id : Nat) : Bool := (m.team id).cores.any (fun c => (m.shadowOn id c).isSome)
def Mach.teamQueued (m : Mach) (id : Nat) : Bool := (m.core (m.team id).core).queue.any (fun q => q.1 == id)

def Group.finished (g : Group) : Bool := g.team != 0 && g.status == .ended && g.outs.isEmpty

/-- The last slot waits until every matrix word of the team has retired (R231), its stores have entered the L1 (R270), and what is spilled of the
team is back. -/
def Mach.slotFree (m : Mach) (c k : Nat) : Bool :=
  let g := m.group c k
  g.finished && !(m.core c).sbuf.any (fun x => x.team == g.team) &&
      !((m.setGroup c k Group.none).teamEmpty g.team && (m.teamQueued g.team || m.teamAway g.team))

def Mach.releaseSlot (m : Mach) (c k : Nat) : Mach :=
  let id := (m.group c k).team
  let m := m.setGroup c k Group.none
  if m.teamEmpty id then m.releaseTeam id else m

def execGroupSlotRelease (c k : Nat) := stepIf (fun m => m.slotFree c k) (fun m => m.releaseSlot c k)

/-! ### Words performed after their issue (R264, R355) -/

/-- What a performed word has found goes into the destinations that it holds outstanding. -/
def Mach.fillOut (m : Mach) (c k id : Nat) (ws : List PWrite) (ready : Bool) (stamp : Option (BitVec 24)) : Mach :=
  let g := m.group c k
  m.setGroup c k { g with outs := g.outs.map (fun o => if o.id = id then
    { o with ready := ready, stamp := stamp, writes := o.writes.filterMap (fun w => (lastWrite ws w.dst).map (fun x => { w with val := x }))
        } else o) }

/-- The word on its operands as they stood at issue. -/
def Mach.performLater (m : Mach) (c : Nat) (e : LogEntry) (away : Bool) (seq : Option (BitVec 19 × BitVec 24)) : MemRes :=
  match memWordOf e.word with
  | none => .ok m [] [] true none
  | some w => w.eff m { core := c, slot := e.slot, g := e.g, id := e.id, away := away, again := true, seq := seq, seen := e.seen }

def Mach.setRemote (m : Mach) (id : Nat) (x : Option Remote) : Mach := { m with remotes := tset none m.remotes id x }
def Mach.remoteAt (m : Mach) (id : Nat) : Option Remote := tget none m.remotes id

/-- A word that is performed later waits; a write of its that waits for reserve space counts as stalled (R367). -/
def Mach.waitsLater (m : Mach) (why : Why) : Mach :=
  match why with
  | .reserve pg who => m.countStall pg who
  | _ => m

/-- A cause of a word performed after its issue; a team that has ended takes none (R390). -/
def Mach.trapLater (m : Mach) (c : Nat) (e : LogEntry) (t : Trap) : Mach :=
  if (m.team e.g.team).ended then m.fillOut c e.slot e.id [] true none else takeTrap m c e.slot e.pc t
def Mach.poisonLater (m : Mach) (c : Nat) (e : LogEntry) (pa : Nat) (lanes : W64) : Mach :=
  if (m.team e.g.team).ended then m.fillOut c e.slot e.id [] true none else m.consumePoison c e.slot pa e.pc lanes

/-- The result of a word sent outside the part has come: the access is performed (R271, R355). A page that has gone meanwhile defers the
word as far as the operand log has room (R263). -/
def Mach.remoteDo (m : Mach) (id : Nat) (r : Remote) (e : LogEntry) : Mach :=
  let t := m.team e.g.team
  match m.performLater r.core e true r.seq with
  | .ok m now later ready st => (m.setRemote id none).fillOut r.core r.slot id (now ++ later) ready st
  | .park m why => m.waitsLater why
  | .fault _ _ =>
    if t.ended then (m.setRemote id none).fillOut r.core r.slot id [] true none
    else if m.logRoom r.core t.part t.ctx then (m.setRemote id none).modCore r.core (fun k =>
        { k with log := k.log.filter (fun x => x.id != id) ++ [e] })
    else m
  | .ring x => m.holdAppend t.part x
  | .away .. => m
  | .held m parts q ep later st => ((m.setRemote id none).holdAtomic t.part r.core e parts q ep).setGroup r.core r.slot
      ((m.group r.core r.slot).fillPart id later false st)
  | .poison m pa lanes => (m.setRemote id none).poisonLater r.core e pa lanes
  | .trap x => (m.setRemote id none).trapLater r.core e x

/-! ### LONG_LATENCY_RETURN (R258, R259, R279) -/

/-- An earlier result of the same register is overtaken by the one that returns. -/
def Group.overtakenBy (g : Group) (o : Outst) : Group :=
  let before := g.outs.takeWhile (fun x => x.id != o.id)
  let rest := g.outs.dropWhile (fun x => x.id != o.id)
  { g with outs := (o.writes.filter (fun w => w.late.isNone)).foldl (fun l w => overtake l w.dst (g.value w.dst)) before ++ rest }

def Mach.returnOut (m : Mach) (c k id : Nat) : Mach :=
  match (m.group c k).outs.find? (fun o => o.id == id) with
  | none => m
  | some o =>
    if !o.ready then m
    else
      let adopted := match o.stamp with
        | none => some m
        | some e => m.adoptEpoch c (m.team (m.group c k).team).part e
      match adopted with
      | none => m.stallAdopt c (m.team (m.group c k).team).part
      | some m =>
        let g := o.writes.foldl Group.deliver ((m.group c k).overtakenBy o)
        (m.setGroup c k { g with outs := g.outs.filter (fun x => x.id != id) }).modCore c
          (fun x => { x with log := x.log.filter (fun e => !(e.slot == k && e.id == id)) })

/-- The access of a word sent away, or of a load that performs late, may be performed: its links are up, and no request that goes before it
is under way (R269, R359). -/
def Mach.remoteReady (m : Mach) (c k id : Nat) : Bool :=
  match m.remoteAt id with
  | none => false
  | some r => r.core == c && r.slot == k && r.entry.isSome && !m.linkShut r.ports && m.remoteFirst r

def Mach.remoteReturn (m : Mach) (c k id : Nat) : Mach :=
  if m.remoteReady c k id then
    (match m.remoteAt id with
     | some r => (match r.entry with
       | some e => m.remoteDo id r e
       | none => m)
     | none => m)
  else m

def execLongLatencyReturn (c k id : Nat) :=
  stepIf (fun m => (m.group c k).outs.any (fun o => o.id == id && (o.ready || m.remoteReady c k id)))
    (fun m => (m.remoteReturn c k id).returnOut c k id)

/-! ### GROUP_UNPARK (R248) -/

/-- What a presentation waits for has come, and the adoption that it makes need not wait (R81); a witness of the core's own, presented for work done
away from the core, waits until that work has performed its writes (R272). -/
def Mach.presentOver (m : Mach) (c p : Nat) (w : W64) : Bool :=
  match m.classify c p w with
  | .own e => (m.adoptEpoch c p e).isSome && (performed w || !m.workLeft p c (wSeq w) e)
  | .past e => (m.adoptEpoch c p e).isSome
  | _ => m.wMeets c p w != 0

def isPoisoned (x : Option Tile) : Bool := x.any (fun y => y.st == .poisoned)

/-- The condition that the group waits for has cleared. -/
def Mach.cleared (m : Mach) (c k : Nat) (why : Why) : Bool :=
  let g := m.group c k
  let p := (m.team g.team).part
  let ep := (m.part p).ep
  match why with
  | .switch => g.outs.isEmpty
  | .remoteLoad => !m.remotes.any (fun kx => match kx.2 with
      | some r => r.core == c && r.entry.isSome && (r.seq.isSome && r.lines.any (fun l => l.1 == m.partno.toNat) || r.slot == k && r.seq.isNone)
      | none => false)
  | .outsFull => decide (g.outs.length < 32)
  | .tile t full => isPoisoned (m.tileOf c g.team t) || (if full then readyOnly (m.tileOf c g.team t) else notBusy (m.tileOf c g.team t))
  | .pairTile ts =>
    let on (t : Nat) := (m.team g.team).cores.map (fun k => m.tileOf k g.team t)
    ts.any (fun t => (on t.1).any isPoisoned) || ts.all (fun t => (on t.1).all (if t.2 then readyOnly else notBusy))
  | .twait t => isPoisoned (m.tileOf c g.team t) || readyOnly (m.tileOf c g.team t)
  | .chunk t n => match m.tileOf c g.team t with
      | some x => x.st == .ready || x.st == .poisoned || decide (n < x.chk.toNat)
      | none => true
  | .ringTiles t mask =>
    let ts := ((List.range 8).filter (fun i => mask.testBit i)).map (fun i => (m.core (8 * gangOf c + i)).tile t)
    ts.any isPoisoned || ts.all notBusy
  | .matrixQueue => decide (stepsQueued (m.core (leaderOf c)) < 8)
  | .copiesFull => decide (m.copiesOf c < 64)
  | .streamSpace q => decide (((m.core c).stream q).room ≠ 0) || ((m.core c).stream q).owner != some g.team
  | .launchQueue => decide (((m.part p).dev.filter (fun d => d.ans.isNone)).length < 1024)
  | .launchAccept id => (m.part p).dev.all (fun d => d.id != id || d.ans.isSome)
  | .deferred => !m.hasDeferred c k
  | .logFull => m.logRoom c p (m.team g.team).ctx
  | .present w | .witness w => m.presentOver c p w
  | .pinned o ln => (m.widenHeld ln).isNone && !m.demandStops ln && (match (m.core o).line? ln with
      | some x => !x.refuses
      | none => true)
  | .heldClose => ep.idle && !(m.part p).held.any (fun h => h.src == c)
  | .seqLimit e => (m.core c).epoch != e || decide ((m.core c).taken < 2 ^ 18 - 1)
  | .snapClose e => !ep.snapHolds c e
  | .siteFill d n => ((m.core c).siteLine p (m.team g.team).ctx d n).isSome
  | .siteOwed => !m.sitesOwed c k
  | .rendezvous r => g.rvGot.isSome || (match (m.team g.team).rvAt r with
      | .opened .. => false
      | _ => true)
  | .dirtyRing => (m.part p).drsize == 0 || decide (((m.part p).drtail - (m.part p).drhead).toNat < (m.part p).drsize)
  | .reserve pg _ | .siteRoom pg => !m.noRoom pg
  | .removal .. => !(m.part p).syncs.any (fun x => x.team == g.team && x.grp == g.grp && !x.done)
  | .waita => g.waita.isNone && !m.remotes.any (fun kx => match kx.2 with
      | some r => r.core == c && r.slot == k && (match r.entry with
        | some e => isWaita e.word
        | none => false)
      | none => false)
  | .brkStop => false

def Group.why (g : Group) : Option Why :=
  match g.status with
  | .parked w => some w
  | .waiting w => some w
  | _ => Option.none

def Mach.wake (m : Mach) (c k : Nat) : Mach :=
  let g := m.group c k
  m.setGroup c k { g with status := .pending, readyAge := m.clock, readyTick := m.tick, unready := false }

def execGroupUnpark (c k : Nat) :=
  stepIf (fun m => !(m.group c k).halted && (match (m.group c k).why with
    | some w => m.cleared c k w
    | none => false)) (fun m => m.wake c k)

/-! ### ACTIVE_SET_ROTATION (R251), SLEEP_EXPIRY (R132) -/

/-- Ready groups in the pending set. -/
def Core.pendingReady (k : Core) (now : Nat) : Nat := (k.groups.filter (fun x => x.2.isPending && x.2.isReady now)).length

/-- Has been in the active set for 128 cycles, the longest of all such, while a ready pending group has no free place. -/
def Mach.rotates (m : Mach) (c k : Nat) : Bool :=
  let g := m.group c k
  g.isActive && decide (g.since + 128 ≤ m.clock) && decide (8 - (m.core c).activeCount < (m.core c).pendingReady m.clock) &&
    (m.core c).groups.all (fun x => !x.2.isActive || decide (g.since < x.2.since) || (x.2.since == g.since && decide (k ≤ x.1)))

def execActiveSetRotation (c k : Nat) := stepIf (fun m => m.rotates c k) (fun m => (m.wake c k).fillActive c)

def execSleepExpiry (c k : Nat) :=
  stepIf (fun m => !(m.group c k).halted && (match (m.group c k).status with
    | .sleeping t => decide (t ≤ m.clock)
    | _ => false)) (fun m => m.wake c k)

/-! ### OPERAND_LOG_REPLAY (R264) -/

def Mach.logDone (m : Mach) (c id : Nat) : Mach :=
  m.modCore c (fun k => { k with log := k.log.map (fun e => if e.id = id then { e with done := true } else e) })

/-- Results that a deferred word has as it replays, though the word goes on elsewhere (R180). -/
def Group.deliverNow (g : Group) (id : Nat) (ws : List PWrite) : Group :=
  match g.outs.find? (fun o => o.id == id) with
  | Option.none => g
  | some o =>
    let mine := o.writes.filterMap (fun w => (lastWrite ws w.dst).map (fun x => { w with val := x }))
    let g := mine.foldl Group.deliver (g.overtakenBy { o with writes := mine })
    { g with outs := g.outs.map (fun y => if y.id = id then { y with writes := y.writes.filter (fun w => (lastWrite ws w.dst).isNone) } else y) }

/-- The entry is replayed; where the image declined a page fault that still stands, cause 0x11 at the deferred word. -/
def Mach.replay (m : Mach) (c : Nat) (e : LogEntry) (resolved : Bool) : Mach :=
  match resolved, m.performLater c e false none with
  | false, .fault lanes ps => takeTrap m c e.slot e.pc { cause := 0x11, lanes := lanes, detail := ps.headD 0 }
  | false, _ => m
  | true, .ok m now later ready st => ((m.fillOut c e.slot e.id (now ++ later) ready st).logDone c e.id)
  | true, .park m why => m.waitsLater why
  | true, .fault _ _ => m
  | true, .held m parts q ep later st => ((m.holdAtomic (m.team e.g.team).part c e parts q ep).setGroup c e.slot
      ((m.group c e.slot).fillPart e.id later false st)).logDone c e.id
  | true, .ring t => m.holdAppend (m.team e.g.team).part t
  | true, .away m a => (((m.setRemote e.id (some (m.request c e.slot e a))).setGroup c e.slot ((m.group c e.slot).deliverNow e.id a.now)).logDone
      c e.id)
  | true, .poison m pa lanes => m.consumePoison c e.slot pa e.pc lanes
  | true, .trap t => takeTrap m c e.slot e.pc t

/-- The group has a write that waits for reserve space: it goes on as space frees, through a halt too (R379). -/
def Mach.reserveWaits (m : Mach) (c k : Nat) : Bool := (m.part (m.team (m.group c k).team).part).waitsOn.any (fun x => x.2 == whoGroup c k)

/-- Entries of a halted context wait for it to resume (R267), but for a write that waits for reserve space. -/
def execOperandLogReplay (c idx : Nat) (resolved : Bool) :=
  stepIf (fun m => match (m.core c).log[idx]? with
    | some e => !e.done && (!(m.group c e.slot).halted || m.reserveWaits c e.slot)
    | none => false)
    (fun m => match (m.core c).log[idx]? with
      | some e => m.replay c e resolved
      | none => m)

end Sys2Proof.Machine
end

