-- ==== Sys2Proof/Machine/EpochSteps.lean ====
section
/-! DEFINITION. Drains (R273), forced widens (R188), and the close of an epoch (R275, R277 to R279) with the generation that a
snap closes (R244, R362, R363). -/

namespace Sys2Proof.Machine

/-! ### Drains -/

def Mach.drainAt (m : Mach) (id : Nat) : Option Drain := tget none m.drains id
def Mach.setDrain (m : Mach) (id : Nat) (x : Option Drain) : Mach := { m with drains := tset none m.drains id x }

/-- Partition of a drain: that of the core it is pulled from. -/
def Mach.drainPart (m : Mach) (d : Drain) : Nat := (m.partOfCore d.core).getD 0

/-- Two drains of one core that are pending together are served as one, up to the larger number (R273). -/
def Drain.joins (d y : Drain) : Bool := y.core == d.core && y.epoch == d.epoch && !y.written

def Mach.drainUpTo (m : Mach) (d : Drain) : BitVec 19 :=
  m.drains.foldl (fun s kd => match kd.2 with
    | some y => if d.joins y && seqUpTo s y.seq then y.seq else s
    | none => s) d.seq

/-- The core writes back what a drain covers, and with it what the drains pending beside it cover. -/
def Mach.serveDrain (m : Mach) (d : Drain) : Mach :=
  let s := m.drainUpTo d
  match m.drainLines d.core s d.epoch with
  | some m => { m with drains := tmap none (fun _ x => x.map (fun y => if d.joins y then { y with seq := s, written := true } else y)) m.drains }
  | none => m.stallDrain d.core s d.epoch

def execDrain (id : Nat) :=
  stepIf (fun m => match m.drainAt id with
    | some d => !d.written && !m.closeOwed (m.drainPart d) d.core
    | none => false)
    (fun m => match m.drainAt id with
      | some d => m.serveDrain d
      | none => m)

/-- The core has performed every covered write: none is left, and none is held at a home. A drain of the epoch after one that closes
waits for DONE as well (R287). -/
def Mach.drained (m : Mach) (d : Drain) : Bool :=
  d.written && !m.workLeft (m.drainPart d) d.core d.seq d.epoch && (match (m.part (m.drainPart d)).ep.closing with
    | some e => e == d.epoch
    | none => true)

def execDrainComplete (id : Nat) :=
  stepIf (fun m => match m.drainAt id with
    | some d => m.drained d
    | none => false)
    (fun m => match m.drainAt id with
      | some d => (m.setDrain id none).modCore d.byCore (fun k => k.noteSatisfied d.w m.tick)
      | none => m)

/-! ### PIN_FORCED_WIDEN (R188) -/

def execPinForcedWiden (c ln : Nat) :=
  stepIf (fun m => match (m.core c).line? ln with
    | some x => x.pinned && (match x.refusedAt with
      | some t => decide (t + 65536 ≤ m.clock)
      | none => false)
    | none => false)
    (fun m => (m.forceWiden c ln).getD (m.stallLines c [ln]))

/-! ### The start of a close (R275) -/

/-- The open epoch's close is demanded, by its timer, a presentation or a snap. -/
def Epochs.wanted (ep : Epochs) : Bool := ep.demands.contains ep.openEpoch || !ep.snaps.isEmpty

def Epochs.spaced (ep : Epochs) (now : Nat) : Bool :=
  match ep.lastStart with
  | none => true
  | some t => decide (t + 512 ≤ now)

def execEpochTimerExpiry (part : Nat) :=
  stepIf (fun m => (m.part part).v && (m.part part).ep.closing.isNone && decide ((m.part part).ep.openedAt + 8192 ≤ m.clock))
    (fun m => m.demandClose part (m.part part).ep.openEpoch)

/-- A snap that the partition cannot take: both registers receive the fail witness 4, and nothing closes for it (R244). -/
def Mach.failSnaps (m : Mach) (p : Nat) : Mach :=
  let m' := (m.part p).ep.snaps.foldl (fun (m : Mach) s => m.fillOut s.1 s.2.1 s.2.2.1 [wS s.2.2.2.1 (failW 4), wS s.2.2.2.2 (failW 4)] true none) m
  m'.modPart p (fun x => { x with ep := { x.ep with snaps := [] } })

/-- CLOSE(e) leaves the controller and the next epoch opens; the core of a snap takes it up at once (R244, R277). -/
def Mach.beginClose (m : Mach) (p : Nat) : Mach :=
  let ep := (m.part p).ep
  let e := ep.openEpoch
  let m := m.modPart p (fun x => { x with ep :=
    { ep with closing := some e, snap := !ep.snaps.isEmpty, openedAt := m.clock, lastStart := some m.clock,
              demands := ep.demands.filter (fun d => d != e), coresDone := [], enginesDone := [], holding := [], undone := [] } })
  match ep.snaps with
  | s :: _ => (m.adoptEpoch s.1 p (e + 1)).getD m
  | [] => m

def Mach.startClose (m : Mach) (p : Nat) : Mach :=
  let m := if !(m.part p).ep.snaps.isEmpty && (m.part p).snapFull then m.failSnaps p else m
  if (m.part p).ep.wanted then m.beginClose p else m

def Mach.mayClose (m : Mach) (p : Nat) : Bool :=
  (m.part p).v && (m.part p).ep.idle && (m.part p).ep.wanted && (m.part p).ep.spaced m.clock

/-- A demand that waited for the 512 cycles starts its close. -/
def execCloseSpacingExpiry (part : Nat) :=
  stepIf (fun m => m.mayClose part && (m.part part).ep.lastStart.isSome) (fun m => m.startClose part)
def execCloseEpoch (part : Nat) := stepIf (fun m => m.mayClose part) (fun m => m.startClose part)

/-! ### CLOSE and DONE at the cores, the homes and the engines (R277, R278) -/

/-- The core adopts e + 1 and writes back its dirty device lines as they stand. -/
def Mach.closeCore (m : Mach) (p c : Nat) (e : BitVec 24) : Mach :=
  match m.adoptEpoch c p (e + 1) with
  | none => m.stallAdopt c p
  | some m1 =>
    if (m1.part p).ep.coresDone.contains c then m1
    else match m1.closeAtCore c e (m1.part p).ep.snap with
      | none => m1.stallClose c e (m1.part p).ep.snap
      | some m2 => m2.modPart p (fun x => { x with ep := { x.ep with coresDone := c :: x.ep.coresDone } })

def execCloseReceipt (core : Nat) :=
  stepIf (fun m => match m.partOfCore core with
    | some p => m.closeOwed p core
    | none => false)
    (fun m => match m.partOfCore core with
      | some p => match (m.part p).ep.closing with
        | some e => m.closeCore p core e
        | none => m
      | none => m)

def execCloseHoldAtHome (slice : Nat) :=
  stepIf (fun m => match m.partOf slice with
    | some p => (m.part p).ep.closing.isSome && !(m.part p).ep.holding.contains slice
    | none => false)
    (fun m => match m.partOf slice with
      | some p => m.modPart p (fun x => { x with ep := { x.ep with holding := slice :: x.ep.holding } })
      | none => m)

/-- Writes of engines and of row paths that belong to an epoch up to `e`. -/
def Mach.oldWork (m : Mach) (p : Nat) (e : BitVec 24) : Bool :=
  m.copies.any (fun kx => match kx.2 with
    | some x => x.part == p && x.kind == .out && x.seq.isSome && upTo e x.epoch
    | none => false) ||
  m.rowOps.any (fun kx => match kx.2 with
    | some x => x.part == p && upTo e x.epoch
    | none => false)

def execEngineCloseReport (part engine : Nat) :=
  stepIf (fun m => match (m.part part).ep.closing with
    | some e => decide (engine < (m.part part).eng) && !(m.part part).ep.enginesDone.contains engine && !m.oldWork part e
    | none => false)
    (fun m => m.modPart part (fun x => { x with ep := { x.ep with enginesDone := engine :: x.ep.enginesDone } }))

def Part.slices (_ : Part) (p size : Nat) : List Nat := (List.range size).map (fun i => p + i)

/-- The cores of a partition: of its own slices that are not lent, and of the slices lent to it (R346). -/
def Mach.coresOf (m : Mach) (p : Nat) : List Nat := (List.range 1152).filter (fun c => m.partOfCore c == some p)

/-- A word of an epoch up to `e`, performed away from its core, has writes to this part before it (R187, R277). -/
def Mach.awayWrites (m : Mach) (p : Nat) (e : BitVec 24) : Bool :=
  m.remotes.any (fun kr => match kr.2 with
    | some r => (match r.entry, r.seq with
      | some y, some (_, x) => (m.team y.g.team).part == p && upTo e x && r.lines.any (fun l => l.1 == m.partno.toNat)
      | _, _ => false)
    | none => false)

/-- Every report of the close of `e` is in, and every write of `e` performed, those that wait at their homes for reserve space too (R367). -/
def Mach.closeReady (m : Mach) (p : Nat) (e : BitVec 24) : Bool :=
  let x := m.part p
  (m.coresOf p).all (fun c => x.ep.coresDone.contains c) && (List.range x.eng).all (fun i => x.ep.enginesDone.contains i) &&
    (x.slices p x.size).all (fun j => x.ep.holding.contains j) && !m.oldWork p e && !m.awayWrites p e && x.stalled.isEmpty

/-- The generation that a snap closes goes to draining, and the next one opens (R362, R364). -/
def Part.closeGen (x : Part) (e : BitVec 24) : Part :=
  { x with genopen := x.genopen + 1,
           gens := { Gen.first with num := x.genopen + 1 } :: x.gens.map (fun g => if g.st = 0 then { g with st := 1, epoch := e } else g) }

/-- Both registers of the snap whose epoch has closed (R244). -/
def Mach.answerSnap (m : Mach) (p : Nat) (e : BitVec 24) : Mach :=
  match (m.part p).ep.snaps with
  | [] => m
  | s :: rest =>
    let g := (m.part p).genopen
    let m := m.fillOut s.1 s.2.1 s.2.2.1 [wS s.2.2.2.1 (epochW 2 m.partno p e), wS s.2.2.2.2 (BitVec.ofNat 64 g)] true none
    m.modPart p (fun x => { (x.closeGen e) with ep := { x.ep with snaps := rest, snap := false } })

/-- C becomes e, and DONE(e) is on its way to the homes. -/
def Mach.finishClose (m : Mach) (p : Nat) (e : BitVec 24) : Mach :=
  let snap := (m.part p).ep.snap
  let m := m.modPart p (fun x => { x with ep := { x.ep with closed := e, closing := none, undone := x.slices p x.size } })
  if snap then m.answerSnap p e else m

def execEpochCloseComplete (part : Nat) :=
  stepIf (fun m => match (m.part part).ep.closing with
    | some e => m.closeReady part e
    | none => false)
    (fun m => match (m.part part).ep.closing with
      | some e => m.finishClose part e
      | none => m)

/-- No home holds a write or a lane of the word any more. -/
def Mach.freed (m : Mach) (p : Nat) (w : Nat × Nat × Nat) : Bool := !(m.part p).held.any (fun y => y.waiters.contains w)

/-- A held atomic on its operands as they stood at issue, with the number that it took there. -/
def Mach.atHome (m : Mach) (h : Held) (e : LogEntry) (q : BitVec 19) : MemRes :=
  match memWordOf e.word with
  | none => .ok m [] [] true none
  | some w => w.eff m { core := h.src, slot := e.slot, g := e.g, id := e.id, away := true, again := true, seq := some (q, h.epoch), held := true }

/-- Lanes of an atomic held at their home are performed; the last ones let it return. -/
def Mach.performAtomic (m : Mach) (p : Nat) (h : Held) (e : LogEntry) (q : BitVec 19) : Except Why Mach :=
  match m.atHome h e q with
  | .ok m now later _ st => .ok (m.setGroup h.src e.slot ((m.group h.src e.slot).fillPart e.id (now ++ later) (m.freed p (h.src, e.slot, e.id)) st))
  | .poison m pa lanes => .ok (m.poisonLater h.src e pa lanes)
  | .trap t => .ok (m.trapLater h.src e t)
  | .park _ why => .error why
  | _ => .error .heldClose

/-- A held write or atomic is performed, or what it waits for; the words that wait for it may return when none of their writes is held any more. -/
def Mach.performHeld (m : Mach) (p : Nat) (h : Held) : Except Why Mach :=
  let m := m.modPart p (fun x => { x with held := x.held.erase h })
  match h.word with
  | some (e, q) => m.performAtomic p h e q
  | none => match m.homeWrite (some h.src) h.whole h.bytes with
    | none => .error (.reserve ((m.stuckOf (distinct (h.bytes.map (fun b => pageOf b.1)))).getD 0)
        (whoLine h.src (lineOf ((h.bytes.map (·.1)).headD 0))))
    | some m1 =>
      let m2 := m1.taint h.bad
      let m3 := match h.at_ with
        | some a => m.setGC m2 a (pageOf ((h.bytes.map (·.1)).headD 0))
        | none => m2
      .ok (h.waiters.foldl (fun m w => if m.freed p w then m.letReturn w else m) m3)

/-- A held write waits on: it counts as stalled for reserve space (R367), or a pin refuses it (R188). -/
def Mach.heldWaits (m : Mach) (why : Why) : Mach :=
  match why with
  | .reserve pg who => m.countStall pg who
  | .pinned k ln => m.refuse k ln
  | _ => m

/-- Held writes of a slice in arrival order; where one waits, those after it wait too, and the answer is no. -/
def Mach.performAll (p : Nat) : List Held → Mach → Mach × Bool
  | [], m => (m, true)
  | h :: t, m => match m.performHeld p h with
    | .ok m => Mach.performAll p t m
    | .error why => (m.heldWaits why, false)

/-- A write of the epoch that closed, come to a home of the slice before DONE, still waits there for reserve space (R278, R367). -/
def Part.lateWrites (x : Part) (slice : Nat) : Bool := x.ep.undone.contains slice &&
    x.stalled.any (fun y => y.bytes.any (fun b => stackOf b.1 == slice))

/-- DONE reaches the homes of a slice, whose stamp is that of the open epoch from now on (R279): they perform what they hold, as far as they can; a
home that cannot yet goes on later. -/
def Mach.receiveDone (m : Mach) (p slice : Nat) : Mach :=
  if (m.part p).lateWrites slice then m
  else
    let held := (m.part p).held.filter (fun h => h.slice == slice)
    let r := Mach.performAll p held (m.modPart p (fun x => { x with ep := { x.ep with
      holding := x.ep.holding.erase slice, undone := x.ep.undone.erase slice, landing := slice :: x.ep.landing.erase slice } }))
    if r.2 then r.1.modPart p (fun x => { x with ep := { x.ep with landing := x.ep.landing.erase slice } }) else r.1

def execDoneReceipt (slice : Nat) :=
  stepIf (fun m => match m.partOf slice with
    | some p => (m.part p).ep.undone.contains slice || (m.part p).ep.landing.contains slice
    | none => false)
    (fun m => match m.partOf slice with
      | some p => m.receiveDone p slice
      | none => m)

end Sys2Proof.Machine
end

