-- ==== Sys2Proof/Machine/Pools.lean ====
section
/-! DEFINITION. Pool rows and placement: which core can take a team (R22 to R25, R312), a team's first placement (R11, R14,
R249, R335), the spill of a halted team and its return (R338, R339), shared by regions and contexts. -/

namespace Sys2Proof.Machine

/-! ### What a core holds -/

/-- Teams of a context whose place is on core `c` and all of whose rows are spilled from it. -/
def Mach.spilledOn (m : Mach) (c p ctx : Nat) : List Nat :=
  distinct ((m.shadow.filter (fun kx => match kx.2 with
    | some x => x.core == some c && (m.team x.team).part == p && (m.team x.team).ctx == ctx && !(m.residents c).contains x.team
    | none => false)).map (fun kx => kx.1 / 2))

def Mach.isCtx (m : Mach) (id p ctx : Nat) : Bool := (m.team id).part == p && (m.team id).ctx == ctx

/-- No tile entry or stream of a team's half is spilled. -/
def Mach.entriesHere (m : Mach) (id c : Nat) : Bool := (m.shadowOn id c).all (fun x => x.tiles.isEmpty && x.streams.isEmpty)

/-- What the groups of a team share is on its cores: its scratchpad, its banks, its tiles and its streams, on both cores of a pair (R231, R338). -/
def Mach.teamHere (m : Mach) (id : Nat) : Bool :=
  (m.team id).ended || (m.team id).cores.all (fun c => (m.residents c).contains id && m.entriesHere id c)

def vru (pool : W32) : BitVec 5 := fld pool 0 5
def gslF (pool : W32) : BitVec 5 := fld pool 16 5
def sameSplit (a b : W32) : Bool := vru a == vru b && gslF a == gslF b && accb a == accb b

/-- 4 KiB units of the scratchpad area that a word leaves (R22). -/
def areaUnits (pool : W32) : Nat := (2048 - vregs pool * gsl pool - 384 * accb pool) / 16

/-- R23. -/
def poolOk (pool : W32) : Bool :=
  fld pool 24 8 == 0 && fld pool 5 3 == 0 && decide (accb pool ≤ 4) && decide (spk pool ≤ 128) &&
    decide (vregs pool * gsl pool + 384 * accb pool ≤ 2048) && decide (16 * spk pool ≤ 2048 - vregs pool * gsl pool - 384 * accb pool)


def Mach.freeTslots (m : Mach) (c : Nat) (ids : List Nat) : List Nat :=
  (List.range 4).filter (fun s => ids.all (fun id => (m.team id).slotOn c != s))

/-- Teams of a context whose place is on a core, resident or spilled. -/
def Mach.heldBy (m : Mach) (c p ctx : Nat) : List Nat := (m.residents c).filter (fun id => m.isCtx id p ctx) ++ m.spilledOn c p ctx

/-- The word that a context's teams on a core are split by: the core's own while one is resident, else the one that they were spilled
under; none where the context has no team there (R339). -/
def Mach.wordOf (m : Mach) (c p ctx : Nat) : Option W32 :=
  if (m.residents c).any (fun id => m.isCtx id p ctx) then some (m.core c).pool
  else (m.spilledOn c p ctx).findSome? (fun id => (m.shadowOn id c).map (·.pool))

/-- Group slots free for a context on a core beside the teams `kept` of others: the places of its own teams, spilled ones too, are taken. -/
def Mach.freeSlots (m : Mach) (c p ctx : Nat) (kept : List Nat) (pool : W32) : List Nat :=
  let used := (m.heldBy c p ctx).flatMap (m.heldSlots c) ++ kept.flatMap (slotsOf (m.core c))
  (List.range (gsl pool)).filter (fun s => !used.contains s)

/-- R25, R312: under `word`, beside the teams `ids`, a core takes a team of region `i` with word `pool`, if its group slots suffice. -/
def Mach.takes (m : Mach) (i : Nat) (ids : List Nat) (word pool : W32) : Bool :=
  vru word == vru pool && gslF word == gslF pool && decide (ids.length < 4) &&
    decide ((ids.map (fun id => spk (m.team id).pool)).sum + spk pool ≤ areaUnits word) &&
    (accb pool == 0 || (accb word == accb pool && ids.all (fun id => accb (m.team id).pool == 0))) &&
    ids.all (fun id => (m.team id).inst != i)

/-! ### Spilling and reloading (R338, R339) -/

/-- An outstanding result that needs no row of the group until its context runs: returned, deferred, of a copy that no engine
has started, or of a ring that is not complete. -/
def Mach.atRest (m : Mach) (c : Nat) (o : Outst) : Bool :=
  o.ready || (m.core c).log.any (fun e => e.id == o.id) ||
  m.copies.any (fun kx => match kx.2 with
    | some x => x.core == c && x.outId == o.id && x.stage == .queued && x.engine.isNone
    | none => false) ||
  (m.core c).tiles.any (fun kt => match kt.2 with
    | some t => (match t.ring with
      | some r => r.2 == o.id
      | none => false)
    | none => false)

/-- A multicast copy at work fills a tile of the team. -/
def Mach.filledFrom (m : Mach) (id : Nat) : Bool :=
  m.copies.any (fun kx => match kx.2 with
    | some x => x.kind == .multi && (x.engine.isSome || x.stage != .queued) && x.targets.any (fun g => g.2.2 == id)
    | none => false)

/-- A group that has halted, all of whose results are at rest, and no write of which goes on through the halt (R379). -/
def Mach.groupQuiet (m : Mach) (c s : Nat) : Bool :=
  let g := m.group c s
  g.halted && g.outs.all (m.atRest c) && !m.reserveWaits c s &&
    (match g.why with
     | some (.reserve _ _) => false
     | _ => true) &&
    (m.part (m.team g.team).part).dev.all (fun d => !(d.core == c && d.slot == s))

/-- A team none of whose rows is used by work in flight: it halted, and its copies, feeds and matrix words have completed, as have the
copies of others into its tiles (R247). -/
def Mach.quiet (m : Mach) (id : Nat) : Bool :=
  !m.teamQueued id && !m.filledFrom id && (m.team id).cores.all (fun c =>
    (slotsOf (m.core c) id).all (m.groupQuiet c) && (m.core c).streams.all (fun q => q.2.feeds.all (fun f => f.team != id)))

/-- Bytes of what is spilled of a half: its groups' registers, its streams, and once its shared rows are spilled too its scratchpad and its
banks (R26, R338). -/
def Mach.shadowSize (m : Mach) (x : Shadow) : Nat :=
  let t := m.team x.team
  let whole := match x.core with
    | some c => !(m.residents c).contains x.team
    | none => true
  256 * vregs x.pool * x.groups.length + 16384 * x.streams.length + (if whole then 4096 * spk t.pool + 98304 * accb t.pool else 0)

/-- The shadow ways of a partition hold SHW × 4 MiB a slice; the oldest halves beyond that move on, whole, to the DRAM shadow area
(R338, log 87). -/
def Mach.ageShadows (m : Mach) (p : Nat) : Mach :=
  let inWays := m.shadow.filterMap (fun kx => match kx.2 with
    | some x => if x.inWays && (m.team x.team).part = p then some x else none
    | none => none)
  let from_ (x : Shadow) : Nat := ((inWays.filter (fun y => decide (x.tick ≤ y.tick))).map m.shadowSize).sum
  let room := (m.part p).shw.toNat * 2 ^ 22 * (m.part p).size
  { m with shadow := tmap none (fun _ y => y.map (fun x =>
      if x.inWays && (m.team x.team).part = p && decide (room < from_ x) then { x with inWays := false } else x)) m.shadow }

/-- Nothing of a half yet in shadow. -/
def Shadow.none (c id : Nat) (pool : W32) : Shadow :=
  { core := some c, team := id, pool := pool, groups := [], sp := [], tiles := [], streams := [], acc := [], accE := [], log := [], tick := 0,
    inWays := true }

/-- The tile entries and the streams of a team leave a core (R338). -/
def Mach.spillEntries (m : Mach) (id c : Nat) : Mach :=
  let k := m.core c
  let mine (x : Option Tile) : Bool := x.any (fun y => y.team == id)
  let own (q : Nat × Stream) : Bool := q.2.owner == some id
  let x := (m.shadowOn id c).getD (Shadow.none c id k.pool)
  let x' : Shadow := { x with tiles := (k.tiles.filter (fun y => mine y.2)).foldl (fun t y => tset none t y.1 y.2) x.tiles,
                              streams := (k.streams.filter own).foldl (fun t q => tset Stream.free t q.1 { q.2 with feeds := [] }) x.streams,
                              tick := m.tick, inWays := true }
  { m.setCore c { k with tiles := k.tiles.filter (fun y => !mine y.2),
                         streams := tmap Stream.free (fun _ s => if s.owner = some id then s.without id else s) k.streams } with
    shadow := tset none m.shadow (m.shadowKey id c) (some x') }.ageShadows (m.team id).part

/-- A group leaves its slot with the rest of its state: its registers, stacks and operand-log entries, and the tile entries and streams of its
team (R338). The scratchpad and the banks that its team's groups share stay. -/
def Mach.spillGroup (m : Mach) (c s : Nat) : Mach :=
  let k := m.core c
  let id := (m.group c s).team
  let x := (m.shadowOn id c).getD (Shadow.none c id k.pool)
  let x' : Shadow := { x with groups := tset Group.none x.groups s (m.group c s), log := x.log ++ k.log.filter (fun e => e.slot == s), tick := m.tick,
                              inWays := true }
  { m.setCore c { k with groups := tset Group.none k.groups s Group.none, log := k.log.filter (fun e => e.slot != s) } with
    shadow := tset none m.shadow (m.shadowKey id c) (some x') }.spillEntries id c

/-- Takes a team's half off a core, beside the groups of it that had left before. -/
def Mach.spill (m : Mach) (id c : Nat) : Mach :=
  let t := m.team id
  let m := ((slotsOf (m.core c) id).foldl (fun (m : Mach) s => m.spillGroup c s) m).spillEntries id c
  let k := m.core c
  let ts := t.slotOn c
  let banks := decide (0 < accb t.pool)
  let x : Shadow :=
    { (m.shadowOn id c).getD (Shadow.none c id k.pool) with
      sp := (k.sp.filter (fun b => b.1 / 2 ^ 20 == ts)).map (fun b => (b.1 % 2 ^ 20, b.2)), acc := if banks then k.acc else [],
      accE := if banks then k.accE else [], tick := m.tick, inWays := true }
  let k' : Core :=
    { k with teams := k.teams.filter (fun y => y.2 != id), sp := k.sp.filter (fun b => b.1 / 2 ^ 20 != ts),
             acc := if banks then [] else k.acc, accE := if banks then [] else k.accE }
  { m.setCore c k' with shadow := tset none m.shadow (m.shadowKey id c) (some x) }.ageShadows t.part

def Mach.spillTeam (m : Mach) (id : Nat) : Mach :=
  (m.team id).cores.foldl (fun m c => if (m.residents c).contains id then m.spill id c else m) m

/-- Whether what a spilled half held is free on a core: its tiles, streams and banks. -/
def Core.free (k : Core) (x : Shadow) : Bool :=
  x.tiles.all (fun t => (k.tile t.1).isNone) && x.streams.all (fun q => (k.stream q.1).owner.isNone)

def Group.moveTo (g : Group) (old c ts : Nat) : Group :=
  { g with waita := g.waita.map (fun w =>
      if w.scratch && w.core == old then { w with core := c, addr := 2 ^ 20 * ts + w.addr % 2 ^ 20, block := (2 ^ 20 * ts + w.addr % 2 ^ 20) / 128,
                                                  armed := false } else w) }

/-- The core with the spilled tiles and streams of a half, whose team has slot `ts` and whose group slots are renamed by `f`. -/
def Core.withEntries (k : Core) (x : Shadow) (ts : Nat) (f : Nat → Nat) : Core :=
  { k with
    tiles := x.tiles.foldl (fun a y => tset none a y.1 (y.2.map (fun z =>
      { z with owner := BitVec.ofNat 2 ts, ring := z.ring.map (fun r => (f r.1, r.2)) }))) k.tiles,
    streams := x.streams.foldl (fun a q => tset Stream.free a q.1 { q.2 with feeds := (tget Stream.free a q.1).feeds }) k.streams }

/-- The spilled tiles and streams of a half whose rows are there come back. -/
def Mach.reloadEntries (m : Mach) (id c : Nat) (x : Shadow) : Mach :=
  { m.setCore c ((m.core c).withEntries x ((m.team id).slotOn c) (fun s => s)) with
    shadow := tset none m.shadow (m.shadowKey id c) (if x.groups.isEmpty then none else some { x with tiles := [], streams := [] }) }

/-- Puts what the groups of a spilled half share back on core `c`, as team slot `ts` and with its group slots renamed by `f`; bytes of its area that
it did not hold read as zero (R14). -/
def Mach.reload (m : Mach) (id c ts old : Nat) (x : Shadow) (f : Nat → Nat) : Mach :=
  let t := m.team id
  let k := m.core c
  let k' : Core :=
    { k.withEntries x ts f with
      pool := if k.teams.isEmpty then (m.wordOf c t.part t.ctx).getD t.pool else k.pool,
      teams := tset 0 k.teams ts id,
      sp := x.sp.foldl (fun a b => tset 0 a (spKey ts b.1) b.2) (k.sp.filter (fun b => b.1 / 2 ^ 20 != ts)),
      acc := if 0 < accb t.pool then x.acc else k.acc,
      accE := if 0 < accb t.pool then x.accE else k.accE }
  let copies := tmap none (fun _ y => y.map (fun z =>
    let z := { z with targets := z.targets.map (fun g => if g.1 = old && g.2.2 == id then (c, g.2) else g) }
    if z.team = id && z.core == old then { z with core := c, slot := f z.slot } else z)) m.copies
  { m.setCore c k' with
    copies := copies,
    shadow := tset none m.shadow (m.shadowKey id c)
      (if x.groups.isEmpty then none else some { x with core := some c, sp := [], tiles := [], streams := [], acc := [], accE := [] }) }

/-- Puts a spilled group of a half back, from slot `s` on core `old` to slot `s'` on core `c`, still halted. -/
def Mach.reloadGroup (m : Mach) (id c old s s' : Nat) : Mach :=
  match m.shadowOn id c with
  | none => m
  | some x =>
    let k := m.core c
    let g := (tget Group.none x.groups s).moveTo old c ((m.team id).slotOn c)
    let k' : Core := { k with groups := tset Group.none k.groups s' g,
                              log := k.log ++ (x.log.filter (fun e => e.slot == s)).map (fun e => { e with slot := s' }) }
    let rest := tset Group.none x.groups s Group.none
    { m.setCore c k' with
      shadow := tset none m.shadow (m.shadowKey id c)
        (if rest.isEmpty then none else some { x with groups := rest, log := x.log.filter (fun e => e.slot != s) }) }

/-- The groups of a team that are in place go on, once the rows that they share are in place too (R231, R338); those of a region that is
halted whole stay. -/
def Mach.teamGo (m : Mach) (id : Nat) : Mach :=
  if m.teamHere id && !(m.inst (m.team id).inst).frozen then
    (m.team id).cores.foldl (fun (m : Mach) c =>
      m.modCore c (fun k => k.resume id m.clock)) m
  else m

/-! ### A team's first placement (R11, R14, R249, R289, R335) -/

def privOf (x : Context) (core slot : Nat) : Nat × Nat :=
  ((fld x.priv 16 41).toNat * 2 ^ 16 + (32 * core + slot) * (fld x.psz 12 12).toNat * 4096, (fld x.psz 12 12).toNat * 4096)

/-- Group `g` of a team as it starts in slot `s` of core `c`. -/
def Mach.newGroup (m : Mach) (id g c s : Nat) : Group :=
  let t := m.team id
  let i := m.inst t.inst
  let pv := privOf ((m.part t.part).ctxAt t.ctx) c s
  { Group.start with halted := i.frozen, team := id, grp := g, pc := i.entry, s := tset 0 (tset 0 [] 1 i.param) 2 i.inw, status := .pending,
                     readyAge := m.clock,
                     readyTick := m.tick, since := m.clock, privBase := pv.1, privSize := pv.2 }

/-- The groups of a team that run on each of its cores: even ones on the leader, odd ones on the follower (R289). -/
def groupsOn (n : Nat) (pair follower : Bool) : List Nat :=
  if pair then (List.range n).filter (fun g => (g % 2 == 1) == follower) else List.range n

/-- One half of a new team: its rows read as zero (R14). -/
def Mach.placeHalf (m : Mach) (id c ts : Nat) (slots gs : List Nat) : Mach :=
  let t := m.team id
  let new := (slots.zip gs).map (fun x => (x.1, m.newGroup id x.2 c x.1))
  let k := m.core c
  m.setCore c
    { k with
      pool := if k.teams.isEmpty then (m.wordOf c t.part t.ctx).getD t.pool else k.pool,
      teams := tset 0 k.teams ts id,
      groups := new.foldl (fun a x => tset Group.none a x.1 x.2) k.groups,
      sp := k.sp.filter (fun b => b.1 / 2 ^ 20 != ts),
      acc := if 0 < accb t.pool then [] else k.acc,
      accE := if 0 < accb t.pool then [] else k.accE,
      mark := match k.mark with
        | some x => if x.inst = t.inst && x.team == t.num.toNat then none else some x
        | none => none }

/-- What a placement claims on a core from halted contexts: teams whose shared rows, or whose word, are in the way, and the slots of
single groups. -/
structure Claim where
  teams : List Nat
  slots : List Nat

def Claim.nothing : Claim := { teams := [], slots := [] }

/-- What is claimed is spilled first (R338). -/
def Mach.spillClaim (m : Mach) (c : Nat) (x : Claim) : Mach :=
  x.slots.foldl (fun (m : Mach) s => m.spillGroup c s) (x.teams.foldl (fun (m : Mach) id => m.spill id c) m)

/-- Teams of other contexts that can stay on core `c`, those that cannot leave now before the others. -/
def Mach.staying (m : Mach) (others : List Nat) (fits : List Nat → Bool) : List Nat :=
  (others.filter (fun o => !m.quiet o) ++ others.filter m.quiet).foldl (fun l o => if fits (l ++ [o]) then l ++ [o] else l) []

/-- Slots of halted groups that may be claimed on a core, of the teams `kept` of other contexts; the places of the claiming context's own
spilled groups are not among them. -/
def Mach.claimable (m : Mach) (c p ctx : Nat) (kept : List Nat) (pool : W32) : List Nat :=
  let own := (m.heldBy c p ctx).flatMap (m.heldSlots c)
  ((kept.filter m.quiet).flatMap (slotsOf (m.core c))).filter (fun s => !own.contains s && decide (s < gsl pool))

/-- What a placement of `n` groups needs spilled first, or none where the core cannot take the team, for which one of the four entries must be
left beside its context's own teams, spilled ones too, and those that stay (R25). Rows that are not claimed stay (R338),
but for a core under another word, where all leave (R339). -/
def Mach.makeRoom (m : Mach) (c p ctx i : Nat) (pool : W32) (n : Nat) (clash : List Nat → Bool) : Option Claim :=
  let mine := m.heldBy c p ctx
  let here := (m.residents c).filter (fun id => m.isCtx id p ctx)
  let others := (m.residents c).filter (fun id => !m.isCtx id p ctx)
  let word := (m.wordOf c p ctx).getD pool
  let out (kept : List Nat) : List Nat := others.filter (fun o => !kept.contains o)
  let fits (kept : List Nat) : Bool :=
    m.takes i mine word pool && m.takes i (here ++ kept) word pool && !(m.freeTslots c (mine ++ kept)).isEmpty &&
        (kept.isEmpty || sameSplit (m.core c).pool word) && !clash (out kept)
  let kept := m.staying others fits
  let free := (m.freeSlots c p ctx kept pool).length
  let slots := (m.claimable c p ctx kept pool).take (n - free)
  if fits kept && (out kept).all m.quiet && decide (n ≤ free + slots.length) then some { teams := out kept, slots := slots } else none

/-- The cores that a region may use: its partition's own that are not lent, and with BORROW those lent to it (R346). -/
def Mach.coreFor (m : Mach) (c p : Nat) (borrow : Bool) : Bool :=
  let l := tget Lend.reset m.lends (sliceOf c)
  if m.partOf (sliceOf c) = some p then !l.l && !l.inEffect
  else borrow && l.inEffect && l.l && l.borrower.toNat == p

/-- Places team `num` of instance `i` on a core or pair, after the spills that it needs. -/
def Mach.placeNew (m : Mach) (i num c : Nat) (out outF : Claim) : Mach :=
  let x := m.inst i
  let m := (m.spillClaim c out).spillClaim (c + 1) outF
  let (m, id) := m.fresh
  let others (c : Nat) := (m.residents c).filter (fun j => !m.isCtx j x.part x.ctx)
  let ids (c : Nat) := m.heldBy c x.part x.ctx ++ others c
  let ts (c : Nat) := (m.freeTslots c (ids c)).headD 0
  let pair := x.pair
  let t : Team := { Team.none with inst := i, num := BitVec.ofNat 32 num, part := x.part, ctx := x.ctx, core := c, pair := pair, tslot := ts c,
                                   tslotF := if pair then ts (c + 1) else 0, groups := x.groups, pool := x.pool, ended := false }
  let sl := m.freeSlots c x.part x.ctx (others c) x.pool
  let slF := m.freeSlots (c + 1) x.part x.ctx (others (c + 1)) x.pool
  let m := (m.setTeam id t).placeHalf id c t.tslot sl (groupsOn x.groups pair false)
  let m := if pair then m.placeHalf id (c + 1) t.tslotF slF (groupsOn x.groups pair true) else m
  m.modInst i (fun y => { y with placed := y.placed + 1, state := if y.state = .queued then .running else y.state })

/-! ### Cleaning an L1 (R346, R347) -/

/-- Every line of a core is widened, written back and invalidated; `none` waits for reserve space. -/
def Mach.cleanL1 (m : Mach) (c : Nat) : Option Mach :=
  ((m.core c).l1.foldlM (fun (m : Mach) x => m.clean c x.line) m).map (fun m =>
    m.modCore c (fun k => let lns := k.l1.map (·.line)
      lns.foldl (fun k ln => k.mapGroups (fun _ g => g.disarm false ln)) { k with l1 := [] }))

end Sys2Proof.Machine
end

