-- ==== Sys2Proof/Machine/Regions.lean ====
section
/-! DEFINITION. Acceptance of regions (R295 to R303): the block and the patch as they are read, the checks in their order, what
the part writes, and the launch queues. -/

namespace Sys2Proof.Machine

/-! ### Bytes that the region scheduler reads and writes at their homes -/

/-- Where a virtual address of a context leads: its leaf and its physical address; one past 57 bits, or of the reserve or the shadow area, leads
nowhere (DESIGN CHOICE, log 124). -/
def Mach.vaLeaf (m : Mach) (p ctx va : Nat) : Option (TlbEntry × Nat) :=
  if 2 ^ 57 ≤ va then none
  else (m.walk p ctx va).bind (fun e =>
    let pa := leafBase e.leaf + va % e.size
    if homeOf e.leaf = m.partno.toNat ∧ badPa pa then none else some (e, pa))

/-- The same as its home (64 the host) and physical address. -/
def Mach.vaAt (m : Mach) (p ctx va : Nat) : Option (Nat × Nat) := (m.vaLeaf p ctx va).map (fun x => (homeOf x.1.leaf, x.2))

/-- A byte as the part reads it; zero where its home is another part that refuses it (R127, R355, log 99). -/
def Mach.vaByte (m : Mach) (p ctx va : Nat) : Option Byte :=
  (m.vaAt p ctx va).map (fun x => if x.1 = m.partno.toNat then m.homeByte x.2 else if m.farRefused x.1 x.2 then 0
    else tget 0 m.far (farKey x.1 x.2))

def Mach.vaBytes (m : Mach) (p ctx va n : Nat) : List Byte := (List.range n).map (fun i => (m.vaByte p ctx (va + i)).getD 0)

/-- A system-scope store of the part for a region of a fault domain, through the context's leaf (R296). -/
def Mach.vaWrite (m : Mach) (p dom ctx va : Nat) (bs : List Byte) : Mach :=
  match m.vaLeaf p ctx va with
  | none => m.walked p ctx va
  | some x => (m.walked p ctx va).ownStore p dom x.1 x.2 bs

/-- The places, line by line, of `n` bytes from a virtual address up. -/
def Mach.vaLines (m : Mach) (p ctx va n : Nat) : List (Nat × Nat) :=
  (List.range ((va % 128 + n + 127) / 128)).filterMap (fun i => m.vaAt p ctx (va / 128 * 128 + 128 * i))

/-- A read of `n` bytes that another part refuses leaves its error record, and the domain's policy acts (R355). -/
def Mach.vaDeny (m : Mach) (p dom ctx va n : Nat) : Mach :=
  match (m.vaLines p ctx va n).find? (fun x => x.1 != m.partno.toNat && m.farRefused x.1 x.2) with
  | some x => m.selfRefused p dom (m.exitPort x.1 (lineOf x.2))
  | none => m

def Mach.va64 (m : Mach) (p ctx va : Nat) : W64 := BitVec.ofNat 64 (natOf (m.vaBytes p ctx va 8))

/-- A line of these `n` bytes is pinned in some core: the access is refused until it is widened (R188). -/
def Mach.vaPinned (m : Mach) (p ctx va n : Nat) : Option (Nat × Nat) :=
  (m.vaLines p ctx va n).findSome? (fun x =>
    if x.1 = m.partno.toNat then (m.keptFrom noCore (lineOf x.2)).map (fun k => (k, lineOf x.2)) else none)

/-- What keeps the part from reading `n` bytes: a pin (R188), or a link that is paused (R405). -/
def Mach.readWait (m : Mach) (p ctx va n : Nat) : Option Mach :=
  match m.vaPinned p ctx va n with
  | some y => some (m.refuse y.1 y.2)
  | none => if (m.vaLines p ctx va n).any (fun x => m.farPaused x.1 x.2) then some m else none

/-- What keeps the part from writing `n` bytes of one page: what keeps it from reading them, an earlier write of its own through the leaf that
waits, a full dirty ring, which holds the append (R353), or no reserve space for the entry's page or theirs (R367). -/
def Mach.writeWait (m : Mach) (p ctx va n : Nat) : Option Mach :=
  match m.readWait p ctx va n with
  | some m => some m
  | none => match m.vaLeaf p ctx va with
    | none => none
    | some (e, pa) =>
      if (m.part p).ownWaits.any (fun y => y.leaf.at_ == e.at_) then some m
      else match m.setDirty p e with
        | .full => some (m.holdAppend p e)
        | .wait pg => some (m.countStall pg (whoOwn e.at_))
        | .ok m' => if homeOf e.leaf = m.partno.toNat ∧ m'.noRoom (pageOf pa) then some (m.countStall (pageOf pa) (whoOwn pa)) else none

/-- What a read of `n` bytes does beside: the walks' lines enter L2 (R350), and the sectors are read: bad symbols are corrected, or poison
the sector (R386). -/
def Mach.vaTouch (m : Mach) (p ctx va n : Nat) : Mach :=
  let m := (List.range ((va % 65536 + n + 65535) / 65536)).foldl (fun (m : Mach) i => m.walked p ctx (va / 65536 * 65536 + 65536 * i)) m
  (List.range ((va % 32 + n + 31) / 32)).foldl (fun m i => match m.vaAt p ctx (va / 32 * 32 + 32 * i) with
    | some x => if x.1 = m.partno.toNat then m.readSector (sectorOf x.2) else m
    | none => m) m

def Mach.vaPoisoned (m : Mach) (p ctx va n : Nat) : Bool :=
  (List.range n).any (fun i => match m.vaAt p ctx (va + i) with
    | some x => x.1 == m.partno.toNat && m.poison.contains (sectorOf x.2)
    | none => false)

/-! ### The block (R295) -/

structure Rcb where
  entry : W64
  param : W64
  grid : Nat
  teamw : BitVec 16
  flags : BitVec 16
  pool : W32
  prio : BitVec 8
  fault : BitVec 8
  chain : BitVec 8
  budget : W64
  inw : W64
  inst : W64
  deps : List (W64 × W64)
  /-- a reserved byte that is not zero -/
  dirty : Bool

def rcbOf (r : List Byte) : Rcb :=
  let f (o n : Nat) := fieldAt r o n
  { entry := BitVec.ofNat 64 (f 0 8), param := BitVec.ofNat 64 (f 8 8), grid := f 0x10 4, teamw := BitVec.ofNat 16 (f 0x14 2),
    flags := BitVec.ofNat 16 (f 0x16 2), pool := BitVec.ofNat 32 (f 0x18 4), prio := BitVec.ofNat 8 (f 0x1C 1),
    fault := BitVec.ofNat 8 (f 0x1D 1), chain := BitVec.ofNat 8 (f 0x1E 1), budget := BitVec.ofNat 64 (f 0x20 8),
    inw := BitVec.ofNat 64 (f 0x30 8), inst := BitVec.ofNat 64 (f 0x40 8),
    deps := (List.range 4).map (fun i => (BitVec.ofNat 64 (f (0x60 + 16 * i) 8), BitVec.ofNat 64 (f (0x68 + 16 * i) 8))),
    dirty := f 0x1F 1 != 0 || f 0x2C 4 != 0 || f 0x59 7 != 0 || f 0xA0 96 != 0 }

def Rcb.groups (x : Rcb) : Nat := (fld x.teamw 0 6).toNat
def Rcb.pair (x : Rcb) : Bool := bitAt x.teamw 15
def Rcb.pers (x : Rcb) : Bool := bitAt x.flags 0
def Rcb.borrow (x : Rcb) : Bool := bitAt x.flags 1
def Rcb.priv (x : Rcb) : Bool := bitAt x.flags 4
def Rcb.ovb (x : Rcb) : Bool := bitAt x.flags 5
def Rcb.ovp (x : Rcb) : Bool := bitAt x.flags 6
def Rcb.ovf (x : Rcb) : Bool := bitAt x.flags 7

/-- Groups that the team places on its fuller core (R289). -/
def Rcb.half (x : Rcb) : Nat := if x.pair then (x.groups + 1) / 2 else x.groups

/-- Cores, or pairs, that a region could be placed on in an empty partition. -/
def Mach.places (m : Mach) (p : Nat) (borrow pair : Bool) : List Nat :=
  let cs := (List.range 1152).filter (fun c => m.coreFor c p borrow)
  if pair then cs.filter (fun c => c % 2 == 0) else cs

/-! ### The launch, wherever it comes from -/

structure Request where
  ctx : Nat
  rcb : W64
  patch : Option W64
  wit : W64
  tag : W64
  host : Option Nat
  /-- a launch by a group: its core and slot -/
  by_ : Option (Nat × Nat)
  parent : Option Nat
  /-- made by the system image's loader (R100) -/
  loader : Bool
  /-- the reserved fields of a host entry are zero -/
  clean : Bool

/-- The patch's header and entries as bytes: from global memory or the issuing group's own scratchpad (R243). -/
def Mach.patchBytes (m : Mach) (p : Nat) (q : Request) (x : W64) (off n : Nat) : Option (List Byte) :=
  match (fld x 60 4).toNat, q.by_ with
  | 0, _ => if fld x 57 3 = 0 ∧ x.toNat % 8 = 0 then (List.range n).mapM (fun i => m.vaByte p q.ctx (x.toNat + off + i)) else none
  | 1, some (c, k) =>
    let t := m.team (m.group c k).team
    let a := (fld x 0 32).toNat + off
    if fld x 32 28 = 0 ∧ a + n ≤ spSize t.pool then some (m.spRead c (spKey (t.slotOn c) a) n) else none
  | _, _ => none

/-- The bytes of global memory that the acceptance of a block reads: the block, its parameters, a patch, and DONE of the blocks whose next
instance it waits for. -/
def Mach.acceptReads (m : Mach) (p : Nat) (q : Request) (x : Rcb) : List (Nat × Nat) :=
  (q.rcb.toNat, 256) :: (if x.param = 0 then [] else [(x.param.toNat, 4096)]) ++ (match q.patch with
    | some a => if fld a 60 4 = 0 then [((fld a 0 57).toNat, 8 + 8 * (natOf (m.vaBytes p q.ctx (fld a 0 57).toNat 8) % 64))] else []
    | none => []) ++ (x.deps.filter (fun d => d.1 != 0 && d.2 == 0)).map (fun d => (d.1.toNat + 0x40, 8))

/-- The patch's entries, or none for a malformed patch. -/
def Mach.patchOf (m : Mach) (p : Nat) (q : Request) : Option (List (Nat × W32)) :=
  match q.patch with
  | none => some []
  | some x => match m.patchBytes p q x 0 8 with
    | none => none
    | some h =>
      let n := natOf h
      if 32 < n then none
      else (List.range n).mapM (fun i => match m.patchBytes p q x (8 + 8 * i) 8 with
        | none => none
        | some e =>
          let w : W64 := BitVec.ofNat 64 (natOf e)
          if fld w 12 20 = 0 ∧ (fld w 0 12).toNat % 4 = 0 then some ((fld w 0 12).toNat, fld w 32 32) else none)

/-- A dependence on this very block, at an instance from `n` up. -/
def badDep (rcb : W64) (n : W64) (d : W64 × W64) : Bool :=
  d.1 != 0 && (decide (d.1.toNat % 256 ≠ 0) || (d.1 == rcb && decide (n.toNat ≤ d.2.toNat)))

/-- The codes of R297 in their order, each with whether it applies. A parameter block address with a bit above [56:0] set, or that leads
nowhere, is one whose page is not mapped (DESIGN CHOICE, log 124). -/
def Mach.refusals (m : Mach) (p : Nat) (q : Request) (x : Rcb) : List (Nat × Bool) :=
  let par := q.parent.map m.inst
  let depth := (match par with
    | some y => y.depth
    | none => 0) + 1
  [ (1, x.dirty || fld x.teamw 6 9 != 0 || fld x.flags 8 8 != 0 || fld x.prio 4 4 != 0 || fld x.fault 2 6 != 0 || fld x.chain 6 2 != 0 ||
        fld x.fault 0 2 == 3 || !q.clean),
    (2, x.grid == 0 || x.groups == 0 || decide (32 < x.groups)),
    (3, !poolOk x.pool),
    (4, decide (gsl x.pool < x.half)),
    (5, x.deps.any (badDep q.rcb (x.inst + 1))),
    (6, x.priv && !(q.loader || (match par with
        | some y => y.priv
        | none => false))),
    (7, decide (16 < depth)),
    (8, x.pers && decide ((m.places p x.borrow x.pair).length < x.grid)),
    (9, (m.patchOf p q).isNone),
    (11, x.param != 0 && (fld x.param 57 7 != 0 || (m.vaAt p q.ctx x.param.toNat).isNone)),
    (12, x.param != 0 && m.vaPoisoned p q.ctx x.param.toNat 4096) ]

/-- A byte of the parameter block as acceptance reads it: zero where its page is not mapped or its home refuses it (R127, R357). -/
def Mach.paramByte (m : Mach) (p ctx va : Nat) : Byte := (m.vaByte p ctx va).getD 0

/-- The constant copy, patched (R127, R243). -/
def Mach.constantCopy (m : Mach) (p : Nat) (q : Request) (param : W64) : Tab Byte :=
  let base : Tab Byte := if param = 0 then []
    else (List.range 4096).foldl (fun a i => tset 0 a i (m.paramByte p q.ctx (param.toNat + i))) []
  ((m.patchOf p q).getD []).foldl (fun a e => (bytesOf 4 e.2.toNat).zipIdx.foldl (fun a b => tset 0 a (e.1 + b.2) b.1) a) base

/-- The lowest fault domain not in use (R389). -/
def Part.freeDom (x : Part) : Option Nat := (List.range 64).find? (fun d => !(x.fd d).v)

/-- What acceptance comes to: an instance, a refusal with its code, or a wait. -/
inductive Accepted where
  | ok (m : Mach) (id : Nat)
  | refused (m : Mach) (code : Nat)
  | hold (m : Mach)

/-- The witness of the loader's writes of the module that holds a region's entry (R100). -/
def Mach.moduleWit (m : Mach) (p ctx : Nat) (entry : W64) : W64 :=
  match m.descAt p ctx entry with
  | some d => d.2.wit
  | none => 0

/-- The instance with what it inherits (R298). -/
def Mach.instanceOf (m : Mach) (p dom : Nat) (q : Request) (x : Rcb) : Inst :=
  let par := q.parent.map m.inst
  let dep (d : W64 × W64) : Nat × W64 := (d.1.toNat, if d.2 = 0 then m.va64 p q.ctx (d.1.toNat + 0x40) else d.2)
  { Inst.none with
    part := p, ctx := q.ctx, rcb := q.rcb.toNat, num := x.inst + 1, state := .held, entry := x.entry, param := x.param, grid := x.grid,
    groups := x.groups, pair := x.pair, pers := x.pers, borrow := x.borrow, endch := bitAt x.flags 2, restart := bitAt x.flags 3, priv := x.priv,
    ovb := x.ovb, pool := x.pool,
    prio := if x.ovp then (fld x.prio 0 4).toNat
      else (match par with
        | some y => y.prio
        | none => (fld (m.part p).lqdef 0 4).toNat),
    chain := fld x.chain 0 6, budget := x.budget, fdom := dom, inw := wMerge m (wMerge m x.inw q.wit) (m.moduleWit p q.ctx x.entry),
    deps := (x.deps.filter (fun d => d.1 != 0)).map dep, parent := q.parent,
    depth := (match par with
      | some y => y.depth
      | none => 0) + 1,
    frozen := (m.part p).rollback.contains dom, const := m.constantCopy p q x.param, host := q.host, tag := q.tag, order := (m.part p).accepted }

/-- The policy of a domain that the region opens (R298). -/
def Mach.newPolicy (m : Mach) (p : Nat) (q : Request) (x : Rcb) : BitVec 2 :=
  if x.ovf then fld x.fault 0 2 else if q.parent.isNone then fld (m.part p).lqdef 4 2 else 0

/-- Opens the lowest free domain, if there is one (R389); its counters go on (R4, log 20). -/
def Mach.openDom (m : Mach) (p : Nat) (pol : BitVec 2) : Option (Mach × Nat) :=
  (m.part p).freeDom.map (fun d => (m.modPart p (fun y => y.setFd d { (y.fd d) with v := true, pol := pol }), d))

/-- The fault domain that the region joins or opens (R298, R389). -/
def Mach.domainFor (m : Mach) (p : Nat) (q : Request) (x : Rcb) : Option (Mach × Nat) :=
  match q.parent, x.ovf with
  | some j, false => some (m, (m.inst j).fdom)
  | _, _ => m.openDom p (m.newPolicy p q x)

/-- What stands for the domain of a region that waits for one, relaunched by a reset while all were in use (R389). -/
def noDom (pol : BitVec 2) : Nat := 64 + pol.toNat

/-- The reads happen, for a region of this fault domain: sectors are read (R386), and a refusal by another part is recorded (R355). -/
def Mach.readFor (m : Mach) (p dom : Nat) (q : Request) (l : List (Nat × Nat)) : Mach :=
  l.foldl (fun m r => (m.vaTouch p q.ctx r.1 r.2).vaDeny p dom q.ctx r.1 r.2) m

/-- R301, steps 1 to 3, once all that it reads may be read and its block written: every effect together. A region that is refused has no
domain but its parent's. -/
def Mach.acceptBlock (m : Mach) (p : Nat) (q : Request) : Accepted :=
  let a := q.rcb.toNat
  let x := rcbOf (m.vaBytes p q.ctx a 256)
  let reads := m.acceptReads p q x
  match reads.findSome? (fun r => m.readWait p q.ctx r.1 r.2) with
  | some m => .hold m
  | none =>
    match ((m.readFor p noDomain q reads).refusals p q x).find? (fun c => c.2) with
    | some c => .refused (m.readFor p (match q.parent with
        | some j => (m.inst j).fdom
        | none => noDomain) q reads) c.1
    | none => match m.writeWait p q.ctx a 256 with
    | some m => .hold m
    | none => match m.domainFor p q x with
      | none => .hold m
      | some (m1, dom) =>
        let m1 := m1.readFor p dom q reads
        let y := m1.instanceOf p dom q x
        let (m2, id) := m1.fresh
        let m3 := (m2.setInst id y).modPart p (fun z => { z with accepted := z.accepted + 1 })
        let m4 := match q.parent with
          | some j => m3.modInst j (fun z => { z with children := z.children + 1 })
          | none => m3
        let up := match q.parent with
          | some j => (m.inst j).rcb
          | none => 0
        .ok ((((m4.vaWrite p dom q.ctx (a + 0x40) (bytesOf 8 (x.inst + 1).toNat)).vaWrite p dom q.ctx (a + 0x28) (bytesOf 4 dom)).vaWrite p dom
          q.ctx (a + 0x50) (bytesOf 8 up)).vaWrite p dom q.ctx (a + 0x58) (bytesOf 1 y.depth)) id

/-- The scheduler's own place among the presenters of a partition. -/
def schedCore (p : Nat) : Nat := 1200 + p

/-- Acceptance of one request: what is checked before the block is read, then the block (R297). -/
def Mach.accept (m : Mach) (p : Nat) (q : Request) : Accepted :=
  let host := q.host.isSome
  if host && !((m.part p).ctxAt q.ctx).valid then .refused m 10
  else if fld q.rcb 57 7 ≠ 0 ∨ q.rcb.toNat % 256 ≠ 0 ∨ (m.vaAt p q.ctx q.rcb.toNat).isNone then .refused m 13
  else if host && (m.presentTrap (schedCore p) p 0 q.wit).isSome then .refused m 14
  else if host then
    (match m.present (schedCore p) 0 p q.wit with
     | .ok m => m.acceptBlock p q
     | .hold m _ => .hold m
     | .refused => .refused m 14)
  else m.acceptBlock p q

/-! ### Host launch queues (R299 to R302) -/

def Mach.hostBytes (m : Mach) (a n : Nat) : List Byte := m.farBytes 64 a n
def Part.lqAt (x : Part) (i : W32) : Nat := x.lqbase.toNat + 64 * (i.toNat % x.lqsize)
def Part.cqAt (x : Part) (i : W32) : Nat := x.cqbase.toNat + 32 * (i.toNat % x.lqsize)

def hostEntry (e : List Byte) (i : W32) : Request :=
  let patch : W64 := BitVec.ofNat 64 (fieldAt e 8 8)
  { ctx := fieldAt e 0x28 1 % 8, rcb := BitVec.ofNat 64 (fieldAt e 0 8), patch := if patch = 0 then none else some patch,
    wit := BitVec.ofNat 64 (fieldAt e 0x10 8), tag := BitVec.ofNat 64 (fieldAt e 0x18 8), host := some i.toNat, by_ := none, parent := none,
    loader := false, clean := fieldAt e 0x28 1 / 8 == 0 && fieldAt e 0x2A 22 == 0 }

def Part.hostReady (x : Part) : Bool :=
  x.v && x.lqsize != 0 && x.lqacc != x.lqtail && decide ((x.lqacc - x.cqhead).toNat < x.lqsize)

/-- A refused host entry waits as an ended instance for its completion record; no instance number was given it (log 3). -/
def Mach.refusedEntry (m : Mach) (p : Nat) (q : Request) (code : Nat) : Mach :=
  let (m, id) := m.fresh
  let x : Inst := { Inst.none with part := p, ctx := q.ctx, num := Config.freeValue id, status := 1, cause := code, host := q.host, tag := q.tag,
                                   order := (m.part p).accepted, recorded := false, rcb := q.rcb.toNat }
  m.setInst id x

def Mach.acceptHost (m : Mach) (p : Nat) : Mach :=
  let x := m.part p
  let i := x.lqacc
  let at_ := x.lqAt i
  let q := hostEntry (m.hostBytes at_ 64) i
  match m.accept p q with
  | .hold m => m
  | .refused m code => (m.refusedEntry p q code).modPart p (fun y => { y with lqacc := y.lqacc + 1 })
  | .ok m id =>
    ((m.farWrite 64 (at_ + 0x20) (bytesOf 8 (m.inst id).num.toNat)).farWrite 64 (at_ + 0x29) (bytesOf 1 1)).modPart p
      (fun y => { y with lqacc := y.lqacc + 1 })

/-! ### Device-side launches (R242, R303) -/

def Part.devHead (x : Part) : Option DevLaunch := x.dev.find? (fun d => d.ans.isNone)

def Part.dropDev (x : Part) (id : Nat) : Part := { x with dev := x.dev.filter (fun d => d.id != id) }

/-- The launching group still waits at its word. -/
def Mach.stillWaits (m : Mach) (d : DevLaunch) : Bool := (m.group d.core d.slot).status == .waiting (.launchAccept d.id)

def DevLaunch.loader (d : DevLaunch) : Bool := d.core == noCore

def DevLaunch.request (d : DevLaunch) : Request :=
  { ctx := d.ctx, rcb := BitVec.ofNat 64 d.rcb, patch := d.patch, wit := d.w, tag := 0, host := none,
    by_ := if d.loader then none else some (d.core, d.slot), parent := d.parent, loader := d.loader, clean := true }

/-- The physical address of a place in this part, or 0 (R397). -/
def Mach.addrOf (m : Mach) (p ctx va : Nat) : W64 :=
  match m.vaAt p ctx va with
  | some x => if x.1 = m.partno.toNat then BitVec.ofNat 64 x.2 else 0
  | none => 0

/-- A refused launch raises cause 0x28 at its word (R297). One that the loader made has no word to trap at and ends with the error record
alone: channel 5, cause 0x28, the physical address of the block, and in DETAIL the fail witness with the refusal's code (R23, R397; DESIGN
CHOICE, log 88). -/
def Mach.refuseLaunch (m : Mach) (p : Nat) (d : DevLaunch) (code : Nat) : Mach :=
  let m := m.modPart p (fun x => x.dropDev d.id)
  if d.loader then m.logEvent p 5 0xFF 0 0x28 0xFFFF (m.addrOf p d.ctx d.rcb) (failW code)
  else takeTrap m d.core d.slot (m.group d.core d.slot).pc
    { cause := 0x28, lanes := (m.group d.core d.slot).xm, detail := BitVec.ofNat 64 code }

def Mach.acceptDevice (m : Mach) (p : Nat) : Mach :=
  match (m.part p).devHead with
  | none => m
  | some d =>
    if !d.loader && !m.stillWaits d then m.modPart p (fun x => x.dropDev d.id)
    else match m.accept p d.request with
      | .hold m => m
      | .refused m code => m.refuseLaunch p d code
      | .ok m id =>
        m.modPart p (fun x => if d.loader then x.dropDev d.id
          else { x with dev := x.dev.map (fun y => if y.id = d.id then { y with ans := some (m.inst id).num } else y) })

/-- Entries are taken in order, those of the host through its port (R405); no close of an epoch runs, so that what the part writes belongs to the
open epoch (R296). -/
def execAcceptance (part : Nat) (device : Bool) (idx : Nat) :=
  stepIf (fun m => (m.part part).v && (m.part part).ep.idle && (if device then idx == 0 && (m.part part).devHead.isSome
      else !m.linkPaused 16 && (m.part part).hostReady && idx == (m.part part).lqacc.toNat))
    (fun m => if device then m.acceptDevice part else m.acceptHost part)

/-- Only the host reaches its launch registers (R299). -/
def execLqtailWrite (part : Nat) (tail : Write W32) :=
  stepIf (fun m => (m.part part).v && m.role tail.by_ == .host) (fun m => m.modPart part (fun x => { x with lqtail := tail.val }))

end Sys2Proof.Machine
end

