-- ==== Sys2Proof/Machine/RegionSteps.lean ====
section
/-! DEFINITION. The life of a region after acceptance: leaving HELD (R304 to R306, R309), the gang queues (R310, R311), placement
(R312 to R314), completion (R307), records (R302) and budgets (R308). -/

namespace Sys2Proof.Machine

/-! ### REGION_LEAVE_HELD (R305, R306) -/

def IState.finished : IState → Bool
  | .complete | .ended => true
  | _ => false

/-- Every earlier instance of the block is over. -/
def Mach.firstOfBlock (m : Mach) (i : Nat) : Bool :=
  let x := m.inst i
  m.insts.all (fun ki => ki.2.part != x.part || ki.2.ctx != x.ctx || ki.2.rcb != x.rcb || ki.2.state.finished ||
      decide (x.num.toNat ≤ ki.2.num.toNat))

/-- A dependence is met once DONE has reached its instance. -/
def Mach.depMet (m : Mach) (x : Inst) (d : Nat × W64) : Bool :=
  (m.vaAt x.part x.ctx (d.1 + 0x48)).isSome && decide (d.2.toNat ≤ (m.va64 x.part x.ctx (d.1 + 0x48)).toNat)

/-- A dependence that ended without completing, a refused entry (status 1) being none: its status and cause. -/
def Mach.depEnded (m : Mach) (x : Inst) : Option (Nat × Nat) :=
  x.deps.findSome? (fun d => (m.insts.find? (fun ki => ki.2.part == x.part && ki.2.ctx == x.ctx && ki.2.rcb == d.1 && ki.2.num == d.2 &&
    ki.2.state == .ended && ki.2.status != 1 && !m.insts.any (fun kj => kj.2.part == x.part && kj.2.ctx == x.ctx && kj.2.rcb == d.1 &&
      kj.2.num == d.2 && kj.2.state == .complete))).map (fun ki => (ki.2.status, ki.2.cause)))

/-- The witnesses that the scheduler presents for a region: INW merged with the launch's, and each dependence's OUTW. -/
def Mach.inputs (m : Mach) (x : Inst) : List W64 := x.inw :: x.deps.map (fun d => m.va64 x.part x.ctx (d.1 + 0x38))

/-- Presents them in turn; `none` waits. A future witness is taken as expired (R276). -/
def Mach.presentAll (p : Nat) : List W64 → Mach → Mach × Bool
  | [], m => (m, true)
  | w :: ws, m => match m.present (schedCore p) 0 p w with
    | .ok m => Mach.presentAll p ws m
    | .hold m _ => (m, false)
    | .refused => Mach.presentAll p ws m

/-- The gangs that a region is dealt over: those that it may use, or the partition's own while all of these are lent. -/
def Mach.gangsFor (m : Mach) (p : Nat) (borrow : Bool) : List Nat :=
  match (List.range 144).filter (fun g => m.coreFor (8 * g) p borrow) with
  | [] => (List.range 144).filter (fun g => m.partOf (sliceOf (8 * g)) == some p)
  | l => l

/-- Tasks dealt over gangs in rotation, starting at gang `start` or the next one after it (R309). -/
def Part.deal (x : Part) (gs : List Nat) (tasks : List Task) : Part :=
  let ord := gs.filter (fun g => decide (x.nextGang ≤ g)) ++ gs.filter (fun g => decide (g < x.nextGang))
  if ord.isEmpty then x
  else
    let q := tasks.zipIdx.foldl (fun (q : Tab (List Task)) t =>
      let g := ord.getD (t.2 % ord.length) 0
      tset [] q g (tget [] q g ++ [t.1])) x.queues
    { x with queues := q, nextGang := ord.getD ((tasks.length - 1) % ord.length) 0 + 1 }

def Mach.enqueueRegion (m : Mach) (i : Nat) : Mach :=
  let x := m.inst i
  let task (k : Nat) : Task := { inst := i, team := k, waited := 0, saved := none, front := 0 }
  if x.pers then m.modPart x.part (fun p => { p with persQ := p.persQ ++ [task 0] })
  else m.modPart x.part (fun p => p.deal (m.gangsFor x.part x.borrow) ((List.range x.grid).map task))

/-- A region that waits for a fault domain takes one that has come free, and its FDOM records it (R298, R389). -/
def Mach.takeDom (m : Mach) (i : Nat) : Mach :=
  let x := m.inst i
  match m.writeWait x.part x.ctx (x.rcb + 0x28) 4 with
  | some m => m
  | none => match m.openDom x.part (BitVec.ofNat 2 (x.fdom - 64)) with
    | none => m
    | some (m, d) => (m.modInst i (fun y => { y with fdom := d })).vaWrite x.part d x.ctx (x.rcb + 0x28) (bytesOf 4 d)

/-- The witnesses are presented, and the region joins the queues once all are satisfied. -/
def Mach.joinQueues (m : Mach) (i : Nat) : Mach :=
  let x := m.inst i
  let ws := m.inputs x
  let r := Mach.presentAll x.part ws m
  if r.2 then (r.1.modInst i (fun y => { y with state := .queued, inw := ws.foldl (wMerge m) 0 })).enqueueRegion i else r.1

/-- What the scheduler reads of a dependence: OUTW and DONE of its block. -/
def depReads (x : Inst) : List (Nat × Nat) := x.deps.map (fun d => (d.1 + 0x38, 24))

/-- A region leaves HELD, or ends with a dependence that ended, once the blocks that it depends on may be read. -/
def Mach.leaveHeld (m : Mach) (i : Nat) : Mach :=
  let x := m.inst i
  match (depReads x).findSome? (fun r => m.readWait x.part x.ctx r.1 r.2) with
  | some m => m
  | none =>
    let m := (depReads x).foldl (fun m r => (m.vaTouch x.part x.ctx r.1 r.2).vaDeny x.part x.fdom x.ctx r.1 r.2) m
    if 64 ≤ x.fdom then m.takeDom i
    else match m.depEnded x with
    | some s => m.endInst i s.1 s.2 true
    | none => m.joinQueues i

/-- A region of a domain that waits for its roll back stays HELD (R392). -/
def execRegionLeaveHeld (i : Nat) :=
  stepIf (fun m => (m.inst i).state == .held && !(m.inst i).frozen && m.firstOfBlock i &&
      ((m.depEnded (m.inst i)).isSome || (m.inst i).deps.all (m.depMet (m.inst i))))
    (fun m => m.leaveHeld i)

/-! ### Gang queues (R310) -/

/-- Teams of an instance may be placed: its context runs, and its domain waits for no roll back (R392). -/
def Mach.mayPlace (m : Mach) (i : Nat) : Bool :=
  m.ctxRuns (m.inst i).part (m.inst i).ctx && !(m.part (m.inst i).part).rollback.contains (m.inst i).fdom

def Mach.effPrio (m : Mach) (t : Task) : Nat := min 15 ((m.inst t.inst).prio + t.waited / 65536)

/-- `a` stands before `b`: a relaunched task at the head (R391, log 89), then priority, acceptance and team number. -/
def Mach.ahead (m : Mach) (a b : Task) : Bool :=
  let x := m.effPrio a
  let y := m.effPrio b
  if a.front ≠ b.front then decide (b.front < a.front)
  else if x ≠ y then decide (y < x)
  else if (m.inst a.inst).order ≠ (m.inst b.inst).order then decide ((m.inst a.inst).order < (m.inst b.inst).order)
  else decide (a.team ≤ b.team)

def insertBy {α : Type} (le : α → α → Bool) (x : α) : List α → List α
  | [] => [x]
  | y :: t => if le x y then x :: y :: t else y :: insertBy le x t

def Mach.sorted (m : Mach) (q : List Task) : List Task := q.foldr (insertBy m.ahead) []

/-- The tasks of a gang's queue that may be placed, in order. -/
def Mach.gangQueue (m : Mach) (p g : Nat) : List Task := m.sorted ((tget [] (m.part p).queues g).filter (fun t => m.mayPlace t.inst))

/-! ### Which core takes a task (R312, R313) -/

def Mach.groupCount (m : Mach) (c : Nat) : Nat := (m.core c).groups.length

/-- A marked or reserved core takes only what it is kept for, once it is empty and its word rewritten. -/
def Mach.keptFor (m : Mach) (c p : Nat) (t : Task) (pool : W32) : Bool :=
  match (m.core c).mark with
  | some k => k.inst == t.inst && k.team == t.team && k.start.isNone && sameSplit (m.core c).pool pool && (m.core c).teams.isEmpty
  | none => !(m.part p).reserved.any (fun r => r.2 == c)

/-- What a returned team would clash with on a core, the teams `out` having been spilled (R347): entries, streams, or a log with no room
for its own entries (R263). -/
def Mach.clashes (m : Mach) (t : Task) (c : Nat) (follower : Bool) (out : List Nat) : Bool :=
  match t.saved with
  | none => false
  | some id => match tget none m.shadow (2 * id + if follower then 1 else 0) with
    | none => false
    | some x => !((out.foldl (fun (m : Mach) o => m.spill o c) m).core c).free x ||
        decide (16 < m.logUsed c (m.team id).part (m.team id).ctx + (x.log.filter (fun e => !e.done)).length)

/-- The spills with which core `c` takes a task, or none where it cannot. -/
def Mach.coreTakes (m : Mach) (p : Nat) (t : Task) (c : Nat) (follower : Bool) : Option Claim :=
  let x := m.inst t.inst
  let n := (groupsOn x.groups x.pair follower).length
  if m.coreFor c p x.borrow && m.keptFor c p t x.pool then m.makeRoom c p x.ctx t.inst x.pool n (m.clashes t c follower) else none

/-- The core, or leader of a pair, of a gang that takes a task: the fewest resident groups, ties to the lowest. -/
def Mach.pick (m : Mach) (p g : Nat) (t : Task) : Option (Nat × Claim × Claim) :=
  let x := m.inst t.inst
  let cands := (List.range 8).filterMap (fun k =>
    let c := 8 * g + k
    if x.pair then
      if c % 2 = 0 then (match m.coreTakes p t c false, m.coreTakes p t (c + 1) true with
        | some a, some b => some (m.groupCount c + m.groupCount (c + 1), c, a, b)
        | _, _ => none) else none
    else (m.coreTakes p t c false).map (fun a => (m.groupCount c, c, a, Claim.nothing)))
  (cands.foldl (fun (o : Option (Nat × Nat × Claim × Claim)) y => match o with
    | none => some y
    | some z => if y.1 < z.1 then some y else some z) none).map (·.2)

/-! ### Placing (R312, R347) -/

/-- Teams of an instance that a returned slice gave back and that are not placed again. -/
def Mach.returned (m : Mach) (i : Nat) : List Nat :=
  distinct ((m.shadow.filter (fun kx => match kx.2 with
    | some x => x.core.isNone && (m.team x.team).inst == i
    | none => false)).map (fun kx => kx.1 / 2))

/-- A region halted by a returned slice goes on once all its teams are placed (R347). -/
def Mach.thaw (m : Mach) (i : Nat) : Mach :=
  let x := m.inst i
  if !x.frozen || !(m.returned i).isEmpty || (m.part x.part).rollback.contains x.fdom then m
  else
    let m := m.modInst i (fun y => { y with frozen := false })
    if m.ctxRuns x.part x.ctx then ((m.teams.filter (fun t => t.2.inst == i)).map (·.1)).foldl Mach.teamGo m else m

/-- Places a returned team on a core or pair, its groups still halted. -/
def Mach.placeSaved (m : Mach) (id c : Nat) (a b : Claim) : Mach :=
  let m := (m.spillClaim c a).spillClaim (c + 1) b
  let t := m.team id
  let half (m : Mach) (c : Nat) (key : Nat) (old : Nat) (ts : Nat) : Mach :=
    match tget none m.shadow key with
    | none => m
    | some x =>
      let free := m.freeSlots c t.part t.ctx ((m.residents c).filter (fun o => !m.isCtx o t.part t.ctx)) t.pool
      let f (s : Nat) : Nat := free.getD ((x.groups.findIdx? (fun g => g.1 == s)).getD 0) 0
      x.groups.foldl (fun (m : Mach) g => m.reloadGroup id c old g.1 (f g.1)) (m.reload id c ts old x f)
  let ts (c : Nat) : Nat := (m.freeTslots c (m.residents c ++ m.spilledOn c t.part t.ctx)).headD 0
  let old := t.core
  let m1 := m.setTeam id { t with core := c, tslot := ts c, tslotF := if t.pair then ts (c + 1) else 0 }
  let m2 := half m1 c (2 * id) old (ts c)
  let m3 := if t.pair then half m2 (c + 1) (2 * id + 1) (old + 1) (ts (c + 1)) else m2
  m3.thaw t.inst

def Mach.placeTask (m : Mach) (t : Task) (c : Nat) (a b : Claim) : Mach :=
  match t.saved with
  | none => m.placeNew t.inst t.team c a b
  | some id => m.placeSaved id c a b

def Part.removeTask (x : Part) (g : Nat) (t : Task) : Part := { x with queues := tset [] x.queues g ((tget [] x.queues g).erase t) }

/-- A partition word admits a team's (R25). -/
def admits (word pool : W32) : Bool := vru word == vru pool && gslF word == gslF pool && (accb pool == 0 || accb word == accb pool)

/-- The word under which a core serves a context does not admit the region's; a core with no team of the context counts as empty (R339). -/
def Mach.mustRewrite (m : Mach) (c p : Nat) (x : Inst) : Bool := ((m.wordOf c p x.ctx).map (fun w => !admits w x.pool)).getD false

/-- A core word in a gang admits the one that a task needs, or a core is empty (R313). -/
def Mach.wordHeld (m : Mach) (p g : Nat) (x : Inst) : Bool :=
  (List.range 8).any (fun k => let c := 8 * g + k
    m.coreFor c p x.borrow && !m.mustRewrite c p x && ((m.wordOf c p x.ctx).isSome || (m.core c).mark.isNone))

/-- The core, or the leader of the pair, that a gang marks: the fewest resident groups, ties to the lowest. -/
def Mach.toMark (m : Mach) (p g : Nat) (x : Inst) : Option Nat :=
  let free (c : Nat) : Bool := m.coreFor c p x.borrow && (m.core c).mark.isNone && !(m.part p).reserved.any (fun r => r.2 == c)
  let cands := (List.range 8).filterMap (fun k => let c := 8 * g + k
    if x.pair then (if c % 2 = 0 && free c && free (c + 1) then some (m.groupCount c + m.groupCount (c + 1), c) else none)
    else if free c then some (m.groupCount c, c) else none)
  (cands.foldl (fun (o : Option (Nat × Nat)) y => match o with
    | none => some y
    | some z => if y.1 < z.1 then some y else some z) none).map (·.2)

def Mach.markCore (m : Mach) (c : Nat) (k : Mark) : Mach := m.modCore c (fun x => { x with mark := some k })

/-- The head task marks a core where no word of the gang serves it. -/
def Mach.markFor (m : Mach) (p g : Nat) (t : Task) : Mach :=
  let x := m.inst t.inst
  let marked := (List.range 8).any (fun i => match (m.core (8 * g + i)).mark with
    | some k => k.inst == t.inst && k.team == t.team
    | none => false)
  if marked || m.wordHeld p g x then m
  else match m.toMark p g x with
    | none => m
    | some c =>
      let k : Mark := { inst := t.inst, team := t.team, start := none }
      if x.pair then (m.markCore c k).markCore (c + 1) k else m.markCore c k

/-- The first task of a gang's queue that some core takes, with its place in the queue. -/
def Mach.firstPlaceable (m : Mach) (p g : Nat) : Option (Nat × Task × Nat × Claim × Claim) :=
  (m.gangQueue p g).zipIdx.findSome? (fun t => (m.pick p g t.1).map (fun r => (t.2, t.1, r)))

/-- One turn of a gang's queue engine: the first task that a core takes is placed; a head that none takes may mark one. -/
def Mach.gangTurn (m : Mach) (p g idx : Nat) : Mach :=
  let m := match (m.gangQueue p g).head? with
    | some t => if (m.pick p g t).isNone then m.markFor p g t else m
    | none => m
  match m.firstPlaceable p g with
  | none => m
  | some (n, t, c, a, b) =>
    if n = idx then ((m.placeTask t c a b).modPart p (fun x => x.removeTask g t)).sweepMarks else m

/-- A gang serves its own partition, or the one that its slice is lent to. -/
def execTaskPlacement (part gang idx : Nat) :=
  stepIf (fun m => (m.part part).v && m.coreFor (8 * gang) part true) (fun m => m.gangTurn part gang idx)

/-! ### CORE_WORD_REWRITE (R24, R313) -/

/-- The word that a marked core is to hold, when it holds another. -/
def Mach.wantedWord (m : Mach) (c : Nat) : Option W32 :=
  match (m.core c).mark with
  | none => none
  | some k =>
    let pool := (m.inst k.inst).pool
    if sameSplit (m.core c).pool pool then none else some pool

/-- Rows of halted contexts are spilled (R339); the rewrite starts once the region's own context has no team left there, spilled ones
included, and ends 64 cycles later. -/
def Mach.rewriteWord (m : Mach) (c : Nat) (pool : W32) : Mach :=
  match (m.core c).mark with
  | none => m
  | some k =>
    let x := m.inst k.inst
    let m := ((m.residents c).filter (fun id => !m.isCtx id x.part x.ctx && m.quiet id)).foldl (fun (m : Mach) o => m.spill o c) m
    if !(m.residents c).isEmpty || !(m.spilledOn c x.part x.ctx).isEmpty then m
    else match k.start with
      | none => m.markCore c { k with start := some m.clock }
      | some t => if t + 64 ≤ m.clock then (m.modCore c (fun x => { x with pool := pool })).markCore c { k with start := none } else m

def execCoreWordRewrite (core : Nat) :=
  stepIf (fun m => (m.wantedWord core).isSome) (fun m => match m.wantedWord core with
    | some w => m.rewriteWord core w
    | none => m)

/-! ### PERSISTENT_PLACEMENT (R314, R347) -/

/-- Those of the partition-wide queue that may be placed, in order. -/
def Mach.persQueue (m : Mach) (p : Nat) : List Task := m.sorted ((m.part p).persQ.filter (fun t => m.mayPlace t.inst))

/-- The head of the partition-wide queue. -/
def Mach.persHead (m : Mach) (p : Nat) : Option Task := (m.persQueue p).head?

/-- The one of them for which cores are reserved. -/
def Mach.persReserved (m : Mach) (p : Nat) : Option Task := (m.persQueue p).find? (fun t => (m.part p).reserved.any (fun r => r.1 == t.inst))

/-- No gang queue's head has a higher effective priority. -/
def Mach.persFirst (m : Mach) (p : Nat) (t : Task) : Bool :=
  (List.range 144).all (fun g => match (m.gangQueue p g).head? with
    | some u => decide (m.effPrio u ≤ m.effPrio t)
    | none => true)

/-- The teams that a persistent region has still to place: all, or those that a returned slice gave back. -/
def Mach.persTasks (m : Mach) (t : Task) : List Task :=
  match m.returned t.inst with
  | [] => (List.range (m.inst t.inst).grid).map (fun k => { t with team := k, saved := none })
  | ids => ids.map (fun id => { t with team := (m.team id).num.toNat, saved := some id })

/-- The most places that `k` of these gangs offer together. -/
def mostPlaces (l : List (Nat × Nat)) (k : Nat) : Nat := (((l.map (·.2)).foldr (insertBy (fun a b => decide (b ≤ a))) []).take k).sum

/-- The lowest `k` gangs that offer `n` places together. -/
def chooseGangs : List (Nat × Nat) → Nat → Nat → List Nat
  | [], _, _ => []
  | _, _, 0 => []
  | (g, a) :: rest, n, k + 1 => if n ≤ a + mostPlaces rest k then g :: chooseGangs rest (n - a) k else chooseGangs rest n (k + 1)

/-- `n` of these cores, or leaders of pairs, from as few gangs as possible: the lowest gangs, and in each the lowest cores (R314). -/
def fewestGangs (cs : List Nat) (n : Nat) : List Nat :=
  let l := (distinct (cs.map gangOf)).map (fun g => (g, (cs.filter (fun c => gangOf c == g)).length))
  match (List.range (l.length + 1)).find? (fun k => decide (n ≤ mostPlaces l k)) with
  | none => []
  | some k => (cs.filter (fun c => (chooseGangs l n k).contains (gangOf c))).take n

/-- Reserves as many cores, or pairs, as there are teams; cores whose word does not admit the region's are marked, and a mark that a
gang had made there is gone, for a reserved core takes no other team. -/
def Mach.reserve (m : Mach) (p : Nat) (t : Task) : Mach :=
  let x := m.inst t.inst
  let ts := m.persTasks t
  let busy (c : Nat) : Bool := !(m.returned t.inst).isEmpty && (m.residents c).any (fun id => (m.team id).inst == t.inst)
  let cs := fewestGangs ((m.places p x.borrow x.pair).filter (fun c => !busy c)) ts.length
  if cs.length < ts.length then m
  else
    let all := if x.pair then cs.flatMap (fun c => [c, c + 1]) else cs
    let m := m.modPart p (fun y => { y with reserved := all.map (fun c => (t.inst, c)) })
    (cs.zip ts).foldl (fun (m : Mach) ct =>
      let k : Mark := { inst := t.inst, team := ct.2.team, start := none }
      let mk (m : Mach) (c : Nat) : Mach := m.modCore c (fun y => { y with mark := if m.mustRewrite c p x then some k else none })
      if x.pair then mk (mk m ct.1) (ct.1 + 1) else mk m ct.1) m

/-- Whether a reserved core takes its team now. -/
def Mach.reservedTakes (m : Mach) (p : Nat) (t : Task) (c : Nat) (follower : Bool) : Option Claim :=
  let x := m.inst t.inst
  let n := (groupsOn x.groups x.pair follower).length
  let ok := match (m.core c).mark with
    | some k => k.inst == t.inst && k.start.isNone && sameSplit (m.core c).pool x.pool && (m.core c).teams.isEmpty
    | none => true
  if ok then m.makeRoom c p x.ctx t.inst x.pool n (m.clashes t c follower) else none

/-- All teams are placed in one step, or none. -/
def Mach.placeAll (m : Mach) (p : Nat) (t : Task) : Mach :=
  let x := m.inst t.inst
  let ts := m.persTasks t
  let all := (m.part p).reserved.map (·.2)
  let cs := if x.pair then all.filter (fun c => c % 2 == 0) else all
  let plan := (cs.zip ts).mapM (fun ct => match m.reservedTakes p ct.2 ct.1 false,
      (if x.pair then m.reservedTakes p ct.2 (ct.1 + 1) true else some Claim.nothing) with
    | some a, some b => some (ct.1, ct.2, a, b)
    | _, _ => none)
  match plan with
  | none => m
  | some l =>
    if l.length ≠ ts.length then m.modPart p (fun y => { y with reserved := [] })
    else
      let m := m.modPart p (fun y => { y with reserved := [], persQ := y.persQ.erase t })
      l.foldl (fun (m : Mach) r =>
        let free (m : Mach) (c : Nat) : Mach := m.modCore c (fun k => { k with mark := none })
        let m := free (m.placeTask r.2.1 r.1 r.2.2.1 r.2.2.2) r.1
        if x.pair then free m (r.1 + 1) else m) m

/-- Nothing is reserved any more, and the marks made for it are gone. -/
def Mach.unreserve (m : Mach) (p : Nat) : Mach :=
  let clear (k : Core) : Core := { k with mark := match k.mark with
    | some x => if (m.part p).reserved.any (fun r => r.1 == x.inst) then none else some x
    | none => none }
  (m.mapCores (fun _ k => clear k)).modPart p (fun y => { y with reserved := [] })

/-- A region with reserved cores is placed on them all, whatever has come to head the queues since; where one of them has been lent or
returned meanwhile, none is reserved any more (R346). Else the head reserves, in place of a region whose context has halted (DESIGN CHOICE,
log 90). -/
def Mach.persTurn (m : Mach) (p : Nat) (t : Task) : Mach :=
  if (m.part p).reserved.any (fun r => r.1 == t.inst) then
    (if (m.part p).reserved.all (fun r => m.coreFor r.2 p (m.inst t.inst).borrow) then m.placeAll p t else m.unreserve p)
  else (m.unreserve p).reserve p t

/-- The region that the scheduler turns to: one with reserved cores, else the head of the partition-wide queue once it comes first. -/
def Mach.persNext (m : Mach) (p : Nat) : Option Task :=
  match m.persReserved p with
  | some t => some t
  | none => (m.persHead p).filter (m.persFirst p)

def execPersistentPlacement (part : Nat) :=
  stepIf (fun m => (m.persNext part).isSome) (fun m => match m.persNext part with
    | some t => m.persTurn part t
    | none => m)

/-! ### GANG_BALANCE (R311) -/

def Mach.moveTail (m : Mach) (p src dst n : Nat) : Mach :=
  let q := m.sorted (tget [] (m.part p).queues src)
  let moved := q.drop (q.length - n)
  (m.modPart p (fun x => { x with queues := tset [] (tset [] x.queues src (q.take (q.length - n))) dst (tget [] x.queues dst ++ moved) })).sweepMarks

def Mach.balance (m : Mach) (p g : Nat) : Mach :=
  let a := (tget [] (m.part p).queues g).length
  let b := (tget [] (m.part p).queues (g + 1)).length
  let m := m.modPart p (fun x => { x with balancedAt := tset 0 x.balancedAt g m.clock })
  if b + 4 < a then m.moveTail p g (g + 1) ((a - b - 3) / 2)
  else if a + 4 < b then m.moveTail p (g + 1) g ((b - a - 3) / 2)
  else m

def execGangBalance (part gang : Nat) :=
  stepIf (fun m => m.coreFor (8 * gang) part true && m.coreFor (8 * (gang + 1)) part true &&
      decide (tget 0 (m.part part).balancedAt gang + 1024 ≤ m.clock)) (fun m => m.balance part gang)

/-! ### REGION_COMPLETE (R307) -/

def Mach.regionDone (m : Mach) (i : Nat) : Bool :=
  let x := m.inst i
  !x.frozen && (x.state == .running || x.state == .children) && x.teamsDone == x.grid && x.children == 0

def Mach.completeRegion (m : Mach) (i : Nat) : Mach :=
  let x := m.inst i
  let w := epochW 2 m.partno x.part (m.part x.part).ep.openEpoch
  let m := (m.vaTouch x.part x.ctx (x.rcb + 0x48) 8).vaDeny x.part x.fdom x.ctx (x.rcb + 0x48) 8
  let m := m.vaWrite x.part x.fdom x.ctx (x.rcb + 0x38) (bytesOf 8 w.toNat)
  let m := m.vaWrite x.part x.fdom x.ctx (x.rcb + 0x48) (bytesOf 8 (m.va64 x.part x.ctx (x.rcb + 0x48) + 1).toNat)
  let m := m.modInst i (fun y => { y with state := .complete, outw := w })
  let m := match x.parent with
    | some j => m.modInst j (fun y => { y with children := y.children - 1 })
    | none => m
  let m := if x.endch && x.chain != 0 then m.demoteChain x.part x.chain else m
  m.sweepDoms x.part

/-- The block's fields are written while no close runs, so that they belong to the open epoch that OUTW carries, and once nothing keeps
their line from being written (R188, R353, R367, R405): then all of it happens together. -/
def execRegionComplete (i : Nat) :=
  stepIf (fun m => m.regionDone i && (m.part (m.inst i).part).ep.idle)
    (fun m => match m.writeWait (m.inst i).part (m.inst i).ctx ((m.inst i).rcb + 0x38) 24 with
      | some m => m
      | none => m.completeRegion i)

/-! ### COMPLETION_RECORD_PUBLISH (R300, R302) -/

/-- The accepted host entry whose record comes next. -/
def Mach.nextRecord (m : Mach) (p : Nat) : Option Nat :=
  (m.insts.find? (fun ki => ki.2.part == p && ki.2.host == some (m.part p).cqtail.toNat && !ki.2.recorded)).map (·.1)

def Mach.publish (m : Mach) (p i : Nat) : Mach :=
  let x := m.inst i
  let q := m.part p
  let out := if x.status = 0 then x.outw else failW x.status
  let rec_ := bytesOf 8 x.tag.toNat ++ bytesOf 8 x.num.toNat ++ bytesOf 8 out.toNat ++ bytesOf 8 (x.status % 65536 + 65536 * (x.cause % 65536))
  let m := m.farWrite 64 (q.cqAt q.cqtail) rec_
  let m := m.farWrite 64 (q.lqAt q.cqtail + 0x29) (bytesOf 1 2)
  (m.modPart p (fun y => { y with cqtail := y.cqtail + 1 })).modInst i (fun y => { y with recorded := true })

/-- A record is published once its OUTW is satisfied at the homes (R356). It goes through the host port (R405). -/
def Mach.publishNext (m : Mach) (p i : Nat) : Mach :=
  if (m.inst i).status ≠ 0 then m.publish p i
  else match m.present (schedCore p) 0 p (m.inst i).outw with
    | .ok m => m.publish p i
    | .hold m _ => m
    | .refused => m.publish p i

def execCompletionRecordPublish (part : Nat) :=
  stepIf (fun m => (m.part part).lqsize != 0 && !m.linkPaused 16 && (match m.nextRecord part with
    | some i => (m.inst i).state.finished
    | none => false))
    (fun m => match m.nextRecord part with
      | some i => m.publishNext part i
      | none => m)

/-! ### BUDGET_EXHAUSTED (R308) -/

/-- Whether `i` is `j` or descends from it, following at most `n` parents. -/
def Mach.drawsOn (m : Mach) (j : Nat) : Nat → Nat → Bool
  | 0, i => i == j
  | n + 1, i => i == j || (match (m.inst i).parent with
    | some k => Mach.drawsOn m j n k
    | none => false)

/-- What a region and those below it have spent, in sixteenths of a core-cycle. -/
def Mach.spentOn (m : Mach) (j : Nat) : Nat :=
  ((m.insts.filter (fun ki => m.drawsOn j 16 ki.1)).map (fun ki => ki.2.spent)).sum

/-- The regions that go on and draw on the budget of region `j`, which may itself have ended. -/
def Mach.drawers (m : Mach) (j : Nat) : List Nat := (m.insts.filter (fun ki => !ki.2.state.finished && m.drawsOn j 16 ki.1)).map (·.1)

/-- The budget of region `j` has reached its limit, and a region still draws on it. -/
def Mach.exhausted (m : Mach) (j : Nat) : Bool :=
  let x := m.inst j
  x.ovb && x.budget != 0 && !(m.drawers j).isEmpty && decide (x.budget.toNat * 2 ^ 24 ≤ m.spentOn j)

def Mach.endBudget (m : Mach) (j : Nat) : Mach :=
  (m.drawers j).foldl (fun m i =>
    (m.endInst i 3 0 true).logEvent (m.inst i).part 5 0xFF 0 3 (m.inst i).fdom 0 0) m

def execBudgetExhausted (i : Nat) := stepIf (fun m => m.exhausted i) (fun m => m.endBudget i)

end Sys2Proof.Machine
end

