-- ==== Sys2Proof/Machine/ContextSteps.lean ====
section
/-! DEFINITION. Time slices and halts (R328, R336, R337), rows claimed back (R338), banks (R342), and borrowed slices (R346,
R347). -/

namespace Sys2Proof.Machine

/-! ### Which context runs (R336) -/

def IState.wantsToRun : IState → Bool
  | .queued | .running | .children => true
  | _ => false

/-- The context has an instance QUEUED, RUNNING or CHILDREN. -/
def Mach.hasWork (m : Mach) (p ctx : Nat) : Bool :=
  m.insts.any (fun ki => ki.2.part == p && ki.2.ctx == ctx && ki.2.state.wantsToRun)

def Mach.qualifies (m : Mach) (p ctx : Nat) : Bool :=
  ((m.part p).ctxAt ctx).valid && ((m.part p).ctxAt ctx).slice != 0 && m.hasWork p ctx

/-- The next context after the running one, in increasing number and wrapping round. -/
def Mach.nextCtx (m : Mach) (p : Nat) : Option Nat :=
  let start := match (m.part p).running with
    | some c => c + 1
    | none => 0
  ((List.range 8).map (fun i => (start + i) % 8)).find? (fun c => some c != (m.part p).running && m.qualifies p c)

/-- Cycles of a slice: LEN 1 to 63 reads as 64 (R335). -/
def Context.cycles (x : Context) : Nat := 1024 * (if x.slice.toNat < 64 then 64 else x.slice.toNat)

def Mach.sliceOver (m : Mach) (p : Nat) : Bool :=
  match (m.part p).running with
  | none => true
  | some c => !m.hasWork p c || decide ((m.part p).sliceStart + ((m.part p).ctxAt c).cycles ≤ m.clock)

/-- HALT at the groups of a context: they stop, their pins end, their sites' counts go home and the entries are dropped (R328). -/
def Mach.haltCore (m : Mach) (p ctx c : Nat) : Mach :=
  let mine (g : Group) : Bool := g.team != 0 && m.isCtx g.team p ctx
  let m := ((m.core c).groups.filter (fun x => mine x.2)).foldl (fun (m : Mach) x => m.widenAll c x.1) m
  let m := m.modCore c (fun k => k.mapGroups (fun _ g => if mine g then g.halt m.clock else g))
  m.flushSites c (fun s => s.part == p && s.ctx == ctx) true

def Mach.endSlice (m : Mach) (p : Nat) : Mach :=
  let m := match (m.part p).running with
    | some ctx => (m.coresOf p).foldl (fun (m : Mach) c => m.haltCore p ctx c) m
    | none => m
  m.modPart p (fun x => { x with halting := true })

def execContextSliceEnd (part : Nat) :=
  stepIf (fun m => (m.part part).v && !(m.part part).halting && m.sliceOver part && (m.nextCtx part).isSome) (fun m => m.endSlice part)

/-! ### CONTEXT_HALT_COMPLETE (R328, R337, R342) -/

/-- The dirty lines of a context in the L1s go home (R187); `none` waits for reserve space. -/
def Mach.ctxLinesHome (m : Mach) (p ctx : Nat) : Option Mach :=
  m.cores.foldlM (fun (m : Mach) kc =>
    (kc.2.l1.filter (fun x => x.part == p && x.ctx == ctx && x.dirty != 0)).foldlM (fun (m : Mach) x => m.clean kc.1 x.line) m) m

/-- A change of BANKS takes effect: every line of the context is written back to DRAM and leaves the old banks (R342). -/
def Mach.rebank (m : Mach) (p ctx : Nat) : Option Mach :=
  let x := (m.part p).ctxAt ctx
  match x.newBanks with
  | none => some m
  | some b => (m.ctxLinesHome p ctx).map (fun m =>
    let lns := ((m.l2 ++ m.ms).filter (fun t => t.part == p && t.ctx == ctx)).map (·.line)
    let m := m.flush (fun a => lns.contains (lineOf a) || !m.homeHolds (lineOf a))
    { m with l2 := m.l2.filter (fun t => !(t.part == p && t.ctx == ctx)) }.modPart p (fun y =>
      y.setCtx ctx { (y.ctxAt ctx) with banks := b, newBanks := none }))

/-- The changes of BANKS that wait for their contexts' halts; a write-back that finds no reserve space keeps the halt from completing. -/
def Mach.rebankAll (m : Mach) (p : Nat) : Option Mach := (List.range 8).foldlM (fun m ctx => m.rebank p ctx) m

/-- Dirty lines of a core that satisfy `f`. -/
def Core.dirtyLines (k : Core) (f : L1Line → Bool) : List Nat := (k.l1.filter (fun x => f x && x.dirty != 0)).map (·.line)

/-- The write-backs of a context's lines that wait for reserve space count as stalled (R367). -/
def Mach.stallCtx (m : Mach) (p : Nat) : Mach :=
  m.cores.foldl (fun m kc => m.stallLines kc.1 (kc.2.dirtyLines (fun x => x.part == p && (((m.part p).ctxAt x.ctx).newBanks).isSome))) m

/-- Every update of the context's sites has been answered. -/
def Mach.sitesQuiet (m : Mach) (p ctx : Nat) : Bool :=
  m.siteMsgs.all (fun kx => match kx.2 with
    | some x => x.part != p || x.ctx != ctx
    | none => true)

/-- The groups of a context go on whose rows are all present (R338). -/
def Mach.resumeCtx (m : Mach) (p ctx : Nat) : Mach :=
  ((m.teams.filter (fun t => t.2.part == p && t.2.ctx == ctx)).map (·.1)).foldl Mach.teamGo m

def Mach.switchCtx (m : Mach) (p : Nat) : Mach :=
  let old := (m.part p).running
  match m.nextCtx p with
  | none =>
    let m := m.modPart p (fun x => { x with halting := false, sliceStart := m.clock })
    (match old with
     | some c => m.resumeCtx p c
     | none => m)
  | some c =>
    (m.modPart p (fun x => { x with running := some c, halting := false, sliceStart := m.clock })).resumeCtx p c

/-- No site cache of the partition's cores holds an entry of the context (R328). -/
def Mach.sitesGone (m : Mach) (p ctx : Nat) : Bool := m.cores.all (fun kc => kc.2.sites.all (fun s => s.part != p || s.ctx != ctx))

/-- The halt is complete: changes of BANKS take effect, and the next context runs. -/
def Mach.haltDone (m : Mach) (p : Nat) : Mach :=
  match m.rebankAll p with
  | some m => m.switchCtx p
  | none => m.stallCtx p

/-- A die of the partition's cores has tripped: a context swap waits (R408). -/
def State.swapWaits (s : State) (p : Nat) : Bool := (s.m.coresOf p).any (fun c => tget 16 s.fw.dutyCap (dieOf c) == 0)

def execContextHaltComplete (part : Nat) (s : State) : Host.Outcome State Fault Refusal :=
  if s.swapWaits part then .next s else stepIf (fun m => (m.part part).halting && (match (m.part part).running with
      | some c => m.sitesQuiet part c && m.sitesGone part c
      | none => true)) (fun m => m.haltDone part) s

/-! ### ROW_CLAIM (R338, R339) -/

/-- The team of the running context with a spilled group in this slot; or one all of whose rows on the core are spilled and that has no
group there (R231). -/
def Mach.claimAt (m : Mach) (c slot : Nat) : Option Nat :=
  match m.partOfCore c with
  | none => none
  | some p => match (m.part p).running with
    | none => none
    | some ctx =>
      if (m.part p).halting then none
      else
        let ids := distinct (m.shadow.filterMap (fun kx => match kx.2 with
          | some x => if x.core = some c && m.isCtx x.team p ctx then some x.team else none
          | none => none))
        match ids.find? (fun id => (m.shadowOn id c).any (fun x => x.groups.any (fun g => g.1 == slot))) with
        | some id => some id
        | none => ids.find? (fun id => (m.shadowOn id c).any (fun x => x.groups.isEmpty))

/-- The shared rows of a spilled half beside the teams `kept` of other contexts and the resident ones of its own: its word, entries, units
and banks are free (R25, R339). Its own context has room for it always, for R312 counted it as its teams were placed. -/
def Mach.roomBack (m : Mach) (id c : Nat) (x : Shadow) (kept : List Nat) : Bool :=
  let t := m.team id
  let word := (m.wordOf c t.part t.ctx).getD x.pool
  let ids := id :: (m.residents c).filter (fun o => m.isCtx o t.part t.ctx) ++ kept
  let m' := ((m.residents c).filter (fun o => !m.isCtx o t.part t.ctx && !kept.contains o)).foldl (fun m o => m.spill o c) m
  kept.isEmpty ||
    (sameSplit (m.core c).pool word && decide (ids.length ≤ 4) && kept.all (fun o => (m.team o).slotOn c != t.slotOn c &&
        (accb t.pool == 0 || accb (m.team o).pool == 0)) &&
      (m'.core c).free x && decide ((ids.map (fun j => spk (m.team j).pool)).sum ≤ areaUnits word))

/-- The rows that the groups of a half share are claimed back, those in the way being spilled first and no others (R338). -/
def Mach.claimShared (m : Mach) (id c : Nat) (x : Shadow) : Mach :=
  let t := m.team id
  let others := (m.residents c).filter (fun o => !m.isCtx o t.part t.ctx)
  let kept := m.staying others (m.roomBack id c x)
  let out := others.filter (fun o => !kept.contains o)
  if !out.all m.quiet then m
  else
    let m := out.foldl (fun (m : Mach) o => m.spill o c) m
    if (m.core c).free x then m.reload id c (t.slotOn c) c x (fun s => s) else m

/-- A team holds a tile entry or a stream of these numbers on a core. -/
def Core.entryOf (k : Core) (x : Shadow) (o : Nat) : Bool :=
  x.tiles.any (fun t => (k.tile t.1).any (fun y => y.team == o)) || x.streams.any (fun q => (k.stream q.1).owner == some o)

/-- The tiles and streams that were spilled with a group of a half come back, those of halted contexts in their places being spilled first. -/
def Mach.claimEntries (m : Mach) (id c : Nat) (x : Shadow) : Mach :=
  let out := (m.residents c).filter (fun o => !m.isCtx o (m.team id).part (m.team id).ctx && (m.core c).entryOf x o)
  if !out.all m.quiet then m
  else
    let m := out.foldl (fun (m : Mach) o => m.spillEntries o c) m
    if (m.core c).free x then m.reloadEntries id c x else m

/-- A group's own rows are claimed back, once what its team shares is there; a halted group of another context in its slot is spilled first. -/
def Mach.claimGroup (m : Mach) (id c slot : Nat) : Mach :=
  let o := (m.group c slot).team
  if !(m.residents c).contains id || !m.entriesHere id c || !(m.shadowOn id c).any (fun x => x.groups.any (fun g => g.1 == slot)) then m
  else if o = 0 then m.reloadGroup id c c slot slot
  else if m.quiet o then (m.spillGroup c slot).reloadGroup id c c slot slot
  else m

/-- The group's rows are claimed back; a group goes on once every row of its own and of its team is in place (R231, R338). -/
def Mach.claimRows (m : Mach) (id c slot : Nat) : Mach :=
  let m := match m.shadowOn id c with
    | some x => if !(m.residents c).contains id then m.claimShared id c x else if m.entriesHere id c then m else m.claimEntries id c x
    | none => m
  (m.claimGroup id c slot).teamGo id

def execRowClaim (core slot : Nat) (s : State) : Host.Outcome State Fault Refusal :=
  if ((s.m.partOfCore core).map s.swapWaits).getD false then .next s
  else stepIf (fun m => (m.claimAt core slot).isSome) (fun m => match m.claimAt core slot with
    | some id => m.claimRows id core slot
    | none => m) s

/-! ### Borrowed slices (R346, R347) -/

def coresIn (slice : Nat) : List Nat := (List.range 96).map (fun i => 96 * slice + i)

def Mach.lendOf (m : Mach) (slice : Nat) : Lend := tget Lend.reset m.lends slice
def Mach.setLend (m : Mach) (slice : Nat) (x : Lend) : Mach := { m with lends := tset Lend.reset m.lends slice x }

/-- The slice's L1s are cleaned, the site entries of partition `p` dropped, and the cores' epoch counters set to the open epoch of the
partition `q` that they pass to (R79); `none` waits for reserve space. -/
def Mach.cleanSlice (m : Mach) (slice p q : Nat) : Option Mach :=
  (coresIn slice).foldlM (fun (m : Mach) c => (m.cleanL1 c).map (fun m =>
    (m.flushSites c (fun s => s.part == p) true).modCore c (fun k =>
      { k with tlb := [], ibuf := [], epoch := (m.part q).ep.openEpoch, taken := 0, satisfied := [] }))) m

/-- Write-backs of a slice's cores wait for reserve space. -/
def Mach.stallSlice (m : Mach) (slice : Nat) : Mach := 
  (coresIn slice).foldl (fun m c => m.stallLines c ((m.core c).dirtyLines (fun _ => true))) m

/-- The owner's teams have left, or are halted and can be spilled, and no store waits to enter an L1 there. -/
def Mach.lendReady (m : Mach) (slice : Nat) : Bool :=
  let l := m.lendOf slice
  l.l && !l.inEffect && (m.partOf slice).isSome && (m.part l.borrower.toNat).v && m.partOf slice != some l.borrower.toNat &&
    (coresIn slice).all (fun c => (m.residents c).all m.quiet && (m.core c).sbuf.isEmpty)

def Mach.lendNow (m : Mach) (slice : Nat) : Mach :=
  match m.partOf slice with
  | none => m
  | some a =>
    let m := (coresIn slice).foldl (fun (m : Mach) c => (m.residents c).foldl (fun (m : Mach) id => m.spill id c) m) m
    match m.cleanSlice slice a (m.lendOf slice).borrower.toNat with
    | none => m.stallSlice slice
    | some m => m.setLend slice { m.lendOf slice with inEffect := true }

def execLendTakeEffect (slice : Nat) := stepIf (fun m => m.lendReady slice) (fun m => m.lendNow slice)

/-- Teams of partition `p` with a place on the slice's cores, resident or spilled: the owner's own, spilled as the slice was lent, stay
where they are. -/
def Mach.onSlice (m : Mach) (slice p : Nat) : List Nat :=
  (distinct ((coresIn slice).flatMap m.residents ++ m.shadow.filterMap (fun kx => match kx.2 with
    | some x => match x.core with
      | some c => if sliceOf c = slice then some x.team else none
      | none => none
    | none => none))).filter (fun id => (m.team id).part == p)

/-- A team leaves the slice for the DRAM shadow, and goes back to a gang queue of its partition. -/
def Mach.giveBack (m : Mach) (id : Nat) : Mach :=
  let t := m.team id
  let m := m.spillTeam id
  let off (x : Option Shadow) : Option Shadow := x.map (fun y => { y with core := none, inWays := false })
  let m := { m with shadow := tset none (tset none m.shadow (2 * id) (off (tget none m.shadow (2 * id)))) (2 * id + 1)
                                (off (tget none m.shadow (2 * id + 1))) }
  let task : Task := { inst := t.inst, team := t.num.toNat, waited := 0, saved := some id, front := 0 }
  m.modPart t.part (fun p =>
    if (m.inst t.inst).pers then
      { p with persQ := if p.persQ.any (fun y => y.inst == t.inst) then p.persQ else p.persQ ++ [{ task with saved := none, team := 0 }] }
    else p.deal (m.gangsFor t.part (m.inst t.inst).borrow) [task])

/-- LEND.L has been cleared: the borrower's regions on the slice halt whole, and once their work in flight is done the teams
are spilled, the L1s cleaned and the slice passed back. -/
def Mach.returnSlice (m : Mach) (slice : Nat) : Mach :=
  let b := (m.lendOf slice).borrower.toNat
  let ids := m.onSlice slice b
  let m := (distinct (ids.map (fun id => (m.team id).inst))).foldl (fun (m : Mach) i => if (m.inst i).frozen then m else m.haltInst i) m
  if !ids.all m.quiet || (coresIn slice).any (fun c => !(m.core c).sbuf.isEmpty) then m
  else
    let m := m.setLend slice { m.lendOf slice with inEffect := false }
    let m' := ids.foldl Mach.giveBack m
    match m'.cleanSlice slice b ((m.partOf slice).getD 0) with
    | none => (m.setLend slice { m.lendOf slice with inEffect := true }).stallSlice slice
    | some m => m

def execSliceReturn (slice : Nat) :=
  stepIf (fun m => (m.lendOf slice).inEffect && !(m.lendOf slice).l) (fun m => m.returnSlice slice)

end Sys2Proof.Machine
end

