-- ==== Sys2Proof/Machine/SiteSteps.lean ====
section
/-! DEFINITION. Site updates at their homes (R321, R322), fills of the site caches (R325), count deltas (R324), and the new
module epoch of a restored context (R327). -/

namespace Sys2Proof.Machine

def Mach.siteMsg (m : Mach) (id : Nat) : Option SiteMsg := tget none m.siteMsgs id
def Mach.setSiteMsg (m : Mach) (id : Nat) (x : Option SiteMsg) : Mach := { m with siteMsgs := tset none m.siteMsgs id x }

/-- What remains of an update once the home has applied it: a claim owes its resolve, at the version that it produced. -/
def SiteMsg.after (x : SiteMsg) : Option SiteMsg :=
  match x.upd with
  | .claim _ => some { x with owed := true, version := x.version + 1 }
  | _ => none

/-- The home applies the update if the version that it carries is current, and discards it otherwise. One that finds no reserve space for
the entry's page or its version's waits at the home (R367). -/
def Mach.siteAtHome (m : Mach) (id : Nat) (x : SiteMsg) : Mach :=
  match m.siteAt x.part x.ctx x.desc x.site with
  | none => m.setSiteMsg id none
  | some (a, v) =>
    if m.siteVersion v ≠ x.version then m.setSiteMsg id none
    else match m.siteStuck x.part x.ctx x.desc x.site with
      | some pg => m.countStall pg (whoOwn a)
      | none => (m.applySite x.part x.ctx x.desc x.site x.upd.apply).setSiteMsg id x.after

def execSiteUpdateAtHome (id : Nat) :=
  stepIf (fun m => match m.siteMsg id with
    | some x => !x.owed
    | none => false)
    (fun m => match m.siteMsg id with
      | some x => m.siteAtHome id x
      | none => m)

/-- The core sends the resolve, with the attribute fixed when the claim's word issued. -/
def SiteMsg.resolve (x : SiteMsg) : SiteMsg :=
  match x.upd with
  | .claim a => { x with owed := false, upd := .resolve a }
  | _ => x

def execSiteResolve (id : Nat) :=
  stepIf (fun m => match m.siteMsg id with
    | some x => x.owed
    | none => false)
    (fun m => m.setSiteMsg id ((m.siteMsg id).map SiteMsg.resolve))

/-! ### Site caches -/

/-- The group's next word is a generic word whose entry its core lacks: the group is not ready (R325). -/
def Mach.lacksSite (m : Mach) (c k d n : Nat) : Bool :=
  ((m.group c k).isPending || (m.group c k).isActive) && (match m.nextOf c k with
    | .issue m i => siteOf i == some n && !isSitex i && { m with cur := (c, k) }.siteWait n == some (.siteFill d n)
    | _ => false)

/-- Some group of the core that has not halted waits for the entry (R325, R328). -/
def Mach.wantsSite (m : Mach) (c ctx d n : Nat) : Bool :=
  (m.core c).groups.any (fun g => !g.2.halted && (m.team g.2.team).ctx == ctx && ((match g.2.status with
    | .parked (.siteFill e k) => e == d && k == n
    | _ => false) || m.lacksSite c g.1 d n))

/-- Room for one more entry: the one held longest leaves, its deltas added at the home first (log 8). -/
def Mach.siteRoom (m : Mach) (c : Nat) : Mach :=
  if (m.core c).sites.length < 256 then m
  else match (m.core c).sites.getLast? with
    | none => m
    | some s => m.flushSites c (fun y => siteKey y s.part s.ctx s.desc s.site) true

def Mach.fillSite (m : Mach) (c p ctx d n : Nat) : Mach :=
  match m.siteAt p ctx d n with
  | none => m.siteReach p ctx d n
  | some (a, v) =>
    let m := m.siteReach p ctx d n
    let s : SiteLine := { part := p, ctx := ctx, desc := d, site := n, lo := m.own64 a, version := m.siteVersion v, xd := 0, fd := 0 }
    (m.siteRoom c).modCore c (fun k => { k with sites := s :: k.sites })

def execSiteCacheFill (core ctx desc site : Nat) :=
  stepIf (fun m => match m.partOfCore core with
    | some p => m.wantsSite core ctx desc site && ((m.core core).siteLine p ctx desc site).isNone
    | none => false)
    (fun m => match m.partOfCore core with
      | some p => m.fillSite core p ctx desc site
      | none => m)

/-- Every 65,536 cycles a core adds its deltas at the homes. -/
def execSiteCountFlush (core : Nat) :=
  stepIf (fun m => decide ((m.core core).countsAt + 65536 ≤ m.clock))
    (fun m => (m.flushSites core (fun _ => true) false).modCore core (fun k => { k with countsAt := m.clock }))

/-! ### CONTEXT_RESTORE (R327) -/

/-- MEPOCH plus 1, skipping 0. -/
def nextEpoch (e : W32) : W32 := if e + 1 = 0 then 1 else e + 1

def Mach.newEpochs (m : Mach) (p ctx : Nat) : Mach :=
  m.modPart p (fun x => { x with descs := tmap Desc.reset (fun k d =>
    if k / 32 = ctx && d.v then { d with mepoch := nextEpoch d.mepoch } else d) x.descs })

/-- A context restored onto the same part with its layout unchanged keeps its epochs (R328). -/
def execContextRestore (part ctx : Nat) (otherPart layoutChanged : Bool) :=
  stepIf (fun m => (m.part part).v && (otherPart || layoutChanged)) (fun m => m.newEpochs part ctx)

end Sys2Proof.Machine
end

