-- ==== Sys2Proof/Machine/RemoteSteps.lean ====
section
/-! DEFINITION. The part and what lies outside its cores: the dirty ring and removals asked for by the images (R353, R354),
inbound accesses (R357), presentations between parts, the fabric and the host port (R355, R356, R358, R359). -/

namespace Sys2Proof.Machine

/-! ### DRHEAD_WRITE (R353), TLBINV_WRITE (R354) -/

/-- Held appends proceed in the order they reached the ring, while it has space and the entry's page can be written. -/
def Mach.appendHeld (p : Nat) : List (Nat × Nat × Nat × Nat) → Mach → Mach
  | [], m => m
  | (va, ctx, code, at_) :: t, m =>
    let e : TlbEntry := { part := p, ctx := ctx, va := va, size := if code = 0 then 65536 else if code = 1 then 2 ^ 21 else 2 ^ 30,
                          leaf := m.home64 at_, at_ := at_ }
    match m.setDirty p e with
    | .ok m => Mach.appendHeld p t (m.modPart p (fun x => { x with drheld := t }))
    | .full => m
    | .wait pg => m.countStall pg (whoOwn at_)

/-- The partition is out with the reeve while an append is held. -/
def Mach.proceedRing (m : Mach) (p : Nat) : Mach :=
  (Mach.appendHeld p (m.part p).drheld m).modPart p (fun x => { x with ringExit := !x.drheld.isEmpty })

/-- HEAD advances, and the held appends proceed. The reeve writes it (R352, R353), and the image that consumes the ring (R400). -/
def execDrheadWrite (part : Nat) (head : Write W32) :=
  stepIf (fun m => (m.part part).v && byImage part (m.role head.by_))
    (fun m => (m.modPart part (fun x => { x with drhead := head.val })).proceedRing part)

/-- The removals asked for whose old frames no access in flight uses any more are complete; BUSY reads 1 while one is not. -/
def Mach.proceedRemovals (m : Mach) (p : Nat) : Mach :=
  let m := (m.part p).removals.foldl (fun m r => if m.oldPa p r.1 r.2.1 r.2.2 then m.modPart p (fun x => { x with removals := x.removals ++ [r] })
      else m.removeTlb p r.1 r.2.1) (m.modPart p (fun x => { x with removals := [] }))
  m.modPart p (fun x => { x with tlbBusy := !x.removals.isEmpty })

def Mach.tlbinv (m : Mach) (p : Nat) (val : W64) : Mach :=
  let va := if bitAt val 62 then none else some (fld val 0 57).toNat
  (m.modPart p (fun x => { x with removals := x.removals ++ [((fld val 57 3).toNat, va, x.ep.openEpoch)] })).proceedRemovals p

def execTlbinvWrite (part : Nat) (val : Write W64) :=
  stepIf (fun m => (m.part part).v && byImage part (m.role val.by_)) (fun m => m.tlbinv part val.val)

/-! ### Inbound accesses (R357) -/

def inSize : InKind → Nat
  | .read n => n
  | .write bs => bs.length
  | .atom _ _ w _ _ => if w then 8 else 4

/-- The window admits the access: who asks, its range, and what it does. -/
def InWin.admits (x : InWin) (a : Inbound) : Bool :=
  bitAt x.ctl 63 && (if a.src = 64 then bitAt x.ctl 62 else !bitAt x.ctl 62 && (fld x.ctl 56 6).toNat == a.src) &&
    decide (x.base ≤ a.pa) && decide (a.pa + inSize a.kind ≤ x.base + x.len) && (match a.kind with
      | .read _ => true
      | .write _ => bitAt x.ctl 50
      | .atom .. => fld x.ctl 32 18 != 0)

/-- The partition that holds the address, and the number of the window of it that admits the access. -/
def Mach.windowFor (m : Mach) (a : Inbound) : Option (Nat × Nat) :=
  match m.partOf (stackOf a.pa) with
  | none => none
  | some p =>
    if badPa a.pa || badPa (a.pa + inSize a.kind - 1) || inSize a.kind == 0 then none
    else ((List.range 16).find? (fun w => (tget InWin.reset (m.part p).wins w).admits a)).map (fun w => (p, w))

/-- Number of a channel: its stack, and within it the pseudo-channel divided by 2 (R365). -/
def channelOf (pa : Nat) : Nat := 32 * stackOf pa + pa / 2048 % 32

/-- The lines that the access touches are pinned nowhere; the first that is refuses it (R188). -/
def Mach.inboundPinned (m : Mach) (a : Inbound) : Option (Nat × Nat) :=
  (List.range (inSize a.kind / 128 + 2)).findSome? (fun i =>
    let ln := lineOf a.pa + i
    if 128 * ln < a.pa + inSize a.kind then (m.keptFrom noCore ln).map (fun k => (k, ln)) else none)

/-- An inbound atomic waits at its unit (R357, R376): beyond its window's ABUD, behind another that waits there, or for reserve space. -/
def Mach.atomWaits (m : Mach) (p w : Nat) (a : Inbound) : Bool :=
  decide ((fld (tget InWin.reset (m.part p).wins w).ctl 32 18).toNat ≤ tget 0 (tget InWin.reset (m.part p).wins w).used (channelOf a.pa)) ||
    (m.part p).inAtoms.any (fun x => channelOf x.2.pa == channelOf a.pa)

def Mach.queueAtom (m : Mach) (p w : Nat) (a : Inbound) : Mach := m.modPart p (fun x => { x with inAtoms := x.inAtoms ++ [(w, a)] })

/-- Performed at its home like a `.sys` access, in the home's own epoch. -/
def Mach.inboundDo (m : Mach) (p w : Nat) (a : Inbound) : Mach :=
  match a.kind with
  | .read n => m.readBytes a.pa n
  | .write bs => m.selfWrite a.pa bs
  | .atom k un w64 d cmp =>
    let x := tget InWin.reset (m.part p).wins w
    let ch := channelOf a.pa
    if m.atomWaits p w a then m.queueAtom p w a
    else
      let n := if w64 then 8 else 4
      let m := m.readSector (sectorOf a.pa)
      let m := ((m.l2.find? (fun t => t.line == lineOf a.pa)).map m.l2Evict).getD m
      let old : W64 := BitVec.ofNat 64 (natOf (m.homeBytes a.pa n))
      match m.homeWrite none [] (cells a.pa (bytesOf n (atomNew k { sat := false, un := un, w := w64 } old d cmp).toNat)) with
      | none => (m.countStall (pageOf a.pa) (whoOwn a.pa)).queueAtom p w a
      | some m => m.modPart p (fun y => { y with wins := tset InWin.reset y.wins w { x with used := tset 0 x.used ch (tget 0 x.used ch + 1) } })

/-- The atomics that wait go on in their order, as far as their windows and the reserve let them. -/
def Mach.retryAtoms (m : Mach) (p : Nat) : Mach :=
  (m.part p).inAtoms.foldl (fun m x => m.inboundDo p x.1 x.2) (m.modPart p (fun x => { x with inAtoms := [] }))

/-- Refused outside every window; an access to a pinned line is refused with a retry (R188) and comes again. -/
def Mach.inbound (m : Mach) (a : Inbound) : Mach :=
  match m.windowFor a with
  | none => m
  | some (p, w) => match m.inboundPinned a with
    | some (k, ln) => m.refuse k ln
    | none => m.inboundDo p w a

/-- A store of a partition's system image to the partition's memory: written through, performed at its home (R354). -/
def Mach.imageStore (m : Mach) (p pa : Nat) (bs : List Byte) : Mach :=
  let a : Inbound := { src := 0, pa := pa, kind := .write bs }
  if m.partOf (stackOf pa) != some p || m.partOf (stackOf (pa + bs.length - 1)) != some p || badPa pa || badPa (pa + bs.length - 1) then m
  else match m.inboundPinned a with
    | some (k, ln) => m.refuse k ln
    | none => m.selfWrite pa bs

/-- A store of a control core: a system image reaches the memory of its own partition, and the reeve every partition's (R399, R400, log 104). -/
def Mach.imageWrite (m : Mach) (core pa : Nat) (bs : List Byte) : Mach :=
  match m.role (.control core) with
  | .image p => m.imageStore p pa bs
  | .reeve => match m.partOf (stackOf pa) with
    | some p => m.imageStore p pa bs
    | none => m
  | _ => m

/-- The host's accesses come through its port (R356, R405). -/
def execInboundAccess (a : Inbound) := stepIf (fun m => a.src != 64 || !m.linkPaused 16) (fun m => m.inbound a)

def execAbudInterval (part : Nat) :=
  stepIf (fun m => (m.part part).v && decide ((m.part part).abudAt + 1024 ≤ m.clock))
    (fun m => (m.modPart part (fun x =>
      { x with abudAt := m.clock, wins := tmap InWin.reset (fun _ w => { w with used := [] }) x.wins })).retryAtoms part)

/-! ### REMOTE_ACCESS_REFUSED (R355, R359, R393) -/

/-- The witness register that a memory word writes. -/
def witnessOf : Instr → Option Nat
  | .st _ _ _ wo .. | .stG _ _ _ wo .. | .sts _ _ wo .. | .stt _ _ wo .. | .stx _ _ _ wo .. | .stxG _ _ _ _ wo .. => some wo.toNat
  | .atom _ _ _ _ _ _ _ wo .. | .atomG _ _ _ _ _ _ _ _ wo .. | .fatom _ _ _ _ _ wo .. | .fatomG _ _ _ _ _ _ wo ..
  | .atoms _ _ _ _ _ _ _ wo .. | .atomsG _ _ _ _ _ _ _ _ wo .. => some wo.toNat
  | _ => none

/-- Zero in each load destination and fail witness 5 in the witness register. -/
def refusedWrites (i : Instr) (ws : List PWrite) : List PWrite :=
  ws.map (fun w => { w with val := match w.dst, witnessOf i with
    | .s r, some k => if r = k then failW 5 else 0
    | _, _ => 0 })

/-- The fabric port that a request leaves by. -/
def Remote.fabric (r : Remote) : Nat := (r.ports.find? (fun k => decide (k < 16))).getD 0

/-- A request of the engine for a copy is refused: the copy's gang ends with it, as for an access of its group; a prefetch just ends. -/
def Mach.engineRefused (m : Mach) (r : Remote) : Mach :=
  match tget none m.copies r.outId with
  | none => m
  | some x => if x.kind.isPrefetch then { m with copies := tset none m.copies r.outId none } else refusedRemote m r.core r.slot r.fabric

/-- A request or a presentation that another part, or a link that is down, refuses. -/
def Mach.remoteRefused (m : Mach) (id : Nat) (r : Remote) : Mach :=
  let m := m.setRemote id none
  match r.entry, r.w with
  | some e, _ =>
    let ws := ((m.group r.core r.slot).outs.filter (fun o => o.id == id)).flatMap (fun o => o.writes)
    let m := m.fillOut r.core r.slot id (refusedWrites e.word ws) true none
    if (m.team e.g.team).ended then m else refusedRemote m r.core r.slot r.fabric
  | none, some w => m.noteAnswer r.core w true
  | none, none => m.engineRefused r

/-- The request leaves this part over the fabric for one of its lines at least, or is a presentation. -/
def Mach.leaves (m : Mach) (r : Remote) : Bool := r.w.isSome || r.lines.any (fun l => l.1 != 64 && l.1 != m.partno.toNat)

def execRemoteAccessRefused (id : Nat) :=
  stepIf (fun m => match m.remoteAt id with
    | some r => m.leaves r
    | none => false)
    (fun m => match m.remoteAt id with
      | some r => m.remoteRefused id r
      | none => m)

/-! ### RemotePresent (R359) -/

/-- A presenter on another part, among the presenters that a drain may answer. -/
def awayCore (src : Nat) : Nat := 1300 + src

/-- Presented here as WPresent would: a drain is pulled or a close demanded, a future reading counts as satisfied, and
nothing is adopted. Once it is satisfied it is answered. -/
def Mach.remotePresented (m : Mach) (src : Nat) (w : W64) : Mach :=
  match m.originPart w with
  | none => m
  | some p =>
    match m.classify (awayCore src) p w with
    | .closeOpen e => m.demandClose p e
    | .drain k s e =>
      if (m.core (awayCore src)).satisfied.any (fun x => x.1 == w) then
        m.modCore (awayCore src) (fun c => { c with satisfied := c.satisfied.filter (fun x => x.1 != w) })
      else m.startDrain (awayCore src) k s e w
    | _ => m

def execRemotePresent (src _id : Nat) (w : W64) := partStep (fun m => m.remotePresented src w)

/-- The answer to a presentation of this part's. -/
def Mach.remoteAnswered (m : Mach) (id : Nat) (refused : Bool) : Mach :=
  match m.remoteAt id with
  | some r => (match r.w with
    | some w => if m.linkShut r.ports then m else (m.setRemote id none).noteAnswer r.core w refused
    | none => m)
  | none => m

def execRemotePresentAnswer (id : Nat) (refused : Bool) := partStep (fun m => m.remoteAnswered id refused)

/-! ### The fabric (R358, R359) -/

/-- An event of a port, die or stack that serves several partitions goes into the log of each of them (log 40). -/
def Mach.logAll (m : Mach) (f : Nat → Bool) (chan unit code : Nat) : Mach :=
  (m.parts.filter (fun kp => kp.2.v && f kp.1)).foldl (fun (m : Mach) kp => m.logEvent kp.1 chan 0xFF unit code 0xFFFF 0 0) m

def Mach.port (m : Mach) (k : Nat) : Port := tget Port.reset m.ports k
def Mach.setPort (m : Mach) (k : Nat) (x : Port) : Mach := { m with ports := tset Port.reset m.ports k x }

/-- The flit's sender is another member of this part's domain. -/
def Mach.memberFlit (m : Mach) (f : Flit) : Bool :=
  f.did == fld m.domid 32 32 && bitAt m.dommem f.src && decide (f.src < 64) && f.src != m.partno.toNat

def Mach.deliver (m : Mach) (f : Flit) : Mach :=
  match f.body with
  | .request a => m.inbound { a with src := f.src }
  | .present src w => if src = f.src then m.remotePresented src w else m
  | .answer id refused => m.remoteAnswered id refused
  | .flush => m

def Mach.receive (m : Mach) (port : Nat) (f : Flit) : Mach :=
  if !f.crcOk then
    (m.setPort port { m.port port with retries := (m.port port).retries + 1 }).logAll (fun _ => true) 8 port 0
  else
    let m := m.setPort port { m.port port with retries := 0 }
    if !m.memberFlit f then m.logAll (fun _ => true) 9 port 0
    else if f.dest = m.partno.toNat then m.deliver f else m

/-- A link of a tripped I/O die pauses (R405). -/
def execFlitReceive (port : Nat) (f : Flit) := stepIf (fun m => decide (port < 16) && !(m.port port).down && !m.linkPaused port)
    (fun m => m.receive port f)

/-- The requests outstanding on a port that is down end as refused. -/
def Mach.portDown (m : Mach) (port : Nat) : Mach :=
  let m := (m.setPort port { m.port port with down := true }).logAll (fun _ => true) 9 port 0
  (m.remotes.filter (fun kx => match kx.2 with
    | some r => r.ports.contains port
    | none => false)).foldl (fun (m : Mach) kx => match m.remoteAt kx.1 with
      | some r => m.remoteRefused kx.1 r
      | none => m) m

/-- Sixteen failed retries of one flit in a row, of one that the part receives or of one that it sends. -/
def execLinkDown (port : Nat) :=
  stepIf (fun m => decide (port < 16) && !(m.port port).down && (decide (16 ≤ (m.port port).retries) || decide (16 ≤ (m.port port).sent)))
    (fun m => m.portDown port)

/-- A port sends a flit again, which is counted (R359, R396): a fabric port that is up, or the host port or a granary port, whose unit numbers
follow (log 40); none sends while it is paused (R405). -/
def Mach.portRetry (m : Mach) (port : Nat) (ok : Bool) : Mach :=
  if 19 ≤ port || (m.port port).down || m.linkPaused port then m
  else (m.setPort port { m.port port with sent := if ok then 0 else (m.port port).sent + 1 }).logAll (fun _ => true) 8 port 0

/-! ### The host port and the granary ports (R356, R369) -/

/-- The rates and flit modes at which the host port trains. -/
def trains : HostMode → Bool
  | .untrained => false
  | .pcie g => [2, 5, 8, 16, 32, 64].contains g
  | .cxl f => f == 256 || f == 68

def execHostPortTrain (x : HostMode) := stepIf (fun _ => trains x) (fun m => { m with host := x })

/-- 256-byte flits at 64 GT/s, or 68-byte flits at 32 GT/s. -/
def execGranaryPortTrain (port : Nat) (fast : Bool) :=
  stepIf (fun _ => decide (port < 2)) (fun m => { m with granary := tset 0 m.granary port (if fast then 256 else 68) })

end Sys2Proof.Machine
end

