-- ==== Sys2Proof/Machine/MemSideSteps.lean ====
section
/-! DEFINITION. Refresh (R377), scrub (R378, R386), double errors of on-core and cache storage (R387, R390), and what the system
image does with a fault domain (R389, R394). -/

namespace Sys2Proof.Machine

/-! ### Refresh -/

def Mach.refreshAt (m : Mach) (stack pc : Nat) : Refresh := tget Refresh.reset m.refresh (64 * stack + pc)
def Mach.setRefresh (m : Mach) (stack pc : Nat) (x : Refresh) : Mach := { m with refresh := tset Refresh.reset m.refresh (64 * stack + pc) x }

/-- HIGH follows the largest DEBT since it was last written with 0, whether DEBT has risen since or only stood there. -/
def Refresh.raise (x : Refresh) (debt : Int) : Refresh :=
  { x with debt := debt, high := if (x.high.toNat : Int) < debt then BitVec.ofInt 8 debt else x.high }

/-- A tREFI interval ends: at DEBT = 8 the refresh is forced; with demand waiting it is postponed; else it is done. -/
def Refresh.interval (x : Refresh) (demand : Bool) : Refresh :=
  if 8 ≤ x.debt then { x.raise x.debt with forced := satAdd1 x.forced } else x.raise (if demand then x.debt + 1 else x.debt)

/-- A refresh is pulled in. -/
def Refresh.pullIn (x : Refresh) : Refresh := { x.raise x.debt with debt := x.debt - 1 }

def execRefreshInterval (stack pc : Nat) (demand : Bool) :=
  stepIf (fun _ => decide (stack < 12) && decide (pc < 64)) (fun m => m.setRefresh stack pc ((m.refreshAt stack pc).interval demand))

def execRefreshPullIn (stack pc : Nat) :=
  stepIf (fun m => decide (stack < 12) && decide (pc < 64) && decide (-8 < (m.refreshAt stack pc).debt))
    (fun m => m.setRefresh stack pc (m.refreshAt stack pc).pullIn)

/-! ### Scrub -/

/-- A cache holds bytes of the sector dirty: a home's or an L1. -/
def Mach.sectorDirty (m : Mach) (s : Nat) : Bool :=
  m.cached.any (fun x => decide (sectorOf x.1 = s)) || m.cores.any (fun kc => match kc.2.line? (s / 4) with
    | some x => fld x.dirty (32 * (s % 4)) 32 != 0
    | none => false)

/-- CECNT counts a sector corrected in DRAM. -/
def Scrub.count (x : Scrub) : Scrub := { x with cecnt := min (x.cecnt + 1) (2 ^ 20 - 1) }

/-- The scrub's read of one sector: corrected where one symbol is bad and no cache holds it dirty, poisoned where two are. -/
def Mach.scrubSector (m : Mach) (s : Nat) : Mach :=
  let n := tget 0 m.symErr s
  if n = 0 then m
  else if (m.partOf (stackOf (32 * s))).isNone then
    { m with symErr := tset 0 m.symErr s 0, poison := if 2 ≤ n ∧ ¬ m.poison.contains s then s :: m.poison else m.poison }
  else
    let m' := m.touchSector s
    let k := stackOf (32 * s)
    if n = 1 ∧ ¬ m.sectorDirty s then { m' with symErr := tset 0 m'.symErr s 0,
                                                scrub := tset Scrub.reset m'.scrub k (tget Scrub.reset m'.scrub k).count }
    else m'

/-- Sectors of a page that may need the scrub's attention, in increasing order. -/
def Mach.badSectors (m : Mach) (pg : Nat) : List Nat := (m.symErr.map (·.1)).filter (fun s => decide (s / 2048 = pg))

def Scrub.advance (x : Scrub) : Scrub :=
  if x.pos + 1 = 2 ^ 20 then { x with pos := 0, passes := min (x.passes + 1) (2 ^ 24 - 1) } else { x with pos := x.pos + 1 }

def Mach.scrubPage (m : Mach) (k : Nat) : Mach :=
  let m := (m.badSectors (2 ^ 20 * k + (tget Scrub.reset m.scrub k).pos)).foldl Mach.scrubSector m
  { m with scrub := tset Scrub.reset m.scrub k (tget Scrub.reset m.scrub k).advance }

/-- BASE = 0 stops scrub. -/
def execScrubPage (stack : Nat) :=
  stepIf (fun m => decide (stack < 12) && (tget Scrub.reset m.scrub stack).base != 0) (fun m => m.scrubPage stack)

/-! ### Double errors (R387) -/

/-- The team's gang is killed; no trap gives the kill a cause, so its number is a free value (log 3). -/
def Mach.killOwner (m : Mach) (c id : Nat) : Mach :=
  let t := m.team id
  (m.logEvent t.part 3 (sliceOf c) c 0 (m.inst t.inst).fdom 0 0).killGang t.inst (gangOf c) ((Config.freeValue m.tick).toNat % 65536)

/-- A double error in an L1 poisons the sector of that copy alone, which carries it from there (DESIGN CHOICE, log 91). -/
def Mach.doubleError (m : Mach) : SramSite → Mach
  | .pool c id | .tileTable c id => if (m.residents c).contains id then m.killOwner c id else m
  | .stream c q => match ((m.core c).stream q).owner with
    | some id => m.killOwner c id
    | none => m
  | .l1 c pa => match (m.core c).line? (lineOf pa) with
    | some x =>
      (m.modCore c (fun k => { k with l1 := k.l1.map (fun y => if y.line = x.line then { y with poison := y.poison |||
          (1#4 <<< (sectorOf pa % 4)) } else y) })).logEvent
        x.part 3 (sliceOf c) c 0 0xFFFF (BitVec.ofNat 64 pa) 0
    | none => m
  | .cacheSector pa => match m.partOf (stackOf pa) with
    | some p =>
      let bank := (((m.l2 ++ m.ms).find? (fun t => t.line == lineOf pa)).map (·.bank)).getD 0
      { m with poison := if m.poison.contains (sectorOf pa) then m.poison else sectorOf pa :: m.poison }.logEvent p 3 (stackOf pa) bank 0 0xFFFF
        (BitVec.ofNat 64 pa) 0
    | none => m

def execSramDoubleError (at_ : SramSite) := partStep (fun m => m.doubleError at_)

/-! ### FDRES and FDSTAT (R389, R394) -/

/-- Whether FDRES names a group that a `brk` of this domain has stopped. -/
def Mach.stoppedBy (m : Mach) (p dom c slot : Nat) : Bool :=
  let g := m.group c slot
  let t := m.team g.team
  g.status == .parked .brkStop && t.part == p && (m.inst t.inst).fdom == dom

/-- GO resumes the group; any other write is ignored. -/
def execFdresGo (part dom : Nat) (val : Write W64) :=
  let c := (fld val.val 0 11).toNat
  let slot := (fld val.val 11 5).toNat
  stepIf (fun m => byImage part (m.role val.by_) && bitAt val.val 63 && fld val.val 16 47 == 0 && m.stoppedBy part dom c slot)
    (fun m => resumeBrk m c slot)

def execFdstatRecClear (part : Nat) (dom : Write Nat) :=
  stepIf (fun m => (m.part part).v && byImage part (m.role dom.by_))
    (fun m => m.modPart part (fun x => x.setFd dom.val { (x.fd dom.val) with hasRec := false }))

end Sys2Proof.Machine
end

