-- ==== Sys2Proof/Machine/Loader.lean ====
section
/-! DEFINITION. The loader of a partition's system image: the IVO container (R96 to R98), the checks of a load in their order and
its effect (R99, R100), and the unload. The codes of R99 go to the image, which is no state of the part. -/

namespace Sys2Proof.Machine

/-! ### The container -/

structure Sect where
  kind : Nat
  sfl : BitVec 8
  ftag : BitVec 8
  chain : BitVec 6
  align : Nat
  foff : Nat
  fsize : Nat
  msize : Nat
  deriving DecidableEq, Repr

structure Ivo where
  file : List Byte
  sects : List Sect

def sectAt (file : List Byte) (off : Nat) : Sect :=
  { kind := fieldAt file off 1, sfl := BitVec.ofNat 8 (fieldAt file (off + 1) 1), ftag := BitVec.ofNat 8 (fieldAt file (off + 2) 1),
    chain := BitVec.ofNat 6 (fieldAt file (off + 3) 1), align := fieldAt file (off + 4) 1,
    foff := fieldAt file (off + 8) 8, fsize := fieldAt file (off + 16) 8,
    msize := fieldAt file (off + 24) 8 }

def ivoOf (file : List Byte) : Ivo :=
  { file := file, sects := (List.range (fieldAt file 8 2)).map (fun i => sectAt file (fieldAt file 0x18 8 + 32 * i)) }

def Ivo.nsites (x : Ivo) : Nat := fieldAt x.file 0x0C 4
def Ivo.osc (x : Ivo) : Nat := fieldAt x.file 0x0A 1
def Ivo.pool (x : Ivo) : W32 := BitVec.ofNat 32 (fieldAt x.file 0x10 4)
def Ivo.sigcheck (x : Ivo) : Bool := (fieldAt x.file 6 2).testBit 0

/-- Numbers of the sections of a kind. -/
def Ivo.ofKind (x : Ivo) (k : Nat) : List Nat := (List.range x.sects.length).filter (fun i => (x.sects[i]?).any (fun s => s.kind == k))
def Ivo.sect (x : Ivo) (i : Nat) : Sect := (x.sects[i]?).getD { kind := 0, sfl := 0, ftag := 0, chain := 0, align := 0, foff := 0, fsize := 0,
                                                                msize := 0 }
def Ivo.body (x : Ivo) (i : Nat) : List Byte := ((x.file.drop (x.sect i).foff).take (x.sect i).fsize)
def Ivo.code (x : Ivo) : Nat := (x.ofKind 1).headD 0
/-- Words of the code, which CLEN counts (R316): those that the file carries whole, and no part of a word or zero word beyond FSIZE (DESIGN
CHOICE, log 113). -/
def Ivo.words (x : Ivo) : Nat := (x.sect x.code).fsize / 16

/-- Word `n` of the code, as the file carries it. -/
def Ivo.word (x : Ivo) (n : Nat) : BitVec 128 := BitVec.ofNat 128 (fieldAt (x.body x.code) (16 * n) 16)

structure Reloc where
  off : Nat
  sect : Nat
  kind : Nat
  sym : Nat
  addend : W64
  deriving DecidableEq, Repr

structure Sym where
  name : Nat
  sect : Nat
  kind : Nat
  start : Bool
  value : Nat
  deriving DecidableEq, Repr

/-- Entries of `n` bytes in the sections of a kind, read by `f`. Bytes beyond the last whole entry are ignored, and so are the bits of an entry that
R97 and R98 call zero (DESIGN CHOICE, log 100). -/
def Ivo.entries {α : Type} (x : Ivo) (kind n : Nat) (f : List Byte → Nat → α) : List α :=
  (x.ofKind kind).flatMap (fun i => (List.range ((x.sect i).fsize / n)).map (fun j => f (x.body i) (n * j)))

def Ivo.relocs (x : Ivo) : List Reloc :=
  x.entries 5 24 (fun b o => { off := fieldAt b o 8, sect := fieldAt b (o + 8) 2, kind := fieldAt b (o + 10) 1, sym := fieldAt b (o + 12) 4,
                               addend := BitVec.ofNat 64 (fieldAt b (o + 16) 8) })

def Ivo.syms (x : Ivo) : List Sym :=
  x.entries 7 16 (fun b o => { name := fieldAt b o 4, sect := fieldAt b (o + 4) 2, kind := fieldAt b (o + 6) 1,
                               start := (fieldAt b (o + 7) 1).testBit 0,
                               value := fieldAt b (o + 8) 8 })

def Ivo.sites (x : Ivo) : List W64 := x.entries 3 8 (fun b o => BitVec.ofNat 64 (fieldAt b o 8))
/-- An entry of SIGS: the word offsets of a `sigck` and of the first word of its run, and the value that the `sigck` is to carry. -/
structure SigRun where
  at_ : Nat
  first : Nat
  value : Nat
  deriving DecidableEq, Repr

def Ivo.sigs (x : Ivo) : List SigRun :=
  x.entries 4 16 (fun b o => { at_ := fieldAt b o 4, first := fieldAt b (o + 4) 4, value := fieldAt b (o + 8) 4 })

/-! ### The checks (R99) -/

/-- Bytes that a relocation patches: at its offset, or in IMM of the word there. -/
def Reloc.span (r : Reloc) : Nat × Nat := if r.kind = 1 ∨ r.kind = 4 then (r.off, 8) else (r.off + 8, 4)

def Reloc.overlaps (a b : Reloc) : Bool :=
  a.sect == b.sect && decide (a.span.1 < b.span.1 + b.span.2) && decide (b.span.1 < a.span.1 + a.span.2)

/-- A record patches bytes that the file carries. One beyond FSIZE, of another kind, or of no symbol counts as out of range (DESIGN CHOICE,
log 92). -/
def Ivo.relocOk (x : Ivo) (r : Reloc) : Bool :=
  decide (1 ≤ r.kind) && decide (r.kind ≤ 6) && decide (r.sect < x.sects.length) && decide (r.sym < x.syms.length) &&
    decide (r.span.1 + r.span.2 ≤ (x.sect r.sect).fsize) && (r.kind == 1 || r.kind == 4 || (r.off % 16 == 0 && r.sect == x.code))

def pairwise {α : Type} (f : α → α → Bool) : List α → Bool
  | [] => true
  | a :: t => t.all (f a) && pairwise f t

def isSigck (w : BitVec 128) : Bool := match decode w with
  | some (.sigck ..) => true
  | _ => false

/-- The template agrees with NSITES, and names generic words. -/
def Ivo.sitesOk (x : Ivo) : Bool :=
  x.sites.length == x.nsites && x.sites.all (fun e => fld e 0 32 == BitVec.allOnes 32 ||
    (decide ((fld e 0 32).toNat < x.words) && bitAt (x.word (fld e 0 32).toNat) 8))

/-- The header's fixed and reserved fields. NSECT outside 1 to 64 counts as one of them, and TEAM's count is not judged (DESIGN CHOICE,
log 93). -/
def Ivo.headerOk (x : Ivo) : Bool :=
  let f := fieldAt x.file
  f 0 4 == 0x1A4F5649 && f 4 2 == 1 && decide (f 6 2 < 4) && decide (1 ≤ f 8 2) && decide (f 8 2 ≤ 64) && f 0x0B 1 == 0 && f 0x16 2 == 0 &&
    f 0x28 24 == 0 && f 0x14 2 / 64 % 512 == 0

/-- A kind that R97 lists. KIND 0, which R97 neither lists nor reserves, is taken as a reserved one (DESIGN CHOICE, log 100). -/
def knownKind (k : Nat) : Bool := decide (1 ≤ k) && decide (k ≤ 8)

/-- Bytes of the string table. -/
def Ivo.strings (x : Ivo) : Nat := ((x.ofKind 8).map (fun i => (x.sect i).fsize)).sum

/-- The names of the module and of its symbols lie in the string table; in a file without one, a name offset is 0 (DESIGN CHOICE, log 100). -/
def Ivo.namesOk (x : Ivo) : Bool :=
  (fieldAt x.file 0x20 4 :: x.syms.map (·.name)).all (fun o => decide (o < x.strings) || (o == 0 && x.strings == 0))

/-- The offsets of SIGS name words that the file carries; an entry whose run begins behind its `sigck` is not judged (DESIGN CHOICE, log 92). -/
def Ivo.runsOk (x : Ivo) : Bool := x.sigs.all (fun s => decide (s.at_ < x.words) && decide (s.first < x.words))

/-- The section table and every offset against the file. FSIZE beyond MSIZE, a reserved SFL bit, and an ALIGN of a known kind outside 4 to
30 count among them; the reserved bytes 5 to 7 and the reserved bits of FTAG and CHAIN are not judged (DESIGN CHOICE, log 100). -/
def Ivo.insideFile (x : Ivo) : Bool :=
  decide (64 ≤ x.file.length) && decide (fieldAt x.file 0x18 8 + 32 * fieldAt x.file 8 2 ≤ x.file.length) &&
    x.sects.all (fun s => decide (s.foff + s.fsize ≤ x.file.length) && decide (s.fsize ≤ s.msize) && s.sfl &&& 0x78#8 == 0 &&
      (!knownKind s.kind || (decide (4 ≤ s.align) && decide (s.align ≤ 30)))) && x.namesOk && x.runsOk

/-- Bytes of memory that a section takes: its MSIZE, and for the site template the table that it becomes (R317). -/
def Ivo.memSize (x : Ivo) (i : Nat) : Nat := if (x.sect i).kind = 3 then 20 * x.nsites else (x.sect i).msize

/-- Sections that go into memory: code, data, the site table and the region images (DESIGN CHOICE, log 101). -/
def Ivo.loaded (x : Ivo) : List Nat := (List.range x.sects.length).filter (fun i => [1, 2, 3, 6].contains (x.sect i).kind)

def placesOf (ps : List Place) (i : Nat) : List Place := ps.filter (fun p => p.sect == i)
def vaOf (ps : List Place) (i : Nat) : Nat := ((placesOf ps i).head?.map (·.va)).getD 0

/-- The stretches follow one another from an address on. -/
def runsOn : Nat → List Place → Bool
  | _, [] => true
  | va, q :: t => q.va == va && runsOn (va + q.len) t

/-- The stretches of all the sections that go into memory. -/
def Ivo.stretches (x : Ivo) (ps : List Place) : List Place := x.loaded.flatMap (placesOf ps)

/-- Bytes that a section keeps to itself: a site table takes whole 64 KiB pages (R317). -/
def Ivo.room (x : Ivo) (i : Nat) : Nat := if (x.sect i).kind = 3 then (x.memSize i + 65535) / 65536 * 65536 else x.memSize i

/-- The module's code overlaps no valid descriptor of the context (R316). -/
def Mach.codeClear (m : Mach) (p ctx : Nat) (x : Ivo) (ps : List Place) : Bool :=
  let cb := vaOf ps x.code / 16
  (List.range 32).all (fun i => let d := (m.part p).desc ctx i
    !d.v || decide (cb + x.words ≤ d.cb.toNat) || decide (d.cb.toNat + d.cl.toNat ≤ cb))

/-- No byte of the range lies in the reserve or in the shadow area, whose rows are whole MiB: a range clear of them is at most 480 MiB. -/
def clearRange (pa n : Nat) : Bool :=
  decide (n ≤ 480 * 2 ^ 20) && (List.range (n / 2 ^ 20 + 2)).all (fun i => !badPa (min (pa + 2 ^ 20 * i) (pa + n - 1)))

def apart (a n b k : Nat) : Bool := decide (a + n ≤ b) || decide (b + k ≤ a)

/-- The module's memory is apart from what the loaded modules of the partition hold, and its addresses from theirs in its own context
(R99, R100, R317). -/
def Mach.clearOfLoaded (m : Mach) (p ctx : Nat) (x : Ivo) (ps : List Place) : Bool :=
  (m.part p).descs.all (fun d => !d.2.v || d.2.mem.all (fun r => (x.stretches ps).all (fun q =>
    apart q.pa q.len r.2.1 r.2.2 && (d.1 / 32 != ctx || apart q.va q.len r.1 r.2.2))))

/-- The loader found room: each section has all its bytes, in stretches that lie in the partition's memory, clear of one another and of what
was loaded before. -/
def Mach.placesOk (m : Mach) (p ctx : Nat) (x : Ivo) (ps : List Place) : Bool :=
  x.loaded.all (fun i =>
    let va := vaOf ps i
    runsOn va (placesOf ps i) && ((placesOf ps i).map (·.len)).sum == x.room i && decide (va + x.room i ≤ 2 ^ 57) &&
      va % 2 ^ (x.sect i).align == 0 && ((x.sect i).kind == 1 || va % 65536 == 0)) &&
  (x.stretches ps).all (fun q => m.partOf (stackOf q.pa) == some p && m.partOf (stackOf (q.pa + q.len - 1)) == some p && clearRange q.pa q.len) &&
  pairwise (fun a b => apart a.pa a.len b.pa b.len && apart a.va a.len b.va b.len) (x.stretches ps) && m.codeClear p ctx x ps &&
  m.clearOfLoaded p ctx x ps

/-! ### The effect -/

/-- Value of a relocation (R98): a data or region symbol's byte address as a global generic pointer, or a code symbol's word address. A
symbol of a section that is not in memory counts from 0, and one of another kind than the record names is taken as that kind names it (DESIGN
CHOICE, log 92). -/
def Ivo.relocValue (x : Ivo) (ps : List Place) (r : Reloc) : W64 :=
  let s := (x.syms[r.sym]?).getD { name := 0, sect := 0, kind := 0, start := false, value := 0 }
  let va := vaOf ps s.sect
  if r.kind ≤ 3 then (BitVec.ofNat 64 (va + s.value) + r.addend) &&& 0x01FFFFFFFFFFFFFF#64 else BitVec.ofNat 64 (va / 16 + s.value) + r.addend

def Reloc.bytes (r : Reloc) (v : W64) : List Byte :=
  if r.kind = 1 ∨ r.kind = 4 then bytesOf 8 v.toNat
  else if r.kind = 2 ∨ r.kind = 5 then bytesOf 4 (v.toNat % 2 ^ 32) else bytesOf 4 (v.toNat / 2 ^ 32)

/-- Overwrites bytes of a list from an offset. -/
def patch (bs : List Byte) (off : Nat) (new : List Byte) : List Byte := bs.take off ++ new ++ bs.drop (off + new.length)

/-- A module-relative field of eight bytes made absolute by adding `base`, unless a relocation has placed it. -/
def Ivo.rebase (x : Ivo) (i off base : Nat) (bs : List Byte) : List Byte :=
  if x.relocs.any (fun r => r.sect == i && r.off == off) then bs else patch bs off (bytesOf 8 (fieldAt bs off 8 + base))

/-- The region images' module-relative fields made absolute (R99 step 9): ENTRY by the code, and a DEP pointer that is not zero by the
section, as an offset within it (DESIGN CHOICE, log 94). -/
def Ivo.absolute (x : Ivo) (ps : List Place) (i : Nat) (bs : List Byte) : List Byte :=
  (List.range (bs.length / 256)).foldl (fun bs k =>
    (List.range 4).foldl (fun bs d => if fieldAt bs (256 * k + 0x60 + 16 * d) 8 = 0 then bs else x.rebase i (256 * k + 0x60 + 16 * d) (vaOf ps i) bs)
      (x.rebase i (256 * k) (vaOf ps x.code / 16) bs)) bs

/-- A section as it goes into memory: zero-filled, relocated, its regions' entries absolute. A record that patches a section which does not go
there, or the template, has no effect: what these hold is read from the file (DESIGN CHOICE, log 92). -/
def Ivo.image (x : Ivo) (ps : List Place) (i : Nat) : List Byte :=
  let body := x.body i ++ List.replicate ((x.sect i).msize - (x.sect i).fsize) 0
  let bs := (x.relocs.filter (fun r => r.sect == i)).foldl (fun b r => patch b r.span.1 (r.bytes (x.relocValue ps r))) body
  if (x.sect i).kind = 6 then x.absolute ps i bs else bs

/-- Step 6, after the relocations: every `sigck` carries its SIGS value. -/
def Ivo.sigsOk (x : Ivo) (ps : List Place) : Bool :=
  let code := x.image ps x.code
  let word (n : Nat) : BitVec 128 := BitVec.ofNat 128 (fieldAt code (16 * n) 16)
  x.sigs.all (fun s => isSigck (word s.at_) && (fld (word s.at_) 64 32).toNat == s.value) &&
    (!x.sigcheck || (List.range x.words).all (fun n => !isSigck (word n) || x.sigs.any (fun s => s.at_ == n)))

/-- The code of R99 with which the load is refused, none for a load that succeeds. A file with no CODE section, or with two, gets 0x01 (DESIGN
CHOICE, log 44). -/
def Mach.loadCode (m : Mach) (p ctx : Nat) (x : Ivo) (ps : List Place) : Option Nat :=
  if !x.headerOk then some 1
  else if !x.insideFile then some 2
  else if (x.ofKind 1).length ≠ 1 then some 1
  else if !x.sitesOk then some 5
  else if 15 < x.osc then some 8
  else if x.pool != 0 && !poolOk x.pool then some 4
  else if !((m.part p).ctxAt ctx).valid || !bitAt ((m.part p).ctxAt ctx).root 63 then some 0x0B
  else if (List.range 32).all (fun d => ((m.part p).desc ctx d).v) then some 0x0A
  else if x.sects.any (fun s => !knownKind s.kind && !bitAt s.sfl 7) then some 3
  else if !m.placesOk p ctx x ps then some 9
  else if !x.relocs.all x.relocOk || !pairwise (fun a b => !a.overlaps b) x.relocs then some 6
  else if !x.sigsOk ps then some 7
  else none

/-- A site's first entry: FRESH, the template's class, module epoch 1 (R317, R99 step 7). -/
def firstEntry (t : W64) : List Byte := bytesOf 8 (1024 * (fld t 32 6).toNat + 2 ^ 32) ++ bytesOf 8 0

def Ivo.table (x : Ivo) : List Byte := x.sites.flatMap firstEntry ++ List.replicate (4 * x.nsites) 0

/-- The bytes of a section go to its stretches in turn. -/
def Mach.writeSection (m : Mach) (x : Ivo) (ps : List Place) (i : Nat) : Mach :=
  ((placesOf ps i).foldl (fun (a : Mach × List Byte) q => (a.1.selfWrite q.pa (a.2.take q.len), a.2.drop q.len))
    (m, if (x.sect i).kind = 3 then x.table else x.image ps i)).1

/-- The descriptor of step 10. NS holds the low 17 bits of NSITES: no code refuses a count above 65,536 (DESIGN CHOICE, log 102). -/
def Ivo.desc (x : Ivo) (ps : List Place) : Desc :=
  { cb := BitVec.ofNat 53 (vaOf ps x.code / 16), cl := BitVec.ofNat 32 x.words,
    st := match (x.ofKind 3).head? with
      | some i => BitVec.ofNat 64 (vaOf ps i)
      | none => 0,
    v := true, osc := BitVec.ofNat 4 x.osc, ns := BitVec.ofNat 17 x.nsites, mepoch := 1, sigcheck := x.sigcheck, wit := 0,
    mem := (x.stretches ps).map (fun q => (q.va, q.pa, q.len)) }

/-- The region symbols that carry the start flag, in the order of the table, which stands for the source order of R100, for the file holds no
other (DESIGN CHOICE, log 114). -/
def Ivo.starts (x : Ivo) : List Sym := x.syms.filter (fun s => s.kind == 4 && s.start)

/-- Regions with the start flag are launched as roots through the device-side queue; the loader's writes are performed (R100). Those beyond its
1,024 entries stand behind it and enter as it gets space, before any launch of a group (log 111). -/
def Mach.launchStarts (m : Mach) (p ctx : Nat) (x : Ivo) (ps : List Place) : Mach :=
  x.starts.foldl (fun (m : Mach) s =>
    let (m, id) := m.fresh
    let d : DevLaunch := { id := id, core := noCore, slot := 0, outId := 0, rcb := vaOf ps s.sect + s.value, patch := none,
                           w := 0, parent := none, ctx := ctx, ans := none }
    m.modPart p (fun y => { y with dev := y.dev ++ [d] })) m

/-- Words held of a code range leave the cores' buffers, for new code stands there. -/
def Mach.dropWords (m : Mach) (p ctx : Nat) : Mach :=
  m.mapCores (fun _ k => { k with ibuf := k.ibuf.filter (fun w => !(w.1 == p && w.2.1 == ctx)) })

def Mach.setDesc (m : Mach) (p ctx i : Nat) (d : Desc) : Mach :=
  m.modPart p (fun x => { x with descs := tset Desc.reset x.descs (32 * ctx + i) d })

/-- A word of a page table lies in the partition's memory, and in that of no module (R99 step 8). -/
def Mach.tableOk (m : Mach) (p : Nat) (x : Ivo) (ps : List Place) (t : PtWrite) : Bool :=
  m.partOf (stackOf t.pa) == some p && !badPa t.pa && t.pa % 8 == 0 &&
    (x.stretches ps).all (fun q => apart q.pa q.len t.pa 8) &&
    (m.part p).descs.all (fun d => !d.2.v || d.2.mem.all (fun r => apart r.2.1 r.2.2 t.pa 8))

/-- The page-table words that map the module, written by the image. -/
def Mach.writeTables (m : Mach) (p : Nat) (x : Ivo) (ps : List Place) (ts : List PtWrite) : Mach :=
  (ts.filter (m.tableOk p x ps)).foldl (fun (m : Mach) t => m.selfWrite t.pa (bytesOf 8 t.word.toNat)) m

/-- The merged witness of the loader's writes (R100): they are performed, and belong to the open epoch; the spec gives the control core no
core number and no sequence number, so these fields are free (log 44). -/
def Mach.loaderWit (m : Mach) (p : Nat) : W64 :=
  pointW 3 m.partno ((Config.freeValue m.tick).toNat % 2048) ((Config.freeValue (m.tick + 1)).setWidth 19) (m.part p).ep.openEpoch

/-- The page entry of a section, as its module asks (R94, R97, R317): code executable and not writable, the site table read only, data and
region images writable as their options say; the attributes, the format tag and the chain of each as its entry gives them. -/
def Sect.pageOk (s : Sect) (w : W64) : Bool :=
  leafX w == (s.kind == 1) && leafW w == (s.kind != 1 && s.kind != 3 && bitAt s.sfl 0) && leafMS w == bitAt s.sfl 1 && leafAC w == bitAt s.sfl 2 &&
    leafTag w == (if bitAt s.ftag 7 then fld s.ftag 0 4 else 0) && leafChain w == s.chain

/-- Every page of a section's stretch is mapped where the stretch lies, with the entry that the section asks for. -/
def Mach.sectMapped (m : Mach) (p ctx : Nat) (s : Sect) (q : Place) : Bool :=
  (List.range ((q.va % 65536 + q.len + 65535) / 65536)).all (fun k =>
    let va := q.va / 65536 * 65536 + 65536 * k
    match m.walk p ctx va with
    | none => false
    | some e => homeOf e.leaf == m.partno.toNat && leafBase e.leaf + va % e.size + q.va % 65536 == q.pa + 65536 * k && s.pageOk e.leaf)

def Mach.mapped (m : Mach) (p ctx : Nat) (x : Ivo) (ps : List Place) : Bool :=
  (x.stretches ps).all (fun q => m.sectMapped p ctx (x.sect q.sect) q)

/-- Steps 4 to 8: the sections and the page entries. -/
def Mach.loadBytes (m : Mach) (p : Nat) (x : Ivo) (ps : List Place) (ts : List PtWrite) : Mach :=
  (x.loaded.foldl (fun (m : Mach) k => m.writeSection x ps k) m).writeTables p x ps ts

/-- A page that a write of the load waits for: `m'` comes after these writes to `m`. -/
def Mach.loadWait (m m' : Mach) (p : Nat) : Option Nat :=
  ((m'.part p).stalled.drop (m.part p).stalled.length).head?.bind (fun x => x.pages.head?)

/-- Steps 9 and 10, once the pages are mapped as the module asks, and the launches of R100. While a write of the load finds no reserve space it waits
(R367), and the load with it: no team may run before its code, data and sites are in place. -/
def Mach.load (m : Mach) (p ctx i : Nat) (x : Ivo) (ps : List Place) (ts : List PtWrite) : Mach :=
  let m' := m.loadBytes p x ps ts
  match m.loadWait m' p with
  | some pg => m.countStall pg (whoOwn (65536 * pg))
  | none =>
  if m'.mapped p ctx x ps then
    ((m'.setDesc p ctx i { x.desc ps with wit := m.loaderWit p }).dropWords p ctx).launchStarts p ctx x ps
  else m

/-- A module loads entirely or leaves no trace. -/
def execModuleLoad (part ctx desc : Nat) (file : List Byte) (places : List Place) (tables : List PtWrite) :=
  stepIf (fun m => (m.part part).v && decide (ctx < 8) && decide (desc < 32) && !((m.part part).desc ctx desc).v &&
      (m.loadCode part ctx (ivoOf file) places).isNone)
    (fun m => m.load part ctx desc (ivoOf file) places tables)

/-! ### MODULE_UNLOAD (R100, R316, R331) -/

/-- The site caches of the cores drop the entries of a descriptor; their count deltas go home (R331). -/
def Mach.dropSites (m : Mach) (p ctx i : Nat) : Mach :=
  m.cores.foldl (fun (m : Mach) kc => m.flushSites kc.1 (fun s => s.part == p && s.ctx == ctx && s.desc == i) true) m

/-- Every region launched from the module has retired, and none waits in the device-side queue; every update of its sites has been answered
at its home (R321), so that none meets a module loaded later. -/
def Mach.retired (m : Mach) (p ctx i : Nat) (d : Desc) : Bool :=
  m.siteMsgs.all (fun kx => match kx.2 with
    | some x => x.part != p || x.ctx != ctx || x.desc != i
    | none => true) &&
  let within (entry : W64) : Bool := decide (d.cb.toNat ≤ entry.toNat) && decide (entry.toNat < d.cb.toNat + d.cl.toNat)
  m.insts.all (fun ki => ki.2.part != p || ki.2.ctx != ctx || ki.2.state.finished || !within ki.2.entry) &&
    (m.part p).dev.all (fun l => l.ctx != ctx || l.ans.isSome || !within (m.va64 p ctx l.rcb))

/-- V is cleared, and the partition's site caches drop the module's entries. -/
def Mach.unload (m : Mach) (p ctx i : Nat) : Mach :=
  ((m.dropSites p ctx i).setDesc p ctx i { (m.part p).desc ctx i with v := false, mem := [] }).dropWords p ctx

def execModuleUnload (part ctx desc : Nat) :=
  stepIf (fun m => ((m.part part).desc ctx desc).v && m.retired part ctx desc ((m.part part).desc ctx desc)) (fun m => m.unload part ctx desc)

end Sys2Proof.Machine
end

