-- ==== Sys2Proof/Machine/Registers.lean ====
section
/-! DEFINITION. Writes to control registers (R299, R316, R334, R335, R342, R346, R352, R357, R358, R367, R377, R378, R389, R395, R400):
who may write which, and the limits that hardware enforces. Registers with a row of their own (PCFG, DRHEAD, TLBINV, FDSTAT, FDRES,
LQTAIL, PKGCAP, BOOTCTL) are not written here. -/

namespace Sys2Proof.Machine

def ringSize (n lo hi : Nat) : Bool := n == 0 || (decide (lo ≤ n) && decide (n ≤ hi) && n == 2 ^ n.log2)

/-! ### Contexts (R335, R342) -/

/-- BANKS is not zero, and disjoint from every other valid context's mask, one that waits for its halt included. -/
def Part.banksOk (x : Part) (ctx : Nat) (b : W32) : Bool :=
  b != 0 && (List.range 8).all (fun c => c == ctx || !(x.ctxAt c).valid ||
    ((x.ctxAt c).banks &&& b == 0 && ((x.ctxAt c).newBanks.getD 0) &&& b == 0))

def Mach.ctxRunning (m : Mach) (p ctx : Nat) : Bool := (m.part p).running == some ctx

/-- A new mask takes effect at once in a context that is halted, and else when it halts; the mask that is in effect, written again, takes
back one that waits. -/
def Mach.setBanks (m : Mach) (p ctx : Nat) (b : W32) : Mach :=
  let x := (m.part p).ctxAt ctx
  let m := m.modPart p (fun y => y.setCtx ctx { x with newBanks := if x.banks = b then none else some b })
  if m.ctxRunning p ctx then m else (m.rebank p ctx).getD (m.stallCtx p)

/-- CXCFG: V is the reeve's, PINLIM and BANKS the steward's through it. -/
def Mach.writeCxcfg (m : Mach) (by_ : Role) (p ctx : Nat) (val : W64) : Mach :=
  let b := fld val 0 32
  if viaReeve by_ && ctx ≤ (m.part p).nctx && (m.part p).banksOk ctx b then
    let x := (m.part p).ctxAt ctx
    (m.modPart p (fun y => y.setCtx ctx { x with valid := if by_ = .reeve then bitAt val 63 else x.valid, pinlim := fld val 32 6 })).setBanks p ctx b
  else m

def Mach.writeContext (m : Mach) (by_ : Role) (p ctx off : Nat) (val : W64) : Mach :=
  let put (ok : Bool) (f : Context → Context) : Mach :=
    if ok && decide (ctx ≤ (m.part p).nctx) then m.modPart p (fun x => x.setCtx ctx (f (x.ctxAt ctx))) else m
  match off with
  | 0x00 => m.writeCxcfg by_ p ctx val
  | 0x08 => put (viaReeve by_) (fun x => { x with slice := fld val 0 32 })
  | 0x10 => put (by_ == .reeve) (fun x => { x with root := val &&& 0x800FFFFFFFFFF000#64 })
  | 0x18 => put (byImage p by_) (fun x => { x with priv := val &&& 0x01FFFFFFFFFF0000#64 })
  | 0x20 => put (byImage p by_) (fun x => { x with psz := val &&& 0xFFF000#64 })
  | _ => m

/-! ### The rest of a partition's space -/

def Mach.writeWindow (m : Mach) (by_ : Role) (p w off : Nat) (val : W64) : Mach :=
  let put (f : InWin → InWin) : Mach :=
    if by_ = .reeve then m.modPart p (fun x => { x with wins := tset InWin.reset x.wins w (f (tget InWin.reset x.wins w)) }) else m
  match off with
  | 0x00 => put (fun x => { x with base := 65536 * (fld val 16 36).toNat })
  | 0x08 => put (fun x => { x with len := 65536 * (fld val 16 36).toNat })
  | 0x10 => put (fun x => { x with ctl := val &&& 0xFF07FFFF00000000#64 })
  | _ => m

/-- Updates under way to the entries of a descriptor find no entry there any more and are discarded (log 103). -/
def Mach.dropSiteMsgs (m : Mach) (p ctx d : Nat) : Mach :=
  { m with siteMsgs := m.siteMsgs.filter (fun kx => match kx.2 with
      | some x => !(x.part == p && x.ctx == ctx && x.desc == d)
      | none => true) }

/-- The partition's system image reaches the descriptors (R316), and the reeve, which reaches every role's control space (R399). -/
def Mach.writeDesc (m : Mach) (by_ : Role) (p ctx d off : Nat) (val : W64) : Mach :=
  let put (f : Desc → Desc) : Mach :=
    if byImage p by_ then
      let x := (m.part p).desc ctx d
      if x.v && (!(f x).v || (f x).st != x.st) then (((m.dropSites p ctx d).dropSiteMsgs p ctx d).setDesc p ctx d (f x)).dropWords p ctx
      else m.setDesc p ctx d (f x)
    else m
  match off with
  | 0x00 => put (fun x => { x with cb := fld val 0 53 })
  | 0x08 => put (fun x => { x with cl := fld val 0 32 })
  | 0x10 => put (fun x => { x with st := val })
  | 0x18 => put (fun x => { x with v := bitAt val 53, osc := fld val 49 4, ns := fld val 32 17, mepoch := fld val 0 32 })
  | _ => m

/-- HIGH of a pseudo-channel's record, and SCRCFG, of slice `j` of the partition. -/
def Mach.writeMemSide (m : Mach) (by_ : Role) (p j off : Nat) (val : W64) : Mach :=
  let k := p + j
  if (m.part p).size ≤ j then m
  else if off < 0x200 then
    (if off % 8 = 0 && byImage p by_ then m.setRefresh k (off / 8) { m.refreshAt k (off / 8) with high := fld val 16 8 } else m)
  else if off = 0x200 && viaReeve by_ then
    { m with scrub := tset Scrub.reset m.scrub k { (tget Scrub.reset m.scrub k) with thr := fld val 28 4, base := fld val 0 16 } }
  else m

def Mach.writePart (m : Mach) (by_ : Role) (p off : Nat) (val : W64) : Mach :=
  let put (ok : Bool) (f : Part → Part) : Mach := if ok then m.modPart p f else m
  let quietGens := (m.part p).gens.all (fun g => g.st != 1)
  match off with
  | 0x400 => put (byImage p by_) (fun x => { x with drbase := 16 * (fld val 4 48).toNat })
  | 0x408 => put (byImage p by_ && ringSize (fld val 0 21).toNat 256 (2 ^ 20)) (fun x => { x with drsize := (fld val 0 21).toNat })
  | 0x600 => put (by_ == .reeve && quietGens) (fun x => { x with grbase := 65536 * (fld val 16 36).toNat })
  | 0x608 => put (by_ == .reeve && quietGens) (fun x => { x with grlen := (fld val 16 36).toNat })
  | 0x700 => put (byImage p by_) (fun x => { x with elbase := 64 * (fld val 6 46).toNat })
  | 0x708 => put (byImage p by_ && ringSize (fld val 0 17).toNat 16 65536) (fun x => { x with elsize := (fld val 0 17).toNat })
  | 0x718 => put (byImage p by_) (fun x => { x with elhead := fld val 0 32 })
  | _ =>
    if 0x100 ≤ off ∧ off < 0x300 then m.writeContext by_ p ((off - 0x100) / 0x40) ((off - 0x100) % 0x40) val
    else if 0x1000 ≤ off ∧ off < 0x1200 then m.writeWindow by_ p ((off - 0x1000) / 0x20) ((off - 0x1000) % 0x20) val
    else if 0x4000 ≤ off ∧ off < 0x7000 then m.writeMemSide by_ p ((off - 0x4000) / 0x400) ((off - 0x4000) % 0x400) val
    else if 0x8000 ≤ off ∧ off < 0x9000 ∧ (off - 0x8000) % 0x40 = 0 then
      put (byImage p by_) (fun x => x.setFd ((off - 0x8000) / 0x40)
        { (x.fd ((off - 0x8000) / 0x40)) with rtry := fld val 8 4, dbg := bitAt val 4 })
    else if 0x20000 ≤ off ∧ off < 0x22000 then
      m.writeDesc by_ p ((off - 0x20000) / 0x400) ((off - 0x20000) % 0x400 / 0x20) ((off - 0x20000) % 0x20) val
    else m

/-! ### The reeve's space (R346, R358) -/

/-- LEND, by the reeve at the steward's request: while a lend is in effect only its end can be written. -/
def Mach.writeLend (m : Mach) (by_ : Role) (s : Nat) (val : W64) : Mach :=
  let l := m.lendOf s
  if viaReeve by_ then m.setLend s { l with l := bitAt val 4, borrower := if l.inEffect then l.borrower else fld val 0 4 } else m

/-- Bits of DOMMEM as they read: the bit of PART is always 1. -/
def withSelf (domid mem : W64) : W64 := mem ||| (1#64 <<< (fld domid 0 6).toNat)

/-- ROUTE reads 0 for this part and for parts outside the domain. -/
def Mach.maskRoutes (m : Mach) : Mach :=
  { m with routes := tmap 0 (fun n x => if n = m.partno.toNat ∨ !bitAt m.dommem n then 0 else x) m.routes }

def Mach.noPartition (m : Mach) : Bool := m.parts.all (fun kp => !kp.2.v)

def Mach.writeReeve (m : Mach) (by_ : Role) (off : Nat) (val : W64) : Mach :=
  if 0x1000000 ≤ off ∧ off < 0x1000060 ∧ off % 8 = 0 then m.writeLend by_ ((off - 0x1000000) / 8) val
  else if by_ != .reeve then m
  else if off = 0x1000200 then
    (if m.noPartition then
      let id := val &&& 0xFFFFFFFF0000003F#64
      { m with domid := id, dommem := withSelf id m.dommem }.maskRoutes else m)
  else if off = 0x1000208 then (if m.noPartition then { m with dommem := withSelf m.domid val }.maskRoutes else m)
  else if 0x1000300 ≤ off ∧ off < 0x1000500 ∧ off % 8 = 0 then
    let n := (off - 0x1000300) / 8
    { m with routes := tset 0 m.routes n (fld val 0 16) }.maskRoutes
  else m

/-! ### The host's launch registers (R299) -/

def Mach.writeBar0 (m : Mach) (by_ : Role) (off : Nat) (val : W64) : Mach :=
  let p := (off - 0x100000) / 0x1000
  let x := m.part p
  let idle := x.lqacc == x.cqtail
  let put (ok : Bool) (f : Part → Part) : Mach := if ok then m.modPart p f else m
  if by_ != .host || off < 0x100000 || 0x10C000 ≤ off then m
  else match off % 0x1000 with
    | 0x000 => put (idle && val.toNat % 64 == 0) (fun x => { x with lqbase := val })
    | 0x008 => put (idle && ringSize val.toNat 16 65536) (fun x => { x with lqsize := val.toNat })
    | 0x020 => put (idle && val.toNat % 32 == 0) (fun x => { x with cqbase := val })
    | 0x030 => put true (fun x => { x with cqhead := fld val 0 32 })
    | 0x038 => put true (fun x => { x with lqdef := (if fld val 4 2 = 3 then 0 else fld val 4 2) ++ fld val 0 4 })
    | _ => m

def Mach.writeReg (m : Mach) (by_ : Role) (sp : RegSpace) (off : Nat) (val : W64) : Mach :=
  match sp with
  | .part p => if (m.part p).v then m.writePart by_ p off val else m
  | .reeve => m.writeReeve by_ off val
  | .bar0 => m.writeBar0 by_ off val

def execRegisterWrite (by_ : Writer) (sp : RegSpace) (off : Nat) (val : W64) := partStep (fun m => m.writeReg (m.role by_) sp off val)

end Sys2Proof.Machine
end

