-- ==== Sys2Proof/Machine/Sha256.lean ====
section
/-! DEFINITION. SHA-256, which R401 names and does not give: FIPS 180-4 (PRESUMED, log 126). -/

namespace Sys2Proof.Machine

/-- The round constants. -/
def shaK : List (BitVec 32) :=
  [0x428A2F98#32, 0x71374491#32, 0xB5C0FBCF#32, 0xE9B5DBA5#32, 0x3956C25B#32, 0x59F111F1#32, 0x923F82A4#32, 0xAB1C5ED5#32] ++
  [0xD807AA98#32, 0x12835B01#32, 0x243185BE#32, 0x550C7DC3#32, 0x72BE5D74#32, 0x80DEB1FE#32, 0x9BDC06A7#32, 0xC19BF174#32] ++
  [0xE49B69C1#32, 0xEFBE4786#32, 0x0FC19DC6#32, 0x240CA1CC#32, 0x2DE92C6F#32, 0x4A7484AA#32, 0x5CB0A9DC#32, 0x76F988DA#32] ++
  [0x983E5152#32, 0xA831C66D#32, 0xB00327C8#32, 0xBF597FC7#32, 0xC6E00BF3#32, 0xD5A79147#32, 0x06CA6351#32, 0x14292967#32] ++
  [0x27B70A85#32, 0x2E1B2138#32, 0x4D2C6DFC#32, 0x53380D13#32, 0x650A7354#32, 0x766A0ABB#32, 0x81C2C92E#32, 0x92722C85#32] ++
  [0xA2BFE8A1#32, 0xA81A664B#32, 0xC24B8B70#32, 0xC76C51A3#32, 0xD192E819#32, 0xD6990624#32, 0xF40E3585#32, 0x106AA070#32] ++
  [0x19A4C116#32, 0x1E376C08#32, 0x2748774C#32, 0x34B0BCB5#32, 0x391C0CB3#32, 0x4ED8AA4A#32, 0x5B9CCA4F#32, 0x682E6FF3#32] ++
  [0x748F82EE#32, 0x78A5636F#32, 0x84C87814#32, 0x8CC70208#32, 0x90BEFFFA#32, 0xA4506CEB#32, 0xBEF9A3F7#32, 0xC67178F2#32]

/-- The eight words of a hash value. -/
structure Sha where
  a : BitVec 32
  b : BitVec 32
  c : BitVec 32
  d : BitVec 32
  e : BitVec 32
  f : BitVec 32
  g : BitVec 32
  h : BitVec 32
  deriving DecidableEq, Repr

def Sha.start : Sha :=
  { a := 0x6A09E667, b := 0xBB67AE85, c := 0x3C6EF372, d := 0xA54FF53A, e := 0x510E527F, f := 0x9B05688C, g := 0x1F83D9AB, h := 0x5BE0CD19 }

/-- Three rotations, or two and a shift, joined. -/
def shaMix (i j k : Nat) (shift : Bool) (x : BitVec 32) : BitVec 32 :=
  x.rotateRight i ^^^ x.rotateRight j ^^^ (if shift then x >>> k else x.rotateRight k)

/-- The message schedule, latest word first, continued by `n` words. -/
def shaWords : Nat → List (BitVec 32) → List (BitVec 32)
  | 0, l => l
  | n + 1, l => shaWords n ((shaMix 17 19 10 true (l.getD 1 0) + l.getD 6 0 + shaMix 7 18 3 true (l.getD 14 0) + l.getD 15 0) :: l)

/-- One round with a schedule word and its constant. -/
def Sha.round (s : Sha) (w k : BitVec 32) : Sha :=
  let t1 := s.h + shaMix 6 11 25 false s.e + ((s.e &&& s.f) ^^^ (~~~s.e &&& s.g)) + k + w
  let t2 := shaMix 2 13 22 false s.a + ((s.a &&& s.b) ^^^ (s.a &&& s.c) ^^^ (s.b &&& s.c))
  { a := t1 + t2, b := s.a, c := s.b, d := s.c, e := s.d + t1, f := s.e, g := s.f, h := s.g }

/-- The sixteen words of a block, the bytes of each from its highest down. -/
def shaBlock : Nat → List (BitVec 8) → List (BitVec 32)
  | 0, _ => []
  | n + 1, bs => (bs.take 4).foldl (fun (x : BitVec 32) b => (x <<< 8) ||| b.setWidth 32) 0 :: shaBlock n (bs.drop 4)

/-- The hash value past one block of 64 bytes. -/
def Sha.block (s : Sha) (bs : List (BitVec 8)) : Sha :=
  let x := (((shaWords 48 (shaBlock 16 bs).reverse).reverse).zip shaK).foldl (fun s p => s.round p.1 p.2) s
  { a := s.a + x.a, b := s.b + x.b, c := s.c + x.c, d := s.d + x.d, e := s.e + x.e, f := s.f + x.f, g := s.g + x.g, h := s.h + x.h }

def Sha.blocks : Nat → Sha → List (BitVec 8) → Sha
  | 0, s, _ => s
  | n + 1, s, bs => Sha.blocks n (s.block (bs.take 64)) (bs.drop 64)

/-- The message, a one bit, zeros, and the message's length in bits. -/
def shaPad (bs : List (BitVec 8)) : List (BitVec 8) :=
  bs ++ 0x80 :: List.replicate ((119 - bs.length % 64) % 64) 0 ++ ((List.range 8).map (fun i => BitVec.ofNat 8 (8 * bs.length / 2 ^ (8 * (7 - i)))))

def sha256 (bs : List (BitVec 8)) : BitVec 256 :=
  let p := shaPad bs
  let s := Sha.blocks (p.length / 64) Sha.start p
  s.a ++ s.b ++ s.c ++ s.d ++ s.e ++ s.f ++ s.g ++ s.h

end Sys2Proof.Machine
end

