-- ==== Sys2Proof/Machine/FirmSteps.lean ====
section
/-! DEFINITION. Boot, attestation and the two resets (R401 to R403) with the rescan of accepted work (R301), the creation of a
partition (R332 to R334, R362), and power and heat (R404, R405). -/

namespace Sys2Proof.Machine

/-! ### Boot steps (R401) -/

def digest (x : BitVec 256) : List Byte := (bytesOf 32 x.toNat).reverse

def Firm.measAt (f : Firm) (n : Nat) : BitVec 256 := tget 0 f.meas n
def Firm.setMeas (f : Firm) (n : Nat) (x : BitVec 256) : Firm := { f with meas := tset 0 f.meas n x }

/-- MEASn is extended by an image. -/
def Firm.extend (f : Firm) (n : Nat) (image : List Byte) : Firm :=
  f.setMeas n (sha256 (digest (f.measAt n) ++ digest (sha256 image)))

/-- A step that failed: the part stops, and BOOTST shows the step and a code that the spec does not number (log 3). -/
def Firm.fail (f : Firm) (step tick : Nat) : Firm :=
  { f with stopped := true, bootStep := BitVec.ofNat 8 step, bootCode := fld (Config.freeValue tick) 0 8 }

def Firm.passed (f : Firm) (step : Nat) : Firm := { f with bootStep := BitVec.ofNat 8 step, bootCode := 0 }

def nthOk (ok : List Bool) (n : Nat) : Bool := ok.getD n false
def nthImage (images : List (List Byte)) (n : Nat) : List Byte := images.getD n []

/-- Step 1: the boot ROM writes MEAS0 and verifies the reeve. -/
def Firm.step1 (f : Firm) (ok : List Bool) (tick : Nat) : Firm :=
  let f := f.setMeas 0 Config.romHash
  if nthOk ok 0 then f.passed 1 else f.fail 1 tick

/-- Step 2: the reeve measures itself and trains the stacks. -/
def Firm.step2 (f : Firm) (images : List (List Byte)) (ok : List Bool) (tick : Nat) : Firm :=
  let f := f.extend 1 (nthImage images 0)
  if nthOk ok 1 then f.passed 2 else f.fail 2 tick

/-- Step 3: the reeve verifies, measures and starts the steward. -/
def Firm.step3 (f : Firm) (images : List (List Byte)) (ok : List Bool) (tick : Nat) : Firm :=
  if nthOk ok 2 then (f.extend 2 (nthImage images 1)).passed 3 else f.fail 3 tick

/-- Step 4 for partition p: its image is verified and measured. -/
def Firm.step4 (f : Firm) (p : Nat) (image : List Byte) (ok : Bool) (tick : Nat) : Firm :=
  if ok then (f.extend (3 + p) image).passed 4 else f.fail 4 tick

/-- Runs a step unless an earlier one has stopped the part. -/
def Firm.next (f : Firm) (g : Firm → Firm) : Firm := if f.stopped then f else g f

/-- Steps 1 to 3. -/
def Firm.boot (f : Firm) (images : List (List Byte)) (ok : List Bool) (tick : Nat) : Firm :=
  ((f.step1 ok tick).next (fun f => f.step2 images ok tick)).next (fun f => f.step3 images ok tick)

/-- What a reset leaves of the firmware's own state: the leaf index, in non-volatile memory (R402). PKGCAP, which R403's warm row does not name,
is 2,600 W again after a warm reset too (DESIGN CHOICE, log 46). -/
def Firm.cleared (f : Firm) : Firm := { Firm.reset with leaf := f.leaf }

/-! ### COLD_RESET (R403) -/

/-- Everything is cleared; device memory once boot step 2 zeroes it. What other agents hold is theirs. -/
def Mach.cold (m : Mach) (zeroed : Bool) : Mach :=
  let x := { Mach.reset with tick := m.tick, nextId := m.nextId, far := m.far }
  if zeroed then x else { x with dram := m.dram, poison := m.poison, symErr := m.symErr }

def coldNow (s : State) (images : List (List Byte)) (ok : List Bool) : State :=
  { s with fw := (s.fw.cleared).boot images ok s.m.tick, m := s.m.cold (nthOk ok 0 && nthOk ok 1) }

def execColdReset (images : List (List Byte)) (ok : List Bool) (s : State) : Host.Outcome State Fault Refusal := .next (coldNow s images ok)

/-! ### WARM_RESET (R403, R301) -/

/-- A context keeps its registers and pin windows; with its lines gone, a mask that waited is in effect. -/
def Context.warm (x : Context) : Context := { x with banks := x.newBanks.getD x.banks, newBanks := none }

/-- A partition with its contexts, dirty ring, inbound windows, granary directory and launch queue registers; the rest starts again. -/
def Part.warm (x : Part) : Part :=
  { Part.reset with v := x.v, shw := x.shw, eng := x.eng, size := x.size, nctx := x.nctx, ctxs := tmap Context.reset (fun _ c => c.warm) x.ctxs,
                    wins := tmap InWin.reset (fun _ w => { w with used := [] }) x.wins, grbase := x.grbase, grlen := x.grlen, genopen := x.genopen,
                    gens := x.gens, drbase := x.drbase, drsize := x.drsize, drtail := x.drtail, drhead := x.drhead, lqbase := x.lqbase,
                    lqsize := x.lqsize, lqtail := x.lqtail, lqacc := x.lqacc, cqbase := x.cqbase,
                    cqtail := x.cqtail, cqhead := x.cqhead, lqdef := x.lqdef }

/-- Device memory is kept with its poison marks; dirty data in caches is lost. R403 names neither the refresh records nor the scrub registers:
they start again (DESIGN CHOICE, log 46). -/
def Mach.warm (m : Mach) : Mach :=
  { Mach.reset with tick := m.tick, nextId := m.nextId, far := m.far, dram := m.dram, poison := m.poison, symErr := m.symErr,
                    reserveUsed := m.reserveUsed, parts := tmap Part.reset (fun _ x => x.warm) m.parts, domid := m.domid, dommem := m.dommem,
                    routes := m.routes, lends := m.lends, images := m.images }

/-- The instance of an accepted entry, from the entry itself, with its INST and TAG unchanged; FDOM records the domain that it opens
(R298). One whose block cannot be written yet takes its domain later. What it reads of DRAM is checked as any read (R386). -/
def Mach.relaunch (m : Mach) (p : Nat) (q : Request) (x : Rcb) (num : W64) : Mach :=
  let (m, dom) := match m.writeWait p q.ctx (q.rcb.toNat + 0x28) 4, m.domainFor p q x with
    | none, some (m, d) => (m.vaWrite p d q.ctx (q.rcb.toNat + 0x28) (bytesOf 4 d), d)
    | some m, _ => (m, noDom (m.newPolicy p q x))
    | none, none => (m, noDom (m.newPolicy p q x))
  let m := m.readFor p dom q (m.acceptReads p q x)
  let (m, id) := m.fresh
  (m.setInst id { m.instanceOf p dom q x with num := num }).modPart p (fun y => { y with accepted := y.accepted + 1 })

/-- An entry that a reset ends: status 5. -/
def Mach.endedEntry (m : Mach) (p : Nat) (q : Request) (num : W64) : Mach :=
  let (m, id) := m.fresh
  m.setInst id { Inst.none with part := p, ctx := q.ctx, num := num, status := 5, host := q.host, tag := q.tag, order := (m.part p).accepted,
                                rcb := q.rcb.toNat }

def Mach.rescanEntry (m : Mach) (p : Nat) (i : W32) : Mach :=
  let e := m.hostBytes ((m.part p).lqAt i) 64
  let q := hostEntry e i
  let num : W64 := BitVec.ofNat 64 (fieldAt e 0x20 8)
  let x := rcbOf (m.vaBytes p q.ctx q.rcb.toNat 256)
  if fieldAt e 0x29 1 ≠ 1 then m.endedEntry p q num
  else if (m.vaAt p q.ctx q.rcb.toNat).isSome && bitAt x.flags 3 then m.relaunch p q x num
  else (m.readFor p noDomain q [(q.rcb.toNat, 256)]).endedEntry p q num

/-- The system image rescans the entries from CQTAIL to LQACC. -/
def Mach.rescan (m : Mach) (p : Nat) : Mach :=
  let x := m.part p
  if x.lqsize = 0 then m
  else (List.range (x.lqacc - x.cqtail).toNat).foldl (fun (m : Mach) k => m.rescanEntry p (x.cqtail + BitVec.ofNat 32 k)) m

def Mach.valid (m : Mach) : List Nat := (m.parts.filter (fun kp => kp.2.v)).map (·.1)

/-- Steps 1 to 3 without zeroing, and step 4 for every partition. -/
def warmNow (s : State) (images : List (List Byte)) (ok : List Bool) : State :=
  let m := s.m.warm
  let fw := m.valid.zipIdx.foldl (fun (f : Firm) pk => f.next (fun f => f.step4 pk.1 (nthImage images (2 + pk.2)) (nthOk ok (3 + pk.2)) s.m.tick))
    ((s.fw.cleared).boot images ok s.m.tick)
  { s with fw := fw, m := if fw.stopped then m else m.valid.foldl Mach.rescan m }

def execWarmReset (images : List (List Byte)) (ok : List Bool) (s : State) : Host.Outcome State Fault Refusal := .next (warmNow s images ok)

/-! ### PARTITION_CREATE (R332 to R334, R362) -/

/-- Whether the write keeps R332 and R334. -/
def Mach.pcfgOk (m : Mach) (p : Nat) (val : W64) : Bool :=
  let size := (fld val 12 4).toNat
  let eng := (fld val 16 8).toNat
  let others := m.parts.filter (fun kp => kp.2.v && kp.1 != p)
  [1, 2, 3, 4, 6, 12].contains size && (fld val 8 4).toNat == p && p % size == 0 && decide (p + size ≤ 12) && decide ((fld val 24 4).toNat ≤ 14) &&
    decide (1 ≤ eng) && decide (eng + (others.map (fun kp => kp.2.eng)).sum ≤ 48) &&
    others.all (fun kp => decide (kp.1 + kp.2.size ≤ p) || decide (p + size ≤ kp.1))

/-- No context of the partition is valid. -/
def Part.idle (x : Part) : Bool := (List.range 8).all (fun c => !(x.ctxAt c).valid)

def inSlices (p size a : Nat) : Bool := decide (p ≤ stackOf a) && decide (stackOf a < p + size)

/-- A core of a partition made anew: it holds nothing of what ran on it, and begins in epoch `e` (R79). Its store counter goes on, with what it
took and saw satisfied in an epoch that it keeps (R4, R185). -/
def Core.anew (k : Core) (e : BitVec 24) : Core :=
  { Core.reset with epoch := e, seq := k.seq, lastWon := k.lastWon, wonAt := k.wonAt, won := k.won, countsAt := k.countsAt,
                    taken := if k.epoch = e then k.taken else 0, satisfied := if k.epoch = e then k.satisfied else [] }

/-- The cores of new slices that the partition has to itself: those of a lent slice go on for its borrower, which holds nothing there of
the owner's (R346). -/
def Mach.anewCores (m : Mach) (p size : Nat) : List Nat :=
  ((List.range size).flatMap (fun j => coresIn (p + j))).filter (fun c => !(tget Lend.reset m.lends (sliceOf c)).inEffect)

/-- The memory of a new partition's stacks is zeroed, and what caches and cores held of it is gone (R332, R362). -/
def Mach.zero (m : Mach) (p size : Nat) : Mach :=
  let mine (a : Nat) : Bool := inSlices p size a
  { m with dram := m.dram.filter (fun x => !mine x.1), cached := m.cached.filter (fun x => !mine x.1),
           poison := m.poison.filter (fun s => !mine (32 * s)), symErr := m.symErr.filter (fun x => !mine (32 * x.1)),
           l2 := m.l2.filter (fun x => !mine (128 * x.line)), ms := m.ms.filter (fun x => !mine (128 * x.line)),
           cores := (m.anewCores p size).foldl (fun t c =>
             tset Core.reset t c ((tget Core.reset t c).anew (m.part p).ep.openEpoch)) m.cores,
           reserveUsed := m.reserveUsed.filter (fun x => !(decide (p ≤ x.1) && decide (x.1 < p + size))),
           insts := m.insts.filter (fun x => x.2.part != p) }

/-- The fields that PCFG sets. -/
def Part.pcfg (x : Part) (val : W64) : Part :=
  { x with v := true, shw := fld val 24 4, eng := (fld val 16 8).toNat, size := (fld val 12 4).toNat, nctx := (fld val 0 3).toNat }

/-- A partition that ends, or is made anew: what lives across hours stays (R4), its epochs, generations, fault domains and error log; no region
is left to use a domain. -/
def Part.remade (x : Part) : Part :=
  { Part.reset with ep := x.ep, forced := x.forced, grbase := x.grbase, grlen := x.grlen, genopen := x.genopen, stalls := x.stalls,
                    grwait := x.grwait,
                    grWaits := x.grWaits, gens := x.gens, fds := tmap FaultDom.reset (fun _ d => { d with v := false }) x.fds, elbase := x.elbase,
                    elsize := x.elsize, eltail := x.eltail, elhead := x.elhead, eladdr := x.eladdr, eldrop := x.eldrop, elcnt := x.elcnt }

/-- Generation 1 opens as PCFG.V is set (R362). -/
def Part.firstGen (x : Part) : Part := { x with genopen := 1, gens := [Gen.first], grWaits := false }

/-- The steward's request keeps every field but SHW and ENG (R333, R400). -/
def Part.onlyShwEng (x : Part) (p : Nat) (val : W64) : Bool :=
  x.v && bitAt val 28 && (fld val 12 4).toNat == x.size && (fld val 8 4).toNat == p && (fld val 0 3).toNat == x.nctx

/-- The control core that runs no image, of 3 to 15, with the lowest number (R399, log 104). -/
def Mach.freeControl (m : Mach) : Option Nat := ((List.range 13).map (· + 3)).find? (fun n => (tget none m.images n).isNone)

def Mach.startImage (m : Mach) (p : Nat) : Mach :=
  match m.freeControl with
  | some n => { m with images := tset none m.images n (some p) }
  | none => m

/-- No control core runs the image of a partition that has ended. -/
def Mach.endImages (m : Mach) (p : Nat) : Mach := { m with images := tmap none (fun _ x => if x = some p then none else x) m.images }

/-- The partition made anew: its earlier reserve pages are free, its memory is zero, its fields stand as written, and its image starts. -/
def Mach.makeAnew (m : Mach) (p : Nat) (val : W64) : Mach :=
  let x := m.part p
  let m := (m.freeReserve (x.gens.flatMap (·.reserve))).zero p (fld val 12 4).toNat
  ((m.setPart p (x.remade.firstGen.pcfg val)).endImages p).startImage p

/-- A write with V = 1 that keeps the partition's slices only sets its fields; any other creates it anew, its image measured. -/
def createNow (s : State) (p : Nat) (val : W64) (image : List Byte) (ok : Bool) : State :=
  let x := s.m.part p
  let size := (fld val 12 4).toNat
  if !x.idle then s
  else if !bitAt val 28 then { s with m := (s.m.setPart p x.remade).endImages p }
  else if !s.m.pcfgOk p val then s
  else if x.v && x.size == size then { s with m := s.m.setPart p (x.pcfg val) }
  else { s with fw := s.fw.step4 p image ok s.m.tick, m := s.m.makeAnew p val }

/-- Who writes PCFG: the reeve, and the steward through it (R333, R400). -/
def mayCreate (s : State) (by_ : Writer) (p : Nat) (val : W64) : Bool :=
  match s.m.role by_ with
  | .reeve => true
  | .steward => (s.m.part p).onlyShwEng p val
  | _ => false

def execPartitionCreate (part : Nat) (val : Write W64) (image : List Byte) (ok : Bool) (s : State) : Host.Outcome State Fault Refusal :=
  .next (if mayCreate s val.by_ part val.val then createNow s part val.val image ok else s)

/-! ### ATTESTATION_REPORT (R402) -/

/-- What a report signs: the nonce, the serial, MEAS0 to MEAS2, the partition's measurement and q. -/
def Firm.signed (f : Firm) (p : Nat) (nonce : BitVec 256) : List Byte :=
  digest nonce ++ bytesOf 8 Config.serial.toNat ++ digest (f.measAt 0) ++ digest (f.measAt 1) ++ digest (f.measAt 2) ++ digest (f.measAt (3 + p)) ++
    bytesOf 4 f.leaf

/-- q + 1 is written before the signature with leaf q is made; after 2^20 signatures every report is refused. -/
def Firm.attest (f : Firm) (p : Nat) (nonce : BitVec 256) : Firm :=
  if 2 ^ 20 ≤ f.leaf then f
  else { f with leaf := f.leaf + 1, report := some (f.leaf, nonce, Config.lmsSign f.leaf (f.signed p nonce)) }

def execAttestationReport (part : Nat) (nonce : BitVec 256) (s : State) : Host.Outcome State Fault Refusal :=
  .next (if (s.m.part part).v then { s with fw := s.fw.attest part nonce } else s)

/-! ### Power (R404) -/

/-- The consumers: dies 0 to 5, stacks 0 to 11, I/O dies 0 and 1, by number 0 to 19. -/
def unitNo : Unit404 → Nat
  | .die d => d
  | .stack k => 6 + k
  | .io k => 18 + k

def floorOf (u : Nat) : Nat := if u < 6 then 120000 else if u < 18 then 25000 else 80000
def ceilOf (u : Nat) : Nat := if u < 6 then 340000 else if u < 18 then 55000 else 80000

def amount (l : List (Unit404 × Nat)) (u : Nat) : Nat := ((l.find? (fun x => unitNo x.1 == u)).map (·.2)).getD 0

/-- Demand above the floor, up to the ceiling, in milliwatts. -/
def demandOf (req : List (Unit404 × Nat)) (u : Nat) : Nat := min (amount req u) (ceilOf u) - floorOf u

def floors : Nat := ((List.range 20).map floorOf).sum

/-- A demand served in proportion from `pool` milliwatts. -/
def shareOf (demand : Nat → Nat) (pool u : Nat) : Nat :=
  let total := ((List.range 20).map demand).sum
  if total ≤ pool then demand u else demand u * pool / total

/-- The grant of a consumer: its floor, and its demand above it, served in one proportion from what PKGCAP leaves (R404; log 95). -/
def grantOf (cap : Nat) (req : List (Unit404 × Nat)) (u : Nat) : Nat := floorOf u + shareOf (demandOf req) (1000 * cap - floors) u

/-- Issue duty of a die after a step: one less, down to 2, if its energy passed its grant, else one more, up to 16. -/
def dutyStep (d : Nat) (passed : Bool) : Nat := if passed then max 2 (d - 1) else min 16 (d + 1)

/-- Megabytes that a stack may move in a step. -/
def bytesFor (grant : Nat) (halved : Bool) : Nat :=
  let b := min 3200 (3200 * (grant - 15000) / 30000)
  if halved then b / 2 else b

def table (n : Nat) (d : Nat) (f : Nat → Nat) : Tab Nat := (List.range n).foldl (fun t i => tset d t i (f i)) []

def Firm.arbiter (f : Firm) (energy req : List (Unit404 × Nat)) : Firm :=
  let g := grantOf f.pkgcap req
  let passed (d : Nat) : Bool := tget 0 f.grants d != 0 && decide (tget 0 f.grants d < amount energy d)
  { f with grants := table 20 0 g,
           duty := table 6 16 (fun d => dutyStep (tget 16 f.duty d) (passed d)),
           budget := table 12 0 (fun k => bytesFor (g (6 + k)) (tget false f.halved k)) }

/-- The partitions with a slice on the unit; the I/O dies serve every one (R332). -/
def onUnit (m : Mach) : Unit404 → Nat → Bool
  | .die d, p => decide (p ≤ 2 * d + 1) && decide (2 * d < p + (m.part p).size)
  | .stack k, p => decide (p ≤ k) && decide (k < p + (m.part p).size)
  | .io _, _ => true

def unitIndex : Unit404 → Nat
  | .die d => d
  | .stack k => k
  | .io k => k

/-- A power or thermal action on a unit is logged (R396, R404, R405). -/
def Mach.logAction (m : Mach) (u : Unit404) : Mach := m.logAll (onUnit m u) 11 (unitIndex u) 0

/-- A step of the arbiter; a die whose duty falls and a stack whose byte budget falls meet a power action (R396, log 40). -/
def powerNow (s : State) (energy req : List (Unit404 × Nat)) : State :=
  let fw := s.fw.arbiter energy req
  let dies := (List.range 6).filter (fun d => decide (tget 16 fw.duty d < tget 16 s.fw.duty d))
  let moved := (List.range 12).filter (fun k => decide (tget 0 fw.budget k < tget 0 s.fw.budget k))
  let m := dies.foldl (fun m d => m.logAction (.die d)) s.m
  { s with fw := fw, m := moved.foldl (fun m k => m.logAction (.stack k)) m }

/-- Energies are of the last 1 ms in microjoules, requests in milliwatts. -/
def execPowerArbiterStep (energy request : List (Unit404 × Nat)) (s : State) : Host.Outcome State Fault Refusal := .next (powerNow s energy request)

def clampCap (w : Nat) : Nat := if w < 1200 then 1200 else if 2600 < w then 2600 else w

/-- The steward sets PKGCAP through the reeve (R400). -/
def execPkgcapWrite (watts : Write (BitVec 12)) (s : State) : Host.Outcome State Fault Refusal :=
  .next (if viaReeve (s.m.role watts.by_) then { s with fw := { s.fw with pkgcap := clampCap watts.val.toNat } } else s)

/-! ### Heat (R405) -/

/-- An action that holds at or above `on` and is released below `off`. -/
def latch (was : Bool) (t on off : Nat) : Bool := decide (on ≤ t) || (was && decide (off ≤ t))

/-- The thermal cap of a die: 0 tripped, 8 hot, 16 free. -/
def capStep (cap t : Nat) : Nat :=
  if latch (cap == 0) t 105 95 then 0 else if latch (cap != 16) t 95 90 then 8 else 16

def Firm.heat (f : Firm) : Unit404 → Nat → Firm
  | .die d, t => { f with dutyCap := tset 16 f.dutyCap d (capStep (tget 16 f.dutyCap d) t) }
  | .stack k, t => { f with hot := tset false f.hot k (latch (tget false f.hot k) t 85 85),
                            halved := tset false f.halved k (latch (tget false f.halved k) t 95 90) }
  | .io _, _ => f

/-- Stacks and I/O dies trip, which stops demand, links and engines. -/
def Mach.heat (m : Mach) : Unit404 → Nat → Mach
  | .die _, _ => m
  | .stack k, t => { m with stackTrip := tset false m.stackTrip k (latch (tget false m.stackTrip k) t 105 95) }
  | .io k, t => { m with ioTrip := tset false m.ioTrip k (latch (tget false m.ioTrip k) t 105 95) }

/-- Which actions a unit is under, by the rows of R405. -/
def State.actions (s : State) : Unit404 → List Bool
  | .die d => [tget 16 s.fw.dutyCap d != 16, tget 16 s.fw.dutyCap d == 0]
  | .stack k => [tget false s.fw.hot k, tget false s.fw.halved k, tget false s.m.stackTrip k]
  | .io k => [tget false s.m.ioTrip k]

/-- Each action taken is logged; a release is not (R405). -/
def heatNow (s : State) (u : Unit404) (t : Nat) : State :=
  let s' : State := { s with fw := s.fw.heat u t, m := s.m.heat u t }
  let taken := ((s.actions u).zip (s'.actions u)).filter (fun x => !x.1 && x.2)
  { s' with m := taken.foldl (fun m _ => m.logAction u) s'.m }

def execThermalAction (u : Unit404) (celsius : Nat) (s : State) : Host.Outcome State Fault Refusal := .next (heatNow s u celsius)

/-- The effective duty of a die (R405). -/
def Firm.dutyOf (f : Firm) (d : Nat) : Nat := min (tget 16 f.duty d) (tget 16 f.dutyCap d)

end Sys2Proof.Machine
end

