-- ==== Sys2Proof/Machine/Integer.lean ====
section
/-! DEFINITION. Class 0x1, the integer instructions (R104 to R108). -/

namespace Sys2Proof.Machine

/-- Quotient and remainder with the edge cases of R106; every other quotient is truncated toward zero. -/
def iquot (m : IntMod) (a b : Int) : Int :=
  if b = 0 then (if m.un then igreatest m else -1) else Int.tdiv a b
def irem (a b : Int) : Int := if b = 0 then a else Int.tmod a b

/-- The upper half of the exact product (R104). -/
def ihi (m : IntMod) (a b : W64) : Int := (ival m a * ival m b) / 2 ^ nBits m.w

def iabsDiff (m : IntMod) (a b : W64) : Int := ((ival m a - ival m b).natAbs : Int)

def execAdd (h : Hdr) (m : IntMod) (d : Dst) (a b : Src) :=
  regWord (.add h m d a b) h (fun t g => g.op2 t h m.w (!m.un) d a b (fun x y => ifit m (ival m x + ival m y)))
def execSub (h : Hdr) (m : IntMod) (d : Dst) (a b : Src) :=
  regWord (.sub h m d a b) h (fun t g => g.op2 t h m.w (!m.un) d a b (fun x y => ifit m (ival m x - ival m y)))
def execMul (h : Hdr) (m : IntMod) (d : Dst) (a b : Src) :=
  regWord (.mul h m d a b) h (fun t g => g.op2 t h m.w (!m.un) d a b (fun x y => ifit m (ival m x * ival m y)))
def execMulhi (h : Hdr) (m : IntMod) (d : Dst) (a b : Src) :=
  regWord (.mulhi h m d a b) h (fun t g => g.op2 t h m.w (!m.un) d a b (fun x y => wrapN m.w (ihi m x y)))
def execMad (h : Hdr) (m : IntMod) (d : Dst) (a b c : Src) :=
  regWord (.mad h m d a b c) h (fun t g =>
    g.op3 t h m.w (!m.un) d a b c (fun x y z => ifit m (ival m x * ival m y + ival m z)))
/-- R105: c is added modulo 2^N after the upper half is taken. -/
def execMadhi (h : Hdr) (m : IntMod) (d : Dst) (a b c : Src) :=
  regWord (.madhi h m d a b c) h (fun t g => g.op3 t h m.w (!m.un) d a b c (fun x y z => wrapN m.w (ihi m x y + ival m z)))
def execDiv (h : Hdr) (m : IntMod) (d : Dst) (a b : Src) :=
  regWord (.div h m d a b) h (fun t g => g.op2 t h m.w (!m.un) d a b (fun x y => wrapN m.w (iquot m (ival m x) (ival m y))))
def execRem (h : Hdr) (m : IntMod) (d : Dst) (a b : Src) :=
  regWord (.rem h m d a b) h (fun t g =>
    g.op2 t h m.w (!m.un) d a b (fun x y => wrapN m.w (irem (ival m x) (ival m y))))
def execMin (h : Hdr) (m : IntMod) (d : Dst) (a b : Src) :=
  regWord (.min h m d a b) h (fun t g => g.op2 t h m.w (!m.un) d a b (fun x y => wrapN m.w (min (ival m x) (ival m y))))
def execMax (h : Hdr) (m : IntMod) (d : Dst) (a b : Src) :=
  regWord (.max h m d a b) h (fun t g => g.op2 t h m.w (!m.un) d a b (fun x y => wrapN m.w (max (ival m x) (ival m y))))
def execAbs (h : Hdr) (m : IntMod) (d : Dst) (a : Src) :=
  regWord (.abs h m d a) h (fun t g => g.op1 t h m.w (!m.un) d a (fun x => ifit m ((ival m x).natAbs : Int)))
def execNeg (h : Hdr) (m : IntMod) (d : Dst) (a : Src) :=
  regWord (.neg h m d a) h (fun t g => g.op1 t h m.w (!m.un) d a (fun x => ifit m (-(ival m x))))

/-- R107: the predicate is carry in and carry out. -/
def execAddc (h : Hdr) (borrow w : Bool) (d : V) (a b : Src) (c : P) :=
  regWord (.addc h borrow w d a b c) h (fun t g =>
    let lanes := g.perf t h
    let cin := g.rdP t c.toNat
    let sum (l : Nat) : Int :=
      if borrow then (g.src t w l a).toNat - (g.src t w l b).toNat - (if bitAt cin l then 1 else 0)
      else (g.src t w l a).toNat + (g.src t w l b).toNat + (if bitAt cin l then 1 else 0)
    let out := maskOf (fun l => if borrow then decide (sum l < 0) else decide (2 ^ nBits w ≤ sum l))
    (g.vecResult lanes w d.toNat (fun l => wrapN w (sum l))).putP c.toNat lanes out)

def execSad (h : Hdr) (m : IntMod) (d : Dst) (a b c : Src) :=
  regWord (.sad h m d a b c) h (fun t g =>
    g.op3 t h m.w (!m.un) d a b c (fun x y z => wrapN m.w (iabsDiff m x y + ival m z)))

/-- R108: a 64-bit base plus a 32-bit operand, extended and shifted. -/
def execLea (h : Hdr) (zx : Bool) (sh : BitVec 3) (d : Dst) (a b : Src) :=
  regWord (.lea h zx sh d a b) h (fun t g => g.result (g.perf t h) true false d (fun l =>
    let y := fld (g.src t false l b) 0 32
    g.src t true l a + ((if zx then y.setWidth 64 else y.signExtend 64) <<< sh.toNat)))

/-- min(max(a, b), c); when b > c the result is c (R104). -/
def execClamp (h : Hdr) (m : IntMod) (d : Dst) (a b c : Src) :=
  regWord (.clamp h m d a b c) h (fun t g =>
    g.op3 t h m.w (!m.un) d a b c (fun x y z => wrapN m.w (min (max (ival m x) (ival m y)) (ival m z))))

end Sys2Proof.Machine
end

