-- ==== Sys2Proof/Machine/Lanes.lean ====
section
/-! DEFINITION. Class 0x8, words across lanes (R165 to R170). Every source lane is read before any destination
lane is written. -/

namespace Sys2Proof.Machine

def segW : Seg → Nat
  | .s64 => 64
  | .s32 => 32
  | .s16 => 16
  | .s8 => 8

/-- A shuffle whose lane l takes lane f l b, with b its second source (R166). -/
def Group.shuffle (g : Group) (t : Nat) (h : Hdr) (w : Bool) (d a : V) (b : Src) (f : Nat → Nat → Nat) : Group :=
  g.vecResult (g.perf t h) w d.toNat (fun l => g.vec t w a.toNat (f l (fld (g.src t false l b) 0 32).toNat))

def execShfl (h : Hdr) (s : Seg) (w : Bool) (d a : V) (b : Src) :=
  regWord (.shfl h s w d a b) h (fun t g => g.shuffle t h w d a b (fun l b => l - l % segW s + b % 64 % segW s))
def execShup (h : Hdr) (s : Seg) (w : Bool) (d a : V) (b : Src) :=
  regWord (.shup h s w d a b) h (fun t g => g.shuffle t h w d a b (fun l b => if b ≤ l % segW s then l - b else l))
def execShdn (h : Hdr) (s : Seg) (w : Bool) (d a : V) (b : Src) :=
  regWord (.shdn h s w d a b) h (fun t g => g.shuffle t h w d a b (fun l b => if l % segW s + b < segW s then l + b else l))
def execShxor (h : Hdr) (s : Seg) (w : Bool) (d a : V) (b : Src) :=
  regWord (.shxor h s w d a b) h (fun t g => g.shuffle t h w d a b (fun l b => l ^^^ (b % 64 % segW s)))

/-- Exact values of v[a] in the lanes of a mask, in lane order. -/
def Group.laneVals (g : Group) (t : Nat) (m : IntMod) (a : V) (lanes : W64) : List Int :=
  (lanesOf lanes).map (fun l => ival m (g.vec t m.w a.toNat l))

/-- A reduction (R167): one value for the group, extended by R102. -/
def Group.reduce (g : Group) (t : Nat) (h : Hdr) (m : IntMod) (d : S) (a : V) (f : Int → Int → Int) : Group :=
  match g.laneVals t m a (g.perf t h) with
  | [] => g
  | x :: xs => g.putS d.toNat (scalarExt m.w (!m.un) (wrapN m.w (xs.foldl f x)))

def execRedadd (h : Hdr) (m : IntMod) (d : S) (a : V) := regWord (.redadd h m d a) h (fun t g => g.reduce t h m d a (· + ·))
def execRedmin (h : Hdr) (m : IntMod) (d : S) (a : V) := regWord (.redmin h m d a) h (fun t g => g.reduce t h m d a min)
def execRedmax (h : Hdr) (m : IntMod) (d : S) (a : V) := regWord (.redmax h m d a) h (fun t g => g.reduce t h m d a max)

/-! ### Scans (R169) -/

def negZero : W32 := 0x80000000#32
/-- RoundF32(x + y). -/
def fsum (x y : W32) : W32 := roundF32 ((f32 x).add .ne (f32 y))

/-- One level of the floating scan at distance d. -/
def scanLevel (xs : List W32) (d : Nat) : List W32 :=
  xs.zipIdx.map (fun xl => if d ≤ xl.2 then fsum (xs.getD (xl.2 - d) negZero) xl.1 else xl.1)

/-- The lanes' FP32 values, −0 in the lanes outside the mask. -/
def Group.fvals (g : Group) (t : Nat) (a : V) (lanes : W64) : List W32 :=
  (List.range 64).map (fun l => if bitAt lanes l then g.rdV t a.toNat l else negZero)

/-- The levels of R169; a NaN that no sum has touched becomes the canonical one too (R35). -/
def fscan (xs : List W32) : List W32 := ([1, 2, 4, 8, 16, 32].foldl scanLevel xs).map (fun x => roundF32 (f32 x))

/-- Integer combination over the performing lanes up to l, or below it. -/
def Group.iscan (g : Group) (t : Nat) (m : IntMod) (a : V) (lanes : W64) (excl : Bool) (f : Int → Int → Int) (zero : Int) (l : Nat) : W64 :=
  wrapN m.w ((g.laneVals t m a (lanes &&& maskOf (fun k => if excl then decide (k < l) else decide (k ≤ l)))).foldl f zero)

def execScan (h : Hdr) (k : ScanOp) (m : IntMod) (d a : V) :=
  regWord (.scan h k m d a) h (fun t g =>
    let p := g.perf t h
    match k with
    | .add => g.vecResult p m.w d.toNat (g.iscan t m a p false (· + ·) 0)
    | .addx => g.vecResult p m.w d.toNat (g.iscan t m a p true (· + ·) 0)
    | .min => g.vecResult p m.w d.toNat (g.iscan t m a p false min (igreatest m))
    | .max => g.vecResult p m.w d.toNat (g.iscan t m a p false max (ileast m))
    | .fadd =>
      let xs := fscan (g.fvals t a p)
      g.writeV p d.toNat (fun l => xs.getD l negZero)
    | .faddx =>
      let xs := fscan (g.fvals t a p)
      g.writeV p d.toNat (fun l => if l = 0 then negZero else xs.getD (l - 1) negZero))

/-! ### The float sum (R57, R168) -/

def pairSums : List W32 → List W32
  | x :: y :: t => fsum x y :: pairSums t
  | l => l

def treeSum : Nat → List W32 → W32
  | 0, xs => xs.headD negZero
  | n + 1, xs => treeSum n (pairSums xs)

def execFredadd (h : Hdr) (d : S) (a : V) :=
  regWord (.fredadd h d a) h (fun t g => g.wideS t h d ((treeSum 6 (g.fvals t a (g.perf t h))).setWidth 64))

/-- R170: value i goes to lane i when that lane performs. -/
def execCompact (h : Hdr) (w : Bool) (d a : V) (b : P) (c : S) :=
  regWord (.compact h w d a b c) h (fun t g =>
    let p := g.perf t h
    let sel := lanesOf (p &&& g.rdP t b.toNat)
    (sel.zipIdx.foldl (fun x ln => if bitAt p ln.2 then x.putVec w d.toNat ln.2 (g.vec t w a.toNat ln.1) else x) g).wideS t h c
      (BitVec.ofNat 64 sel.length))

end Sys2Proof.Machine
end

