-- ==== Sys2Proof/Machine/Dispatch.lean ====
section
/-! DEFINITION. The meaning of every row: one arm, one call. -/

namespace Sys2Proof.Machine

def exec (i : Instr) (s : State) : Host.Outcome State Fault Refusal :=
  match i with
  | .nop h => Sys2Proof.Machine.execNop h s
  | .trap h imm => Sys2Proof.Machine.execTrap h imm s
  | .brk h imm => Sys2Proof.Machine.execBrk h imm s
  | .sleep h imm => Sys2Proof.Machine.execSleep h imm s
  | .yield h => Sys2Proof.Machine.execYield h s
  | .sigck h imm => Sys2Proof.Machine.execSigck h imm s
  | .lcset h imm => Sys2Proof.Machine.execLcset h imm s
  | .lcsetR h a => Sys2Proof.Machine.execLcsetR h a s
  | .lcsetGet h d => Sys2Proof.Machine.execLcsetGet h d s
  | .xmset h a => Sys2Proof.Machine.execXmset h a s
  | .xmsetAnd h a => Sys2Proof.Machine.execXmsetAnd h a s
  | .xmsetOr h a => Sys2Proof.Machine.execXmsetOr h a s
  | .xmget h d => Sys2Proof.Machine.execXmget h d s
  | .rds h d idx => Sys2Proof.Machine.execRds h d idx s
  | .wrs h a => Sys2Proof.Machine.execWrs h a s
  | .iflush h w => Sys2Proof.Machine.execIflush h w s
  | .sitex h d site => Sys2Proof.Machine.execSitex h d site s
  | .sitexCnt h d site => Sys2Proof.Machine.execSitexCnt h d site s
  | .sitexReset h site => Sys2Proof.Machine.execSitexReset h site s
  | .sitexPin h site => Sys2Proof.Machine.execSitexPin h site s
  | .add h m d a b => Sys2Proof.Machine.execAdd h m d a b s
  | .sub h m d a b => Sys2Proof.Machine.execSub h m d a b s
  | .mul h m d a b => Sys2Proof.Machine.execMul h m d a b s
  | .mulhi h m d a b => Sys2Proof.Machine.execMulhi h m d a b s
  | .mad h m d a b c => Sys2Proof.Machine.execMad h m d a b c s
  | .madhi h m d a b c => Sys2Proof.Machine.execMadhi h m d a b c s
  | .div h m d a b => Sys2Proof.Machine.execDiv h m d a b s
  | .rem h m d a b => Sys2Proof.Machine.execRem h m d a b s
  | .min h m d a b => Sys2Proof.Machine.execMin h m d a b s
  | .max h m d a b => Sys2Proof.Machine.execMax h m d a b s
  | .abs h m d a => Sys2Proof.Machine.execAbs h m d a s
  | .neg h m d a => Sys2Proof.Machine.execNeg h m d a s
  | .addc h borrow w d a b c => Sys2Proof.Machine.execAddc h borrow w d a b c s
  | .sad h m d a b c => Sys2Proof.Machine.execSad h m d a b c s
  | .lea h zx sh d a b => Sys2Proof.Machine.execLea h zx sh d a b s
  | .clamp h m d a b c => Sys2Proof.Machine.execClamp h m d a b c s
  | .and h w d a b => Sys2Proof.Machine.execAnd h w d a b s
  | .or h w d a b => Sys2Proof.Machine.execOr h w d a b s
  | .xor h w d a b => Sys2Proof.Machine.execXor h w d a b s
  | .not h w d a => Sys2Proof.Machine.execNot h w d a s
  | .shl h w d a b => Sys2Proof.Machine.execShl h w d a b s
  | .shr h w d a b => Sys2Proof.Machine.execShr h w d a b s
  | .sar h w d a b => Sys2Proof.Machine.execSar h w d a b s
  | .rot h w d a b => Sys2Proof.Machine.execRot h w d a b s
  | .bfx h sx w d a b => Sys2Proof.Machine.execBfx h sx w d a b s
  | .bfi h w d a b c => Sys2Proof.Machine.execBfi h w d a b c s
  | .popc h w d a => Sys2Proof.Machine.execPopc h w d a s
  | .clz h w d a => Sys2Proof.Machine.execClz h w d a s
  | .brev h w d a => Sys2Proof.Machine.execBrev h w d a s
  | .lop3 h w d a b c tt => Sys2Proof.Machine.execLop3 h w d a b c tt s
  | .sel h w d a b c => Sys2Proof.Machine.execSel h w d a b c s
  | .perm h d a b c => Sys2Proof.Machine.execPerm h d a b c s
  | .cmp h k m x sp d a b => Sys2Proof.Machine.execCmp h k m x sp d a b s
  | .fcmp h k f x sp d a b => Sys2Proof.Machine.execFcmp h k f x sp d a b s
  | .plog h k d a b => Sys2Proof.Machine.execPlog h k d a b s
  | .ptest h k d a => Sys2Proof.Machine.execPtest h k d a s
  | .ballot h d a => Sys2Proof.Machine.execBallot h d a s
  | .elect h d a => Sys2Proof.Machine.execElect h d a s
  | .pset h d x => Sys2Proof.Machine.execPset h d x s
  | .ucheck h tr w d a => Sys2Proof.Machine.execUcheck h tr w d a s
  | .mov h w d a => Sys2Proof.Machine.execMov h w d a s
  | .movG h site w d a => Sys2Proof.Machine.execMovG h site w d a s
  | .movi h w d imm => Sys2Proof.Machine.execMovi h w d imm s
  | .movh h d imm => Sys2Proof.Machine.execMovh h d imm s
  | .bcast h w d a b => Sys2Proof.Machine.execBcast h w d a b s
  | .bcastG h site w d a b => Sys2Proof.Machine.execBcastG h site w d a b s
  | .vtos h w ln d a => Sys2Proof.Machine.execVtos h w ln d a s
  | .stov h w d a => Sys2Proof.Machine.execStov h w d a s
  | .ldk h w d off => Sys2Proof.Machine.execLdk h w d off s
  | .tbset h d a => Sys2Proof.Machine.execTbset h d a s
  | .tbget h k d a => Sys2Proof.Machine.execTbget h k d a s
  | .fadd h f r d a b => Sys2Proof.Machine.execFadd h f r d a b s
  | .fsub h f r d a b => Sys2Proof.Machine.execFsub h f r d a b s
  | .fmul h f r d a b => Sys2Proof.Machine.execFmul h f r d a b s
  | .ffma h f r d a b c => Sys2Proof.Machine.execFfma h f r d a b c s
  | .fmin h f d a b => Sys2Proof.Machine.execFmin h f d a b s
  | .fmax h f d a b => Sys2Proof.Machine.execFmax h f d a b s
  | .fsgn h k f d a b => Sys2Proof.Machine.execFsgn h k f d a b s
  | .frcp h f d a => Sys2Proof.Machine.execFrcp h f d a s
  | .frsq h f d a => Sys2Proof.Machine.execFrsq h f d a s
  | .fsqrt h f r d a => Sys2Proof.Machine.execFsqrt h f r d a s
  | .fexp2 h f d a => Sys2Proof.Machine.execFexp2 h f d a s
  | .flog2 h f d a => Sys2Proof.Machine.execFlog2 h f d a s
  | .fsinpi h f d a => Sys2Proof.Machine.execFsinpi h f d a s
  | .fcospi h f d a => Sys2Proof.Machine.execFcospi h f d a s
  | .frnd h k f d a => Sys2Proof.Machine.execFrnd h k f d a s
  | .fclass h f d a => Sys2Proof.Machine.execFclass h f d a s
  | .faddG h site r d a b => Sys2Proof.Machine.execFaddG h site r d a b s
  | .fsubG h site r d a b => Sys2Proof.Machine.execFsubG h site r d a b s
  | .fmulG h site r d a b => Sys2Proof.Machine.execFmulG h site r d a b s
  | .ffmaG h site r d a b c => Sys2Proof.Machine.execFfmaG h site r d a b c s
  | .fminG h site d a b => Sys2Proof.Machine.execFminG h site d a b s
  | .fmaxG h site d a b => Sys2Proof.Machine.execFmaxG h site d a b s
  | .fsgnG h site k d a b => Sys2Proof.Machine.execFsgnG h site k d a b s
  | .frcpG h site d a => Sys2Proof.Machine.execFrcpG h site d a s
  | .frsqG h site d a => Sys2Proof.Machine.execFrsqG h site d a s
  | .fsqrtG h site r d a => Sys2Proof.Machine.execFsqrtG h site r d a s
  | .fexp2G h site d a => Sys2Proof.Machine.execFexp2G h site d a s
  | .flog2G h site d a => Sys2Proof.Machine.execFlog2G h site d a s
  | .fsinpiG h site d a => Sys2Proof.Machine.execFsinpiG h site d a s
  | .fcospiG h site d a => Sys2Proof.Machine.execFcospiG h site d a s
  | .frndG h site k d a => Sys2Proof.Machine.execFrndG h site k d a s
  | .fclassG h site d a => Sys2Proof.Machine.execFclassG h site d a s
  | .ladd h lg8 d a b => Sys2Proof.Machine.execLadd h lg8 d a b s
  | .lmul h lg8 d a b => Sys2Proof.Machine.execLmul h lg8 d a b s
  | .lfma h lg8 d a b c => Sys2Proof.Machine.execLfma h lg8 d a b c s
  | .fmtset h k imm => Sys2Proof.Machine.execFmtset h k imm s
  | .fmtsetR h a => Sys2Proof.Machine.execFmtsetR h a s
  | .fmtget h d => Sys2Proof.Machine.execFmtget h d s
  | .dot4 h f d a b c => Sys2Proof.Machine.execDot4 h f d a b c s
  | .dot4G h site d a b c => Sys2Proof.Machine.execDot4G h site d a b c s
  | .cvt h r tgt src d a c => Sys2Proof.Machine.execCvt h r tgt src d a c s
  | .cvtG h site r d a c => Sys2Proof.Machine.execCvtG h site r d a c s
  | .cvtF2i h r d a => Sys2Proof.Machine.execCvtF2i h r d a s
  | .cvtF2u h r d a => Sys2Proof.Machine.execCvtF2u h r d a s
  | .cvtI2f h r d a => Sys2Proof.Machine.execCvtI2f h r d a s
  | .cvtU2f h r d a => Sys2Proof.Machine.execCvtU2f h r d a s
  | .pack h d a => Sys2Proof.Machine.execPack h d a s
  | .unpack h d a => Sys2Proof.Machine.execUnpack h d a s
  | .scale h inv f d a b => Sys2Proof.Machine.execScale h inv f d a b s
  | .qnt h k d a => Sys2Proof.Machine.execQnt h k d a s
  | .dqnt h k d a => Sys2Proof.Machine.execDqnt h k d a s
  | .shfl h g w d a b => Sys2Proof.Machine.execShfl h g w d a b s
  | .shup h g w d a b => Sys2Proof.Machine.execShup h g w d a b s
  | .shdn h g w d a b => Sys2Proof.Machine.execShdn h g w d a b s
  | .shxor h g w d a b => Sys2Proof.Machine.execShxor h g w d a b s
  | .redadd h m d a => Sys2Proof.Machine.execRedadd h m d a s
  | .redmin h m d a => Sys2Proof.Machine.execRedmin h m d a s
  | .redmax h m d a => Sys2Proof.Machine.execRedmax h m d a s
  | .scan h k m d a => Sys2Proof.Machine.execScan h k m d a s
  | .fredadd h d a => Sys2Proof.Machine.execFredadd h d a s
  | .compact h w d a b c => Sys2Proof.Machine.execCompact h w d a b c s
  | .ld h z u d ad w at_ => Sys2Proof.Machine.execLd h z u d ad w at_ s
  | .ldG h site z d ad w at_ => Sys2Proof.Machine.execLdG h site z d ad w at_ s
  | .lds h z d base off w at_ => Sys2Proof.Machine.execLds h z d base off w at_ s
  | .ldsG h site z d base off w at_ => Sys2Proof.Machine.execLdsG h site z d base off w at_ s
  | .ldx h n f d ad w at_ => Sys2Proof.Machine.execLdx h n f d ad w at_ s
  | .ldxG h site n f d ad w at_ => Sys2Proof.Machine.execLdxG h site n f d ad w at_ s
  | .ldt h z d p ad w at_ => Sys2Proof.Machine.execLdt h z d p ad w at_ s
  | .ldtG h site z d p ad w at_ => Sys2Proof.Machine.execLdtG h site z d p ad w at_ s
  | .st h z u wo ad x at_ => Sys2Proof.Machine.execSt h z u wo ad x at_ s
  | .stG h site z wo ad x at_ => Sys2Proof.Machine.execStG h site z wo ad x at_ s
  | .sts h z wo base x off at_ => Sys2Proof.Machine.execSts h z wo base x off at_ s
  | .stt h z wo p ad x at_ => Sys2Proof.Machine.execStt h z wo p ad x at_ s
  | .stx h n f wo ad x at_ => Sys2Proof.Machine.execStx h n f wo ad x at_ s
  | .stxG h site n f wo ad x at_ => Sys2Proof.Machine.execStxG h site n f wo ad x at_ s
  | .wmrg h d a b => Sys2Proof.Machine.execWmrg h d a b s
  | .wmrgRed h d a b => Sys2Proof.Machine.execWmrgRed h d a b s
  | .wtest h d w => Sys2Proof.Machine.execWtest h d w s
  | .wtestKick h d w => Sys2Proof.Machine.execWtestKick h d w s
  | .wfence h w => Sys2Proof.Machine.execWfence h w s
  | .widen h d => Sys2Proof.Machine.execWiden h d s
  | .atom h k un w64 d ad x wo w at_ => Sys2Proof.Machine.execAtom h k un w64 d ad x wo w at_ s
  | .atomG h site k un w64 d ad x wo w at_ => Sys2Proof.Machine.execAtomG h site k un w64 d ad x wo w at_ s
  | .fatom h k d ad x wo w at_ => Sys2Proof.Machine.execFatom h k d ad x wo w at_ s
  | .fatomG h site k d ad x wo w at_ => Sys2Proof.Machine.execFatomG h site k d ad x wo w at_ s
  | .atoms h k un w64 d base x wo w at_ => Sys2Proof.Machine.execAtoms h k un w64 d base x wo w at_ s
  | .atomsG h site k un w64 d base x wo w at_ => Sys2Proof.Machine.execAtomsG h site k un w64 d base x wo w at_ s
  | .waita h ne w64 d ad x timeout at_ => Sys2Proof.Machine.execWaita h ne w64 d ad x timeout at_ s
  | .waitaG h site ne w64 d ad x timeout at_ => Sys2Proof.Machine.execWaitaG h site ne w64 d ad x timeout at_ s
  | .pfl h l ad => Sys2Proof.Machine.execPfl h l ad s
  | .pft h ms a => Sys2Proof.Machine.execPft h ms a s
  | .pin h ms d a b => Sys2Proof.Machine.execPin h ms d a b s
  | .unpin h a => Sys2Proof.Machine.execUnpin h a s
  | .inv h ms ad => Sys2Proof.Machine.execInv h ms ad s
  | .wb h dram d ad => Sys2Proof.Machine.execWb h dram d ad s
  | .tlbsync h all a w => Sys2Proof.Machine.execTlbsync h all a w s
  | .mzero h d a w pages => Sys2Proof.Machine.execMzero h d a w pages s
  | .mcopy h d a b w pages => Sys2Proof.Machine.execMcopy h d a b w pages s
  | .chainDemote h c => Sys2Proof.Machine.execChainDemote h c s
  | .chainDrop h c => Sys2Proof.Machine.execChainDrop h c s
  | .chainCnt h d c => Sys2Proof.Machine.execChainCnt h d c s
  | .tdef h ready t a b chunk => Sys2Proof.Machine.execTdef h ready t a b chunk s
  | .tfree h t => Sys2Proof.Machine.execTfree h t s
  | .tstat h k d t => Sys2Proof.Machine.execTstat h k d t s
  | .twait h d t => Sys2Proof.Machine.execTwait h d t s
  | .twaitCh h t b => Sys2Proof.Machine.execTwaitCh h t b s
  | .layout h d a => Sys2Proof.Machine.execLayout h d a s
  | .copy h cc d a b w t => Sys2Proof.Machine.execCopy h cc d a b w t s
  | .copyOut h cc d a b w t => Sys2Proof.Machine.execCopyOut h cc d a b w t s
  | .copyQ h cc d a b w q => Sys2Proof.Machine.execCopyQ h cc d a b w q s
  | .copyMc h cc d a b w t mask => Sys2Proof.Machine.execCopyMc h cc d a b w t mask s
  | .feed h q t b c => Sys2Proof.Machine.execFeed h q t b c s
  | .rrot h d t => Sys2Proof.Machine.execRrot h d t s
  | .sdef h q scl => Sys2Proof.Machine.execSdef h q scl s
  | .sflush h q => Sys2Proof.Machine.execSflush h q s
  | .sflushRel h q => Sys2Proof.Machine.execSflushRel h q s
  | .mmp h f acc qa qb k => Sys2Proof.Machine.execMmp h f acc qa qb k s
  | .mmpG h site acc qa qb k => Sys2Proof.Machine.execMmpG h site acc qa qb k s
  | .mmps h f acc qa qb k => Sys2Proof.Machine.execMmps h f acc qa qb k s
  | .mmpsG h site acc qa qb k => Sys2Proof.Machine.execMmpsG h site acc qa qb k s
  | .accz h acc => Sys2Proof.Machine.execAccz h acc s
  | .acco h fl f t acc bias code => Sys2Proof.Machine.execAcco h fl f t acc bias code s
  | .atab h t a b => Sys2Proof.Machine.execAtab h t a b s
  | .mstat h d => Sys2Proof.Machine.execMstat h d s
  | .mstatClr h d a => Sys2Proof.Machine.execMstatClr h d a s
  | .mstatEn h d a => Sys2Proof.Machine.execMstatEn h d a s
  | .accld h f d acc row => Sys2Proof.Machine.execAccld h f d acc row s
  | .rvinit h r n => Sys2Proof.Machine.execRvinit h r n s
  | .rvarr h r a => Sys2Proof.Machine.execRvarr h r a s
  | .rvwait h d r => Sys2Proof.Machine.execRvwait h d r s
  | .launch h d a w => Sys2Proof.Machine.execLaunch h d a w s
  | .replay h d a b w => Sys2Proof.Machine.execReplay h d a b w s
  | .snap h d g => Sys2Proof.Machine.execSnap h d g s
  | .genq h d a => Sys2Proof.Machine.execGenq h d a s
  | .genrel h d a => Sys2Proof.Machine.execGenrel h d a s
  | .genrb h d a => Sys2Proof.Machine.execGenrb h d a s
  | .reconvergenceJoin core slot => Sys2Proof.Machine.execReconvergenceJoin core slot s
  | .groupSlotRelease core slot => Sys2Proof.Machine.execGroupSlotRelease core slot s
  | .longLatencyReturn core slot id => Sys2Proof.Machine.execLongLatencyReturn core slot id s
  | .groupUnpark core slot => Sys2Proof.Machine.execGroupUnpark core slot s
  | .activeSetRotation core slot => Sys2Proof.Machine.execActiveSetRotation core slot s
  | .sleepExpiry core slot => Sys2Proof.Machine.execSleepExpiry core slot s
  | .operandLogReplay core idx resolved => Sys2Proof.Machine.execOperandLogReplay core idx resolved s
  | .tbsetTranslationDone core slot tb => Sys2Proof.Machine.execTbsetTranslationDone core slot tb s
  | .drain id => Sys2Proof.Machine.execDrain id s
  | .drainComplete id => Sys2Proof.Machine.execDrainComplete id s
  | .pinForcedWiden core line => Sys2Proof.Machine.execPinForcedWiden core line s
  | .epochTimerExpiry part => Sys2Proof.Machine.execEpochTimerExpiry part s
  | .closeSpacingExpiry part => Sys2Proof.Machine.execCloseSpacingExpiry part s
  | .closeEpoch part => Sys2Proof.Machine.execCloseEpoch part s
  | .closeReceipt core => Sys2Proof.Machine.execCloseReceipt core s
  | .closeHoldAtHome slice => Sys2Proof.Machine.execCloseHoldAtHome slice s
  | .engineCloseReport part engine => Sys2Proof.Machine.execEngineCloseReport part engine s
  | .epochCloseComplete part => Sys2Proof.Machine.execEpochCloseComplete part s
  | .doneReceipt slice => Sys2Proof.Machine.execDoneReceipt slice s
  | .waitaWake core slot => Sys2Proof.Machine.execWaitaWake core slot s
  | .waitaTimeout core slot => Sys2Proof.Machine.execWaitaTimeout core slot s
  | .copyEngineStart id engine slices => Sys2Proof.Machine.execCopyEngineStart id engine slices s
  | .copyComplete id => Sys2Proof.Machine.execCopyComplete id s
  | .copyFault id => Sys2Proof.Machine.execCopyFault id s
  | .engineFaultResolved id => Sys2Proof.Machine.execEngineFaultResolved id s
  | .feedComplete core idx => Sys2Proof.Machine.execFeedComplete core idx s
  | .rrotRingComplete gang tile => Sys2Proof.Machine.execRrotRingComplete gang tile s
  | .matrixStepExecute core => Sys2Proof.Machine.execMatrixStepExecute core s
  | .accoComplete core => Sys2Proof.Machine.execAccoComplete core s
  | .lqtailWrite part tail => Sys2Proof.Machine.execLqtailWrite part tail s
  | .acceptance part device idx => Sys2Proof.Machine.execAcceptance part device idx s
  | .regionLeaveHeld inst => Sys2Proof.Machine.execRegionLeaveHeld inst s
  | .taskPlacement part gang idx => Sys2Proof.Machine.execTaskPlacement part gang idx s
  | .coreWordRewrite core => Sys2Proof.Machine.execCoreWordRewrite core s
  | .persistentPlacement part => Sys2Proof.Machine.execPersistentPlacement part s
  | .gangBalance part gang => Sys2Proof.Machine.execGangBalance part gang s
  | .regionComplete inst => Sys2Proof.Machine.execRegionComplete inst s
  | .completionRecordPublish part => Sys2Proof.Machine.execCompletionRecordPublish part s
  | .budgetExhausted inst => Sys2Proof.Machine.execBudgetExhausted inst s
  | .contextSliceEnd part => Sys2Proof.Machine.execContextSliceEnd part s
  | .contextHaltComplete part => Sys2Proof.Machine.execContextHaltComplete part s
  | .rowClaim core slot => Sys2Proof.Machine.execRowClaim core slot s
  | .lendTakeEffect slice => Sys2Proof.Machine.execLendTakeEffect slice s
  | .sliceReturn slice => Sys2Proof.Machine.execSliceReturn slice s
  | .siteUpdateAtHome id => Sys2Proof.Machine.execSiteUpdateAtHome id s
  | .siteResolve id => Sys2Proof.Machine.execSiteResolve id s
  | .siteCacheFill core ctx desc site => Sys2Proof.Machine.execSiteCacheFill core ctx desc site s
  | .siteCountFlush core => Sys2Proof.Machine.execSiteCountFlush core s
  | .drheadWrite part head => Sys2Proof.Machine.execDrheadWrite part head s
  | .tlbinvWrite part val => Sys2Proof.Machine.execTlbinvWrite part val s
  | .inboundAccess a => Sys2Proof.Machine.execInboundAccess a s
  | .abudInterval part => Sys2Proof.Machine.execAbudInterval part s
  | .remoteAccessRefused id => Sys2Proof.Machine.execRemoteAccessRefused id s
  | .remotePresent src id w => Sys2Proof.Machine.execRemotePresent src id w s
  | .remotePresentAnswer id refused => Sys2Proof.Machine.execRemotePresentAnswer id refused s
  | .flitReceive port f => Sys2Proof.Machine.execFlitReceive port f s
  | .linkDown port => Sys2Proof.Machine.execLinkDown port s
  | .hostPortTrain m => Sys2Proof.Machine.execHostPortTrain m s
  | .copyOnWrite page => Sys2Proof.Machine.execCopyOnWrite page s
  | .generationDrainPage part => Sys2Proof.Machine.execGenerationDrainPage part s
  | .generationComplete part => Sys2Proof.Machine.execGenerationComplete part s
  | .rowPathComplete id => Sys2Proof.Machine.execRowPathComplete id s
  | .refreshInterval stack pc demand => Sys2Proof.Machine.execRefreshInterval stack pc demand s
  | .refreshPullIn stack pc => Sys2Proof.Machine.execRefreshPullIn stack pc s
  | .scrubPage stack => Sys2Proof.Machine.execScrubPage stack s
  | .sramDoubleError at_ => Sys2Proof.Machine.execSramDoubleError at_ s
  | .fdresGo part dom val => Sys2Proof.Machine.execFdresGo part dom val s
  | .fdstatRecClear part dom => Sys2Proof.Machine.execFdstatRecClear part dom s
  | .moduleLoad part ctx desc file places tables => Sys2Proof.Machine.execModuleLoad part ctx desc file places tables s
  | .moduleUnload part ctx desc => Sys2Proof.Machine.execModuleUnload part ctx desc s
  | .coldReset images ok => Sys2Proof.Machine.execColdReset images ok s
  | .warmReset images ok => Sys2Proof.Machine.execWarmReset images ok s
  | .partitionCreate part val image ok => Sys2Proof.Machine.execPartitionCreate part val image ok s
  | .attestationReport part nonce => Sys2Proof.Machine.execAttestationReport part nonce s
  | .powerArbiterStep energy request => Sys2Proof.Machine.execPowerArbiterStep energy request s
  | .pkgcapWrite watts => Sys2Proof.Machine.execPkgcapWrite watts s
  | .thermalAction u celsius => Sys2Proof.Machine.execThermalAction u celsius s
  | .registerWrite by_ sp off val => Sys2Proof.Machine.execRegisterWrite by_ sp off val s
  | .granaryPortTrain port fast => Sys2Proof.Machine.execGranaryPortTrain port fast s
  | .contextRestore part ctx otherPart layoutChanged => Sys2Proof.Machine.execContextRestore part ctx otherPart layoutChanged s

end Sys2Proof.Machine
end

