-- ==== Sys2Proof/Machine/Run.lean ====
section
/-! DEFINITION. One turn of the machine: the agenda says what happens next (log 1), a group's turn fetches and runs its next word
(R70, R250, R251, R270), and the clocks move on (R3, R308, R310). -/

namespace Sys2Proof.Machine

/-! ### Stores on their way into the L1s (R270) -/

/-- The stores of a core that wait to enter its L1 enter; where one cannot, all wait on. -/
def Mach.settleCore (m : Mach) (c : Nat) : Mach :=
  match m.settle c with
  | .ok m => m
  | .error (m, .reserve pg who) => m.countStall pg who
  | .error (m, .pinned k ln) => m.refuse k ln
  | .error (m, _) => m

def Mach.settleAll (m : Mach) : Mach :=
  m.cores.foldl (fun m kc => if kc.2.sbuf.isEmpty then m else m.settleCore kc.1) m

/-- Loads and stores, which settle what they must themselves (R270). -/
def ordersItself : Instr → Bool
  | .ld .. | .ldG .. | .lds .. | .ldsG .. | .ldx .. | .ldxG .. | .ldt .. | .ldtG .. | .st .. | .stG .. | .sts .. | .stt .. | .stx .. | .stxG .. =>
      true
  | _ => false

/-- Words that order no memory access: classes 0x0 to 0x8 but `iflush`, and some of the cache words (R140, R171, R206, R410). -/
def ordersNothing : Instr → Bool
  | .iflush .. => false
  | .pfl .. | .pft .. | .pin .. | .unpin .. | .chainCnt .. | .chainDemote .. | .chainDrop .. => true
  | i => decide ((toRaw i).op.toNat < 0x90)

/-- A word that runs while stores of its core wait to enter the L1. -/
def runsAhead (i : Instr) : Bool := ordersItself i || ordersNothing i

/-! ### A group's turn -/

/-- A group of the active set on a die that is not tripped (R405), none of whose fixed-latency results is awaited (R65). -/
def State.mayStart (s : State) (c k : Nat) : Bool :=
  (s.m.group c k).isActive && decide ((s.m.group c k).busyUntil ≤ s.m.clock) && decide (0 < s.fw.dutyOf (dieOf c))

def State.at_ (s : State) (c k : Nat) : State := { s with m := { s.m with cur := (c, k) } }

/-- The next word of the issuing group is fetched, and run; it waits for the stores of its core to enter, unless it may run ahead of them. -/
def State.runNext (s : State) (c k : Nat) : Host.Outcome State Fault Refusal :=
  match s.m.nextOf c k with
  | .issue m i =>
    if runsAhead i || (m.core c).sbuf.isEmpty then exec i { s with m := m }
    else if ((m.settleCore c).core c).sbuf.isEmpty then exec i { s with m := m.settleCore c }
    else .next { s with m := m.settleCore c }
  | .join _ => exec (.reconvergenceJoin c k) s
  | .trap m t => .next { s with m := takeTrap m c k (s.m.group c k).pc t }
  | .poison m pa => .next { s with m := m.consumePoison c k pa (s.m.group c k).pc (s.m.group c k).xm }
  | .hold m => .next { s with m := m }
  | .refused port => .next { s with m := refusedRemote s.m c k port }

/-- The waits for a resource, or for a number as at a parked word (R185, R244), at which R248 has a group PARKED or not ready (R325, R361): its word
has not issued. -/
def Why.resource : Why → Bool
  | .switch | .outsFull | .tile .. | .pairTile .. | .ringTiles .. | .matrixQueue | .copiesFull | .launchQueue | .deferred | .logFull | .siteFill ..
  | .siteOwed | .siteRoom .. | .seqLimit .. | .snapClose .. | .streamSpace .. => true
  | _ => false

/-- The waits at which a word has not issued: for a resource, or for its witness (R81). -/
def Why.unissued : Why → Bool
  | .witness .. => true
  | why => why.resource

def Group.parkedAt (f : Why → Bool) (g : Group) : Bool :=
  match g.status with
  | .parked why => f why
  | _ => false

/-- No word of the group can run: it is not fetched yet, or waits for stores of its core to enter the L1 (R270). -/
def State.noWord (s : State) (c k : Nat) : Bool :=
  match s.m.nextOf c k with
  | .issue m i => !runsAhead i && !(m.core c).sbuf.isEmpty && !((m.settleCore c).core c).sbuf.isEmpty
  | .hold _ => true
  | _ => false

/-- The group's next word cannot issue as the machine stands: there is none that can run, or it would park (R248). -/
def State.mustPark (s : State) (c k : Nat) : Bool :=
  (s.at_ c k).noWord c k || (match (s.at_ c k).runNext c k with
    | .next t => (t.m.group c k).parkedAt Why.resource
    | _ => false)

/-- What is known of a group: whether its next word cannot issue, and from when on it has been ready. -/
def Group.observed (g : Group) (parks : Bool) (now : Nat) : Group :=
  if g.unready = parks then g else if parks then { g with unready := true } else { g with unready := false, readyAge := now }

/-- The fetch of a group's next word goes on whether or not the group is active: a line that refuses it takes note (R188). -/
def Mach.fetchTry (m : Mach) (c k : Nat) : Mach :=
  let g := m.group c k
  let t := m.team g.team
  match m.fetchKept c t.part t.ctx g.pc with
  | some x => m.refuse x.1 x.2
  | none => m

/-- A core's pending and active groups are looked at (R248, R250). -/
def State.observe (s : State) (m : Mach) (c : Nat) : Mach :=
  ((m.core c).groups.filter (fun x => x.2.isPending || x.2.isActive)).foldl (fun m x =>
    let s : State := { s with m := m }
    let m := if s.noWord c x.1 then m.fetchTry c x.1 else m
    m.setGroup c x.1 ((m.group c x.1).observed (s.mustPark c x.1) m.clock)) m

/-- Every core's groups, as a turn leaves them. -/
def State.observeAll (s : State) : State := { s with m := s.m.cores.foldl (fun m kc => s.observe m kc.1) s.m }

/-- Free places of every core's active set are filled in the cycle in which they came free (R251). -/
def State.fillAll (s : State) : State := { s with m := s.m.cores.foldl (fun m kc => m.fillActive kc.1) s.m }

/-- The group that rotation takes next, of those due (R251). -/
def Mach.dueSlot (m : Mach) (c : Nat) : Option Nat := ((m.core c).groups.find? (fun x => m.rotates c x.1)).map (·.1)

/-- Groups due to leave do so, as many as there are ready ones that find no place; they join the pending set behind those. -/
def Mach.rotateDue (c : Nat) : Nat → Mach → Mach
  | 0, m => m
  | n + 1, m => match m.dueSlot c with
    | some k => Mach.rotateDue c n (m.wake c k)
    | none => m

/-- The active set of a core as its rules leave it: rotation, then the free places filled (R251). -/
def State.prepare (s : State) (c : Nat) : State :=
  let n := (s.m.core c).pendingReady s.m.clock + (s.m.core c).activeCount - 8
  { s with m := (s.m.rotateDue c n).fillActive c }

def Mach.ordered (m : Mach) (c j k : Nat) : Bool := Sys2Proof.Machine.ahead (m.core c).lastWon j k (m.group c j) (m.group c k)

/-- The group is the one that issues: every group ahead of it is not ready, or its own turn is only to park (R250). -/
def State.first (s : State) (c k : Nat) : Bool :=
  let older := (s.m.core c).groups.filter (fun x => x.1 != k && x.2.isActive && decide (x.2.busyUntil ≤ s.m.clock) && s.m.ordered c x.1 k)
  older.all (fun x => s.mustPark c x.1) || s.mustPark c k

def State.mayIssue (s : State) (c k : Nat) : Bool := s.mayStart c k && s.first c k

/-- The core has issued its two words of this cycle, or one of this group or of a younger one (R250). -/
def Mach.cycleFull (m : Mach) (c k : Nat) : Bool :=
  (m.core c).wonAt == m.clock && (decide (2 ≤ (m.core c).won.length) || (m.core c).won.any (fun w => w.1 == k || decide ((m.group c k).age < w.2)))

/-- Another ready group of the active set has the same ready age: the choice between them is a tie (R250). -/
def State.ties (s : State) (c k : Nat) : Bool :=
  (s.m.core c).groups.any (fun x => x.1 != k && x.2.isActive && decide (x.2.busyUntil ≤ s.m.clock) && x.2.age == (s.m.group c k).age &&
      !s.mustPark c x.1)

/-- The core notes the word that it issues. -/
def Core.win (k : Core) (slot age now : Nat) (tie : Bool) : Core :=
  { k with lastWon := if tie then slot else k.lastWon, wonAt := now, won := if k.wonAt = now then k.won ++ [(slot, age)] else [(slot, age)] }

/-- The turn ran a word: there was one to run, it met no join, and it did not wait before its issue. -/
def State.didIssue (s : State) (m : Mach) (c k : Nat) : Bool := !s.noWord c k && !s.m.joins c k && !(m.group c k).parkedAt Why.unissued

/-- A group that has issued is ready again in the next cycle, the first in which it may issue (R250). -/
def State.issued (s : State) (m : Mach) (c k : Nat) : Mach :=
  if !s.didIssue m c k then m
  else
    let m := m.modCore c (fun x => x.win k (s.m.group c k).age s.m.clock (s.ties c k))
    if (m.group c k).isActive then m.setGroup c k { m.group c k with readyAge := m.clock + 1 } else m

/-! ### A write that waits through a halt (R379) -/

/-- A halted group whose word waits for reserve space that has come free. -/
def State.mayFinish (s : State) (c k : Nat) : Bool :=
  (s.m.group c k).halted && (match (s.m.group c k).status with
    | .parked (.reserve pg _) => !s.m.noRoom pg
    | _ => false)

/-- The word is performed; the group stays halted, at its next word. -/
def State.finish (s : State) (c k : Nat) : Host.Outcome State Fault Refusal :=
  State.runNext (State.at_ { s with m := s.m.setGroup c k { (s.m.group c k) with status := .pending, unready := false } } c k) c k

/-! ### The clocks -/

/-- Queued tasks wait while their context runs (R310, R315). -/
def Mach.ageTasks (m : Mach) (dt : Nat) : Mach :=
  let age (p : Nat) (t : Task) : Task := if m.ctxRuns p (m.inst t.inst).ctx then { t with waited := t.waited + dt } else t
  let ages (p : Nat) (x : Part) : Part := { x with queues := tmap [] (fun _ q => q.map (age p)) x.queues, persQ := x.persQ.map (age p) }
  { m with parts := tmap Part.reset ages m.parts }

/-- Cores that hold a group of a region. -/
def Mach.heldCores (m : Mach) (i : Nat) : List Nat :=
  (m.cores.filter (fun kc => kc.2.groups.any (fun g => g.2.team != 0 && (m.team g.2.team).inst == i))).map (·.1)

/-- Core-cycles that the regions spend, in sixteenths: only cycles in which a core may issue count (R252, R308, R406). -/
def Mach.spendAll (m : Mach) (f : Firm) (dt : Nat) : Mach :=
  { m with insts := tmap Inst.none (fun i x =>
      if m.ctxRuns x.part x.ctx then { x with spent := x.spent + dt * ((m.heldCores i).map (fun c => f.dutyOf (dieOf c))).sum } else x) m.insts }

/-- The end of a cycle: the policies that its gang kills ask for are applied (R408), and its events go to the error logs (R398). -/
def Mach.endCycle (m : Mach) : Mach :=
  let m := m.parts.foldl (fun m kp => if kp.2.policies.isEmpty then m else m.applyPolicies kp.1) m
  if m.events.isEmpty then m else m.writeEvents

/-- The cycle leaves neither a policy nor an event for its end. -/
def Mach.cyclePlain (m : Mach) : Bool := m.events.isEmpty && m.parts.all (fun kp => kp.2.policies.isEmpty)

/-- Time passes: `%clock`, the model's own counter, waiting tasks and budgets. -/
def State.pass (s : State) (dt : Nat) : State :=
  let m := if s.m.cyclePlain || dt == 0 then s.m else s.m.endCycle
  let m := (m.ageTasks dt).spendAll s.fw dt
  { s with m := { m with clock := m.clock + dt, tick := m.tick + 1 } }

/-! ### Turns -/

/-- The machine as a group of core `c` comes to issue: groups due to leave have left and the core's places are filled; where the core has issued
its two words of this cycle, or one of this group, in the next cycle, in which its groups stand as it finds them (R250, R251). -/
def State.coming (s : State) (c k : Nat) : State :=
  let s := s.prepare c
  if s.m.cycleFull c k then (s.fillAll.pass 1).observeAll.prepare c else s

/-- A group's turn: it issues if it comes first. -/
def State.issueTurn (s : State) (c k : Nat) (late : Bool) : Host.Outcome State Fault Refusal :=
  if s.mayFinish c k then s.finish c k
  else
    let s := s.coming c k
    if s.mayIssue c k then
      let s := s.at_ c k
      match ({ s with m := { s.m with late := late } }).runNext c k with
      | .next t => .next { t with m := { s.issued t.m c k with late := false } }
      | r => r
    else .next s

/-- With nothing on the agenda, the lowest core that has a group with a word to run takes its turn. -/
def State.idleTurn (s : State) : Option (Nat × Nat) :=
  s.m.cores.findSome? (fun kc =>
    let t := s.prepare kc.1
    (t.m.choose kc.1 (fun k => !t.noWord kc.1 k)).bind (fun k => if decide (0 < s.fw.dutyOf (dieOf kc.1)) then some (kc.1, k) else none))

/-- A line that an L1 replaces: an unpinned line, written back first (R26, R187). -/
def Mach.evictLine (m : Mach) (c ln : Nat) : Mach :=
  match (m.core c).line? ln with
  | none => m
  | some x =>
    if x.pinned then m
    else match m.writeBack c ln with
      | some m => m.modCore c (fun k => k.dropLine ln)
      | none => m.stallLines c [ln]

/-- Invalidations of a clean line are slow to reach the core from now on (R285). -/
def Mach.lagLine (m : Mach) (c ln : Nat) : Mach :=
  m.modCore c (fun k => { k with l1 := k.l1.map (fun x => if x.line = ln then { x with lag := true } else x) })

/-- A fixed-latency result that the group's next word reads is ready only `n` cycles from now (R65). -/
def Mach.busyFor (m : Mach) (c k n : Nat) : Mach :=
  if (m.group c k).isActive || (m.group c k).isPending then m.setGroup c k { m.group c k with busyUntil := m.clock + n } else m

/-- A single error corrected in on-die storage of a slice is logged (R387, R396). -/
def Mach.sramCorrected (m : Mach) (slice unit : Nat) : Mach :=
  match m.partOf slice with
  | some p => m.logEvent p 2 slice unit 0 0xFFFF 0 0
  | none => m

/-- The two resets run on a part that has stopped (R403). -/
def isReset : Instr → Bool
  | .coldReset .. | .warmReset .. => true
  | _ => false

def Turn.isReset : Turn → Bool
  | .event i => Sys2Proof.Machine.isReset i
  | _ => false

/-- A rotation finds the free places filled (R251). -/
def State.ready (s : State) : Instr → State
  | .activeSetRotation c _ => { s with m := s.m.fillActive c }
  | _ => s

/-- What a turn other than a group's does. -/
def State.other (s : State) : Turn → Host.Outcome State Fault Refusal
  | .event i => if isStep i then exec i (s.ready i) else .next s
  | .farWrite key b => .next { s with m := { s.m with far := tset 0 s.m.far key b } }
  | .imageWrite core pa bs => .next { s with m := s.m.imageWrite core pa bs }
  | .portRetry port ok => .next { s with m := s.m.portRetry port ok }
  | .symbols sector n => .next { s with m := { s.m with symErr := tset 0 s.m.symErr sector n } }
  | .evict c ln => .next { s with m := s.m.evictLine c ln }
  | .lag c ln => .next { s with m := s.m.lagLine c ln }
  | .busy c k n => .next { s with m := s.m.busyFor c k n }
  | .sramCorrected k u => .next { s with m := s.m.sramCorrected k u }
  | _ => .next s

/-- The steps before which no store need have entered its L1: results that return, with the loads and atomics that perform late, groups that wake or
change places, and what happens at the homes of sites (R140, R270, R410). -/
def leavesStores : Instr → Bool
  | .longLatencyReturn .. | .groupUnpark .. | .sleepExpiry .. | .activeSetRotation .. | .reconvergenceJoin .. | .siteUpdateAtHome ..
  | .siteResolve .. | .siteCacheFill .. | .siteCountFlush .. => true
  | _ => false

/-- A turn before which no store of a core need have entered its L1. -/
def Turn.leavesStores : Turn → Bool
  | .event i => Sys2Proof.Machine.leavesStores i
  | .busy .. | .lag .. | .farWrite .. | .portRetry .. | .sramCorrected .. => true
  | _ => false

/-- What a turn of the agenda does; before others, every store of a core has entered its L1 as far as it can. -/
def State.take (s : State) : Turn → Host.Outcome State Fault Refusal
  | .issue c k => s.issueTurn c k false
  | .issueLate c k => s.issueTurn c k true
  | t => State.other (if t.leavesStores then s else { s with m := s.m.settleAll }) t

/-! ### What goes on by itself after a turn -/

/-- Nothing of the partition waits to go on. -/
def Part.atEase (x : Part) : Bool :=
  x.stalled.isEmpty && x.ownWaits.isEmpty && x.removals.isEmpty && x.syncs.isEmpty && x.drheld.isEmpty && x.inAtoms.isEmpty

/-- Writes of the part that wait, removals, held appends and inbound atomics go on as far as they can (R202, R353, R354, R357, R360, R367). -/
def Mach.proceedPart (m : Mach) (p : Nat) : Mach :=
  (((((m.retryStalled p).proceedRemovals p).proceedSyncs p).proceedRing p).proceedOwn p).retryAtoms p

def Mach.proceed (m : Mach) : Mach := m.parts.foldl (fun m kp => if kp.2.atEase then m else m.proceedPart kp.1) m

def Turn.cycles : Turn → Nat
  | .tick n => n
  | _ => 0

def State.after (s : State) (t : Turn) : State :=
  ({ s with m := s.m.proceed }).observeAll.fillAll.pass (Config.elapsed s.m.tick + t.cycles)

/-- The turn that comes next, and the machine with it taken off the agenda. -/
def State.nextTurn (s : State) : Turn × State :=
  match s.agenda with
  | t :: rest => (t, { s with agenda := rest })
  | [] => match s.idleTurn with
    | some (c, k) => (.issue c k, s)
    | none => (.tick 1, s)

/-- One turn and the time it takes. -/
def State.turn (s : State) (t : Turn) : Host.Outcome State Fault Refusal :=
  if s.fw.stopped && !t.isReset then .fault .partStopped
  else match s.take t with
    | .next s' => .next (s'.after t)
    | .fault f => .fault f
    | .refused r => .refused r

end Sys2Proof.Machine
end

