-- ==== Sys2Proof/Machine/Placed.lean ====
section
/-! DEFINITION. A program placed from outside (log 11): what stands between a reset and a program's first word is a loader and a
launch, and this is the machine that they leave: partition 0 with one context, one region of one team of one group on core 0,
and one word of code at word address 0, which the group fetches next. -/

namespace Sys2Proof.Machine

/-- 256 vector registers, one slot, four banks, 64 KiB of scratchpad (R22). -/
def placedPool : W32 := 0x0080101F#32

def placedContext : Context := { Context.reset with valid := true, banks := 1, root := 0x8000000000100000#64 }

/-- Its module: one code word, every site index. -/
def placedDesc : Desc := { cb := 0, cl := 1, st := 0x200000, v := true, osc := 3, ns := 65536, mepoch := 1, sigcheck := false, wit := 0, mem := [] }

def placedPart : Part :=
  { Part.reset with v := true, eng := 4, size := 1, ctxs := [(0, placedContext)], descs := [(0, placedDesc)], running := some 0, accepted := 1,
                    fds := [(0, { FaultDom.reset with v := true })] }

def placedInst : Inst :=
  { Inst.none with num := 1, state := .running, grid := 1, groups := 1, priv := true, pool := placedPool, depth := 1, placed := 1 }

def placedTeam : Team := { Team.none with inst := 1, groups := 1, pool := placedPool, ended := false }

def placedGroup (now : Nat) : Group := { Group.start with team := 1, status := .active, readyAge := now, since := now }

/-- The site of the word, in the core's site cache. -/
def placedSites (w : BitVec 128) : List SiteLine :=
  match (decode w).bind siteOf with
  | some n => [{ part := 0, ctx := 0, desc := 0, site := n, lo := 0x0000000100000000#64, version := 0, xd := 0, fd := 0 }]
  | none => []

def placedCore (now : Nat) (w : BitVec 128) : Core :=
  { Core.reset with pool := placedPool, teams := [(0, 1)], groups := [(0, placedGroup now)], sites := placedSites w }

/-- The page table: two levels of pointers and a 1 GiB leaf that maps code, the word at address 0. -/
def placedBytes (home : BitVec 6) (w : BitVec 128) : List (Nat × Byte) :=
  cells 0 (bytesOf 16 w.toNat) ++ cells 0x100000 (bytesOf 8 0x101001) ++ cells 0x101000 (bytesOf 8 0x102001) ++
    cells 0x102000 (bytesOf 8 (0x29 + home.toNat * 2 ^ 58))

/-- The sectors that these bytes lie in are whole. -/
def placedSector (s : Nat) : Bool := s == 0 || s == 0x8000 || s == 0x8080 || s == 0x8100

def placed (s : State) (w : BitVec 128) : State :=
  let m := ((placedBytes s.m.partno w).foldl (fun (m : Mach) b => m.pokeByte b.1 b.2) s.m).flush (fun a => decide (a < 0x200000))
  { fw := { s.fw with stopped := false, duty := tset 16 s.fw.duty 0 16, dutyCap := tset 16 s.fw.dutyCap 0 16 },
    m := { m with cur := (0, 0), nextId := max m.nextId 2, cores := [(0, placedCore m.clock w)], teams := [(1, placedTeam)],
                  insts := [(1, placedInst)],
                  parts := [(0, placedPart)], lends := [], poison := m.poison.filter (fun x => !placedSector x),
                  symErr := m.symErr.filter (fun x => !placedSector x.1), stackTrip := tset false m.stackTrip 0 false, images := [(3, some 0)] },
    agenda := [] }

end Sys2Proof.Machine
end

