-- ==== Sys2Proof/Machine/Step.lean ====
section
/-! DEFINITION. One step of the part, and a word placed where the next step fetches. -/

namespace Sys2Proof.Machine

def step (s : State) : Host.Outcome State Fault Refusal := s.nextTurn.2.turn s.nextTurn.1

def State.withFetchWord (s : State) (_nbits w : Nat) : State := placed s (BitVec.ofNat 128 w)

end Sys2Proof.Machine
end

