-- ==== Sys2Proof/Safety.lean ====
section
/-! DEFINITION. What claims mean by a safe machine: the states in which it keeps its own promises, and runs that never stop. -/

namespace Sys2Proof.Machine

/-- The firmware's registers keep their limits: PKGCAP within 1,200 W to 2,600 W (R404), power duties from 2 to 16 (R404), thermal duties at most 16
(R405), and no leaf beyond the 2^20 signatures (R402). -/
def Firm.Ok (f : Firm) : Prop :=
  1200 ≤ f.pkgcap ∧ f.pkgcap ≤ 2600 ∧ f.leaf ≤ 2 ^ 20 ∧ ∀ d, 2 ≤ tget 16 f.duty d ∧ tget 16 f.duty d ≤ 16 ∧ tget 16 f.dutyCap d ≤ 16

/-- The part runs: it has not stopped in its boot (R401). -/
def State.Runs (s : State) : Prop := s.fw.stopped = false

/-- The canonical form of a memory: addresses strictly rising, and no entry equal to what an unlisted address reads as, which is 0
(R403). -/
def Memory.wf (t : Tab Byte) : Bool := Tab.wf 0 t

/-- Device memory, the bytes that caches hold over it, and memory outside the part are in their canonical forms. -/
def Mach.MemOk (m : Mach) : Prop :=
  Memory.wf m.dram = true ∧ Memory.wf m.far = true ∧ (m.cached.map (·.1)).Pairwise (· < ·) ∧ ∀ x ∈ m.cached, x.2 ≠ tget 0 m.dram x.1

end Sys2Proof.Machine
end

