-- ==== Sys2Proof/Certificates/Slice0/Obligations.lean ====
section
/-! DEFINITION. The statements for the provers, from the numbered rules of spec/. A statement that a word completes gives the
exact next state: the word's effect, and `Mach.goOn`, which is sequencing (R66, R67); NextWord, Branches, CallsAndReturns and
EndRetires say what sequencing does for every next-address selector. -/

namespace Sys2Proof.Claims
open Sys2Proof Sys2Proof.Machine

/-- Nothing keeps the word from issuing (R65, R259, R262, R361), and no cause that is judged of every word holds (R13, R71, R74, R78). -/
structure Issues (m : Mach) (i : Instr) (h : Hdr) : Prop where
  free : m.blocked i h = none
  static : m.staticTrap i = none
  calls : m.me.callTrap h.nas = none
  retire : m.me.retireTrap = none

/-- The word answers a next state: `m'` is the machine after its effect, and the group goes on from there. -/
def Does (s : State) (i : Instr) (h : Hdr) (m' : Mach) : Prop := exec i s = .next { s with m := s.m.goOn m' i h }

/-- A word whose effect rewrites its own group by `f`, its bits hashed into SIG first (R137). -/
def Rewrites (s : State) (i : Instr) (h : Hdr) (f : Group → Group) : Prop :=
  Issues s.m i h → Does s i h ((s.m.hash i).modMe f)

/-- A generic word: its site's entry is in the core's site cache, and the site is touched before the effect (R320). -/
def RewritesAt (s : State) (i : Instr) (h : Hdr) (n : BitVec 16) (attr : Mach → BitVec 16) (guard : Mach → BitVec 16 → Bool)
    (f : Group → Group) : Prop :=
  Issues s.m i h → s.m.siteWait n.toNat = none →
    Does s i h (((s.m.hash i).touchSite n.toNat (attr (s.m.hash i)) (guard (s.m.hash i))).modMe f)

/-- A group-wide word over its effect: `e` when an active lane's guard holds, else nothing (R64). -/
def Wide (s : State) (i : Instr) (h : Hdr) (e : Mach → Mach) : Prop :=
  Issues s.m i h → Does s i h (if s.m.performs h then e (s.m.hash i) else s.m.hash i)

/-- A group-wide word whose conditions hold when it performs; when no active lane's guard holds it does nothing (R64). -/
def When (s : State) (i : Instr) (h : Hdr) (cond : Prop) (e : Mach → Mach) : Prop :=
  Issues s.m i h → (s.m.performs h = true → cond) → Does s i h (if s.m.performs h then e (s.m.hash i) else s.m.hash i)

/-- The steps that write the firmware's own state (R401 to R405). -/
def firmStep : Instr → Bool
  | .coldReset .. | .warmReset .. | .partitionCreate .. | .attestationReport .. | .powerArbiterStep .. | .pkgcapWrite .. | .thermalAction .. => true
  | _ => false

/-- What a group holds beside the registers, the pc, SIG and the results outstanding. -/
def rest (g : Group) : Group := { g with v := [], s := [], p := [], pc := 0, sig := 0, outs := [] }

/-- The frame of a word that rewrites registers: only the current group changes, in the vector registers `v` and the predicates `p` in
performing lanes, and the scalar registers `sr`; its pc moves on, and results outstanding stay outstanding. -/
def Framed (s : State) (i : Instr) (h : Hdr) (v sr p : List Nat) : Prop :=
  Issues s.m i h → h.nas = .seq → s.m.me.status ≠ .ended →
    ∃ g, exec i s = .next { s with m := s.m.setMe g } ∧ g.pc = s.m.me.pc + 1 ∧ rest g = rest s.m.me ∧
      g.outs.map (·.id) = s.m.me.outs.map (·.id) ∧
      (∀ r l, l < 64 → (r ∉ v ∨ bitAt (s.m.me.perf s.m.tick h) l = false) → tget 0 g.v (64 * r + l) = tget 0 s.m.me.v (64 * r + l)) ∧
      (∀ r, r ∉ sr → tget 0 g.s r = tget 0 s.m.me.s r) ∧
      (∀ r l, l < 64 → (r ∉ p ∨ bitAt (s.m.me.perf s.m.tick h) l = false) → bitAt (tget 0 g.p r) l = bitAt (tget 0 s.m.me.p r) l)

/-- The registers that a destination names. -/
def dV (w : Bool) : Dst → List Nat
  | .v r => if w then [r.toNat, r.toNat + 1] else [r.toNat]
  | .s _ => []
def dS : Dst → List Nat
  | .v _ => []
  | .s r => [r.toNat]
def rV (w : Bool) (r : V) : List Nat := if w then [r.toNat, r.toNat + 1] else [r.toNat]

/-- Bytes of the scratchpad that a pointer of the issuing team's own space names (R29). -/
def padKey (m : Mach) (p : Ptr) : Nat := spKey (m.myTeam.slotOn m.cur.1) (fld p.val 0 32).toNat
def padBytes (m : Mach) (p : Ptr) (n : Nat) : List Byte := (List.range n).map (fun i => tget 0 (m.core m.cur.1).sp (padKey m p + i))

/-- An access of `n` bytes, aligned, inside the issuing team's own scratchpad (R29, R175). -/
def ownPad (m : Mach) (p : Ptr) (n : Nat) : Bool :=
  p.ok && fld p.val 60 4 == 1 && fld p.val 32 28 == 0 && decide ((fld p.val 0 32).toNat + n ≤ spSize m.myTeam.pool) &&
    decide (p.val.toNat % n = 0)

/-- Bytes laid into a table at consecutive keys. -/
def laid (t : Tab Byte) (key : Nat) (bs : List Byte) : Tab Byte := bs.zipIdx.foldl (fun t b => tset 0 t (key + b.2) b.1) t

/-- Every memory but the scratchpads holds what it held. -/
def SameDevice (m m' : Mach) : Prop := m'.dram = m.dram ∧ m'.cached = m.cached ∧ m'.far = m.far ∧ ∀ c, (m'.core c).l1 = (m.core c).l1

/-- A load has left `ws` among the results outstanding and changed no register and no byte of memory (R177, R258). -/
def Loaded (m m' : Mach) (ws : List PWrite) : Prop :=
  (∃ id, m'.me.outs = m.me.outs ++ [{ id := id, pc := m.me.pc, writes := ws, ready := true, stamp := none }]) ∧
    m'.me.v = m.me.v ∧ m'.me.s = m.me.s ∧ m'.me.p = m.me.p ∧ SameDevice m m' ∧ ∀ c, (m'.core c).sp = (m.core c).sp

/-- A store has laid `ws` into the own core's scratchpad, taken number `q` of epoch `e`, and changed no other byte (R185, R186). -/
def Stored (m m' : Mach) (ws : List (Nat × List Byte)) (q : BitVec 19) : Prop :=
  SameDevice m m' ∧ (m'.core m.cur.1).seq = q + 1 ∧
    (∀ c, (m'.core c).sp = if c = m.cur.1 then ws.foldl (fun t w => laid t w.1 w.2) (m.core c).sp else (m.core c).sp)

/-- The core may take its next store sequence number (R185, R244), and no load of the group at another part is outstanding (R186). -/
def MayStore (m : Mach) (q : BitVec 19) (e : BitVec 24) : Prop :=
  (m.part m.myPart).ep.snapHolds m.cur.1 e = false ∧ (m.core m.cur.1).taken < 2 ^ 18 - 1 ∧ m.awayLoads m.view = false ∧
    q = (m.core m.cur.1).seq ∧ e = (m.core m.cur.1).epoch

/-- One atomic on the scratchpad after another: the table as it becomes and the old bytes (R194, R196). -/
def padAtomics (n : Nat) : List (Nat × (W64 → W64)) → Tab Byte → Tab Byte × List (List Byte)
  | [], t => (t, [])
  | (key, f) :: l, t =>
    let old := (List.range n).map (fun i => tget 0 t (key + i))
    let r := padAtomics n l (laid t key (bytesOf n (f (BitVec.ofNat 64 (natOf old))).toNat))
    (r.1, old :: r.2)

/-- The lanes that perform. -/
def lanes (s : State) (h : Hdr) : List Nat := lanesOf (s.m.me.perf s.m.tick h)

/-- The machine as a group of core `c` comes to issue: groups due to leave have left, the core's places are filled, and the next cycle has
begun, its groups judged anew, where the core has issued its two words of this one (R250, R251). -/
def atIssue (s : State) (c k : Nat) : State := (s.coming c k).at_ c k

/-- No store of the issuing core is on its way into its L1 (R270). -/
def Settled (m : Mach) : Prop := (m.core m.cur.1).sbuf = []

/-- A group that wakes: pending, and ready as of now (R248, R250). -/
def Woken (m : Mach) (g : Group) : Group := { g with status := .pending, readyAge := m.clock, readyTick := m.tick, unready := false }

/-- Lines that `inv` or `wb` names can go home: none waits for reserve space (R367), and no close holds one that must go on to DRAM (R278). -/
def CanClean (m : Mach) (h : Hdr) (ad : Addr) (lns : List Nat) (dram : Bool) : Prop :=
  m.linesNamed m.view h ad = .ok lns ∧ ∃ y, m.cleanNamed m.view h ad lns = some y ∧
    (dram = true → ∀ ln ∈ lns, y.heldFrom m.myPart m.cur.1 ln = false)

/-- A step of the part that may happen now has effect `m'`. -/
def Steps (s : State) (i : Instr) (m' : Mach) : Prop := exec i s = .next { s with m := m' }

end Sys2Proof.Claims

open Sys2Proof Sys2Proof.Machine Sys2Proof.Claims

/-! ### Encoding -/

/-- R60 to R63, R71, R72: the encoder drops no operand of a well-formed word. -/
def Obligations.RoundTrip : Prop := ∀ i, wellFormed i = true → decode (encode i) = some i

/-- R75: what the decoder accepts is well formed, and every bit of the word is accounted for. -/
def Obligations.DecodeExact : Prop := ∀ w i, decode w = some i → wellFormed i = true ∧ isStep i = false ∧ encode i = w

/-- Words that the spec writes out (R63, R72, R203, R219, R228). -/
def Obligations.SpecWords : Prop :=
  decode 0x0000000000000080_00000000100010E0#128 =
    some (.mmp ⟨false, false, ⟨false, 0⟩, .seq⟩ 0 1 0 1 128) ∧
  decode 0x0000000900000040_00000000302001E0#128 =
    some (.mmpG ⟨false, false, ⟨false, 0⟩, .seq⟩ 9 0 2 3 64) ∧
  decode 0xBFFFFFFB00000000_000AA00000000000#128 = some (.nop ⟨false, false, ⟨true, 2⟩, .iff (-5) ⟨true, 3⟩ true⟩) ∧
  decode 0x0000000700000000_0006000000000000#128 = some (.nop ⟨false, false, ⟨false, 0⟩, .jumpi 7⟩)

/-! ### One step -/

/-- R70, R250, R75: on a turn of a group that comes first, the word fetched at its pc is executed on the machine as the fetch left it, and
then time passes; a word that may not run ahead of the stores of its core waits for them (R270). The word is the 16 bytes at the pc's
executable page of device memory when the core holds no word for that address; bytes that are no instruction take cause 0x01 (R75, R76).
Clauses that are the model's choice and no rule's: the agenda and the passing of time (log 1), the turn that leaves a load in flight (log 2), the word
that a core holds after it was fetched (DEDUCED, log 6), DETAIL of cause 0x01 (`illegalDetail`: DEDUCED for `fmtset`, log 16, and DESIGN CHOICE
elsewhere, log 96), and that bytes which decode to nothing trap at once, results outstanding or not (DESIGN CHOICE, log 86). -/
def Obligations.StepRunsDecoded : Prop :=
  (∀ (s s0 : State) c k late, let turn := if late then Turn.issueLate c k else Turn.issue c k
    let r := atIssue s0 c k
    let q : State := { r with m := { r.m with late := late } }
    let ends (t : State) : State := ({ t with m := { r.issued t.m c k with late := false } }).after turn
    s.nextTurn = (turn, s0) → s.fw.stopped = false → s0.mayFinish c k = false → State.mayIssue (s0.coming c k) c k = true →
    (∀ m i m1, q.m.nextOf c k = .issue m i →
      (((runsAhead i = true ∨ (m.core c).sbuf = []) ∧ m1 = m) ∨
        (runsAhead i = false ∧ (m.core c).sbuf ≠ [] ∧ m1 = m.settleCore c ∧ (m1.core c).sbuf = [])) →
      step s = (match exec i { q with m := m1 } with
        | .next t => .next (ends t)
        | .fault f => .fault f
        | .refused r => .refused r)) ∧
    (∀ m i, q.m.nextOf c k = .issue m i → runsAhead i = false → (m.core c).sbuf ≠ [] → ((m.settleCore c).core c).sbuf ≠ [] →
      step s = .next (ends { q with m := m.settleCore c })) ∧
    (∀ m t, q.m.nextOf c k = .trap m t → step s = .next (ends { q with m := takeTrap m c k (q.m.group c k).pc t }))) ∧
  (∀ (m : Mach) c k e w, let g := m.group c k
    let t := m.team g.team
    let va := 16 * g.pc.toNat
    let pa := leafBase e.leaf + va % e.size
    let y := m.cacheTlb c e
    let x := (y.reachHome (y.reachOf t.part t.ctx pa e 0) (lineOf pa) []).readBytes pa 16
    fld g.pc 53 11 = 0 → m.translate c t.part t.ctx va false = some e → leafX e.leaf = true → leafHost e.leaf = false →
    leafHome e.leaf = m.partno → badPa pa = false → y.keptFrom c (lineOf pa) = none →
    (y.core c).ibuf.find? (fun x => x.1 == t.part && x.2.1 == t.ctx && x.2.2.1 == va) = none → x.heldFrom t.part c (lineOf pa) = false →
    x.poisonedAt c pa 16 = false → wordOf (x.codeBytes c pa) = w → (joinBit w && g.atJoin) = false →
    (∀ i, decode w = some i → m.nextOf c k = .issue (x.holdWord c t.part t.ctx va w) i) ∧
    (decode w = none → m.nextOf c k = .trap (x.holdWord c t.part t.ctx va w) { cause := 1, lanes := g.xm, detail := illegalDetail w }))

/-- R401: a part that has stopped in its boot does nothing but be reset, whatever turn comes next. -/
def Obligations.StoppedPart : Prop :=
  ∀ (s : State), s.fw.stopped = true →
    (s.nextTurn.1.isReset = false → step s = .fault .partStopped) ∧ (s.nextTurn.1.isReset = true → ∃ t', step s = .next t')

/-! ### The firmware's registers (R401 to R405) -/

/-- At reset the firmware's registers are within their limits. -/
def Obligations.ResetKeepsLimits : Prop := Firm.Ok State.reset.fw

/-- Every step keeps PKGCAP, the leaf index and the duties within their limits, a power duty between 2 and 16 (R404). -/
def Obligations.StepKeepsFirm : Prop := ∀ s s', Firm.Ok s.fw → step s = .next s' → Firm.Ok s'.fw

/-- R397 to R400: no word, and no step but the firmware's own, changes the firmware's state; none changes what is to come next. -/
def Obligations.OnlyFirmwareChangesFirm : Prop :=
  ∀ i s t, exec i s = .next t → (firmStep i = false → t.fw = s.fw) ∧ t.agenda = s.agenda

/-- R402: no step of any kind makes the leaf index smaller. -/
def Obligations.LeafNeverFalls : Prop := ∀ s s', step s = .next s' → s.fw.leaf ≤ s'.fw.leaf

/-! ### Registers -/

/-- R12: s0 reads as zero and p0 as one in every lane, and writes to either are discarded. -/
def Obligations.HardWired : Prop :=
  ∀ (g : Group) t x lanes, g.rdS t 0 = 0 ∧ g.putS 0 x = g ∧ g.rdP t 0 = BitVec.allOnes 64 ∧ g.putP 0 lanes x = g

/-- R64, R13: a vector result reaches each performing lane of its register, or of its pair, and nothing else. -/
def Obligations.VectorResults : Prop :=
  ∀ (g : Group) lanes w r f k, k < 64 * 256 →
    tget 0 (g.vecResult lanes w r f).v k =
      if k / 64 = r ∧ bitAt lanes (k % 64) then fld (f (k % 64)) 0 32
      else if w ∧ k / 64 = r + 1 ∧ bitAt lanes (k % 64) then fld (f (k % 64)) 32 32
      else tget 0 g.v k

/-- R102: a scalar-pipe result is written once when a lane performs, 32-bit results extended by signedness; s0 discards it. -/
def Obligations.ScalarResults : Prop :=
  ∀ (g : Group) lanes w sx (r : S) f k,
    tget 0 (g.result lanes w sx (.s r) f).s k =
      if lanes ≠ 0 ∧ r ≠ 0 ∧ k = r.toNat then
        (if w then f 0 else if sx then ((f 0).setWidth 32).signExtend 64 else ((f 0).setWidth 32).setWidth 64)
      else tget 0 g.s k

/-- The integer words change their destinations and nothing else (R64, R104). -/
def Obligations.IntegerFrame : Prop :=
  ∀ s h m d a b c bw w (e : V) q zx sh,
    Framed s (.add h m d a b) h (dV m.w d) (dS d) [] ∧ Framed s (.sub h m d a b) h (dV m.w d) (dS d) [] ∧
    Framed s (.mul h m d a b) h (dV m.w d) (dS d) [] ∧ Framed s (.mulhi h m d a b) h (dV m.w d) (dS d) [] ∧
    Framed s (.mad h m d a b c) h (dV m.w d) (dS d) [] ∧ Framed s (.madhi h m d a b c) h (dV m.w d) (dS d) [] ∧
    Framed s (.div h m d a b) h (dV m.w d) (dS d) [] ∧ Framed s (.rem h m d a b) h (dV m.w d) (dS d) [] ∧
    Framed s (.min h m d a b) h (dV m.w d) (dS d) [] ∧ Framed s (.max h m d a b) h (dV m.w d) (dS d) [] ∧
    Framed s (.abs h m d a) h (dV m.w d) (dS d) [] ∧ Framed s (.neg h m d a) h (dV m.w d) (dS d) [] ∧
    Framed s (.sad h m d a b c) h (dV m.w d) (dS d) [] ∧ Framed s (.clamp h m d a b c) h (dV m.w d) (dS d) [] ∧
    Framed s (.lea h zx sh d a b) h (dV true d) (dS d) [] ∧ Framed s (.addc h bw w e a b q) h (rV w e) [] [q.toNat]

/-- The logic, move and compare words change their destinations and nothing else (R64, R109, R114, R122). -/
def Obligations.LogicFrame : Prop :=
  ∀ s h w d a b c sx tt (e x : V) (q p p2 : P) (r : S) imm k kf m vf y sp pk tk ln ps kb (tb : Q),
    Framed s (.and h w d a b) h (dV w d) (dS d) [] ∧ Framed s (.or h w d a b) h (dV w d) (dS d) [] ∧
    Framed s (.xor h w d a b) h (dV w d) (dS d) [] ∧ Framed s (.not h w d a) h (dV w d) (dS d) [] ∧
    Framed s (.shl h w d a b) h (dV w d) (dS d) [] ∧ Framed s (.shr h w d a b) h (dV w d) (dS d) [] ∧
    Framed s (.sar h w d a b) h (dV w d) (dS d) [] ∧ Framed s (.rot h w d a b) h (dV w d) (dS d) [] ∧
    Framed s (.bfx h sx w d a b) h (dV w d) (dS d) [] ∧ Framed s (.bfi h w d a b c) h (dV w d) (dS d) [] ∧
    Framed s (.popc h w d a) h (dV w d) (dS d) [] ∧ Framed s (.clz h w d a) h (dV w d) (dS d) [] ∧
    Framed s (.brev h w d a) h (dV w d) (dS d) [] ∧ Framed s (.lop3 h w d a b c tt) h (dV w d) (dS d) [] ∧
    Framed s (.sel h w e a b q) h (rV w e) [] [] ∧ Framed s (.perm h d a b c) h (dV false d) (dS d) [] ∧
    Framed s (.cmp h k m y sp q a b) h [] [] [q.toNat] ∧ Framed s (.fcmp h kf vf y sp q a b) h [] [] [q.toNat] ∧
    Framed s (.plog h pk q p p2) h [] [] [q.toNat] ∧ Framed s (.ptest h tk r q) h [] [r.toNat] [] ∧
    Framed s (.ballot h r q) h [] [r.toNat] [] ∧ Framed s (.elect h q p) h [] [] [q.toNat] ∧
    Framed s (.pset h q ps) h [] [] [q.toNat] ∧ Framed s (.mov h w d a) h (dV w d) (dS d) [] ∧
    Framed s (.movi h w d imm) h (dV w d) (dS d) [] ∧ Framed s (.movh h d imm) h (dV true d) (dS d) [] ∧
    Framed s (.bcast h w e x b) h (rV w e) [] [] ∧ Framed s (.vtos h w ln r x) h [] [r.toNat] [] ∧
    Framed s (.stov h w e r) h (rV w e) [] [] ∧ Framed s (.tbget h kb r tb) h [] [r.toNat] []

/-! ### Values -/

/-- R104, R103: the integer results as arithmetic on N-bit words; a saturating sum is clamped once to the type's range. -/
def Obligations.IntegerValues : Prop :=
  ∀ (un : Bool) (x y : W64),
    let m32 : IntMod := ⟨false, un, false⟩
    let m64 : IntMod := ⟨false, un, true⟩
    ifit m64 (ival m64 x + ival m64 y) = x + y ∧ ifit m64 (ival m64 x - ival m64 y) = x - y ∧
    ifit m64 (ival m64 x * ival m64 y) = x * y ∧
    ifit m32 (ival m32 x + ival m32 y) = (x.setWidth 32 + y.setWidth 32).setWidth 64 ∧
    ifit m32 (ival m32 x - ival m32 y) = (x.setWidth 32 - y.setWidth 32).setWidth 64 ∧
    ifit m32 (ival m32 x * ival m32 y) = (x.setWidth 32 * y.setWidth 32).setWidth 64 ∧
    (∀ (sa : IntMod), sa.sat = true →
      ival sa (ifit sa (ival sa x + ival sa y)) = max (ileast sa) (min (igreatest sa) (ival sa x + ival sa y)))

/-- R106: division never traps: it completes on every operand. Its corners, and the rule's worked values. -/
def Obligations.DivisionCorners : Prop :=
  (∀ s h m d a b, (Issues s.m (.div h m d a b) h → ∃ m', Does s (.div h m d a b) h m') ∧
    (Issues s.m (.rem h m d a b) h → ∃ m', Does s (.rem h m d a b) h m')) ∧
  (∀ (w : Bool) (x : W64),
    (∀ m : IntMod, m.w = w → m.un = true → iquot m (ival m x) 0 = 2 ^ nBits w - 1 ∧ irem (ival m x) 0 = ival m x) ∧
    (∀ m : IntMod, m.w = w → m.un = false → iquot m (ival m x) 0 = -1 ∧ irem (ival m x) 0 = ival m x ∧
      wrapN w (iquot m (-(2 ^ (nBits w - 1))) (-1)) = wrapN w (-(2 ^ (nBits w - 1))) ∧ irem (-(2 ^ (nBits w - 1))) (-1) = 0)) ∧
  (let i32 : IntMod := ⟨false, false, false⟩
   let u32 : IntMod := ⟨false, true, false⟩
   iquot i32 (-7) 2 = -3 ∧ irem (-7) 2 = -1 ∧ iquot i32 7 (-2) = -3 ∧ irem 7 (-2) = 1 ∧
   wrapN false (iquot u32 (ival u32 0xFFFFFFF9) 2) = 0x7FFFFFFC ∧ wrapN false (irem (ival u32 0xFFFFFFF9) 2) = 1)

/-- R110: the count of a shift is never reduced: at N or more it gives 0, for `sar` the sign; `rot` moves bit k to bit
k + count modulo N. -/
def Obligations.ShiftValues : Prop :=
  ∀ (x y : W64) (a : W32), let a' : W64 := a.setWidth 64
    (32 ≤ y.toNat → shlN false x y = 0 ∧ shrN false x y = 0 ∧ sarN false x y = (if bitAt x 31 then 0xFFFFFFFF#64 else 0)) ∧
    (64 ≤ y.toNat → shlN true x y = 0 ∧ shrN true x y = 0 ∧ sarN true x y = (if bitAt x 63 then BitVec.allOnes 64 else 0)) ∧
    (y.toNat < 32 → (shlN false a' y).toNat = a.toNat * 2 ^ y.toNat % 2 ^ 32 ∧ (shrN false a' y).toNat = a.toNat / 2 ^ y.toNat ∧
      fld (sarN false a' y) 32 32 = 0 ∧ (fld (sarN false a' y) 0 32).toInt = a.toInt / 2 ^ y.toNat) ∧
    (y.toNat < 64 → (shlN true x y).toNat = x.toNat * 2 ^ y.toNat % 2 ^ 64 ∧ (shrN true x y).toNat = x.toNat / 2 ^ y.toNat ∧
      (sarN true x y).toInt = x.toInt / 2 ^ y.toNat) ∧
    (∀ k < 64, bitAt (rotN true x y) ((k + y.toNat) % 64) = bitAt x k) ∧
    (∀ k < 32, bitAt (rotN false a' y) ((k + y.toNat) % 32) = bitAt a k) ∧ fld (rotN false a' y) 32 32 = 0

/-- R82: a fail witness stays; null is the identity, and of two nulls the second comes back; two witnesses of one core give the later one at the
larger scope code, two of one partition an epoch witness with every field fixed, and witnesses of two partitions do not merge unless one of them is
performed. A point witness whose core's slice belongs to no partition has origin partition 0 (the model's choice, log 79). -/
def Obligations.WitnessMerge : Prop :=
  ∀ (m : Mach) (a b : W64),
    (wKind a = 3 → wMerge m a b = a) ∧ (wKind a ≠ 3 → wKind b = 3 → wMerge m a b = b) ∧
    (wKind b = 0 → wKind a ≠ 0 → wMerge m a b = a) ∧ (wKind a = 0 → wMerge m a b = b) ∧
    (wKind a = 1 → wKind b = 1 → fld a 43 17 = fld b 43 17 →
      wKind (wMerge m a b) = 1 ∧ fld (wMerge m a b) 43 17 = fld a 43 17 ∧
      (wScope (wMerge m a b)).toNat = max (wScope a).toNat (wScope b).toNat ∧
      (wEpoch a = wEpoch b → wEpoch (wMerge m a b) = wEpoch a ∧
        wSeq (wMerge m a b) = if (wSeq a - wSeq b).toNat < 2 ^ 18 then wSeq a else wSeq b) ∧
      (wEpoch a ≠ wEpoch b → wEpoch (wMerge m a b) = epochLater (wEpoch a) (wEpoch b) ∧
        wSeq (wMerge m a b) = if epochLater (wEpoch a) (wEpoch b) = wEpoch a then wSeq a else wSeq b)) ∧
    (wKind a = 1 ∨ wKind a = 2 → wKind b = 1 ∨ wKind b = 2 → ¬ (wKind a = 1 ∧ wKind b = 1 ∧ fld a 43 17 = fld b 43 17) →
      (sameOrigin m a b = false →
        wMerge m a b = if performed b then a else if performed a then b else 0xC000000000000006#64) ∧
      (sameOrigin m a b = true →
        wKind (wMerge m a b) = 2 ∧ (wScope (wMerge m a b)).toNat = max (wScope a).toNat (wScope b).toNat ∧
        wPartno (wMerge m a b) = wPartno a ∧ fld (wMerge m a b) 50 4 = BitVec.ofNat 4 ((m.originPart a).getD 0) ∧
        fld (wMerge m a b) 24 26 = 0 ∧ wEpoch (wMerge m a b) = epochLater (wEpoch a) (wEpoch b)))

/-! ### The words complete: register words -/

/-- R103 to R108: every integer word over its operands, in each performing lane or once on the scalar pipe. -/
def Obligations.IntegerWords : Prop :=
  ∀ s h m d a b c bw w (e : V) (q : P) zx (sh : BitVec 3),
    let t := s.m.tick
    let op2 (f : Int → Int → Int) (g : Group) := g.op2 t h m.w (!m.un) d a b (fun x y => wrapN m.w (f (ival m x) (ival m y)))
    Rewrites s (.add h m d a b) h (fun g => g.op2 t h m.w (!m.un) d a b (fun x y => ifit m (ival m x + ival m y))) ∧
    Rewrites s (.sub h m d a b) h (fun g => g.op2 t h m.w (!m.un) d a b (fun x y => ifit m (ival m x - ival m y))) ∧
    Rewrites s (.mul h m d a b) h (fun g => g.op2 t h m.w (!m.un) d a b (fun x y => ifit m (ival m x * ival m y))) ∧
    Rewrites s (.mulhi h m d a b) h (op2 (fun x y => x * y / 2 ^ nBits m.w)) ∧
    Rewrites s (.mad h m d a b c) h (fun g => g.op3 t h m.w (!m.un) d a b c (fun x y z => ifit m (ival m x * ival m y + ival m z))) ∧
    Rewrites s (.madhi h m d a b c) h (fun g => g.op3 t h m.w (!m.un) d a b c (fun x y z =>
      wrapN m.w (ival m x * ival m y / 2 ^ nBits m.w + ival m z))) ∧
    Rewrites s (.div h m d a b) h (op2 (iquot m)) ∧
    Rewrites s (.rem h m d a b) h (op2 irem) ∧
    Rewrites s (.min h m d a b) h (op2 min) ∧
    Rewrites s (.max h m d a b) h (op2 max) ∧
    Rewrites s (.abs h m d a) h (fun g => g.op1 t h m.w (!m.un) d a (fun x => ifit m ((ival m x).natAbs : Int))) ∧
    Rewrites s (.neg h m d a) h (fun g => g.op1 t h m.w (!m.un) d a (fun x => ifit m (-(ival m x)))) ∧
    Rewrites s (.sad h m d a b c) h (fun g => g.op3 t h m.w (!m.un) d a b c (fun x y z =>
      wrapN m.w (((ival m x - ival m y).natAbs : Int) + ival m z))) ∧
    Rewrites s (.clamp h m d a b c) h (fun g => g.op3 t h m.w (!m.un) d a b c (fun x y z =>
      wrapN m.w (min (max (ival m x) (ival m y)) (ival m z)))) ∧
    Rewrites s (.lea h zx sh d a b) h (fun g => g.result (g.perf t h) true false d (fun l => g.src t true l a +
      ((if zx then (fld (g.src t false l b) 0 32).setWidth 64 else (fld (g.src t false l b) 0 32).signExtend 64) <<< sh.toNat))) ∧
    Rewrites s (.addc h bw w e a b q) h (fun g =>
      let sum (l : Nat) : Int := if bw then (g.src t w l a).toNat - (g.src t w l b).toNat - (if bitAt (g.rdP t q.toNat) l then 1 else 0)
        else (g.src t w l a).toNat + (g.src t w l b).toNat + (if bitAt (g.rdP t q.toNat) l then 1 else 0)
      (g.vecResult (g.perf t h) w e.toNat (fun l => wrapN w (sum l))).putP q.toNat (g.perf t h)
        (maskOf (fun l => if bw then decide (sum l < 0) else decide (2 ^ nBits w ≤ sum l))))

/-- R109 to R113: every logic word. -/
def Obligations.LogicWords : Prop :=
  ∀ s h w d a b c sx tt (e : V) (q : P),
    let t := s.m.tick
    let op1 (f : W64 → W64) (g : Group) := g.op1 t h w false d a f
    let op2 (f : W64 → W64 → W64) (g : Group) := g.op2 t h w false d a b f
    Rewrites s (.and h w d a b) h (op2 (· &&& ·)) ∧ Rewrites s (.or h w d a b) h (op2 (· ||| ·)) ∧
    Rewrites s (.xor h w d a b) h (op2 (· ^^^ ·)) ∧ Rewrites s (.not h w d a) h (op1 (fun x => lowN w (~~~x))) ∧
    Rewrites s (.shl h w d a b) h (op2 (shlN w)) ∧ Rewrites s (.shr h w d a b) h (op2 (shrN w)) ∧
    Rewrites s (.sar h w d a b) h (op2 (sarN w)) ∧ Rewrites s (.rot h w d a b) h (op2 (rotN w)) ∧
    Rewrites s (.bfx h sx w d a b) h (op2 (bfxN sx w)) ∧
    Rewrites s (.bfi h w d a b c) h (fun g => g.op3 t h w false d a b c (bfiN w)) ∧
    Rewrites s (.popc h w d a) h (op1 (fun x => BitVec.ofNat 64 (popcount x))) ∧ Rewrites s (.clz h w d a) h (op1 (clzN w)) ∧
    Rewrites s (.brev h w d a) h (op1 (brevN w)) ∧
    Rewrites s (.lop3 h w d a b c tt) h (fun g => g.op3 t h w false d a b c (lop3N w tt)) ∧
    Rewrites s (.sel h w e a b q) h (fun g => g.vecResult (g.perf t h) w e.toNat (fun l =>
      if bitAt (g.rdP t q.toNat) l then g.src t w l a else g.src t w l b)) ∧
    Rewrites s (.perm h d a b c) h (fun g => g.op3 t h false false d a b c permN)

/-- R114 to R121: every compare and mask word; `ucheck.t` completes where the lanes agree. -/
def Obligations.CompareWords : Prop :=
  ∀ s h k m x sp (d : P) a b kf f pk (pa pb : P) tk (r : S) ps w (v : V),
    let t := s.m.tick
    Rewrites s (.cmp h k m x sp d a b) h (fun g => g.cmpResult t h x sp d (fun l =>
      condHolds k (ival m (g.src t m.w l a)) (ival m (g.src t m.w l b)))) ∧
    Rewrites s (.fcmp h kf f x sp d a b) h (fun g => g.cmpResult t h x sp d (fun l =>
      fcondHolds kf (vfVal f (g.src t false l a)) (vfVal f (g.src t false l b)))) ∧
    Rewrites s (.plog h pk d pa pb) h (fun g => g.putP d.toNat (g.perf t h) (plogBits pk (g.rdP t pa.toNat) (g.rdP t pb.toNat))) ∧
    Rewrites s (.ptest h tk r pa) h (fun g => g.wideS t h r (ptestBits tk (g.perf t h) (g.perf t h &&& g.rdP t pa.toNat))) ∧
    Rewrites s (.ballot h r pa) h (fun g => g.wideS t h r (g.perf t h &&& g.rdP t pa.toNat)) ∧
    Rewrites s (.elect h d pa) h (fun g => g.putP d.toNat (g.perf t h) (lowestBit (g.perf t h &&& g.rdP t pa.toNat))) ∧
    Rewrites s (.pset h d ps) h (fun g => g.putP d.toNat (g.perf t h) (psetBits g t ps)) ∧
    Rewrites s (.ucheck h false w d v) h (fun g =>
      g.putP d.toNat g.xm (if g.differing t w v (g.perf t h) (g.perf t h) = 0 then BitVec.allOnes 64 else 0)) ∧
    (s.m.me.differing t w v (s.m.me.perf t h) (s.m.me.perf t h) = 0 → Rewrites s (.ucheck h true w d v) h id)

/-- R123 to R129: every move; `ldk` with its offset aligned and inside the 4 KiB. -/
def Obligations.MoveWords : Prop :=
  ∀ s h w d a b imm (e v : V) ln (r x : S) (off : W32) kb (q : Q),
    let t := s.m.tick
    let n := if w then 8 else 4
    Rewrites s (.mov h w d a) h (fun g => g.result (g.perf t h) (match d with | .v _ => w | .s _ => true) false d (fun l =>
      g.src t (match d with | .v _ => w | .s _ => true) l a)) ∧
    Rewrites s (.movi h w d imm) h (fun g => g.result (g.perf t h) w false d (fun _ => if w then imm.signExtend 64 else imm.setWidth 64)) ∧
    Rewrites s (.movh h (.v e) imm) h (fun g => g.writeV (g.perf t h) (e.toNat + 1) (fun _ => imm)) ∧
    Rewrites s (.movh h (.s r) imm) h (fun g => g.wideS t h r (imm ++ fld (g.rdS t r.toNat) 0 32)) ∧
    Rewrites s (.bcast h w e v b) h (fun g => g.vecResult (g.perf t h) w e.toNat (fun _ => g.vec t w v.toNat ((g.src t true 0 b).toNat % 64))) ∧
    Rewrites s (.vtos h w ln r v) h (fun g => match (match ln with | some l => some l.toNat | none => lowest (g.perf t h)) with
      | some l => g.wideS t h r (g.vec t w v.toNat l)
      | none => g) ∧
    Rewrites s (.stov h w e r) h (fun g => g.vecResult (g.perf t h) w e.toNat (fun _ => g.rdS t r.toNat)) ∧
    (off.toNat % n = 0 → off.toNat + n ≤ 4096 → Rewrites s (.ldk h w r off) h (fun g => g.wideS t h r
      (BitVec.ofNat 64 (natOf ((List.range n).map (fun i => tget 0 s.m.myInst.const (off.toNat + i))))))) ∧
    Wide s (.tbset h q x) h (fun m => m.modMe (fun g =>
      { g with tb := tset Tb.reset g.tb q.toNat { base := g.rdS t x.toNat, frame := 0, limit := 0, busy := true, leaf := none } })) ∧
    Rewrites s (.tbget h kb r q) h (fun g => g.wideS t h r (match kb with
      | .base => (tget Tb.reset g.tb q.toNat).base
      | .frame => (tget Tb.reset g.tb q.toNat).frame
      | .limit => (tget Tb.reset g.tb q.toNat).limit))

/-- R142 to R148: every native float word, each element computed once from the exact values of its operands. -/
def Obligations.FloatWords : Prop :=
  ∀ s h f r d a b c ks kr,
    let t := s.m.tick
    let op2 (o : Ffmt → Nat → Nat → Nat → Nat) (g : Group) := g.fop t h f d a b z0 o
    let op1 (o : Ffmt → Nat → Nat → Nat → Nat) (g : Group) := g.fop t h f d a z0 z0 o
    Rewrites s (.fadd h f r d a b) h (op2 (opAdd r)) ∧ Rewrites s (.fsub h f r d a b) h (op2 (opSub r)) ∧
    Rewrites s (.fmul h f r d a b) h (op2 (opMul r)) ∧ Rewrites s (.ffma h f r d a b c) h (fun g => g.fop t h f d a b c (opFma r)) ∧
    Rewrites s (.fmin h f d a b) h (op2 (opMinMax false)) ∧ Rewrites s (.fmax h f d a b) h (op2 (opMinMax true)) ∧
    Rewrites s (.fsgn h ks f d a b) h (op2 (opSgn ks)) ∧ Rewrites s (.frcp h f d a) h (op1 (opUn FVal.rcp .ne)) ∧
    Rewrites s (.frsq h f d a) h (op1 (opUn FVal.rsq .ne)) ∧ Rewrites s (.fsqrt h f r d a) h (op1 (opUn FVal.sqrt r)) ∧
    Rewrites s (.fexp2 h f d a) h (op1 (opUn FVal.exp2 .ne)) ∧ Rewrites s (.flog2 h f d a) h (op1 (opUn FVal.log2 .ne)) ∧
    Rewrites s (.fsinpi h f d a) h (op1 (opUn FVal.sinpi .ne)) ∧ Rewrites s (.fcospi h f d a) h (op1 (opUn FVal.cospi .ne)) ∧
    Rewrites s (.frnd h kr f d a) h (op1 (opRnd kr)) ∧ Rewrites s (.fclass h f d a) h (op1 opClass)

/-- R150, R320: a generic float word has the native word's effect in the format FMT.FA, whatever its site holds. -/
def Obligations.GenericFloatWords : Prop :=
  ∀ s h n r (d : V) a b c ks kr,
    let t := s.m.tick
    let fa (m : Mach) : BitVec 16 := BitVec.ofNat 16 (fmtA m.me.fmt)
    let at_ (i : Instr) (f : Group → Group) : Prop := RewritesAt s i h n fa (fun m x => x == fa m) f
    let op2 (o : Ffmt → Nat → Nat → Nat → Nat) (g : Group) := g.fop t h (faVF g.fmt) (.v d) a b z0 o
    let op1 (o : Ffmt → Nat → Nat → Nat → Nat) (g : Group) := g.fop t h (faVF g.fmt) (.v d) a z0 z0 o
    at_ (.faddG h n r d a b) (op2 (opAdd r)) ∧ at_ (.fsubG h n r d a b) (op2 (opSub r)) ∧ at_ (.fmulG h n r d a b) (op2 (opMul r)) ∧
    at_ (.ffmaG h n r d a b c) (fun g => g.fop t h (faVF g.fmt) (.v d) a b c (opFma r)) ∧ at_ (.fminG h n d a b) (op2 (opMinMax false)) ∧
    at_ (.fmaxG h n d a b) (op2 (opMinMax true)) ∧ at_ (.fsgnG h n ks d a b) (op2 (opSgn ks)) ∧
    at_ (.frcpG h n d a) (op1 (opUn FVal.rcp .ne)) ∧ at_ (.frsqG h n d a) (op1 (opUn FVal.rsq .ne)) ∧
    at_ (.fsqrtG h n r d a) (op1 (opUn FVal.sqrt r)) ∧ at_ (.fexp2G h n d a) (op1 (opUn FVal.exp2 .ne)) ∧
    at_ (.flog2G h n d a) (op1 (opUn FVal.log2 .ne)) ∧ at_ (.fsinpiG h n d a) (op1 (opUn FVal.sinpi .ne)) ∧
    at_ (.fcospiG h n d a) (op1 (opUn FVal.cospi .ne)) ∧ at_ (.frndG h n kr d a) (op1 (opRnd kr)) ∧
    at_ (.fclassG h n d a) (op1 opClass) ∧ at_ (.dot4G h n d a b c) (fun g => g.dot4 t h (fmtA g.fmt) d a b c)

/-- R124, R156 to R160: the other generic register words. -/
def Obligations.GenericMoveWords : Prop :=
  ∀ s h n w (d v : V) (e : Dst) a b r c,
    let t := s.m.tick
    let u1 (m : Mach) : Bool := m.me.uniformSrc m.tick w a
    let u2 (m : Mach) : Bool := m.me.uniformSrc m.tick w (.v v) && bitAt m.me.xm (m.me.bcastLane m.tick b)
    RewritesAt s (.movG h n w e a) h n (fun m => if u1 m then 1 else 0) (fun m x => !bitAt x 0 || u1 m)
      (fun g => g.op1 t h (match e with | .v _ => w | .s _ => true) false e a id) ∧
    RewritesAt s (.bcastG h n w d v b) h n (fun m => if u2 m then 1 else 0) (fun m x => !bitAt x 0 || u2 m) (fun g => g.bcast t h w d v b) ∧
    RewritesAt s (.cvtG h n r d a c) h n (fun m => fdfa m.me.fmt) (fun m x => x == fdfa m.me.fmt)
      (fun g => g.cvt t h r (fmtD g.fmt) (fmtA g.fmt) d a c)

/-- R151 to R164: the log-domain words, the format register, `dot4`, and the conversions. -/
def Obligations.FormatWords : Prop :=
  ∀ s h lg8 (d v : V) (e : Dst) a b c k imm (r : S) f ro tgt src inv vf q,
    let t := s.m.tick
    Rewrites s (.ladd h lg8 d a b) h (fun g => g.op2 t h false false (.v d) a b (fun x y =>
      perByte (fun p q _ => logSum lg8 (lgVal lg8 p) (lgVal lg8 q)) x y 0)) ∧
    Rewrites s (.lmul h lg8 d a b) h (fun g => g.op2 t h false false (.v d) a b (fun x y =>
      perByte (fun p q _ => toLog lg8 (lgProduct lg8 p q)) x y 0)) ∧
    Rewrites s (.lfma h lg8 d a b c) h (fun g => g.op3 t h false false (.v d) a b c
      (perByte (fun p q r => logSum lg8 (lgProduct lg8 p q) (lgVal lg8 r)))) ∧
    Rewrites s (.fmtset h k imm) h (fun g => if g.perf t h = 0 then g else { g with fmt := fmtPut k g.fmt imm }) ∧
    Rewrites s (.fmtsetR h r) h (fun g => if g.perf t h = 0 then g else { g with fmt := (fld (g.rdS t r.toNat) 0 13).setWidth 32 }) ∧
    Rewrites s (.fmtget h r) h (fun g => g.wideS t h r (g.fmt.setWidth 64)) ∧
    Rewrites s (.dot4 h f d a b c) h (fun g => g.dot4 t h (dotCode f) d a b c) ∧
    Rewrites s (.cvt h ro tgt src d a c) h (fun g => g.cvt t h ro tgt.toNat src.toNat d a c) ∧
    Rewrites s (.cvtF2i h ro e a) h (fun g => g.op1 t h false true e a (fun x =>
      BitVec.ofNat 64 (convInt 32 (Dir.ofRnd ro) (fmtSat g.fmt) (f32 (fld x 0 32))))) ∧
    Rewrites s (.cvtF2u h ro e a) h (fun g => g.op1 t h false false e a (fun x =>
      BitVec.ofNat 64 (convUint32 (Dir.ofRnd ro) (fmtSat g.fmt) (f32 (fld x 0 32))))) ∧
    Rewrites s (.cvtI2f h ro e a) h (fun g => g.op1 t h false false e a (fun x =>
      BitVec.ofNat 64 (F32.enc (Dir.ofRnd ro) (FVal.ofInt (fld x 0 32).toInt)))) ∧
    Rewrites s (.cvtU2f h ro e a) h (fun g => g.op1 t h false false e a (fun x =>
      BitVec.ofNat 64 (F32.enc (Dir.ofRnd ro) (FVal.ofInt (fld x 0 32).toNat)))) ∧
    Rewrites s (.pack h d v) h (fun g => g.putSpan (g.perf t h) d.toNat 3 (fun l j =>
      BitVec.ofNat 32 (packStream (fun i => g.rdV t (v.toNat + i) l) / 2 ^ (32 * j)))) ∧
    Rewrites s (.unpack h d v) h (fun g => g.putSpan (g.perf t h) d.toNat 4 (g.unpackAt t v)) ∧
    Rewrites s (.scale h inv vf d a b) h (fun g => g.op2 t h false false (.v d) a b (fun x y =>
      perElem vf (opScale inv (fld y 0 8).toNat) x 0 0)) ∧
    Rewrites s (.qnt h q d a) h (fun g => g.writeV (g.perf t h) d.toNat (fun l =>
      g.qntOf q (if l / 32 = 0 then g.qntScale t h q a 0 else g.qntScale t h q a 1) (g.qntVal t a l))) ∧
    Rewrites s (.dqnt h q d a) h (fun g => g.op1 t h false false (.v d) a (dqntN q))

/-- R166 to R170: the words across lanes. -/
def Obligations.LaneWords : Prop :=
  ∀ s h sg w (d v : V) b m (r : S) (q : P),
    let t := s.m.tick
    Rewrites s (.shfl h sg w d v b) h (fun g => g.shuffle t h w d v b (fun l b => l - l % segW sg + b % 64 % segW sg)) ∧
    Rewrites s (.shup h sg w d v b) h (fun g => g.shuffle t h w d v b (fun l b => if b ≤ l % segW sg then l - b else l)) ∧
    Rewrites s (.shdn h sg w d v b) h (fun g => g.shuffle t h w d v b (fun l b => if l % segW sg + b < segW sg then l + b else l)) ∧
    Rewrites s (.shxor h sg w d v b) h (fun g => g.shuffle t h w d v b (fun l b => l ^^^ (b % 64 % segW sg))) ∧
    Rewrites s (.redadd h m r v) h (fun g => g.reduce t h m r v (· + ·)) ∧ Rewrites s (.redmin h m r v) h (fun g => g.reduce t h m r v min) ∧
    Rewrites s (.redmax h m r v) h (fun g => g.reduce t h m r v max) ∧
    Rewrites s (.fredadd h r v) h (fun g => g.wideS t h r ((treeSum 6 (g.fvals t v (g.perf t h))).setWidth 64)) ∧
    Rewrites s (.scan h .add m d v) h (fun g => g.vecResult (g.perf t h) m.w d.toNat (g.iscan t m v (g.perf t h) false (· + ·) 0)) ∧
    Rewrites s (.scan h .addx m d v) h (fun g => g.vecResult (g.perf t h) m.w d.toNat (g.iscan t m v (g.perf t h) true (· + ·) 0)) ∧
    Rewrites s (.scan h .min m d v) h (fun g => g.vecResult (g.perf t h) m.w d.toNat (g.iscan t m v (g.perf t h) false min (igreatest m))) ∧
    Rewrites s (.scan h .max m d v) h (fun g => g.vecResult (g.perf t h) m.w d.toNat (g.iscan t m v (g.perf t h) false max (ileast m))) ∧
    Rewrites s (.scan h .fadd m d v) h (fun g => g.writeV (g.perf t h) d.toNat (fun l =>
      (fscan (g.fvals t v (g.perf t h))).getD l negZero)) ∧
    Rewrites s (.scan h .faddx m d v) h (fun g => g.writeV (g.perf t h) d.toNat (fun l =>
      if l = 0 then negZero else (fscan (g.fvals t v (g.perf t h))).getD (l - 1) negZero)) ∧
    Rewrites s (.compact h w d v q r) h (fun g =>
      let sel := lanesOf (g.perf t h &&& g.rdP t q.toNat)
      (sel.zipIdx.foldl (fun x ln => if bitAt (g.perf t h) ln.2 then x.putVec w d.toNat ln.2 (g.vec t w v.toNat ln.1) else x) g).wideS t h r
        (BitVec.ofNat 64 sel.length))

/-- R131 to R139: the control words; `sitex` where no write of the entry waits for reserve space (R367). -/
def Obligations.ControlWords : Prop :=
  ∀ s h imm (a d : S) (v : V) idx site,
    let t := s.m.tick
    let wide (f : Group → Group) (g : Group) : Group := if g.perf t h = 0 then g else f g
    Rewrites s (.nop h) h id ∧
    (imm ≠ 0 → Wide s (.sleep h imm) h (fun m => m.modMe (fun g => { g with status := .sleeping (m.clock + imm.toNat) }))) ∧
    Wide s (.sleep h 0) h (fun m => m.modMe (Woken m)) ∧
    Wide s (.yield h) h (fun m => m.modMe (Woken m)) ∧
    (s.m.sigcheck = true → crc s.m.me.sig (s.m.me.xm ^^^ s.m.me.xs) = imm →
      Rewrites s (.sigck h imm) h (fun g => { g with sig := 0xFFFFFFFF#32, xs := g.xm })) ∧
    (s.m.sigcheck = false → Rewrites s (.sigck h imm) h (fun g => { g with sig := crc g.sig (g.xm ^^^ g.xs), xs := g.xm })) ∧
    Rewrites s (.lcset h imm) h (wide (fun g => { g with lc := imm })) ∧
    Rewrites s (.lcsetR h a) h (wide (fun g => { g with lc := fld (g.rdS t a.toNat) 0 32 })) ∧
    Rewrites s (.lcsetGet h d) h (fun g => g.wideS t h d (g.lc.setWidth 64)) ∧
    Rewrites s (.xmset h a) h (wide (fun g => { g with xm := g.rdS t a.toNat &&& g.path })) ∧
    Rewrites s (.xmsetAnd h a) h (wide (fun g => { g with xm := g.xm &&& g.rdS t a.toNat })) ∧
    Rewrites s (.xmsetOr h a) h (wide (fun g => { g with xm := g.xm ||| (g.rdS t a.toNat &&& g.path) })) ∧
    Rewrites s (.xmget h d) h (fun g => g.wideS t h d g.xm) ∧
    Rewrites s (.rds h (.v v) idx) h (fun g => g.writeV (g.perf t h) v.toNat (fun l => BitVec.ofNat 32 l)) ∧
    Rewrites s (.rds h (.s d) idx) h (fun g => g.wideS t h d ((s.m.hash (.rds h (.s d) idx)).special idx.toNat)) ∧
    Rewrites s (.wrs h a) h (wide (fun g => { g with sig := fld (g.rdS t a.toNat) 0 32 })) ∧
    (s.m.me.rdS t a.toNat = 0 → Wide s (.iflush h a) h (fun m => m.modCore m.cur.1 (fun k => { k with ibuf := [] }))) ∧
    When s (.sitex h d site) h (s.m.siteHold site.toNat true = none) (fun m => m.siteQuery h d site.toNat false) ∧
    When s (.sitexCnt h d site) h (s.m.siteHold site.toNat true = none) (fun m => m.siteQuery h d site.toNat true) ∧
    When s (.sitexReset h site) h (s.m.siteHold site.toNat false = none) (fun m =>
      m.siteUpdate site.toNat (fun _ => { state := 0, wc := 0, attr := 0 })) ∧
    When s (.sitexPin h site) h (s.m.siteHold site.toNat false = none) (fun m => m.siteUpdate site.toNat (fun v => { v with state := 3, attr := 0 }))

/-- R131: a performing `trap` raises cause 0x08 and a performing `brk` cause 0x09 with DETAIL = IMM, at their own address; with
no performing lane they do nothing. -/
def Obligations.TrapWords : Prop :=
  ∀ s h imm,
    (Issues s.m (.trap h imm) h → exec (.trap h imm) s = .next { s with
      m := if s.m.performs h then takeTrap s.m s.m.cur.1 s.m.cur.2 s.m.me.pc { cause := 8, lanes := s.m.me.xm, detail := imm.setWidth 64 }
        else s.m.goOn (s.m.hash (.trap h imm)) (.trap h imm) h }) ∧
    (Issues s.m (.brk h imm) h → exec (.brk h imm) s = .next { s with
      m := if s.m.performs h then takeTrap s.m s.m.cur.1 s.m.cur.2 s.m.me.pc { cause := 9, lanes := s.m.me.xm, detail := imm.setWidth 64 }
        else s.m.goOn (s.m.hash (.brk h imm)) (.brk h imm) h })

/-! ### Sequencing (R66 to R69, R253 to R257), shown on `nop` -/

/-- R67: SEQ goes to pc + 1, GO to pc plus its offset, JUMPI to the address in its s register. -/
def Obligations.NextWord : Prop :=
  ∀ s h, let i := Instr.nop h
    let sig := crc s.m.me.sig (fld (encode i) 0 64)
    Issues s.m i h → s.m.me.status ≠ .ended →
    (h.nas = .seq → exec i s = .next { s with m := s.m.setMe { s.m.me with sig := sig, pc := s.m.me.pc + 1 } }) ∧
    (∀ o, h.nas = .go o → exec i s = .next { s with m := s.m.setMe { s.m.me with sig := sig, pc := s.m.me.pc + o.signExtend 64 } }) ∧
    (∀ r, h.nas = .jumpi r → exec i s = .next { s with m := s.m.setMe { s.m.me with sig := sig, pc := s.m.me.rdS s.m.tick r.toNat } })

/-- R67, R68, R253: IF and LOOP send the lanes of their test to the target; a branch that splits the lanes pushes an entry and goes
on with the lanes that fall through, or traps with cause 0x06 when it is marked uniform, LANES the taken ones (R257). LOOP takes one from LC first.
Two things are the model's own: a trap leaves LC as it was, for a trapping word does not sequence (R131; DEDUCED, log 39), and DETAIL of cause 0x06,
of which no rule names a value, is 0 (DESIGN CHOICE, log 96). -/
def Obligations.Branches : Prop :=
  ∀ s h o b u, let i := Instr.nop h
    let g := s.m.me
    let sig := crc g.sig (fld (encode i) 0 64)
    let lp : Bool := decide (h.nas = .loop o b u)
    let lc := if lp then g.lc - 1 else g.lc
    let taken := if lp ∧ lc = 0 then 0 else g.xm &&& g.pred s.m.tick b
    let target := g.pc + o.signExtend 64
    Issues s.m i h → g.status ≠ .ended → (h.nas = .iff o b u ∨ h.nas = .loop o b u) →
    (taken = 0 → exec i s = .next { s with m := s.m.setMe { g with sig := sig, lc := lc, pc := g.pc + 1 } }) ∧
    (taken ≠ 0 → taken = g.xm → exec i s = .next { s with m := s.m.setMe { g with sig := sig, lc := lc, pc := target } }) ∧
    (taken ≠ 0 → taken ≠ g.xm → u = false → g.recs.length < 8 →
      exec i s = .next { s with m := s.m.setMe { g with
        sig := sig, lc := lc, pc := g.pc + 1, xm := g.xm &&& ~~~taken,
        recs := { save := g.xm, take := taken, target := target.setWidth 53, ja := 0, jv := false, phase := false,
                  fmt := g.fmt.setWidth 13, arr := 0 } :: g.recs } }) ∧
    (taken ≠ 0 → taken ≠ g.xm → u = true →
      exec i s = .next { s with m := takeTrap (s.m.setMe g) s.m.cur.1 s.m.cur.2 g.pc { cause := 6, lanes := taken, detail := 0 } })

/-- R67, R68: CALL pushes pc + 1 and goes to its target; RET goes back to the last pushed. The seventeenth entry sends the oldest
to private memory. -/
def Obligations.CallsAndReturns : Prop :=
  ∀ s h, let i := Instr.nop h
    let g := s.m.me
    let sig := crc g.sig (fld (encode i) 0 64)
    Issues s.m i h → g.status ≠ .ended →
    (∀ o, h.nas = .call o → g.calls.length < 16 →
      exec i s = .next { s with m := s.m.setMe { g with sig := sig, calls := (g.pc + 1) :: g.calls, pc := g.pc + o.signExtend 64 } }) ∧
    (∀ o a, h.nas = .call o → g.calls.length = 16 → g.calls.getLast? = some a →
      ∃ m, exec i s = .next { s with m := m } ∧ m.me.calls = (g.pc + 1) :: g.calls.dropLast ∧ m.me.callSpill = g.callSpill + 1 ∧
        m.me.pc = g.pc + o.signExtend 64 ∧
        (let p := (s.m.hash i).privWrite s.m.cur.1 s.m.cur.2 (8 * g.callSpill) [a.toNat]
         m.dram = p.dram ∧ m.cached = p.cached ∧ m.far = p.far)) ∧
    (∀ a l, h.nas = .ret → g.calls = a :: l →
      exec i s = .next { s with m := s.m.setMe { g with sig := sig, calls := l, pc := a } })

/-- R69, R255: END retires the active lanes; with no pending entry the group ends, and with one whose taken lanes live the group
goes on with them at the branch's target. -/
def Obligations.EndRetires : Prop :=
  ∀ s h, let i := Instr.nop h
    let g := s.m.me
    Issues s.m i h → g.status ≠ .ended → h.nas = .fin →
    (g.recs = [] → ((s.m.core s.m.cur.1).l1.filter (fun x => x.pins.contains s.m.cur.2)) = [] →
      ∃ m, exec i s = .next { s with m := m } ∧ m.me.status = .ended ∧ m.me.xm = 0 ∧ m.me.retired = g.retired ||| g.xm ∧
        m.me.outs = g.outs ∧ m.dram = s.m.dram ∧ m.cached = s.m.cached) ∧
    (∀ e l, g.recs = e :: l → e.phase = false → e.take &&& ~~~(g.retired ||| g.xm) ≠ 0 →
      ∃ m, exec i s = .next { s with m := m } ∧ m.me.status = g.status ∧ m.me.xm = e.take &&& ~~~(g.retired ||| g.xm) ∧
        m.me.pc = e.target.setWidth 64 ∧ m.me.fmt = e.fmt.setWidth 32 ∧ m.me.retired = g.retired ||| g.xm)

/-! ### Taking a trap (R76, R389 to R394) -/

/-- R76, R389, R408: the first trap of a domain writes its record; later ones only count, up to 2^32 − 1, but for one of the same cycle on a
core of a lower number, whose record is the one kept. -/
def Obligations.TrapRecord : Prop :=
  ∀ (f : FaultDom) pc xm t who now, let r := f.record pc xm t who now
    let written : FaultDom := { f with
      traps := r.traps, hasRec := true, rcause := BitVec.ofNat 16 t.cause, rpc := pc, rxm := xm, rlanes := t.lanes, rdetail := t.detail,
      rwho := who, recAt := now }
    r.traps = (if f.traps = BitVec.allOnes 32 then f.traps else f.traps + 1) ∧
    (f.hasRec = false → r = written) ∧
    (f.hasRec = true → f.recAt = now → fld who 21 11 < fld f.rwho 21 11 → r = written) ∧
    (f.hasRec = true → (f.recAt ≠ now ∨ ¬ fld who 21 11 < fld f.rwho 21 11) → r = { f with traps := r.traps })

/-- R390: a trap other than a stopping breakpoint ends every team of the region on the gang. -/
def Obligations.TrapEndsGang : Prop :=
  ∀ (m : Mach) c k pc t id,
    let tm := m.team (m.group c k).team
    (m.part tm.part).rollback.contains (m.inst tm.inst).fdom = false →
    ¬ (t.cause = 9 ∧ ((m.part tm.part).fd (m.inst tm.inst).fdom).dbg = true) →
    m.team id ≠ Team.none → (m.team id).inst = tm.inst → gangOf (m.team id).core = gangOf c →
      ((takeTrap m c k pc t).team id).ended = true

/-- R394: with DBG a performing `brk` stops its group at its own address and nothing else, after it is recorded. -/
def Obligations.BreakpointStops : Prop :=
  ∀ s h imm, let dom := (s.m.inst s.m.myTeam.inst).fdom
    Issues s.m (.brk h imm) h → s.m.performs h = true → ((s.m.part s.m.myPart).fd dom).dbg = true →
    (s.m.part s.m.myPart).rollback.contains dom = false →
    ∃ m, exec (.brk h imm) s = .next { s with m := m } ∧ m.me.status = .parked .brkStop ∧ m.me.pc = s.m.me.pc ∧ m.me.xm = s.m.me.xm ∧
      m.me.v = s.m.me.v ∧ m.me.s = s.m.me.s ∧ m.me.p = s.m.me.p ∧ m.teams = s.m.teams ∧ m.insts = s.m.insts ∧
      ((m.part s.m.myPart).fd dom).hasRec = true ∧
      SameDevice s.m m ∧ (∀ c, (m.core c).sp = (s.m.core c).sp) ∧
      (((s.m.part s.m.myPart).fd dom).hasRec = false →
        ((m.part s.m.myPart).fd dom).rcause = 9 ∧ ((m.part s.m.myPart).fd dom).rpc = s.m.me.pc ∧
        ((m.part s.m.myPart).fd dom).rdetail = imm.setWidth 64)

/-! ### The words complete: memory words on the own scratchpad (R29, R177, R186, R196) -/

/-- R174 to R182: loads of the own scratchpad, native and generic, with a null witness, leave their results outstanding. -/
def Obligations.LoadWords : Prop :=
  ∀ s h n z u (d : V) ad (w sd base : S) off (at_ : MAttr) f cnt (q : P),
    let m := s.m
    let t := m.tick
    let g := m.me
    let ptr (l : Nat) : Ptr := g.ptr t ad l
    let sp := g.sPtr t base off
    let span (l : Nat) : List PWrite := (List.range (szRegs z)).map (fun j => wV (d.toNat + j) l (loadedReg z (padBytes m (ptr l) (szBytes z)) j))
    let xp (l j : Nat) : Ptr := let p := (g.xPtr t ad l).1
      let e := ptrAdd p.val (((g.xPtr t ad l).2 + j) * vfBytes f)
      { e with ok := e.ok && p.ok }
    let xs (l : Nat) : List PWrite := (List.range (2 ^ cnt.toNat)).map (fun j => wV (d.toNat + j) l
      (packElems f ((List.range (2 ^ cnt.toNat * vfPer f)).map (fun j => natOf (padBytes m (xp l j) (vfBytes f)))) j))
    let loads (i : Instr) (ws : List PWrite) : Prop := Issues m i h → ∃ m', Does s i h m' ∧ Loaded m m' ws
    g.rdS t w.toNat = 0 → lanes s h ≠ [] → (g.fence = 0 ∨ Settled m) →
    ((∀ l ∈ lanes s h, ownPad m (ptr l) (szBytes z) = true) →
      (at_.spc = 1 → (u = true → allEq (lanePtrs ad t g g.xm) = true) → loads (.ld h z u d ad w at_) ((lanes s h).flatMap span)) ∧
      (m.siteWait n.toNat = none → loads (.ldG h n z d ad w at_) ((lanes s h).flatMap span))) ∧
    (ownPad m sp (szBytes z) = true →
      (at_.spc = 1 → loads (.lds h z sd base off w at_) [wS sd.toNat (loadedS z (padBytes m sp (szBytes z)))]) ∧
      (m.siteWait n.toNat = none → loads (.ldsG h n z sd base off w at_) [wS sd.toNat (loadedS z (padBytes m sp (szBytes z)))])) ∧
    ((∀ l ∈ lanes s h, fld (g.xPtr t ad l).1.val 60 4 = 1 ∧ (g.xPtr t ad l).1.val.toNat % vfBytes f = 0 ∧
        ∀ j < 2 ^ cnt.toNat * vfPer f, ownPad m (xp l j) (vfBytes f) = true) →
      (at_.spc = 1 → loads (.ldx h cnt f d ad w at_) ((lanes s h).flatMap xs)) ∧
      (m.siteWait n.toNat = none → loads (.ldxG h n cnt f d ad w at_) ((lanes s h).flatMap xs))) ∧
    ((∀ l ∈ lanes s h, fld (ptr l).val 60 4 = 1) →
      let ok := (lanes s h).filter (fun l => ownPad m (ptr l) (szBytes z))
      let bad := (lanes s h).filter (fun l => !ownPad m (ptr l) (szBytes z))
      let ws := ok.flatMap span ++ ok.map (fun l => wP q.toNat l true) ++
        bad.flatMap (fun l => (List.range (szRegs z)).map (fun j => wV (d.toNat + j) l 0)) ++ bad.map (fun l => wP q.toNat l false)
      (at_.spc = 1 → loads (.ldt h z d q ad w at_) ws) ∧ (m.siteWait n.toNat = none → loads (.ldtG h n z d q ad w at_) ws))

/-- R183 to R187: stores to the own scratchpad lay their bytes there, lane after lane, take the core's next sequence number, and
write the witness of that number at once. -/
def Obligations.StoreWords : Prop :=
  ∀ s h n z u (wo base x : S) ad (v : V) off (at_ : MAttr) f cnt (q : P) seq e,
    let m := s.m
    let t := m.tick
    let g := m.me
    let ptr (l : Nat) : Ptr := g.ptr t ad l
    let sp := g.sPtr t base off
    let xp (l j : Nat) : Ptr := let p := (g.xPtr t ad l).1
      let e := ptrAdd p.val (((g.xPtr t ad l).2 + j) * vfBytes f)
      { e with ok := e.ok && p.ok }
    let cell (l : Nat) : Nat × List Byte := (padKey m (ptr l), g.storeBytes t z v l)
    let wit := pointW at_.scp.toNat m.partno m.cur.1 seq e
    let wit' := if at_.scp = 3 then pointW 3 m.partno m.cur.1 seq e else wit
    let stores (i : Instr) (ps : Group → Group) (ws : List (Nat × List Byte)) : Prop := Issues m i h → ∃ m', Does s i h m' ∧ Stored m m' ws seq ∧
      m'.me.s = (ps (g.putS wo.toNat wit')).s ∧ m'.me.p = (ps (g.putS wo.toNat wit')).p ∧ m'.me.v = g.v
    lanes s h ≠ [] → MayStore m seq e → Settled m →
    ((∀ l ∈ lanes s h, ownPad m (ptr l) (szBytes z) = true) →
      (at_.spc = 1 → (u = true → allEq (lanePtrs ad t g g.xm) = true) → stores (.st h z u wo ad v at_) id ((lanes s h).map cell)) ∧
      (m.siteWait n.toNat = none → stores (.stG h n z wo ad v at_) id ((lanes s h).map cell))) ∧
    (at_.spc = 1 → ownPad m sp (szBytes z) = true →
      stores (.sts h z wo base x off at_) id [(padKey m sp, bytesOf (szBytes z) (g.rdS t x.toNat).toNat)]) ∧
    ((∀ l ∈ lanes s h, fld (g.xPtr t ad l).1.val 60 4 = 1 ∧ (g.xPtr t ad l).1.val.toNat % vfBytes f = 0 ∧
        ∀ j < 2 ^ cnt.toNat * vfPer f, ownPad m (xp l j) (vfBytes f) = true) →
      let ws := (lanes s h).flatMap (fun l => (g.xElems t f (2 ^ cnt.toNat) v l).zipIdx.map (fun y => (padKey m (xp l y.2), bytesOf (vfBytes f) y.1)))
      (at_.spc = 1 → stores (.stx h cnt f wo ad v at_) id ws) ∧ (m.siteWait n.toNat = none → stores (.stxG h n cnt f wo ad v at_) id ws)) ∧
    (at_.spc = 1 → (∀ l ∈ lanes s h, fld (ptr l).val 60 4 = 1) →
      stores (.stt h z wo q ad v at_) (fun g => ((lanes s h).map (fun l => wP q.toNat l (ownPad m (ptr l) (szBytes z)))).foldl Group.put g)
        (((lanes s h).filter (fun l => ownPad m (ptr l) (szBytes z))).map cell))

/-- R193 to R196: atomics on the own scratchpad, lane after lane; the old values and the witness return. -/
def Obligations.AtomicWords : Prop :=
  ∀ s h n k kf un w64 (d x : V) ad (sd sx base wo w : S) (at_ : MAttr) seq e,
    let m := s.m
    let t := m.tick
    let g := m.me
    let ptr (l : Nat) : Ptr := g.ptr t ad l
    let sp := g.sPtr t base 0
    let mo : IntMod := ⟨false, un, w64⟩
    let wit := wS wo.toNat (pointW at_.scp.toNat m.partno m.cur.1 seq e)
    let old (w : Bool) (l : Nat) (bs : List Byte) : List PWrite :=
      (List.range (if w then 2 else 1)).map (fun j => wV (d.toNat + j) l (BitVec.ofNat 32 (natOf (bs.drop (4 * j) |>.take 4))))
    let runs (i : Instr) (n : Nat) (ops : List (Nat × (W64 → W64))) (fill : List (List Byte) → List PWrite) : Prop :=
      let r := padAtomics n ops (m.core m.cur.1).sp
      Issues m i h → ∃ m', Does s i h m' ∧ SameDevice m m' ∧ m'.me.v = g.v ∧ m'.me.s = g.s ∧ m'.me.p = g.p ∧ (m'.core m.cur.1).sp = r.1 ∧
          (m'.core m.cur.1).seq = seq + 1 ∧
        (∀ c, c ≠ m.cur.1 → (m'.core c).sp = (m.core c).sp) ∧
        ∃ id, m'.me.outs = g.outs ++ [{ id := id, pc := g.pc, writes := fill r.2 ++ [wit], ready := true, stamp := none }]
    g.rdS t w.toNat = 0 → lanes s h ≠ [] → MayStore m seq e →
    ((∀ l ∈ lanes s h, ownPad m (ptr l) (atomSize w64) = true) →
      let ops := (lanes s h).map (fun l => (padKey m (ptr l), fun o => atomNew k mo o (g.vec t w64 x.toNat l) (g.vec t w64 d.toNat l)))
      let fill (bs : List (List Byte)) : List PWrite := ((lanes s h).zip bs).flatMap (fun y => old w64 y.1 y.2)
      (at_.spc = 1 → runs (.atom h k un w64 d ad x wo w at_) (atomSize w64) ops fill) ∧
      (m.siteWait n.toNat = none → runs (.atomG h n k un w64 d ad x wo w at_) (atomSize w64) ops fill)) ∧
    ((∀ l ∈ lanes s h, ownPad m (ptr l) 4 = true) →
      let ops := (lanes s h).map (fun l => (padKey m (ptr l), fun o => fatomNew kf o ((g.rdV t x.toNat l).setWidth 64)))
      let fill (bs : List (List Byte)) : List PWrite := ((lanes s h).zip bs).flatMap (fun y => old false y.1 y.2)
      (at_.spc = 1 → runs (.fatom h kf d ad x wo w at_) 4 ops fill) ∧
          (m.siteWait n.toNat = none → runs (.fatomG h n kf d ad x wo w at_) 4 ops fill)) ∧
    (ownPad m sp (atomSize w64) = true →
      let ops := [(padKey m sp, fun o => atomNew k mo o (lowN w64 (g.rdS t sx.toNat)) (lowN w64 (g.rdS t sd.toNat)))]
      let fill (bs : List (List Byte)) : List PWrite := bs.map (fun b => wS sd.toNat (BitVec.ofNat 64 (natOf b)))
      (at_.spc = 1 → runs (.atoms h k un w64 sd base sx wo w at_) (atomSize w64) ops fill) ∧
      (m.siteWait n.toNat = none → runs (.atomsG h n k un w64 sd base sx wo w at_) (atomSize w64) ops fill))

/-- R197: `waita` on the own scratchpad returns the value when it lets the group go on; else the group waits for it. -/
def Obligations.WaitaWords : Prop :=
  ∀ s h n ne w64 (d : V) ad (x : S) timeout (at_ : MAttr) l0,
    let m := s.m
    let t := m.tick
    let g := m.me
    let p := g.ptr t ad l0
    let y := BitVec.ofNat 64 (natOf (padBytes m p (atomSize w64)))
    let cmp := lowN w64 (g.rdS t x.toNat)
    let both (f : Instr → Prop) : Prop := (at_.spc = 1 → f (.waita h ne w64 d ad x timeout at_)) ∧
      (m.siteWait n.toNat = none → f (.waitaG h n ne w64 d ad x timeout at_))
    (lanes s h).head? = some l0 → ownPad m p (atomSize w64) = true →
    ((if ne then y = cmp else y ≠ cmp) → both (fun i => Issues m i h →
      let ws := (lanes s h).flatMap (fun l => (List.range (if w64 then 2 else 1)).map (fun j => wV (d.toNat + j) l (fld y (32 * j) 32)))
      ∃ m', Does s i h m' ∧ m'.me.v = (ws.foldl Group.put g).v ∧ m'.me.s = g.s ∧ m'.me.p = g.p ∧ m'.me.outs.map (·.id) = g.outs.map (·.id) ∧
        SameDevice m m' ∧ ∀ c, (m'.core c).sp = (m.core c).sp)) ∧
    ((if ne then y ≠ cmp else y = cmp) → both (fun i => Issues m i h → ∃ m', Does s i h m' ∧ m'.me.status = .waiting .waita ∧
      (∃ r, m'.me.waita = some r ∧ r.scratch = true ∧ r.core = m.cur.1 ∧ r.addr = padKey m p ∧ r.cmp = cmp ∧ r.armed = true ∧
        r.deadline = if timeout = 0 then none else some (m.clock + timeout.toNat)) ∧
      SameDevice m m' ∧ ∀ c, (m'.core c).sp = (m.core c).sp))

/-! ### The words complete: witnesses, caches, tiles, the matrix array, teams and generations -/

/-- R189 to R192: the witness words; `wfence` and `widen` as they go through at once. -/
def Obligations.WitnessWords : Prop :=
  ∀ s h (d a b w : S) (v : V) q e m1,
    let t := s.m.tick
    Wide s (.wmrg h d a b) h (fun m => m.modMe (fun g => g.putS d.toNat (wMerge m (g.rdS t a.toNat) (g.rdS t b.toNat)))) ∧
    Rewrites s (.wmrgRed h d v b) h (fun g => g.putS d.toNat ((lanesOf (g.perf t h)).foldl
      (fun x l => wMerge (s.m.hash (.wmrgRed h d v b)) x (g.vec t true v.toNat l)) (g.rdS t b.toNat))) ∧
    Wide s (.wtest h d w) h (fun m => m.modMe (fun g => g.putS d.toNat (BitVec.ofNat 64 (m.wState m.cur.1 m.myPart (g.rdS t w.toNat))))) ∧
    Wide s (.wtestKick h d w) h (fun m => (m.modMe (fun g =>
      g.putS d.toNat (BitVec.ofNat 64 (m.wState m.cur.1 m.myPart (g.rdS t w.toNat))))).kick m.cur.1 m.cur.2 m.myPart (m.me.rdS m.tick w.toNat)) ∧
    (s.m.me.rdS t w.toNat = 0 → Wide s (.wfence h w) h (fun m => m.modMe (fun g => { g with fence := wMerge m g.fence 0 }))) ∧
    ((s.m.hash (.widen h d)).nextSeq s.m.cur.1 s.m.myPart = .ok m1 q e → MayStore s.m q e → s.m.widenStuck s.m.cur.1 s.m.cur.2 = none →
      Wide s (.widen h d) h (fun m => (m1.widenAll m.cur.1 m.cur.2).modMe (fun g => g.putS d.toNat (pointW 2 m.partno m.cur.1 q e))))

/-- R198 to R205: hints, pins, invalidations and chains; `inv` and `wb` where there is reserve space, `tlbsync` where no row path
uses an old address. -/
def Obligations.CacheWords : Prop :=
  ∀ s h l ad ms (a b d w : S) all c dram q e,
    let m := s.m
    let t := m.tick
    let hashed (i : Instr) (p : Mach → Prop) : Prop := p m ∧ p (m.hash i)
    (Issues m (.pfl h l ad) h → ∃ m', Does s (.pfl h l ad) h m' ∧ m'.me.v = m.me.v ∧ m'.me.s = m.me.s ∧ m'.me.p = m.me.p ∧
      (l ≠ .l1 → m.symErr = [] → Mach.MemOk m → (∀ a, m'.homeByte a = m.homeByte a) ∧ m'.far = m.far ∧ ∀ c, (m'.core c).l1 = (m.core c).l1)) ∧
    (Issues m (.pft h ms a) h → ∃ m', Does s (.pft h ms a) h m' ∧ m'.me.v = m.me.v ∧ m'.me.s = m.me.s ∧ m'.me.p = m.me.p ∧
      m'.me.outs = m.me.outs ∧ SameDevice m m' ∧ (m.performs h = true → ∀ r, m.recordAt (m.me.rdS t a.toNat) = some r → layoutCode r = 0 →
        ∃ id x, tget none m'.copies id = some x ∧ x.kind = .prefetch ms ∧ x.lay = layoutOf r ∧ x.stage = .queued ∧ x.core = m.cur.1)) ∧
    (∀ i, i = Instr.pin h ms d a b → ((m.hash i).pinAnswer m.myPart m.myCtx (m.me.rdS t a.toNat) (m.me.rdS t b.toNat) ms = none →
      Wide s i h (fun m => m.modMe (fun g => g.putS d.toNat 0))) ∧
     ∀ hd, (m.hash i).pinAnswer m.myPart m.myCtx (m.me.rdS t a.toNat) (m.me.rdS t b.toNat) ms = some hd →
      Wide s i h (fun m => (m.modPart m.myPart (fun p => p.setCtx m.myCtx { (p.ctxAt m.myCtx) with
        pins := tset (0, 0, false) (p.ctxAt m.myCtx).pins hd ((m.me.rdS t a.toNat).toNat, (m.me.rdS t b.toNat).toNat, ms) })).modMe
          (fun g => g.putS d.toNat (BitVec.ofNat 64 hd)))) ∧
    Wide s (.unpin h a) h (fun m => let hd := (m.me.rdS t a.toNat).toNat
      { m with l2 := unpinTags m.l2 m.myPart m.myCtx hd, ms := unpinTags m.ms m.myPart m.myCtx hd }.modPart m.myPart (fun p =>
        p.setCtx m.myCtx { (p.ctxAt m.myCtx) with pins := tdel (p.ctxAt m.myCtx).pins hd })) ∧
    (∀ lns y, hashed (.inv h ms ad) (fun y => CanClean y h ad lns ms) → Issues m (.inv h ms ad) h →
      (m.hash (.inv h ms ad)).cleanNamed (m.hash (.inv h ms ad)).view h ad lns = some y →
      let z := if ms then lns.foldl Mach.msEvict y else y.modCore m.cur.1 (fun k => lns.foldl Core.dropLine k)
      Does s (.inv h ms ad) h (Mach.modMe { z with nextId := max z.nextId (m.nextId + 1) } id) ∧
        (∀ ln ∈ lns, if ms then ∀ x ∈ z.ms, x.line ≠ ln else (z.core m.cur.1).line? ln = none)) ∧
    (∀ lns, m.me.perf t h ≠ 0 → MayStore m q e → hashed (.wb h dram d ad) (fun y => CanClean y h ad lns dram) →
      Issues m (.wb h dram d ad) h → ∃ m' id rdy, Does s (.wb h dram d ad) h m' ∧ (m'.core m.cur.1).seq = q + 1 ∧
        { id := id, pc := m.me.pc, writes := [wS d.toNat (pointW 2 m.partno m.cur.1 q e)], ready := rdy, stamp := none } ∈ m'.me.outs) ∧
    (m.me.rdS t w.toNat = 0 → m.mySync = none → m.oldNow (m.syncVa all a) = false →
      Wide s (.tlbsync h all a w) h (fun m => m.removeTlb m.myPart m.myCtx (m.syncVa all a))) ∧
    Wide s (.chainDemote h c) h (fun m => let ours (x : CTag) : Bool := x.part == m.myPart && x.chain == c
      { m with ms := m.ms.filter (fun x => !ours x) ++ (m.ms.filter ours).map (fun x => { x with cls := 1 }) }) ∧
    Wide s (.chainDrop h c) h (fun m => m.dropChain m.myPart c) ∧
    (m.me.perf t h ≠ 0 → Issues m (.chainCnt h d c) h → ∃ m', Does s (.chainCnt h d c) h m' ∧
      Loaded m m' [wS d.toNat (BitVec.ofNat 64 (m.ms.filter (fun x => x.part == m.myPart && x.chain == c)).length)])

/-- R203, R380: `mzero` and `mcopy` on mapped, writable pages of this part and stack start a row path and leave its witness outstanding. -/
def Obligations.RowWords : Prop :=
  ∀ s h (d a b w : S) (n : BitVec 13) src q e,
    let m := s.m
    let t := m.tick
    let i : Instr := if src then .mcopy h d a b w n else .mzero h d a w n
    let dst := m.runPages m.view (m.me.rdS t a.toNat) n.toNat true
    let sp := if src then m.runPages m.view (m.me.rdS t b.toNat) n.toNat false else []
    m.me.perf t h ≠ 0 → m.me.rdS t w.toNat = 0 → MayStore m q e →
    (∀ p ∈ dst ++ sp, p.good = true ∧ ∃ pa l, p.loc = .dev pa l) → (∀ p ∈ dst, p.noWrite = false) →
    ((pagesOf dst).zip (pagesOf sp)).all (fun x => stackOfPage x.1 == stackOfPage x.2) = true →
    (∀ y, y = m ∨ y = m.hash i → ∃ y1 y2, (y.cacheAll y.cur.1 (dst ++ sp)).nextSeq y.cur.1 y.myPart = .ok y1 q e ∧
        dirtyAll (whoGroup y.cur.1 y.cur.2) y.myPart dst y1 = .ok y2) →
    Issues m i h → ∃ m' id o, Does s i h m' ∧ tget none m'.rowOps id = some o ∧ o.core = m.cur.1 ∧ o.seq = q ∧ o.epoch = e ∧
      o.pages.map (·.1) = pagesOf dst ∧ (src = false → ∀ p ∈ o.pages, p.2 = none) ∧ (m'.core m.cur.1).seq = q + 1 ∧
      { id := id, pc := m.me.pc, writes := [wS d.toNat (pointW 2 m.partno m.cur.1 q e)], ready := false, stamp := none } ∈ m'.me.outs

/-- R212 to R217: the tile words and `layout`. -/
def Obligations.TileWords : Prop :=
  ∀ s h ready (t : T) (a b d : S) chunk k x r (p : P),
    let m := s.m
    let n := m.tick
    let free (x : Tile) : Prop := x.st ≠ .filling ∧ x.st ≠ .draining
    When s (.tdef h ready t a b chunk) h
      ((((m.core m.cur.1).tile t.toNat = none ∧ m.spilledHolds (fun x => (tget none x.tiles t.toNat).isSome) = false) ∨ ∃ y, m.myTile t = some y ∧
          free y) ∧ m.tdefOk (m.me.rdS n a.toNat) (m.me.rdS n b.toNat) chunk.toNat = true)
      (fun m => m.setTileAt m.cur.1 t.toNat (some (m.newTile ready (m.me.rdS n a.toNat) (m.me.rdS n b.toNat) chunk))) ∧
    When s (.tfree h t) h (∃ y, m.myTile t = some y ∧ free y) (fun m => m.setTileAt m.cur.1 t.toNat none) ∧
    (m.myTile t = some x → When s (.tstat h k d t) h True (fun m => m.modMe (fun g => g.putS d.toNat (x.word k)))) ∧
    (m.myTile t = some x → When s (.twait h d t) h (x.st = .ready) (fun m => m.modMe (fun g => g.putS d.toNat x.cw))) ∧
    (m.myTile t = some x → When s (.twaitCh h t b) h
      (x.st = .ready ∨ x.st ≠ .poisoned ∧ (m.me.rdS n b.toNat).toNat < x.chk.toNat) id) ∧
    (m.recordAt (m.me.rdS n a.toNat) = some r → When s (.layout h p a) h True (fun m =>
      (m.spWrite m.cur.1 (spKey (m.myTeam.slotOn m.cur.1) ((fld (m.me.rdS n a.toNat) 0 32).toNat + 0x3C)) (bytesOf 2 (layoutCode r))).modMe
        (fun g => g.putP p.toNat (g.perf n h) (if layoutCode r = 0 then BitVec.allOnes 64 else 0))))

/-- R219 to R221: a copy that raises no cause and waits for nothing is queued with its record, and its witness is outstanding. -/
def Obligations.CopyWords : Prop :=
  ∀ s h cc (d a b w : S) (t : T) (q : Q) (mask : BitVec 8) r,
    let m := s.m
    let starts (i : Instr) (k : CopyDst) (t : T) (q : Q) (mask : Nat) : Prop :=
      Issues m i h → m.performs h = true → firstTrap (m.copyTraps k t.toNat mask q a b w) = none →
      m.copyWait k t mask w = none → (m.hash i).copyWait k t mask w = none →
      m.recordAt (m.me.rdS m.tick a.toNat) = some r →
      ∃ m' id x, Does s i h m' ∧ tget none m'.copies id = some x ∧ x.kind = k ∧ x.lay = layoutOf r ∧ x.core = m.cur.1 ∧ x.stage = .queued ∧
        x.w = m.me.rdS m.tick w.toNat ∧ x.cc = cc ∧ x.targets = m.copyTargets k t.toNat mask ∧
        m'.me.outs = m.me.outs ++ [{ id := id, pc := m.me.pc, writes := [wS d.toNat 0], ready := false, stamp := none }]
    starts (.copy h cc d a b w t) .tile t 0 0 ∧ starts (.copyOut h cc d a b w t) .out t 0 0 ∧ starts (.copyQ h cc d a b w q) .stream 0 q 0 ∧
    starts (.copyMc h cc d a b w t mask) .multi t 0 mask.toNat

/-- R223 to R227: streams and ring rotation. That a `feed` issues once its stream has room for a byte is the model's choice (log 125). -/
def Obligations.StreamWords : Prop :=
  ∀ s h (q : Q) (t : T) (b c d : S) scl x,
    let m := s.m
    let n := m.tick
    let own := m.ownsStream m.cur.1 q.toNat = true
    (m.myTile t = some x → When s (.feed h q t b c) h
      (own ∧ x.st = .ready ∧ ((m.core m.cur.1).stream q.toNat).room ≠ 0 ∧ feedOk (some x) (m.me.rdS n b.toNat) (m.me.rdS n c.toNat) = true)
      (fun m => (m.fresh.1.modMyTile t (fun x => { x with st := .draining })).modCore m.cur.1 (fun k =>
        k.setStream q.toNat { (k.stream q.toNat) with feeds := (k.stream q.toNat).feeds ++
          [{ id := m.fresh.2, team := m.me.team, tile := t.toNat, off := (m.me.rdS n b.toNat).toNat, len := (m.me.rdS n c.toNat).toNat, pos := 0,
             drop := false }] }))) ∧
    When s (.sdef h q scl) h (m.sdefTrap q = none)
      (fun m => m.modCore m.cur.1 (fun k => k.setStream q.toNat { (k.stream q.toNat) with owner := some m.me.team, scl := scl })) ∧
    When s (.sflush h q) h own (fun m => m.flushStream q false) ∧ When s (.sflushRel h q) h own (fun m => m.flushStream q true) ∧
    (m.myTile t = some x → When s (.rrot h d t) h (x.st = .ready ∧ (m.ringTiles t.toNat).all Option.isSome = true)
      (fun m => (m.fresh.1.modMyTile t (fun x => { x with st := .draining, ring := some (m.cur.2, m.fresh.2) })).modMe
        (fun g => g.addOuts m.fresh.2 [wS d.toNat 0] false none)))

/-- R228 to R239: a matrix word of a pair enters the array's queue, in order; a step needs room in it. -/
def Obligations.MatrixWords : Prop :=
  ∀ s h n f (acc : Sys2Proof.Acc) (qa qb : Q) k fl (t bias : T) code (a b d row : S) (v : V),
    let m := s.m
    let bank : Prop := acc.toNat < accb m.myTeam.pool
    let pair : Prop := m.myTeam.pair = true
    let lead : Prop := m.cur.1 % 2 = 0
    let streams (c : BitVec 4 × BitVec 4) : Prop := m.streamTrap m.myLead qa c.1 = none ∧ m.streamTrap m.myLead qb c.2 = none ∧
      m.streamTrap (m.myLead + 1) qb c.2 = none
    let room : Prop := stepsQueued (m.core m.myLead) < 8
    let sclOf (m : Mach) (c : Nat) (q : Q) : Bool := ((m.core c).stream q.toNat).scl
    let op (sp : Bool) (c : BitVec 4 × BitVec 4) (m : Mach) : MatOp := .step
      { acc := acc.toNat, qa := qa.toNat, qb := qb.toNat, k := k.toNat, fa := c.1, fb := c.2, sparse := sp, slot := m.cur.2, pc := m.me.pc,
        sa := sclOf m m.myLead qa, sl := sclOf m m.myLead qb, sf := sclOf m (m.myLead + 1) qb, a := [], bl := [], bf := [] }
    let enq (w : Mach → MatOp) (m : Mach) : Mach := m.enqueue m.myLead m.me.team (w m)
    let fmt := fmtCodes m
    let gen (i : Instr) (sp : Bool) : Prop := m.siteWait n.toNat = none → Issues m i h → m.performs h = true →
      (bank ∧ pair ∧ lead ∧ streams fmt ∧ room) →
      Does s i h (enq (op sp fmt) ((m.hash i).touchSite n.toNat (pairAttr (m.hash i)) (fun x => x == pairAttr (m.hash i))))
    let full (sz : Nat) (ts : List (Option Tile)) : Prop := ∀ x ∈ ts, ∃ y, x = some y ∧ sz ≤ y.size.toNat
    let idle (ts : List (Option Tile)) : Prop := ∀ x ∈ ts, ∀ y, x = some y → y.st = .empty ∨ y.st = .ready
    let ready (ts : List (Option Tile)) : Prop := ∀ x ∈ ts, ∃ y, x = some y ∧ y.st = .ready
    let stat (clr en : Mach → Option (BitVec 5)) (m : Mach) : Mach :=
      (m.fresh.1.modMe (fun g => g.addOuts m.fresh.2 [wS d.toNat 0] false none)).enqueue m.myLead m.me.team
        (.mstat (clr m) (en m) m.cur.2 m.cur.1 d.toNat m.fresh.2)
    When s (.mmp h f acc qa qb k) h (bank ∧ pair ∧ lead ∧ streams (stepCode f, stepCode f) ∧ room) (enq (op false (stepCode f, stepCode f))) ∧
    When s (.mmps h f acc qa qb k) h (bank ∧ pair ∧ lead ∧ streams (stepCode f, stepCode f) ∧ room) (enq (op true (stepCode f, stepCode f))) ∧
    gen (.mmpG h n acc qa qb k) false ∧ gen (.mmpsG h n acc qa qb k) true ∧
    When s (.accz h acc) h (bank ∧ pair) (enq (fun _ => .accz acc.toNat)) ∧
    When s (.acco h fl f t acc bias code) h
      (bank ∧ pair ∧ lead ∧ full (accoBytes f) (m.tilesHere t) ∧ idle (m.tilesHere t) ∧ (fl.bias = true → ready (m.tilesHere bias)))
      (fun m => (m.halves.foldl (fun m c => m.modTileAt c t.toNat (fun x => x.fill (accoBytes f))) m).enqueue m.myLead m.me.team
        (.acco fl f t.toNat acc.toNat bias.toNat code (fmtSat m.me.fmt))) ∧
    When s (.atab h t a b) h (pair ∧ full 2048 (m.tilesHere t) ∧ ready (m.tilesHere t))
      (enq (fun m => .atab (m.readAtab t) (fld (m.me.rdS m.tick a.toNat) 0 32) (fld (m.me.rdS m.tick b.toNat) 0 32))) ∧
    When s (.mstat h d) h pair (stat (fun _ => none) (fun _ => none)) ∧
    When s (.mstatClr h d a) h pair (stat (fun m => some (fld (m.me.rdS m.tick a.toNat) 0 5)) (fun _ => none)) ∧
    When s (.mstatEn h d a) h pair (stat (fun _ => none) (fun m => some (fld (m.me.rdS m.tick a.toNat) 8 5))) ∧
    When s (.accld h f v acc row) h (bank ∧ pair ∧ (m.me.rdS m.tick row.toNat).toNat < 128)
      (fun m =>
        let ds := (lanesOf (m.me.perf m.tick h)).flatMap (fun l => (List.range (if f = 0 then 2 else 1)).map (fun j => wV (v.toNat + j) l 0))
        (m.fresh.1.modMe (fun g => g.addOuts m.fresh.2 ds false none)).enqueue m.myLead m.me.team
          (.accld f v.toNat acc.toNat (m.me.rdS m.tick row.toNat).toNat m.cur.2 m.cur.1 m.fresh.2 (m.me.perf m.tick h) (fmtSat m.me.fmt)))

/-- R241 to R245: rendezvous, launches from a group, and the words over generations. -/
def Obligations.TeamWords : Prop :=
  ∀ s h (r : RvN) (n : BitVec 16) (a b d g w : S) x cnt arr ans,
    let m := s.m
    let t := m.tick
    let rv := m.myTeam.rvAt r.toNat
    let back (i : Instr) : Prop := Issues m i h → m.performs h = true → m.myLaunch = some x → x.ans = some ans → ∃ m', Does s i h m' ∧
      m'.me.outs = m.me.outs ++ [{ id := x.outId, pc := m.me.pc, writes := [wS d.toNat ans], ready := true, stamp := none }]
    let asks (i : Instr) (patch : Option W64) : Prop := Issues m i h → m.performs h = true → m.myLaunch = none → m.me.rdS t w.toNat = 0 →
      rcbPtr (m.me.rdS t a.toNat) = true → (∀ y, patch = some y → m.patchPtr y = true) →
      ((m.part m.myPart).dev.filter (fun d => d.ans.isNone)).length < 1024 →
      ∃ m', exec i s = .next { s with m := m' } ∧ m'.me.status = .waiting (.launchAccept m.nextId) ∧ m'.me.pc = m.me.pc ∧
        ∃ y ∈ (m'.part m.myPart).dev, y.id = m.nextId ∧ y.rcb = (m.me.rdS t a.toNat).toNat ∧ y.patch = patch
    When s (.rvinit h r n) h (∀ c k y, rv = .opened c k y → k = 0) (fun m => m.setRv r.toNat (.opened n.toNat 0 0)) ∧
    (∀ y, rv = .opened cnt arr y → arr + 1 ≠ cnt → When s (.rvarr h r a) h True (fun m =>
      m.setRv r.toNat (.opened cnt (arr + 1) (wMerge m y (m.me.rdS t a.toNat))))) ∧
    (∀ y, rv = .opened cnt arr y → arr + 1 = cnt → When s (.rvarr h r a) h True (fun m => m.rvComplete r.toNat (wMerge m y (m.me.rdS t a.toNat)))) ∧
    (∀ y, m.me.rvGot = some y ∨ (m.me.rvGot = none ∧ rv = .complete y) →
      When s (.rvwait h d r) h True (fun m => m.modMe (fun g => { (g.putS d.toNat y) with rvGot := none }))) ∧
    back (.launch h d a w) ∧ back (.replay h d a b w) ∧
    asks (.launch h d a w) none ∧ asks (.replay h d a b w) (some (m.me.rdS t b.toNat)) ∧
    Wide s (.snap h d g) h (fun m => (m.fresh.1.modPart m.myPart (fun p => { p with ep := { p.ep with
      snaps := p.ep.snaps ++ [(m.cur.1, m.cur.2, m.fresh.2, d.toNat, g.toNat)] } })).modMe
        (fun x => x.addOuts m.fresh.2 [wS d.toNat 0, wS g.toNat 0] false none)) ∧
    Wide s (.genq h d a) h (fun m => m.answer d ((m.part m.myPart).genq (m.me.rdS t a.toNat).toNat)) ∧
    Wide s (.genrel h d a) h (fun m =>
      (m.genrel m.myPart (m.me.rdS t a.toNat).toNat).1.answer d (BitVec.ofNat 64 (m.genrel m.myPart (m.me.rdS t a.toNat).toNat).2)) ∧
    Wide s (.genrb h d a) h (fun m =>
      (m.genrb m.myPart m.myTeam.inst (m.me.rdS t a.toNat).toNat).1.answer d
        (BitVec.ofNat 64 (m.genrb m.myPart m.myTeam.inst (m.me.rdS t a.toNat).toNat).2))

/-! ### The steps of the part complete. A step that may not happen yet changes nothing (log 1). -/

/-- R132, R248 to R264: the steps on a group. A group that wakes becomes pending, as of now. -/
def Obligations.GroupSteps : Prop :=
  ∀ s c k id idx res tb,
    let m := s.m
    let g := m.group c k
    let woken := m.setGroup c k (Woken m g)
    (m.joins c k = true → ∀ m1, m.nextOf c k = .join m1 → Steps s (.reconvergenceJoin c k) (m1.joinRound c k)) ∧
    (g.finished = true → m.slotFree c k = true → Steps s (.groupSlotRelease c k) (m.releaseSlot c k) ∧
      (m.releaseSlot c k).group c k = Group.none) ∧
    (∀ o, g.outs = [o] → o.id = id → o.ready = true → o.stamp = none → m.remoteReady c k id = false →
      ∃ m', Steps s (.longLatencyReturn c k id) m' ∧ (m'.group c k).outs = [] ∧
        (∀ r x, o.writes = [wS r x] → (m'.group c k).rdS m.tick r = if r = 0 then 0 else x)) ∧
    (∀ w, g.halted = false → g.why = some w → m.cleared c k w = true → Steps s (.groupUnpark c k) woken) ∧
    (m.rotates c k = true → Steps s (.activeSetRotation c k) (woken.fillActive c)) ∧
    (∀ u, g.halted = false → g.status = .sleeping u → u ≤ m.clock → Steps s (.sleepExpiry c k) woken) ∧
    (∀ e, (m.core c).log[idx]? = some e → e.done = false → ((m.group c e.slot).halted = false ∨ m.reserveWaits c e.slot = true) →
      Steps s (.operandLogReplay c idx res) (m.replay c e res)) ∧
    (let x := tget Tb.reset g.tb tb
     let put (y : Tb) : Mach := m.setGroup c k { g with tb := tset Tb.reset g.tb tb y }
     let found := m.tbFrame c (m.team g.team).part (m.team g.team).ctx g.privBase g.privSize x.base
     x.busy = true →
      (found = none → Steps s (.tbsetTranslationDone c k tb)
          ((m.walked (m.team g.team).part (m.team g.team).ctx (ptrVa g.privBase x.base)).setGroup c k
        { g with tb := tset Tb.reset g.tb tb { x with busy := false } })) ∧
      (∀ e f l, found = some (e, f, l) → Steps s (.tbsetTranslationDone c k tb)
        ((put { x with frame := f, limit := l, busy := false, leaf := some e }).cacheTlb c e))) ∧
    (∀ w, g.halted = false → g.waita = some w → Steps s (.waitaWake c k) (m.waitaAgain c k false)) ∧
    (∀ w d, g.halted = false → g.waita = some w → w.deadline = some d → d ≤ m.clock →
      Steps s (.waitaTimeout c k) (m.waitaAgain c k true))

/-- R188, R272 to R279: drains, forced widens and the close of an epoch. -/
def Obligations.EpochSteps : Prop :=
  ∀ s id c ln p slice eng,
    let m := s.m
    let ep := (m.part p).ep
    let withEp (f : Epochs → Epochs) : Mach := m.modPart p (fun x => { x with ep := f x.ep })
    (∀ d m1, m.drainAt id = some d → d.written = false → m.closeOwed (m.drainPart d) d.core = false →
      m.drainLines d.core (m.drainUpTo d) d.epoch = some m1 → Steps s (.drain id) { m1 with drains := tmap none (fun _ x => x.map (fun y =>
        if y.core == d.core && y.epoch == d.epoch && !y.written then { y with seq := m.drainUpTo d, written := true } else y)) m1.drains }) ∧
    (∀ d, m.drainAt id = some d → m.drained d = true →
      Steps s (.drainComplete id) ((m.setDrain id none).modCore d.byCore (fun k => k.noteSatisfied d.w m.tick))) ∧
    (∀ x u m1, (m.core c).line? ln = some x → x.pinned = true → x.refusedAt = some u → u + 65536 ≤ m.clock → m.forceWiden c ln = some m1 →
      Steps s (.pinForcedWiden c ln) m1) ∧
    ((m.part p).v = true → ep.closing = none → ep.openedAt + 8192 ≤ m.clock →
      Steps s (.epochTimerExpiry p) (m.demandClose p (ep.closed + 1)) ∧
          ((m.demandClose p (ep.closed + 1)).part p).ep.demands.contains (ep.closed + 1) = true) ∧
    (m.mayClose p = true → Steps s (.closeEpoch p) (m.startClose p) ∧
        (ep.lastStart.isSome = true → Steps s (.closeSpacingExpiry p) (m.startClose p))) ∧
    (∀ e, m.partOfCore c = some p → m.closeOwed p c = true → ep.closing = some e → Steps s (.closeReceipt c) (m.closeCore p c e)) ∧
    (m.partOf slice = some p → ep.closing.isSome = true → ep.holding.contains slice = false →
      Steps s (.closeHoldAtHome slice) (withEp (fun x => { x with holding := slice :: x.holding }))) ∧
    (∀ e, ep.closing = some e → eng < (m.part p).eng → ep.enginesDone.contains eng = false → m.oldWork p e = false →
      Steps s (.engineCloseReport p eng) (withEp (fun x => { x with enginesDone := eng :: x.enginesDone }))) ∧
    (∀ e, ep.closing = some e → m.closeReady p e = true → Steps s (.epochCloseComplete p) (m.finishClose p e) ∧
      (ep.snap = false → ((m.finishClose p e).part p).ep.closed = e ∧ ((m.finishClose p e).part p).ep.closing = none)) ∧
    (m.partOf slice = some p → ep.undone.contains slice = true → Steps s (.doneReceipt slice) (m.receiveDone p slice))

/-- R218 to R227, R230, R236: the engines, the streams and the matrix array. -/
def Obligations.EngineSteps : Prop :=
  ∀ s id eng n c q gang tile,
    let m := s.m
    (m.engineReady id eng = true → Steps s (.copyEngineStart id eng n) (m.engineWork id eng n)) ∧
    (∀ x, m.copyAt id = some x → x.stage = .moved → Steps s (.copyComplete id) (m.completeCopy id)) ∧
    (∀ x code, m.copyAt id = some x → faultCode x.stage = some code → Steps s (.copyFault id) (m.faultCopy id code)) ∧
    (∀ x, m.copyAt id = some x → x.stage = .pageFault ∨ x.stage = .faulted 3 →
        Steps s (.engineFaultResolved id) (m.setCopy id (some { x with stage := .moving }))) ∧
    (∀ f l, ((m.core c).stream q).feeds = f :: l → (f.drop = true ∨ m.firstWriter f.team c q f.id = true) →
        Steps s (.feedComplete c q) (m.feedOn c q)) ∧
    (∀ r, m.ring gang tile = some r → Steps s (.rrotRingComplete gang tile) (m.rotate tile r)) ∧
    (∀ t x l, (m.core c).queue = (t, .step x) :: l → Steps s (.matrixStepExecute c) (m.stepOn c)) ∧
    (∀ t fl f a b d e sat l, (m.core c).queue = (t, .acco fl f a b d e sat) :: l → Steps s (.accoComplete c) (m.accoOn c))

/-- R295 to R315: acceptance, placement, completion and budgets of regions; a region completes with the open epoch's witness of its
partition (R307). What the host writes, is accepted from its queue or published to it goes through the host port, when that is not paused (R405). -/
def Obligations.RegionSteps : Prop :=
  ∀ s p i gang idx c tail,
    let m := s.m
    let x := m.inst i
    ((m.part p).v = true → m.linkPaused 16 = false → Steps s (.lqtailWrite p ⟨.host, tail⟩) (m.modPart p (fun y => { y with lqtail := tail }))) ∧
    ((m.part p).v = true → (m.part p).ep.idle = true →
      ((m.part p).devHead.isSome = true → Steps s (.acceptance p true 0) (m.acceptDevice p)) ∧
      ((m.part p).hostReady = true → m.linkPaused 16 = false → Steps s (.acceptance p false (m.part p).lqacc.toNat) (m.acceptHost p))) ∧
    (x.state = .held → x.frozen = false → m.firstOfBlock i = true → ((m.depEnded x).isSome = true ∨ x.deps.all (m.depMet x) = true) →
      Steps s (.regionLeaveHeld i) (m.leaveHeld i)) ∧
    ((m.part p).v = true → m.coreFor (8 * gang) p true = true → Steps s (.taskPlacement p gang idx) (m.gangTurn p gang idx)) ∧
    (∀ w, m.wantedWord c = some w → Steps s (.coreWordRewrite c) (m.rewriteWord c w)) ∧
    ((∀ t, m.persReserved p = some t → Steps s (.persistentPlacement p) (m.persTurn p t)) ∧
      (∀ t, m.persReserved p = none → m.persHead p = some t → m.persFirst p t = true → Steps s (.persistentPlacement p) (m.persTurn p t))) ∧
    (m.coreFor (8 * gang) p true = true → m.coreFor (8 * (gang + 1)) p true = true → tget 0 (m.part p).balancedAt gang + 1024 ≤ m.clock →
      Steps s (.gangBalance p gang) (m.balance p gang)) ∧
    (x.frozen = false → (x.state = .running ∨ x.state = .children) → x.teamsDone = x.grid → x.children = 0 → (m.part x.part).ep.idle = true →
      m.writeWait x.part x.ctx (x.rcb + 0x38) 24 = none → Steps s (.regionComplete i) (m.completeRegion i)) ∧
    ((m.part p).lqsize ≠ 0 → m.linkPaused 16 = false → ∀ j, m.nextRecord p = some j → (m.inst j).state.finished = true →
      ∃ m', Steps s (.completionRecordPublish p) m') ∧
    (m.exhausted i = true → Steps s (.budgetExhausted i) (m.endBudget i)) ∧
    (x.endch = false → x.parent = none → ((m.completeRegion i).inst i).state = .complete ∧
      ((m.completeRegion i).inst i).outw = epochW 2 m.partno x.part (m.part x.part).ep.openEpoch)

/-- R324 to R329, R336 to R338, R342, R346: contexts, lent slices and sites. -/
def Obligations.ContextSteps : Prop :=
  ∀ s p c slot slice id ctx d n o l,
    let m := s.m
    ((m.part p).v = true → (m.part p).halting = false → m.sliceOver p = true → (m.nextCtx p).isSome = true →
      Steps s (.contextSliceEnd p) (m.endSlice p)) ∧
    (∀ m1, s.swapWaits p = false → (m.part p).halting = true → (∀ x, (m.part p).running = some x → m.sitesQuiet p x = true ∧ m.sitesGone p x = true) →
      m.rebankAll p = some m1 → Steps s (.contextHaltComplete p) (m1.switchCtx p)) ∧
    (∀ t, ((m.partOfCore c).map s.swapWaits).getD false = false → m.claimAt c slot = some t → Steps s (.rowClaim c slot) (m.claimRows t c slot)) ∧
    (m.lendReady slice = true → Steps s (.lendTakeEffect slice) (m.lendNow slice)) ∧
    ((m.lendOf slice).inEffect = true → (m.lendOf slice).l = false → Steps s (.sliceReturn slice) (m.returnSlice slice)) ∧
    (∀ x, m.siteMsg id = some x → (x.owed = false → Steps s (.siteUpdateAtHome id) (m.siteAtHome id x)) ∧
      (x.owed = true → Steps s (.siteResolve id) (m.setSiteMsg id (some x.resolve)))) ∧
    (m.partOfCore c = some p → m.wantsSite c ctx d n = true → (m.core c).siteLine p ctx d n = none →
      Steps s (.siteCacheFill c ctx d n) (m.fillSite c p ctx d n)) ∧
    ((m.core c).countsAt + 65536 ≤ m.clock → ∃ m', Steps s (.siteCountFlush c) m' ∧ (m'.core c).countsAt = m.clock) ∧
    ((m.part p).v = true → (o = true ∨ l = true) → Steps s (.contextRestore p ctx o l) (m.newEpochs p ctx))

/-- R353 to R359, R369, R393: the dirty ring, removals, other parts, the host and the ports. -/
def Obligations.FabricSteps : Prop :=
  ∀ s who p head val a id r src w refused port f mode fast,
    let m := s.m
    ((m.part p).v = true → byImage p (m.role who) = true →
      (∃ m', Steps s (.drheadWrite p ⟨who, head⟩) m') ∧ Steps s (.tlbinvWrite p ⟨who, val⟩) (m.tlbinv p val)) ∧
    (a.src ≠ 64 ∨ m.linkPaused 16 = false → Steps s (.inboundAccess a) (m.inbound a)) ∧
    ((m.part p).v = true → (m.part p).abudAt + 1024 ≤ m.clock → ∃ m' y, Steps s (.abudInterval p) (Mach.retryAtoms m' p) ∧
      m' = m.setPart p y ∧ y.abudAt = m.clock ∧ y.inAtoms = (m.part p).inAtoms ∧ ∀ k, (tget InWin.reset y.wins k).used = []) ∧
    (m.remoteAt id = some r → (r.w.isSome || r.lines.any (fun l => l.1 != 64 && l.1 != m.partno.toNat)) = true →
        Steps s (.remoteAccessRefused id) (m.remoteRefused id r)) ∧
    Steps s (.remotePresent src id w) (m.remotePresented src w) ∧
    (m.remoteAt id = some r → r.w = some w → m.linkShut r.ports = false →
        Steps s (.remotePresentAnswer id refused) ((m.setRemote id none).noteAnswer r.core w refused)) ∧
    (port < 16 → (m.port port).down = false → (m.linkPaused port = false → Steps s (.flitReceive port f) (m.receive port f)) ∧
      (16 ≤ (m.port port).retries ∨ 16 ≤ (m.port port).sent → Steps s (.linkDown port) (m.portDown port))) ∧
    (trains mode = true → Steps s (.hostPortTrain mode) { m with host := mode }) ∧
    (∃ m', Steps s (.granaryPortTrain port fast) m' ∧ (port < 2 → tget 0 m'.granary port = if fast then 256 else 68))

/-- R362 to R368, R377 to R381, R386, R387: generations, row paths, refresh and scrub. That a drain waits until every home has received DONE of its
generation's epoch is DEDUCED (log 127). That a refresh with DEBT below 8 and demand waiting IS
postponed is the model's choice (log 50): R377 says that the pseudo-channel may. HIGH follows the largest DEBT since it was last written with 0. -/
def Obligations.MemorySteps : Prop :=
  ∀ s p pg id stk pc demand at_ g m1,
    let m := s.m
    let x := m.refreshAt stk pc
    let high (d : Int) : BitVec 8 := if (x.high.toNat : Int) < d then BitVec.ofInt 8 d else x.high
    (m.owed pg = true → m.writeAwaits pg = true → m.preserve pg = some m1 → m.partOf (stackOfPage pg) = some p →
      Steps s (.copyOnWrite pg) (m1.modPart p (fun x => { x with copied := pg :: x.copied }))) ∧
    ((m.part p).draining = some g → (m.part p).settled g = true → (g.nextPage.isSome = true → Steps s (.generationDrainPage p) (m.drainPage p)) ∧
      (g.nextPage = none → Steps s (.generationComplete p) (m.modPart p (fun x => x.setGen { g with st := 2 })))) ∧
    (m.rowTurn id = true → Steps s (.rowPathComplete id) (m.rowDone id)) ∧
    (stk < 12 → pc < 64 →
      (8 ≤ x.debt → Steps s (.refreshInterval stk pc demand)
        (m.setRefresh stk pc { x with high := high x.debt, forced := if x.forced = BitVec.allOnes 32 then x.forced else x.forced + 1 })) ∧
      (x.debt < 8 → demand = true →
        Steps s (.refreshInterval stk pc demand) (m.setRefresh stk pc { x with debt := x.debt + 1, high := high (x.debt + 1) })) ∧
      (-8 < x.debt → Steps s (.refreshPullIn stk pc) (m.setRefresh stk pc { x with debt := x.debt - 1, high := high x.debt }))) ∧
    (stk < 12 → (tget Scrub.reset m.scrub stk).base ≠ 0 → Steps s (.scrubPage stk) (m.scrubPage stk)) ∧
    Steps s (.sramDoubleError at_) (m.doubleError at_)

/-- R394, R99, R100, R299: a stopped group is let go on at the word after its breakpoint; records are cleared; modules load and
unload; registers are written. -/
def Obligations.FaultAndLoaderSteps : Prop :=
  ∀ s p dom val ctx d file places tables by_ sp off,
    let m := s.m
    let c := (fld val 0 11).toNat
    let k := (fld val 11 5).toNat
    (byImage p (m.role by_) = true → bitAt val 63 = true → fld val 16 47 = 0 → m.stoppedBy p dom c k = true → Steps s (.fdresGo p dom ⟨by_, val⟩)
      (m.setGroup c k { Woken m (m.group c k) with pc := (m.group c k).pc + 1 })) ∧
    ((m.part p).v = true → byImage p (m.role by_) = true → ∃ m', Steps s (.fdstatRecClear p ⟨by_, dom⟩) m' ∧ ((m'.part p).fd dom).hasRec = false) ∧
    ((m.part p).v = true → ctx < 8 → d < 32 → ((m.part p).desc ctx d).v = false → m.loadCode p ctx (ivoOf file) places = none →
      Steps s (.moduleLoad p ctx d file places tables) (m.load p ctx d (ivoOf file) places tables)) ∧
    (((m.part p).desc ctx d).v = true → m.retired p ctx d ((m.part p).desc ctx d) = true → Steps s (.moduleUnload p ctx d) (m.unload p ctx d)) ∧
    Steps s (.registerWrite by_ sp off val) (m.writeReg (m.role by_) sp off val)

/-- R400, R404, R405: PKGCAP is set by the steward through the reeve, and clamped; a die that passed its grant loses one issue slot in sixteen and
else gains one; a die at 105 °C issues nothing, one at 95 °C at most half, until it has cooled below 95 °C and 90 °C; a stack or I/O die trips at 105
°C until below 95 °C. -/
def Obligations.PowerAndHeat : Prop :=
  ∀ s by_ (w : BitVec 12) energy req d t,
    exec (.pkgcapWrite ⟨by_, w⟩) s = .next (if viaReeve (s.m.role by_) then { s with fw := { s.fw with
      pkgcap := if w.toNat < 1200 then 1200 else if 2600 < w.toNat then 2600 else w.toNat } } else s) ∧
    (d < 6 → ∃ s', exec (.powerArbiterStep energy req) s = .next s' ∧ let f := s'.fw
      tget 16 f.duty d = (if tget 0 s.fw.grants d ≠ 0 ∧ tget 0 s.fw.grants d < amount energy d
        then max 2 (tget 16 s.fw.duty d - 1) else min 16 (tget 16 s.fw.duty d + 1)) ∧
      120000 ≤ tget 0 f.grants d ∧ tget 0 f.grants d ≤ 340000) ∧
    (d < 6 → ∃ s', exec (.thermalAction (.die d) t) s = .next s' ∧
      (105 ≤ t → tget 16 s'.fw.dutyCap d = 0) ∧ (95 ≤ t → t < 105 → tget 16 s.fw.dutyCap d ≠ 0 → tget 16 s'.fw.dutyCap d = 8) ∧
      (t < 90 → tget 16 s'.fw.dutyCap d = 16) ∧ ∀ e, e ≠ d → tget 16 s'.fw.dutyCap e = tget 16 s.fw.dutyCap e) ∧
    (∀ k, ∃ s', exec (.thermalAction (.stack k) t) s = .next s' ∧ tget false s'.fw.hot k = decide (85 ≤ t) ∧ s'.fw.dutyCap = s.fw.dutyCap ∧
      (105 ≤ t → tget false s'.m.stackTrip k = true) ∧ (t < 95 → tget false s'.m.stackTrip k = false)) ∧
    (∀ k, ∃ s', exec (.thermalAction (.io k) t) s = .next s' ∧ s'.fw.dutyCap = s.fw.dutyCap ∧
      (105 ≤ t → tget false s'.m.ioTrip k = true) ∧ (t < 95 → tget false s'.m.ioTrip k = false))

/-- The grants of a step are together at most PKGCAP (R404). -/
def Obligations.GrantsWithinCap : Prop :=
  ∀ (f : Firm) energy req, Firm.Ok f →
    ((List.range 20).map (fun u => tget 0 (f.arbiter energy req).grants u)).sum ≤ 1000 * f.pkgcap

/-- R402, R403: the resets keep the leaf index; a cold reset whose boot passes steps 1 and 2 leaves device memory zero, a warm one whose boot
stops keeps it and leaves the caches empty (one whose boot passes also rescans, R403, and writes: not stated); a report takes the next leaf; a
partition is made anew by a write that the limits allow. -/
def Obligations.ResetsAndReports : Prop :=
  ∀ s images ok p nonce val image b,
    (∃ t, exec (.coldReset images ok) s = .next t ∧ t.fw.leaf = s.fw.leaf ∧ t.m.cores = [] ∧ t.m.parts = [] ∧
      (nthOk ok 0 = true → nthOk ok 1 = true → t.m.dram = [] ∧ t.m.poison = [])) ∧
    (∃ t, exec (.warmReset images ok) s = .next t ∧ t.fw.leaf = s.fw.leaf ∧
      (t.fw.stopped = true → t.m.dram = s.m.dram ∧ t.m.cached = [] ∧ t.m.cores = [] ∧ t.m.poison = s.m.poison)) ∧
    ((s.m.part p).v = true → s.fw.leaf < 2 ^ 20 → ∃ f, exec (.attestationReport p nonce) s = .next { s with fw := f } ∧
      f.leaf = s.fw.leaf + 1 ∧ f.report = some (s.fw.leaf, nonce, Config.lmsSign s.fw.leaf (s.fw.signed p nonce))) ∧
    ((s.m.part p).v = true → 2 ^ 20 ≤ s.fw.leaf → exec (.attestationReport p nonce) s = .next s) ∧
    ((s.m.part p).idle = true → (s.m.part p).v = false → bitAt val 28 = true → s.m.pcfgOk p val = true →
      ∃ t, exec (.partitionCreate p ⟨.control 0, val⟩ image b) s = .next t ∧ (t.m.part p).v = true ∧ (t.m.part p).size = (fld val 12 4).toNat ∧
        (∀ a, inSlices p (fld val 12 4).toNat a = true → t.m.homeByte a = 0))

/-! ### Memory -/

/-- R268, R375: a byte written at its home reads back; every other byte keeps its value, whatever the caches do; every memory
keeps its canonical form. -/
def Obligations.MemoryReadsBack : Prop :=
  ∀ (m : Mach) pa b f home bs a c key, Mach.MemOk m → (∀ c, Memory.wf (m.core c).sp = true) →
    Mach.MemOk (m.pokeByte pa b) ∧ (m.pokeByte pa b).homeByte a = (if a = pa then b else m.homeByte a) ∧
    Mach.MemOk (m.flush f) ∧ (m.flush f).homeByte a = m.homeByte a ∧
    Mach.MemOk (m.farWrite home pa bs) ∧ (m.farWrite home pa bs).farBytes home pa bs.length = bs ∧
    (m.spWrite c key bs).spRead c key bs.length = bs ∧
    (a < key ∨ key + bs.length ≤ a → (m.spWrite c key bs).spRead c a 1 = m.spRead c a 1) ∧
    (a ≠ c → ((m.spWrite c key bs).core a).sp = (m.core a).sp) ∧ (∀ k, Memory.wf ((m.spWrite c key bs).core k).sp = true)
end

