-- ==== Sys2Proof/Laws/Tab.lean ====
section
/-! SUPPORT. The laws of sparse tables: a read after a write, the canonical form that every write keeps, and rewriting all entries. -/

namespace Sys2Proof.Machine

variable {α : Type}

theorem tget_nil (d : α) (n : Nat) : tget d [] n = d := rfl

theorem tget_cons (d : α) (k : Nat) (x : α) (t : Tab α) (n : Nat) : tget d ((k, x) :: t) n = if n = k then x else tget d t n := rfl

theorem tget_tput (d : α) (t : Tab α) (n m : Nat) (x : α) : tget d (tput t n x) m = if m = n then x else tget d t m := by
  induction t with
  | nil => simp [tput, tget]
  | cons kx t ih =>
    obtain ⟨k, y⟩ := kx
    simp only [tput]
    split
    · rfl
    · split
      · subst k; simp only [tget_cons]; split <;> rfl
      · rename_i hk; simp only [tget_cons, ih]
        by_cases h1 : m = k
        · subst h1; simp [Ne.symm hk]
        · simp [h1]

theorem tget_tdel (d : α) (t : Tab α) (n m : Nat) : tget d (tdel t n) m = if m = n then d else tget d t m := by
  induction t with
  | nil => simp [tdel, tget]
  | cons kx t ih =>
    obtain ⟨k, y⟩ := kx
    simp only [tdel]
    split
    · subst k; rw [ih]; split <;> simp_all [tget_cons]
    · rename_i hk; simp only [tget_cons, ih]
      by_cases h1 : m = k
      · subst h1; simp [Ne.symm hk]
      · simp [h1]

variable [DecidableEq α]

/-- A read after a write: the value written at its key, the old value at every other. -/
@[simp] theorem tget_tset (d : α) (t : Tab α) (n m : Nat) (x : α) : tget d (tset d t n x) m = if m = n then x else tget d t m := by
  unfold tset
  split
  · subst x; exact tget_tdel d t n m
  · exact tget_tput d t n m x

theorem tget_tset_self (d : α) (t : Tab α) (n : Nat) (x : α) : tget d (tset d t n x) n = x := by simp

theorem tget_tset_of_ne (d : α) (t : Tab α) {n m : Nat} (x : α) (h : m ≠ n) : tget d (tset d t n x) m = tget d t m := by simp [h]

/-! ### The canonical form -/

theorem wf_cons (d : α) (k : Nat) (x : α) (t : Tab α) :
    Tab.wf d ((k, x) :: t) = true ↔ x ≠ d ∧ (∀ y ∈ t.head?, k < y.1) ∧ Tab.wf d t = true := by
  cases t with
  | nil => simp [Tab.wf]
  | cons y t => obtain ⟨k', x'⟩ := y; simp [Tab.wf, and_assoc]

/-- The form says that keys rise and that no default is listed. -/
theorem wf_iff (d : α) (t : Tab α) : Tab.wf d t = true ↔ (t.map (·.1)).Pairwise (· < ·) ∧ ∀ y ∈ t, y.2 ≠ d := by
  induction t with
  | nil => simp [Tab.wf]
  | cons y t ih =>
    obtain ⟨k, x⟩ := y
    rw [wf_cons, ih]
    simp only [List.map_cons, List.pairwise_cons, List.mem_cons, forall_eq_or_imp]
    constructor
    · rintro ⟨hx, hk, hp, hd⟩
      refine ⟨⟨?_, hp⟩, hx, hd⟩
      cases t with
      | nil => simp
      | cons z t =>
        simp only [List.head?_cons, Option.mem_def, Option.some.injEq, forall_eq'] at hk
        simp only [List.map_cons, List.pairwise_cons] at hp
        simp only [List.map_cons, List.mem_cons, forall_eq_or_imp]
        exact ⟨hk, fun a ha => Nat.lt_trans hk (hp.1 a ha)⟩
    · rintro ⟨⟨hk, hp⟩, hx, hd⟩
      refine ⟨hx, ?_, hp, hd⟩
      intro y hy
      exact hk y.1 (List.mem_map_of_mem (List.mem_of_mem_head? hy))

theorem wf_nil (d : α) : Tab.wf d [] = true := rfl

omit [DecidableEq α] in
theorem tdel_sublist (t : Tab α) (n : Nat) : (tdel t n).Sublist t := by
  induction t with
  | nil => exact List.Sublist.slnil
  | cons y t ih =>
    obtain ⟨k, x⟩ := y
    simp only [tdel]
    split
    · exact ih.cons _
    · exact ih.cons_cons _

omit [DecidableEq α] in
theorem mem_tput {t : Tab α} {n : Nat} {x : α} {y : Nat × α} (h : y ∈ tput t n x) : y = (n, x) ∨ y ∈ t := by
  induction t with
  | nil => simpa [tput] using h
  | cons z t ih =>
    obtain ⟨k, w⟩ := z
    simp only [tput] at h
    split at h
    · simpa using h
    · split at h
      · rcases List.mem_cons.1 h with h | h
        · exact .inl h
        · exact .inr (List.mem_cons_of_mem _ h)
      · rcases List.mem_cons.1 h with h | h
        · exact .inr (h ▸ List.mem_cons_self)
        · rcases ih h with h | h
          · exact .inl h
          · exact .inr (List.mem_cons_of_mem _ h)

omit [DecidableEq α] in
/-- A write keeps the keys rising. -/
theorem rising_tput (t : Tab α) (n : Nat) (x : α) (h : (t.map (·.1)).Pairwise (· < ·)) : ((tput t n x).map (·.1)).Pairwise (· < ·) := by
  induction t with
  | nil => simp [tput]
  | cons z t ih =>
    obtain ⟨k, w⟩ := z
    simp only [List.map_cons, List.pairwise_cons] at h
    simp only [tput]
    split
    · rename_i hn
      simp only [List.map_cons, List.pairwise_cons, List.mem_cons, forall_eq_or_imp]
      exact ⟨⟨hn, fun a ha => Nat.lt_trans hn (h.1 a ha)⟩, h.1, h.2⟩
    · split
      · subst k; simpa using h
      · rename_i hn hk
        simp only [List.map_cons, List.pairwise_cons]
        refine ⟨?_, ih h.2⟩
        intro a ha
        obtain ⟨y, hy, rfl⟩ := List.mem_map.1 ha
        rcases mem_tput hy with rfl | hy
        · show k < n; omega
        · exact h.1 _ (List.mem_map_of_mem hy)

omit [DecidableEq α] in
theorem rising_tdel (t : Tab α) (n : Nat) (h : (t.map (·.1)).Pairwise (· < ·)) : ((tdel t n).map (·.1)).Pairwise (· < ·) :=
  h.sublist ((tdel_sublist t n).map _)

/-- A write keeps the canonical form. -/
theorem wf_tset (d : α) (t : Tab α) (n : Nat) (x : α) (h : Tab.wf d t = true) : Tab.wf d (tset d t n x) = true := by
  rw [wf_iff] at h ⊢
  unfold tset
  split
  · exact ⟨rising_tdel t n h.1, fun y hy => h.2 y ((tdel_sublist t n).subset hy)⟩
  · rename_i hx
    refine ⟨rising_tput t n x h.1, fun y hy => ?_⟩
    rcases mem_tput hy with rfl | hy
    · exact hx
    · exact h.2 y hy

theorem wf_foldl_tset {β : Type} (d : α) (k : β → Nat) (v : β → α) (l : List β) (t : Tab α) (h : Tab.wf d t = true) :
    Tab.wf d (l.foldl (fun t b => tset d t (k b) (v b)) t) = true := by
  induction l generalizing t with
  | nil => exact h
  | cons b l ih => exact ih _ (wf_tset d t _ _ h)

theorem wf_filter (d : α) (t : Tab α) (f : Nat × α → Bool) (h : Tab.wf d t = true) : Tab.wf d (t.filter f) = true := by
  rw [wf_iff] at h ⊢
  exact ⟨h.1.sublist (List.filter_sublist.map _), fun y hy => h.2 y ((List.mem_filter.1 hy).1)⟩

/-! ### Rewriting every listed entry -/

theorem tmap_cons (d : α) (f : Nat → α → α) (k : Nat) (x : α) (t : Tab α) : tmap d f ((k, x) :: t) = tset d (tmap d f t) k (f k x) := rfl

/-- Each listed entry is rewritten; an unlisted key keeps the default. -/
theorem tget_tmap (d : α) (f : Nat → α → α) (t : Tab α) (n : Nat) :
    tget d (tmap d f t) n = if n ∈ t.map (·.1) then f n (tget d t n) else d := by
  induction t with
  | nil => rfl
  | cons y t ih =>
    obtain ⟨k, x⟩ := y
    rw [tmap_cons, tget_tset, tget_cons, ih]
    by_cases h : n = k
    · subst h; simp
    · simp only [h, if_false, List.map_cons, List.mem_cons, false_or]

/-- When the default stays as it is, rewriting is pointwise. -/
theorem tget_tmap_of (d : α) (f : Nat → α → α) (t : Tab α) (n : Nat) (h : f n d = d) : tget d (tmap d f t) n = f n (tget d t n) := by
  rw [tget_tmap]
  split
  · rfl
  · rename_i hn
    have : tget d t n = d := by
      clear h
      induction t with
      | nil => rfl
      | cons y t ih => obtain ⟨k, x⟩ := y; simp only [List.map_cons, List.mem_cons, not_or] at hn; rw [tget_cons, if_neg hn.1]; exact ih hn.2
    rw [this, h]

theorem wf_tmap (d : α) (f : Nat → α → α) (t : Tab α) : Tab.wf d (tmap d f t) = true := by
  induction t with
  | nil => rfl
  | cons y t ih => exact wf_tset d _ _ _ ih

end Sys2Proof.Machine
end

