-- ==== Sys2Proof/Laws/State.lean ====
section
/-! SUPPORT. What each named update of the machine and of a group leaves as it was, field by field, and what reads give after it. -/

namespace Sys2Proof.Machine

/-! ### `Mach.setCore` -/

section
variable (m : Mach) (c : Nat) (x : Core)

@[simp] theorem setCore_clock : (m.setCore c x).clock = m.clock := rfl
@[simp] theorem setCore_tick : (m.setCore c x).tick = m.tick := rfl
@[simp] theorem setCore_nextId : (m.setCore c x).nextId = m.nextId := rfl
@[simp] theorem setCore_cur : (m.setCore c x).cur = m.cur := rfl
@[simp] theorem setCore_late : (m.setCore c x).late = m.late := rfl
@[simp] theorem setCore_teams : (m.setCore c x).teams = m.teams := rfl
@[simp] theorem setCore_insts : (m.setCore c x).insts = m.insts := rfl
@[simp] theorem setCore_parts : (m.setCore c x).parts = m.parts := rfl
@[simp] theorem setCore_shadow : (m.setCore c x).shadow = m.shadow := rfl
@[simp] theorem setCore_dram : (m.setCore c x).dram = m.dram := rfl
@[simp] theorem setCore_cached : (m.setCore c x).cached = m.cached := rfl
@[simp] theorem setCore_poison : (m.setCore c x).poison = m.poison := rfl
@[simp] theorem setCore_symErr : (m.setCore c x).symErr = m.symErr := rfl
@[simp] theorem setCore_events : (m.setCore c x).events = m.events := rfl
@[simp] theorem setCore_l2 : (m.setCore c x).l2 = m.l2 := rfl
@[simp] theorem setCore_ms : (m.setCore c x).ms = m.ms := rfl
@[simp] theorem setCore_far : (m.setCore c x).far = m.far := rfl
@[simp] theorem setCore_copies : (m.setCore c x).copies = m.copies := rfl
@[simp] theorem setCore_drains : (m.setCore c x).drains = m.drains := rfl
@[simp] theorem setCore_siteMsgs : (m.setCore c x).siteMsgs = m.siteMsgs := rfl
@[simp] theorem setCore_remotes : (m.setCore c x).remotes = m.remotes := rfl
@[simp] theorem setCore_rowOps : (m.setCore c x).rowOps = m.rowOps := rfl
@[simp] theorem setCore_reserveUsed : (m.setCore c x).reserveUsed = m.reserveUsed := rfl
@[simp] theorem setCore_refresh : (m.setCore c x).refresh = m.refresh := rfl
@[simp] theorem setCore_scrub : (m.setCore c x).scrub = m.scrub := rfl
@[simp] theorem setCore_lends : (m.setCore c x).lends = m.lends := rfl
@[simp] theorem setCore_domid : (m.setCore c x).domid = m.domid := rfl
@[simp] theorem setCore_dommem : (m.setCore c x).dommem = m.dommem := rfl
@[simp] theorem setCore_routes : (m.setCore c x).routes = m.routes := rfl
@[simp] theorem setCore_ports : (m.setCore c x).ports = m.ports := rfl
@[simp] theorem setCore_host : (m.setCore c x).host = m.host := rfl
@[simp] theorem setCore_granary : (m.setCore c x).granary = m.granary := rfl
@[simp] theorem setCore_stackTrip : (m.setCore c x).stackTrip = m.stackTrip := rfl
@[simp] theorem setCore_ioTrip : (m.setCore c x).ioTrip = m.ioTrip := rfl
@[simp] theorem setCore_images : (m.setCore c x).images = m.images := rfl

end

/-! ### `Mach.setGroup` -/

section
variable (m : Mach) (c k : Nat) (g : Group)

@[simp] theorem setGroup_clock : (m.setGroup c k g).clock = m.clock := rfl
@[simp] theorem setGroup_tick : (m.setGroup c k g).tick = m.tick := rfl
@[simp] theorem setGroup_nextId : (m.setGroup c k g).nextId = m.nextId := rfl
@[simp] theorem setGroup_cur : (m.setGroup c k g).cur = m.cur := rfl
@[simp] theorem setGroup_late : (m.setGroup c k g).late = m.late := rfl
@[simp] theorem setGroup_teams : (m.setGroup c k g).teams = m.teams := rfl
@[simp] theorem setGroup_insts : (m.setGroup c k g).insts = m.insts := rfl
@[simp] theorem setGroup_parts : (m.setGroup c k g).parts = m.parts := rfl
@[simp] theorem setGroup_shadow : (m.setGroup c k g).shadow = m.shadow := rfl
@[simp] theorem setGroup_dram : (m.setGroup c k g).dram = m.dram := rfl
@[simp] theorem setGroup_cached : (m.setGroup c k g).cached = m.cached := rfl
@[simp] theorem setGroup_poison : (m.setGroup c k g).poison = m.poison := rfl
@[simp] theorem setGroup_symErr : (m.setGroup c k g).symErr = m.symErr := rfl
@[simp] theorem setGroup_events : (m.setGroup c k g).events = m.events := rfl
@[simp] theorem setGroup_l2 : (m.setGroup c k g).l2 = m.l2 := rfl
@[simp] theorem setGroup_ms : (m.setGroup c k g).ms = m.ms := rfl
@[simp] theorem setGroup_far : (m.setGroup c k g).far = m.far := rfl
@[simp] theorem setGroup_copies : (m.setGroup c k g).copies = m.copies := rfl
@[simp] theorem setGroup_drains : (m.setGroup c k g).drains = m.drains := rfl
@[simp] theorem setGroup_siteMsgs : (m.setGroup c k g).siteMsgs = m.siteMsgs := rfl
@[simp] theorem setGroup_remotes : (m.setGroup c k g).remotes = m.remotes := rfl
@[simp] theorem setGroup_rowOps : (m.setGroup c k g).rowOps = m.rowOps := rfl
@[simp] theorem setGroup_reserveUsed : (m.setGroup c k g).reserveUsed = m.reserveUsed := rfl
@[simp] theorem setGroup_refresh : (m.setGroup c k g).refresh = m.refresh := rfl
@[simp] theorem setGroup_scrub : (m.setGroup c k g).scrub = m.scrub := rfl
@[simp] theorem setGroup_lends : (m.setGroup c k g).lends = m.lends := rfl
@[simp] theorem setGroup_domid : (m.setGroup c k g).domid = m.domid := rfl
@[simp] theorem setGroup_dommem : (m.setGroup c k g).dommem = m.dommem := rfl
@[simp] theorem setGroup_routes : (m.setGroup c k g).routes = m.routes := rfl
@[simp] theorem setGroup_ports : (m.setGroup c k g).ports = m.ports := rfl
@[simp] theorem setGroup_host : (m.setGroup c k g).host = m.host := rfl
@[simp] theorem setGroup_granary : (m.setGroup c k g).granary = m.granary := rfl
@[simp] theorem setGroup_stackTrip : (m.setGroup c k g).stackTrip = m.stackTrip := rfl
@[simp] theorem setGroup_ioTrip : (m.setGroup c k g).ioTrip = m.ioTrip := rfl
@[simp] theorem setGroup_images : (m.setGroup c k g).images = m.images := rfl

end

/-! ### `Mach.setMe` -/

section
variable (m : Mach) (g : Group)

@[simp] theorem setMe_clock : (m.setMe g).clock = m.clock := rfl
@[simp] theorem setMe_tick : (m.setMe g).tick = m.tick := rfl
@[simp] theorem setMe_nextId : (m.setMe g).nextId = m.nextId := rfl
@[simp] theorem setMe_cur : (m.setMe g).cur = m.cur := rfl
@[simp] theorem setMe_late : (m.setMe g).late = m.late := rfl
@[simp] theorem setMe_teams : (m.setMe g).teams = m.teams := rfl
@[simp] theorem setMe_insts : (m.setMe g).insts = m.insts := rfl
@[simp] theorem setMe_parts : (m.setMe g).parts = m.parts := rfl
@[simp] theorem setMe_shadow : (m.setMe g).shadow = m.shadow := rfl
@[simp] theorem setMe_dram : (m.setMe g).dram = m.dram := rfl
@[simp] theorem setMe_cached : (m.setMe g).cached = m.cached := rfl
@[simp] theorem setMe_poison : (m.setMe g).poison = m.poison := rfl
@[simp] theorem setMe_symErr : (m.setMe g).symErr = m.symErr := rfl
@[simp] theorem setMe_events : (m.setMe g).events = m.events := rfl
@[simp] theorem setMe_l2 : (m.setMe g).l2 = m.l2 := rfl
@[simp] theorem setMe_ms : (m.setMe g).ms = m.ms := rfl
@[simp] theorem setMe_far : (m.setMe g).far = m.far := rfl
@[simp] theorem setMe_copies : (m.setMe g).copies = m.copies := rfl
@[simp] theorem setMe_drains : (m.setMe g).drains = m.drains := rfl
@[simp] theorem setMe_siteMsgs : (m.setMe g).siteMsgs = m.siteMsgs := rfl
@[simp] theorem setMe_remotes : (m.setMe g).remotes = m.remotes := rfl
@[simp] theorem setMe_rowOps : (m.setMe g).rowOps = m.rowOps := rfl
@[simp] theorem setMe_reserveUsed : (m.setMe g).reserveUsed = m.reserveUsed := rfl
@[simp] theorem setMe_refresh : (m.setMe g).refresh = m.refresh := rfl
@[simp] theorem setMe_scrub : (m.setMe g).scrub = m.scrub := rfl
@[simp] theorem setMe_lends : (m.setMe g).lends = m.lends := rfl
@[simp] theorem setMe_domid : (m.setMe g).domid = m.domid := rfl
@[simp] theorem setMe_dommem : (m.setMe g).dommem = m.dommem := rfl
@[simp] theorem setMe_routes : (m.setMe g).routes = m.routes := rfl
@[simp] theorem setMe_ports : (m.setMe g).ports = m.ports := rfl
@[simp] theorem setMe_host : (m.setMe g).host = m.host := rfl
@[simp] theorem setMe_granary : (m.setMe g).granary = m.granary := rfl
@[simp] theorem setMe_stackTrip : (m.setMe g).stackTrip = m.stackTrip := rfl
@[simp] theorem setMe_ioTrip : (m.setMe g).ioTrip = m.ioTrip := rfl
@[simp] theorem setMe_images : (m.setMe g).images = m.images := rfl

end

/-! ### `Mach.modMe` -/

section
variable (m : Mach) (f : Group → Group)

@[simp] theorem modMe_clock : (m.modMe f).clock = m.clock := rfl
@[simp] theorem modMe_tick : (m.modMe f).tick = m.tick := rfl
@[simp] theorem modMe_nextId : (m.modMe f).nextId = m.nextId := rfl
@[simp] theorem modMe_cur : (m.modMe f).cur = m.cur := rfl
@[simp] theorem modMe_late : (m.modMe f).late = m.late := rfl
@[simp] theorem modMe_teams : (m.modMe f).teams = m.teams := rfl
@[simp] theorem modMe_insts : (m.modMe f).insts = m.insts := rfl
@[simp] theorem modMe_parts : (m.modMe f).parts = m.parts := rfl
@[simp] theorem modMe_shadow : (m.modMe f).shadow = m.shadow := rfl
@[simp] theorem modMe_dram : (m.modMe f).dram = m.dram := rfl
@[simp] theorem modMe_cached : (m.modMe f).cached = m.cached := rfl
@[simp] theorem modMe_poison : (m.modMe f).poison = m.poison := rfl
@[simp] theorem modMe_symErr : (m.modMe f).symErr = m.symErr := rfl
@[simp] theorem modMe_events : (m.modMe f).events = m.events := rfl
@[simp] theorem modMe_l2 : (m.modMe f).l2 = m.l2 := rfl
@[simp] theorem modMe_ms : (m.modMe f).ms = m.ms := rfl
@[simp] theorem modMe_far : (m.modMe f).far = m.far := rfl
@[simp] theorem modMe_copies : (m.modMe f).copies = m.copies := rfl
@[simp] theorem modMe_drains : (m.modMe f).drains = m.drains := rfl
@[simp] theorem modMe_siteMsgs : (m.modMe f).siteMsgs = m.siteMsgs := rfl
@[simp] theorem modMe_remotes : (m.modMe f).remotes = m.remotes := rfl
@[simp] theorem modMe_rowOps : (m.modMe f).rowOps = m.rowOps := rfl
@[simp] theorem modMe_reserveUsed : (m.modMe f).reserveUsed = m.reserveUsed := rfl
@[simp] theorem modMe_refresh : (m.modMe f).refresh = m.refresh := rfl
@[simp] theorem modMe_scrub : (m.modMe f).scrub = m.scrub := rfl
@[simp] theorem modMe_lends : (m.modMe f).lends = m.lends := rfl
@[simp] theorem modMe_domid : (m.modMe f).domid = m.domid := rfl
@[simp] theorem modMe_dommem : (m.modMe f).dommem = m.dommem := rfl
@[simp] theorem modMe_routes : (m.modMe f).routes = m.routes := rfl
@[simp] theorem modMe_ports : (m.modMe f).ports = m.ports := rfl
@[simp] theorem modMe_host : (m.modMe f).host = m.host := rfl
@[simp] theorem modMe_granary : (m.modMe f).granary = m.granary := rfl
@[simp] theorem modMe_stackTrip : (m.modMe f).stackTrip = m.stackTrip := rfl
@[simp] theorem modMe_ioTrip : (m.modMe f).ioTrip = m.ioTrip := rfl
@[simp] theorem modMe_images : (m.modMe f).images = m.images := rfl

end

/-! ### `Mach.modCore` -/

section
variable (m : Mach) (c : Nat) (f : Core → Core)

@[simp] theorem modCore_clock : (m.modCore c f).clock = m.clock := rfl
@[simp] theorem modCore_tick : (m.modCore c f).tick = m.tick := rfl
@[simp] theorem modCore_nextId : (m.modCore c f).nextId = m.nextId := rfl
@[simp] theorem modCore_cur : (m.modCore c f).cur = m.cur := rfl
@[simp] theorem modCore_late : (m.modCore c f).late = m.late := rfl
@[simp] theorem modCore_teams : (m.modCore c f).teams = m.teams := rfl
@[simp] theorem modCore_insts : (m.modCore c f).insts = m.insts := rfl
@[simp] theorem modCore_parts : (m.modCore c f).parts = m.parts := rfl
@[simp] theorem modCore_shadow : (m.modCore c f).shadow = m.shadow := rfl
@[simp] theorem modCore_dram : (m.modCore c f).dram = m.dram := rfl
@[simp] theorem modCore_cached : (m.modCore c f).cached = m.cached := rfl
@[simp] theorem modCore_poison : (m.modCore c f).poison = m.poison := rfl
@[simp] theorem modCore_symErr : (m.modCore c f).symErr = m.symErr := rfl
@[simp] theorem modCore_events : (m.modCore c f).events = m.events := rfl
@[simp] theorem modCore_l2 : (m.modCore c f).l2 = m.l2 := rfl
@[simp] theorem modCore_ms : (m.modCore c f).ms = m.ms := rfl
@[simp] theorem modCore_far : (m.modCore c f).far = m.far := rfl
@[simp] theorem modCore_copies : (m.modCore c f).copies = m.copies := rfl
@[simp] theorem modCore_drains : (m.modCore c f).drains = m.drains := rfl
@[simp] theorem modCore_siteMsgs : (m.modCore c f).siteMsgs = m.siteMsgs := rfl
@[simp] theorem modCore_remotes : (m.modCore c f).remotes = m.remotes := rfl
@[simp] theorem modCore_rowOps : (m.modCore c f).rowOps = m.rowOps := rfl
@[simp] theorem modCore_reserveUsed : (m.modCore c f).reserveUsed = m.reserveUsed := rfl
@[simp] theorem modCore_refresh : (m.modCore c f).refresh = m.refresh := rfl
@[simp] theorem modCore_scrub : (m.modCore c f).scrub = m.scrub := rfl
@[simp] theorem modCore_lends : (m.modCore c f).lends = m.lends := rfl
@[simp] theorem modCore_domid : (m.modCore c f).domid = m.domid := rfl
@[simp] theorem modCore_dommem : (m.modCore c f).dommem = m.dommem := rfl
@[simp] theorem modCore_routes : (m.modCore c f).routes = m.routes := rfl
@[simp] theorem modCore_ports : (m.modCore c f).ports = m.ports := rfl
@[simp] theorem modCore_host : (m.modCore c f).host = m.host := rfl
@[simp] theorem modCore_granary : (m.modCore c f).granary = m.granary := rfl
@[simp] theorem modCore_stackTrip : (m.modCore c f).stackTrip = m.stackTrip := rfl
@[simp] theorem modCore_ioTrip : (m.modCore c f).ioTrip = m.ioTrip := rfl
@[simp] theorem modCore_images : (m.modCore c f).images = m.images := rfl

end

/-! ### `Mach.setTeam` -/

section
variable (m : Mach) (t : Nat) (x : Team)

@[simp] theorem setTeam_clock : (m.setTeam t x).clock = m.clock := rfl
@[simp] theorem setTeam_tick : (m.setTeam t x).tick = m.tick := rfl
@[simp] theorem setTeam_nextId : (m.setTeam t x).nextId = m.nextId := rfl
@[simp] theorem setTeam_cur : (m.setTeam t x).cur = m.cur := rfl
@[simp] theorem setTeam_late : (m.setTeam t x).late = m.late := rfl
@[simp] theorem setTeam_cores : (m.setTeam t x).cores = m.cores := rfl
@[simp] theorem setTeam_insts : (m.setTeam t x).insts = m.insts := rfl
@[simp] theorem setTeam_parts : (m.setTeam t x).parts = m.parts := rfl
@[simp] theorem setTeam_shadow : (m.setTeam t x).shadow = m.shadow := rfl
@[simp] theorem setTeam_dram : (m.setTeam t x).dram = m.dram := rfl
@[simp] theorem setTeam_cached : (m.setTeam t x).cached = m.cached := rfl
@[simp] theorem setTeam_poison : (m.setTeam t x).poison = m.poison := rfl
@[simp] theorem setTeam_symErr : (m.setTeam t x).symErr = m.symErr := rfl
@[simp] theorem setTeam_events : (m.setTeam t x).events = m.events := rfl
@[simp] theorem setTeam_l2 : (m.setTeam t x).l2 = m.l2 := rfl
@[simp] theorem setTeam_ms : (m.setTeam t x).ms = m.ms := rfl
@[simp] theorem setTeam_far : (m.setTeam t x).far = m.far := rfl
@[simp] theorem setTeam_copies : (m.setTeam t x).copies = m.copies := rfl
@[simp] theorem setTeam_drains : (m.setTeam t x).drains = m.drains := rfl
@[simp] theorem setTeam_siteMsgs : (m.setTeam t x).siteMsgs = m.siteMsgs := rfl
@[simp] theorem setTeam_remotes : (m.setTeam t x).remotes = m.remotes := rfl
@[simp] theorem setTeam_rowOps : (m.setTeam t x).rowOps = m.rowOps := rfl
@[simp] theorem setTeam_reserveUsed : (m.setTeam t x).reserveUsed = m.reserveUsed := rfl
@[simp] theorem setTeam_refresh : (m.setTeam t x).refresh = m.refresh := rfl
@[simp] theorem setTeam_scrub : (m.setTeam t x).scrub = m.scrub := rfl
@[simp] theorem setTeam_lends : (m.setTeam t x).lends = m.lends := rfl
@[simp] theorem setTeam_domid : (m.setTeam t x).domid = m.domid := rfl
@[simp] theorem setTeam_dommem : (m.setTeam t x).dommem = m.dommem := rfl
@[simp] theorem setTeam_routes : (m.setTeam t x).routes = m.routes := rfl
@[simp] theorem setTeam_ports : (m.setTeam t x).ports = m.ports := rfl
@[simp] theorem setTeam_host : (m.setTeam t x).host = m.host := rfl
@[simp] theorem setTeam_granary : (m.setTeam t x).granary = m.granary := rfl
@[simp] theorem setTeam_stackTrip : (m.setTeam t x).stackTrip = m.stackTrip := rfl
@[simp] theorem setTeam_ioTrip : (m.setTeam t x).ioTrip = m.ioTrip := rfl
@[simp] theorem setTeam_images : (m.setTeam t x).images = m.images := rfl

end

/-! ### `Mach.setInst` -/

section
variable (m : Mach) (i : Nat) (x : Inst)

@[simp] theorem setInst_clock : (m.setInst i x).clock = m.clock := rfl
@[simp] theorem setInst_tick : (m.setInst i x).tick = m.tick := rfl
@[simp] theorem setInst_nextId : (m.setInst i x).nextId = m.nextId := rfl
@[simp] theorem setInst_cur : (m.setInst i x).cur = m.cur := rfl
@[simp] theorem setInst_late : (m.setInst i x).late = m.late := rfl
@[simp] theorem setInst_cores : (m.setInst i x).cores = m.cores := rfl
@[simp] theorem setInst_teams : (m.setInst i x).teams = m.teams := rfl
@[simp] theorem setInst_parts : (m.setInst i x).parts = m.parts := rfl
@[simp] theorem setInst_shadow : (m.setInst i x).shadow = m.shadow := rfl
@[simp] theorem setInst_dram : (m.setInst i x).dram = m.dram := rfl
@[simp] theorem setInst_cached : (m.setInst i x).cached = m.cached := rfl
@[simp] theorem setInst_poison : (m.setInst i x).poison = m.poison := rfl
@[simp] theorem setInst_symErr : (m.setInst i x).symErr = m.symErr := rfl
@[simp] theorem setInst_events : (m.setInst i x).events = m.events := rfl
@[simp] theorem setInst_l2 : (m.setInst i x).l2 = m.l2 := rfl
@[simp] theorem setInst_ms : (m.setInst i x).ms = m.ms := rfl
@[simp] theorem setInst_far : (m.setInst i x).far = m.far := rfl
@[simp] theorem setInst_copies : (m.setInst i x).copies = m.copies := rfl
@[simp] theorem setInst_drains : (m.setInst i x).drains = m.drains := rfl
@[simp] theorem setInst_siteMsgs : (m.setInst i x).siteMsgs = m.siteMsgs := rfl
@[simp] theorem setInst_remotes : (m.setInst i x).remotes = m.remotes := rfl
@[simp] theorem setInst_rowOps : (m.setInst i x).rowOps = m.rowOps := rfl
@[simp] theorem setInst_reserveUsed : (m.setInst i x).reserveUsed = m.reserveUsed := rfl
@[simp] theorem setInst_refresh : (m.setInst i x).refresh = m.refresh := rfl
@[simp] theorem setInst_scrub : (m.setInst i x).scrub = m.scrub := rfl
@[simp] theorem setInst_lends : (m.setInst i x).lends = m.lends := rfl
@[simp] theorem setInst_domid : (m.setInst i x).domid = m.domid := rfl
@[simp] theorem setInst_dommem : (m.setInst i x).dommem = m.dommem := rfl
@[simp] theorem setInst_routes : (m.setInst i x).routes = m.routes := rfl
@[simp] theorem setInst_ports : (m.setInst i x).ports = m.ports := rfl
@[simp] theorem setInst_host : (m.setInst i x).host = m.host := rfl
@[simp] theorem setInst_granary : (m.setInst i x).granary = m.granary := rfl
@[simp] theorem setInst_stackTrip : (m.setInst i x).stackTrip = m.stackTrip := rfl
@[simp] theorem setInst_ioTrip : (m.setInst i x).ioTrip = m.ioTrip := rfl
@[simp] theorem setInst_images : (m.setInst i x).images = m.images := rfl

end

/-! ### `Mach.setPart` -/

section
variable (m : Mach) (p : Nat) (x : Part)

@[simp] theorem setPart_clock : (m.setPart p x).clock = m.clock := rfl
@[simp] theorem setPart_tick : (m.setPart p x).tick = m.tick := rfl
@[simp] theorem setPart_nextId : (m.setPart p x).nextId = m.nextId := rfl
@[simp] theorem setPart_cur : (m.setPart p x).cur = m.cur := rfl
@[simp] theorem setPart_late : (m.setPart p x).late = m.late := rfl
@[simp] theorem setPart_cores : (m.setPart p x).cores = m.cores := rfl
@[simp] theorem setPart_teams : (m.setPart p x).teams = m.teams := rfl
@[simp] theorem setPart_insts : (m.setPart p x).insts = m.insts := rfl
@[simp] theorem setPart_shadow : (m.setPart p x).shadow = m.shadow := rfl
@[simp] theorem setPart_dram : (m.setPart p x).dram = m.dram := rfl
@[simp] theorem setPart_cached : (m.setPart p x).cached = m.cached := rfl
@[simp] theorem setPart_poison : (m.setPart p x).poison = m.poison := rfl
@[simp] theorem setPart_symErr : (m.setPart p x).symErr = m.symErr := rfl
@[simp] theorem setPart_events : (m.setPart p x).events = m.events := rfl
@[simp] theorem setPart_l2 : (m.setPart p x).l2 = m.l2 := rfl
@[simp] theorem setPart_ms : (m.setPart p x).ms = m.ms := rfl
@[simp] theorem setPart_far : (m.setPart p x).far = m.far := rfl
@[simp] theorem setPart_copies : (m.setPart p x).copies = m.copies := rfl
@[simp] theorem setPart_drains : (m.setPart p x).drains = m.drains := rfl
@[simp] theorem setPart_siteMsgs : (m.setPart p x).siteMsgs = m.siteMsgs := rfl
@[simp] theorem setPart_remotes : (m.setPart p x).remotes = m.remotes := rfl
@[simp] theorem setPart_rowOps : (m.setPart p x).rowOps = m.rowOps := rfl
@[simp] theorem setPart_reserveUsed : (m.setPart p x).reserveUsed = m.reserveUsed := rfl
@[simp] theorem setPart_refresh : (m.setPart p x).refresh = m.refresh := rfl
@[simp] theorem setPart_scrub : (m.setPart p x).scrub = m.scrub := rfl
@[simp] theorem setPart_lends : (m.setPart p x).lends = m.lends := rfl
@[simp] theorem setPart_domid : (m.setPart p x).domid = m.domid := rfl
@[simp] theorem setPart_dommem : (m.setPart p x).dommem = m.dommem := rfl
@[simp] theorem setPart_routes : (m.setPart p x).routes = m.routes := rfl
@[simp] theorem setPart_ports : (m.setPart p x).ports = m.ports := rfl
@[simp] theorem setPart_host : (m.setPart p x).host = m.host := rfl
@[simp] theorem setPart_granary : (m.setPart p x).granary = m.granary := rfl
@[simp] theorem setPart_stackTrip : (m.setPart p x).stackTrip = m.stackTrip := rfl
@[simp] theorem setPart_ioTrip : (m.setPart p x).ioTrip = m.ioTrip := rfl
@[simp] theorem setPart_images : (m.setPart p x).images = m.images := rfl

end

/-! ### `Mach.modPart` -/

section
variable (m : Mach) (p : Nat) (f : Part → Part)

@[simp] theorem modPart_clock : (m.modPart p f).clock = m.clock := rfl
@[simp] theorem modPart_tick : (m.modPart p f).tick = m.tick := rfl
@[simp] theorem modPart_nextId : (m.modPart p f).nextId = m.nextId := rfl
@[simp] theorem modPart_cur : (m.modPart p f).cur = m.cur := rfl
@[simp] theorem modPart_late : (m.modPart p f).late = m.late := rfl
@[simp] theorem modPart_cores : (m.modPart p f).cores = m.cores := rfl
@[simp] theorem modPart_teams : (m.modPart p f).teams = m.teams := rfl
@[simp] theorem modPart_insts : (m.modPart p f).insts = m.insts := rfl
@[simp] theorem modPart_shadow : (m.modPart p f).shadow = m.shadow := rfl
@[simp] theorem modPart_dram : (m.modPart p f).dram = m.dram := rfl
@[simp] theorem modPart_cached : (m.modPart p f).cached = m.cached := rfl
@[simp] theorem modPart_poison : (m.modPart p f).poison = m.poison := rfl
@[simp] theorem modPart_symErr : (m.modPart p f).symErr = m.symErr := rfl
@[simp] theorem modPart_events : (m.modPart p f).events = m.events := rfl
@[simp] theorem modPart_l2 : (m.modPart p f).l2 = m.l2 := rfl
@[simp] theorem modPart_ms : (m.modPart p f).ms = m.ms := rfl
@[simp] theorem modPart_far : (m.modPart p f).far = m.far := rfl
@[simp] theorem modPart_copies : (m.modPart p f).copies = m.copies := rfl
@[simp] theorem modPart_drains : (m.modPart p f).drains = m.drains := rfl
@[simp] theorem modPart_siteMsgs : (m.modPart p f).siteMsgs = m.siteMsgs := rfl
@[simp] theorem modPart_remotes : (m.modPart p f).remotes = m.remotes := rfl
@[simp] theorem modPart_rowOps : (m.modPart p f).rowOps = m.rowOps := rfl
@[simp] theorem modPart_reserveUsed : (m.modPart p f).reserveUsed = m.reserveUsed := rfl
@[simp] theorem modPart_refresh : (m.modPart p f).refresh = m.refresh := rfl
@[simp] theorem modPart_scrub : (m.modPart p f).scrub = m.scrub := rfl
@[simp] theorem modPart_lends : (m.modPart p f).lends = m.lends := rfl
@[simp] theorem modPart_domid : (m.modPart p f).domid = m.domid := rfl
@[simp] theorem modPart_dommem : (m.modPart p f).dommem = m.dommem := rfl
@[simp] theorem modPart_routes : (m.modPart p f).routes = m.routes := rfl
@[simp] theorem modPart_ports : (m.modPart p f).ports = m.ports := rfl
@[simp] theorem modPart_host : (m.modPart p f).host = m.host := rfl
@[simp] theorem modPart_granary : (m.modPart p f).granary = m.granary := rfl
@[simp] theorem modPart_stackTrip : (m.modPart p f).stackTrip = m.stackTrip := rfl
@[simp] theorem modPart_ioTrip : (m.modPart p f).ioTrip = m.ioTrip := rfl
@[simp] theorem modPart_images : (m.modPart p f).images = m.images := rfl

end

/-! ### `Group.putV` -/

section
variable (g : Group) (r l : Nat) (x : W32)

@[simp] theorem putV_team : (g.putV r l x).team = g.team := rfl
@[simp] theorem putV_grp : (g.putV r l x).grp = g.grp := rfl
@[simp] theorem putV_pc : (g.putV r l x).pc = g.pc := rfl
@[simp] theorem putV_s : (g.putV r l x).s = g.s := rfl
@[simp] theorem putV_p : (g.putV r l x).p = g.p := rfl
@[simp] theorem putV_xm : (g.putV r l x).xm = g.xm := rfl
@[simp] theorem putV_xs : (g.putV r l x).xs = g.xs := rfl
@[simp] theorem putV_retired : (g.putV r l x).retired = g.retired := rfl
@[simp] theorem putV_fmt : (g.putV r l x).fmt = g.fmt := rfl
@[simp] theorem putV_lc : (g.putV r l x).lc = g.lc := rfl
@[simp] theorem putV_sig : (g.putV r l x).sig = g.sig := rfl
@[simp] theorem putV_tb : (g.putV r l x).tb = g.tb := rfl
@[simp] theorem putV_calls : (g.putV r l x).calls = g.calls := rfl
@[simp] theorem putV_callSpill : (g.putV r l x).callSpill = g.callSpill := rfl
@[simp] theorem putV_recs : (g.putV r l x).recs = g.recs := rfl
@[simp] theorem putV_recSpill : (g.putV r l x).recSpill = g.recSpill := rfl
@[simp] theorem putV_fence : (g.putV r l x).fence = g.fence := rfl
@[simp] theorem putV_ownFence : (g.putV r l x).ownFence = g.ownFence := rfl
@[simp] theorem putV_status : (g.putV r l x).status = g.status := rfl
@[simp] theorem putV_halted : (g.putV r l x).halted = g.halted := rfl
@[simp] theorem putV_readyAge : (g.putV r l x).readyAge = g.readyAge := rfl
@[simp] theorem putV_readyTick : (g.putV r l x).readyTick = g.readyTick := rfl
@[simp] theorem putV_busyUntil : (g.putV r l x).busyUntil = g.busyUntil := rfl
@[simp] theorem putV_unready : (g.putV r l x).unready = g.unready := rfl
@[simp] theorem putV_since : (g.putV r l x).since = g.since := rfl
@[simp] theorem putV_sleepLeft : (g.putV r l x).sleepLeft = g.sleepLeft := rfl
@[simp] theorem putV_waita : (g.putV r l x).waita = g.waita := rfl
@[simp] theorem putV_rvGot : (g.putV r l x).rvGot = g.rvGot := rfl
@[simp] theorem putV_retireTrap : (g.putV r l x).retireTrap = g.retireTrap := rfl
@[simp] theorem putV_privBase : (g.putV r l x).privBase = g.privBase := rfl
@[simp] theorem putV_privSize : (g.putV r l x).privSize = g.privSize := rfl

end

/-! ### `Group.putS` -/

section
variable (g : Group) (r : Nat) (x : W64)

@[simp] theorem putS_team : (g.putS r x).team = g.team := by unfold Group.putS; split <;> rfl
@[simp] theorem putS_grp : (g.putS r x).grp = g.grp := by unfold Group.putS; split <;> rfl
@[simp] theorem putS_pc : (g.putS r x).pc = g.pc := by unfold Group.putS; split <;> rfl
@[simp] theorem putS_v : (g.putS r x).v = g.v := by unfold Group.putS; split <;> rfl
@[simp] theorem putS_p : (g.putS r x).p = g.p := by unfold Group.putS; split <;> rfl
@[simp] theorem putS_xm : (g.putS r x).xm = g.xm := by unfold Group.putS; split <;> rfl
@[simp] theorem putS_xs : (g.putS r x).xs = g.xs := by unfold Group.putS; split <;> rfl
@[simp] theorem putS_retired : (g.putS r x).retired = g.retired := by unfold Group.putS; split <;> rfl
@[simp] theorem putS_fmt : (g.putS r x).fmt = g.fmt := by unfold Group.putS; split <;> rfl
@[simp] theorem putS_lc : (g.putS r x).lc = g.lc := by unfold Group.putS; split <;> rfl
@[simp] theorem putS_sig : (g.putS r x).sig = g.sig := by unfold Group.putS; split <;> rfl
@[simp] theorem putS_tb : (g.putS r x).tb = g.tb := by unfold Group.putS; split <;> rfl
@[simp] theorem putS_calls : (g.putS r x).calls = g.calls := by unfold Group.putS; split <;> rfl
@[simp] theorem putS_callSpill : (g.putS r x).callSpill = g.callSpill := by unfold Group.putS; split <;> rfl
@[simp] theorem putS_recs : (g.putS r x).recs = g.recs := by unfold Group.putS; split <;> rfl
@[simp] theorem putS_recSpill : (g.putS r x).recSpill = g.recSpill := by unfold Group.putS; split <;> rfl
@[simp] theorem putS_fence : (g.putS r x).fence = g.fence := by unfold Group.putS; split <;> rfl
@[simp] theorem putS_ownFence : (g.putS r x).ownFence = g.ownFence := by unfold Group.putS; split <;> rfl
@[simp] theorem putS_status : (g.putS r x).status = g.status := by unfold Group.putS; split <;> rfl
@[simp] theorem putS_halted : (g.putS r x).halted = g.halted := by unfold Group.putS; split <;> rfl
@[simp] theorem putS_readyAge : (g.putS r x).readyAge = g.readyAge := by unfold Group.putS; split <;> rfl
@[simp] theorem putS_readyTick : (g.putS r x).readyTick = g.readyTick := by unfold Group.putS; split <;> rfl
@[simp] theorem putS_busyUntil : (g.putS r x).busyUntil = g.busyUntil := by unfold Group.putS; split <;> rfl
@[simp] theorem putS_unready : (g.putS r x).unready = g.unready := by unfold Group.putS; split <;> rfl
@[simp] theorem putS_since : (g.putS r x).since = g.since := by unfold Group.putS; split <;> rfl
@[simp] theorem putS_sleepLeft : (g.putS r x).sleepLeft = g.sleepLeft := by unfold Group.putS; split <;> rfl
@[simp] theorem putS_waita : (g.putS r x).waita = g.waita := by unfold Group.putS; split <;> rfl
@[simp] theorem putS_rvGot : (g.putS r x).rvGot = g.rvGot := by unfold Group.putS; split <;> rfl
@[simp] theorem putS_retireTrap : (g.putS r x).retireTrap = g.retireTrap := by unfold Group.putS; split <;> rfl
@[simp] theorem putS_privBase : (g.putS r x).privBase = g.privBase := by unfold Group.putS; split <;> rfl
@[simp] theorem putS_privSize : (g.putS r x).privSize = g.privSize := by unfold Group.putS; split <;> rfl

end

/-! ### `Group.putP` -/

section
variable (g : Group) (p : Nat) (lanes x : W64)

@[simp] theorem putP_team : (g.putP p lanes x).team = g.team := by unfold Group.putP; split <;> rfl
@[simp] theorem putP_grp : (g.putP p lanes x).grp = g.grp := by unfold Group.putP; split <;> rfl
@[simp] theorem putP_pc : (g.putP p lanes x).pc = g.pc := by unfold Group.putP; split <;> rfl
@[simp] theorem putP_v : (g.putP p lanes x).v = g.v := by unfold Group.putP; split <;> rfl
@[simp] theorem putP_s : (g.putP p lanes x).s = g.s := by unfold Group.putP; split <;> rfl
@[simp] theorem putP_xm : (g.putP p lanes x).xm = g.xm := by unfold Group.putP; split <;> rfl
@[simp] theorem putP_xs : (g.putP p lanes x).xs = g.xs := by unfold Group.putP; split <;> rfl
@[simp] theorem putP_retired : (g.putP p lanes x).retired = g.retired := by unfold Group.putP; split <;> rfl
@[simp] theorem putP_fmt : (g.putP p lanes x).fmt = g.fmt := by unfold Group.putP; split <;> rfl
@[simp] theorem putP_lc : (g.putP p lanes x).lc = g.lc := by unfold Group.putP; split <;> rfl
@[simp] theorem putP_sig : (g.putP p lanes x).sig = g.sig := by unfold Group.putP; split <;> rfl
@[simp] theorem putP_tb : (g.putP p lanes x).tb = g.tb := by unfold Group.putP; split <;> rfl
@[simp] theorem putP_calls : (g.putP p lanes x).calls = g.calls := by unfold Group.putP; split <;> rfl
@[simp] theorem putP_callSpill : (g.putP p lanes x).callSpill = g.callSpill := by unfold Group.putP; split <;> rfl
@[simp] theorem putP_recs : (g.putP p lanes x).recs = g.recs := by unfold Group.putP; split <;> rfl
@[simp] theorem putP_recSpill : (g.putP p lanes x).recSpill = g.recSpill := by unfold Group.putP; split <;> rfl
@[simp] theorem putP_fence : (g.putP p lanes x).fence = g.fence := by unfold Group.putP; split <;> rfl
@[simp] theorem putP_ownFence : (g.putP p lanes x).ownFence = g.ownFence := by unfold Group.putP; split <;> rfl
@[simp] theorem putP_status : (g.putP p lanes x).status = g.status := by unfold Group.putP; split <;> rfl
@[simp] theorem putP_halted : (g.putP p lanes x).halted = g.halted := by unfold Group.putP; split <;> rfl
@[simp] theorem putP_readyAge : (g.putP p lanes x).readyAge = g.readyAge := by unfold Group.putP; split <;> rfl
@[simp] theorem putP_readyTick : (g.putP p lanes x).readyTick = g.readyTick := by unfold Group.putP; split <;> rfl
@[simp] theorem putP_busyUntil : (g.putP p lanes x).busyUntil = g.busyUntil := by unfold Group.putP; split <;> rfl
@[simp] theorem putP_unready : (g.putP p lanes x).unready = g.unready := by unfold Group.putP; split <;> rfl
@[simp] theorem putP_since : (g.putP p lanes x).since = g.since := by unfold Group.putP; split <;> rfl
@[simp] theorem putP_sleepLeft : (g.putP p lanes x).sleepLeft = g.sleepLeft := by unfold Group.putP; split <;> rfl
@[simp] theorem putP_waita : (g.putP p lanes x).waita = g.waita := by unfold Group.putP; split <;> rfl
@[simp] theorem putP_rvGot : (g.putP p lanes x).rvGot = g.rvGot := by unfold Group.putP; split <;> rfl
@[simp] theorem putP_retireTrap : (g.putP p lanes x).retireTrap = g.retireTrap := by unfold Group.putP; split <;> rfl
@[simp] theorem putP_privBase : (g.putP p lanes x).privBase = g.privBase := by unfold Group.putP; split <;> rfl
@[simp] theorem putP_privSize : (g.putP p lanes x).privSize = g.privSize := by unfold Group.putP; split <;> rfl

end

/-! ### Reads after writes -/

section
variable (m : Mach)

@[simp] theorem core_setCore (c d : Nat) (x : Core) : (m.setCore c x).core d = if d = c then x else m.core d := tget_tset _ _ _ _ _

@[simp] theorem core_modCore (c d : Nat) (f : Core → Core) : (m.modCore c f).core d = if d = c then f (m.core c) else m.core d :=
  tget_tset _ _ _ _ _

@[simp] theorem core_setGroup (c k d : Nat) (g : Group) : (m.setGroup c k g).core d =
    if d = c then { m.core c with groups := tset Group.none (m.core c).groups k g } else m.core d := tget_tset _ _ _ _ _

@[simp] theorem group_setGroup (c k d j : Nat) (g : Group) : (m.setGroup c k g).group d j = if d = c ∧ j = k then g else m.group d j := by
  unfold Mach.group
  rw [core_setGroup]
  by_cases h : d = c
  · subst h; simp
  · simp [h]

@[simp] theorem me_setMe (g : Group) : (m.setMe g).me = g := by simp [Mach.me, Mach.setMe]

@[simp] theorem me_modMe (f : Group → Group) : (m.modMe f).me = f m.me := me_setMe m _

@[simp] theorem team_setTeam (t u : Nat) (x : Team) : (m.setTeam t x).team u = if u = t then x else m.team u := tget_tset _ _ _ _ _

@[simp] theorem inst_setInst (i j : Nat) (x : Inst) : (m.setInst i x).inst j = if j = i then x else m.inst j := tget_tset _ _ _ _ _

@[simp] theorem part_setPart (p q : Nat) (x : Part) : (m.setPart p x).part q = if q = p then x else m.part q := tget_tset _ _ _ _ _

@[simp] theorem part_modPart (p q : Nat) (f : Part → Part) : (m.modPart p f).part q = if q = p then f (m.part p) else m.part q :=
  tget_tset _ _ _ _ _

@[simp] theorem ctxAt_setCtx (x : Part) (c d : Nat) (y : Context) : (x.setCtx c y).ctxAt d = if d = c then y else x.ctxAt d := tget_tset _ _ _ _ _

@[simp] theorem fd_setFd (x : Part) (c d : Nat) (y : FaultDom) : (x.setFd c y).fd d = if d = c then y else x.fd d := tget_tset _ _ _ _ _

@[simp] theorem tile_setTile (x : Core) (t u : Nat) (y : Option Tile) : (x.setTile t y).tile u = if u = t then y else x.tile u :=
  tget_tset _ _ _ _ _

@[simp] theorem stream_setStream (x : Core) (q r : Nat) (y : Stream) : (x.setStream q y).stream r = if r = q then y else x.stream r :=
  tget_tset _ _ _ _ _

@[simp] theorem team_setCore (c : Nat) (x : Core) (t : Nat) : (m.setCore c x).team t = m.team t := rfl
@[simp] theorem inst_setCore (c : Nat) (x : Core) (t : Nat) : (m.setCore c x).inst t = m.inst t := rfl
@[simp] theorem part_setCore (c : Nat) (x : Core) (t : Nat) : (m.setCore c x).part t = m.part t := rfl
@[simp] theorem team_setGroup (c k : Nat) (g : Group) (t : Nat) : (m.setGroup c k g).team t = m.team t := rfl
@[simp] theorem inst_setGroup (c k : Nat) (g : Group) (t : Nat) : (m.setGroup c k g).inst t = m.inst t := rfl
@[simp] theorem part_setGroup (c k : Nat) (g : Group) (t : Nat) : (m.setGroup c k g).part t = m.part t := rfl
@[simp] theorem team_setMe (g : Group) (t : Nat) : (m.setMe g).team t = m.team t := rfl
@[simp] theorem inst_setMe (g : Group) (t : Nat) : (m.setMe g).inst t = m.inst t := rfl
@[simp] theorem part_setMe (g : Group) (t : Nat) : (m.setMe g).part t = m.part t := rfl
@[simp] theorem team_modMe (f : Group → Group) (t : Nat) : (m.modMe f).team t = m.team t := rfl
@[simp] theorem inst_modMe (f : Group → Group) (t : Nat) : (m.modMe f).inst t = m.inst t := rfl
@[simp] theorem part_modMe (f : Group → Group) (t : Nat) : (m.modMe f).part t = m.part t := rfl
@[simp] theorem team_modCore (c : Nat) (f : Core → Core) (t : Nat) : (m.modCore c f).team t = m.team t := rfl
@[simp] theorem inst_modCore (c : Nat) (f : Core → Core) (t : Nat) : (m.modCore c f).inst t = m.inst t := rfl
@[simp] theorem part_modCore (c : Nat) (f : Core → Core) (t : Nat) : (m.modCore c f).part t = m.part t := rfl
@[simp] theorem inst_setTeam (t : Nat) (x : Team) (u : Nat) : (m.setTeam t x).inst u = m.inst u := rfl
@[simp] theorem part_setTeam (t : Nat) (x : Team) (u : Nat) : (m.setTeam t x).part u = m.part u := rfl
@[simp] theorem core_setTeam (t : Nat) (x : Team) (u : Nat) : (m.setTeam t x).core u = m.core u := rfl
@[simp] theorem group_setTeam (t : Nat) (x : Team) (c k : Nat) : (m.setTeam t x).group c k = m.group c k := rfl
@[simp] theorem me_setTeam (t : Nat) (x : Team) : (m.setTeam t x).me = m.me := rfl
@[simp] theorem team_setInst (t : Nat) (x : Inst) (u : Nat) : (m.setInst t x).team u = m.team u := rfl
@[simp] theorem part_setInst (t : Nat) (x : Inst) (u : Nat) : (m.setInst t x).part u = m.part u := rfl
@[simp] theorem core_setInst (t : Nat) (x : Inst) (u : Nat) : (m.setInst t x).core u = m.core u := rfl
@[simp] theorem group_setInst (t : Nat) (x : Inst) (c k : Nat) : (m.setInst t x).group c k = m.group c k := rfl
@[simp] theorem me_setInst (t : Nat) (x : Inst) : (m.setInst t x).me = m.me := rfl
@[simp] theorem team_setPart (t : Nat) (x : Part) (u : Nat) : (m.setPart t x).team u = m.team u := rfl
@[simp] theorem inst_setPart (t : Nat) (x : Part) (u : Nat) : (m.setPart t x).inst u = m.inst u := rfl
@[simp] theorem core_setPart (t : Nat) (x : Part) (u : Nat) : (m.setPart t x).core u = m.core u := rfl
@[simp] theorem group_setPart (t : Nat) (x : Part) (c k : Nat) : (m.setPart t x).group c k = m.group c k := rfl
@[simp] theorem me_setPart (t : Nat) (x : Part) : (m.setPart t x).me = m.me := rfl
@[simp] theorem team_modPart (t : Nat) (f : Part → Part) (u : Nat) : (m.modPart t f).team u = m.team u := rfl
@[simp] theorem inst_modPart (t : Nat) (f : Part → Part) (u : Nat) : (m.modPart t f).inst u = m.inst u := rfl
@[simp] theorem core_modPart (t : Nat) (f : Part → Part) (u : Nat) : (m.modPart t f).core u = m.core u := rfl
@[simp] theorem group_modPart (t : Nat) (f : Part → Part) (c k : Nat) : (m.modPart t f).group c k = m.group c k := rfl
@[simp] theorem me_modPart (t : Nat) (f : Part → Part) : (m.modPart t f).me = m.me := rfl

/-- Two writes of the issuing group: the later stands (setMe writes one place). -/
theorem core_setMe (g : Group) (d : Nat) : (m.setMe g).core d =
    if d = m.cur.1 then { m.core d with groups := tset Group.none (m.core d).groups m.cur.2 g } else m.core d := by
  unfold Mach.setMe
  rw [core_setGroup]
  split
  · subst d; rfl
  · rfl

/-! ### Registers (R12) -/

@[simp] theorem rdS_zero (g : Group) (t : Nat) : g.rdS t 0 = 0 := rfl
@[simp] theorem rdP_zero (g : Group) (t : Nat) : g.rdP t 0 = BitVec.allOnes 64 := rfl
@[simp] theorem putS_zero (g : Group) (x : W64) : g.putS 0 x = g := rfl
@[simp] theorem putP_zero (g : Group) (lanes x : W64) : g.putP 0 lanes x = g := rfl

/-- The value that a write leaves in each lane of the vector registers. -/
theorem putV_v (g : Group) (r l : Nat) (x : W32) (k : Nat) :
    tget 0 (g.putV r l x).v k = if k = 64 * r + l then x else tget 0 g.v k := tget_tset _ _ _ _ _

theorem putS_s (g : Group) (r : Nat) (x : W64) (k : Nat) : tget 0 (g.putS r x).s k = if r ≠ 0 ∧ k = r then x else tget 0 g.s k := by
  unfold Group.putS
  by_cases h : r = 0
  · simp [h]
  · simp [h]

theorem putP_p (g : Group) (p : Nat) (lanes x : W64) (k : Nat) :
    tget 0 (g.putP p lanes x).p k = if p ≠ 0 ∧ k = p then (tget 0 g.p p &&& ~~~lanes) ||| (x &&& lanes) else tget 0 g.p k := by
  unfold Group.putP
  by_cases h : p = 0
  · simp [h]
  · simp [h]

/-- With nothing outstanding a read gives what the register holds. -/
theorem rdV_quiet (g : Group) (t r l : Nat) (h : g.outs = []) : g.rdV t r l = tget 0 g.v (64 * r + l) := by
  simp [Group.rdV, Group.due, h]

theorem rdS_quiet (g : Group) (t r : Nat) (h : g.outs = []) : g.rdS t r = if r = 0 then 0 else tget 0 g.s r := by
  simp [Group.rdS, Group.due, h, seen]

theorem rdP_quiet (g : Group) (t p : Nat) (h : g.outs = []) : g.rdP t p = if p = 0 then BitVec.allOnes 64 else tget 0 g.p p := by
  simp [Group.rdP, h]

theorem overtake_ids (o : List Outst) (d : RegRef) (x : W64) : (overtake o d x).map (·.id) = o.map (·.id) := by
  simp [overtake, Function.comp_def]

end

end Sys2Proof.Machine
end

