-- ==== Sys2Proof/Laws/Issue.lean ====
section
/-! SUPPORT. What the shared operations of every word and step can do, said once: the hash into SIG, the issue of a word, what
follows its effect, the shapes of meanings, and a turn of the machine. -/

namespace Sys2Proof.Machine

/-! ### The hash of a word into SIG (R137) -/

/-- The hash changes SIG of the issuing group, and `sigck` nothing at all. -/
theorem hash_cases (m : Mach) (i : Instr) :
    m.hash i = m ∨ m.hash i = m.modMe (fun g => { g with sig := crc g.sig (fld (encode i) 0 64) }) := by
  cases i <;> first | exact .inr rfl | exact .inl rfl

/-- Every word but `sigck` is hashed. -/
theorem hash_eq (m : Mach) (i : Instr) (h : ∀ hd imm, i ≠ .sigck hd imm) :
    m.hash i = m.modMe (fun g => { g with sig := crc g.sig (fld (encode i) 0 64) }) := by
  cases i <;> first | rfl | exact absurd rfl (h _ _)

section
variable (m : Mach) (i : Instr)

@[simp] theorem hash_clock : (m.hash i).clock = m.clock := by rcases hash_cases m i with h | h <;> rw [h] <;> rfl
@[simp] theorem hash_tick : (m.hash i).tick = m.tick := by rcases hash_cases m i with h | h <;> rw [h] <;> rfl
@[simp] theorem hash_nextId : (m.hash i).nextId = m.nextId := by rcases hash_cases m i with h | h <;> rw [h] <;> rfl
@[simp] theorem hash_cur : (m.hash i).cur = m.cur := by rcases hash_cases m i with h | h <;> rw [h] <;> rfl
@[simp] theorem hash_teams : (m.hash i).teams = m.teams := by rcases hash_cases m i with h | h <;> rw [h] <;> rfl
@[simp] theorem hash_insts : (m.hash i).insts = m.insts := by rcases hash_cases m i with h | h <;> rw [h] <;> rfl
@[simp] theorem hash_parts : (m.hash i).parts = m.parts := by rcases hash_cases m i with h | h <;> rw [h] <;> rfl
@[simp] theorem hash_dram : (m.hash i).dram = m.dram := by rcases hash_cases m i with h | h <;> rw [h] <;> rfl
@[simp] theorem hash_cached : (m.hash i).cached = m.cached := by rcases hash_cases m i with h | h <;> rw [h] <;> rfl
@[simp] theorem hash_far : (m.hash i).far = m.far := by rcases hash_cases m i with h | h <;> rw [h] <;> rfl
@[simp] theorem hash_poison : (m.hash i).poison = m.poison := by rcases hash_cases m i with h | h <;> rw [h] <;> rfl
@[simp] theorem hash_remotes : (m.hash i).remotes = m.remotes := by rcases hash_cases m i with h | h <;> rw [h] <;> rfl
@[simp] theorem hash_lends : (m.hash i).lends = m.lends := by rcases hash_cases m i with h | h <;> rw [h] <;> rfl
@[simp] theorem hash_domid : (m.hash i).domid = m.domid := by rcases hash_cases m i with h | h <;> rw [h] <;> rfl
@[simp] theorem hash_dommem : (m.hash i).dommem = m.dommem := by rcases hash_cases m i with h | h <;> rw [h] <;> rfl
@[simp] theorem team_hash (t : Nat) : (m.hash i).team t = m.team t := by rcases hash_cases m i with h | h <;> rw [h] <;> rfl
@[simp] theorem inst_hash (t : Nat) : (m.hash i).inst t = m.inst t := by rcases hash_cases m i with h | h <;> rw [h] <;> rfl
@[simp] theorem part_hash (t : Nat) : (m.hash i).part t = m.part t := by rcases hash_cases m i with h | h <;> rw [h] <;> rfl

/-- The issuing group after the hash: SIG is the one field that may differ. -/
theorem me_hash : ∃ x, (m.hash i).me = { m.me with sig := x } := by
  rcases hash_cases m i with h | h <;> rw [h]
  · exact ⟨m.me.sig, rfl⟩
  · exact ⟨_, me_modMe m _⟩

theorem perf_hash (t : Nat) (h : Hdr) : (m.hash i).me.perf t h = m.me.perf t h := by obtain ⟨x, hx⟩ := me_hash m i; rw [hx]; rfl
theorem rdS_hash (t r : Nat) : (m.hash i).me.rdS t r = m.me.rdS t r := by obtain ⟨x, hx⟩ := me_hash m i; rw [hx]; rfl
theorem rdV_hash (t r l : Nat) : (m.hash i).me.rdV t r l = m.me.rdV t r l := by obtain ⟨x, hx⟩ := me_hash m i; rw [hx]; rfl
theorem rdP_hash (t p : Nat) : (m.hash i).me.rdP t p = m.me.rdP t p := by obtain ⟨x, hx⟩ := me_hash m i; rw [hx]; rfl
theorem team_of_hash : (m.hash i).me.team = m.me.team := by obtain ⟨x, hx⟩ := me_hash m i; rw [hx]
theorem performs_hash (h : Hdr) : (m.hash i).performs h = m.performs h := by
  unfold Mach.performs; rw [perf_hash, hash_tick]

@[simp] theorem myTeam_hash : (m.hash i).myTeam = m.myTeam := by unfold Mach.myTeam; rw [team_hash, team_of_hash]
@[simp] theorem myInst_hash : (m.hash i).myInst = m.myInst := by unfold Mach.myInst; rw [inst_hash, myTeam_hash]
@[simp] theorem myPart_hash : (m.hash i).myPart = m.myPart := by unfold Mach.myPart; rw [myTeam_hash]
@[simp] theorem myCtx_hash : (m.hash i).myCtx = m.myCtx := by unfold Mach.myCtx; rw [myTeam_hash]

/-- A core after the hash: only the groups of the issuing core may differ. -/
theorem core_hash (c : Nat) : ∃ gs, (m.hash i).core c = { m.core c with groups := gs } := by
  rcases hash_cases m i with h | h <;> rw [h]
  · exact ⟨(m.core c).groups, rfl⟩
  · unfold Mach.modMe
    rw [core_setMe]
    split
    · exact ⟨_, rfl⟩
    · exact ⟨(m.core c).groups, rfl⟩

end

/-! ### The issue of a word -/

/-- Everything that issuing a word can do: it waits, it traps, or its effect happens and the group goes on (R64, R78). -/
theorem issue_cases (m : Mach) (i : Instr) (h : Hdr) (w : Word) :
    (∃ why, m.issue i h w = m.park why) ∨
    (∃ t, m.issueTrap i h w = some t ∧ m.issue i h w = takeTrap m m.cur.1 m.cur.2 m.me.pc t) ∨
    (∃ r, m.me.retireTrap = some r ∧
      m.issue i h w = takeTrap m m.cur.1 m.cur.2 r.1 { cause := 0x25, lanes := m.me.xm, detail := r.2.setWidth 64 }) ∨
    (∃ r, w.wait m = some r ∧ m.issue i h w = r.1.park r.2) ∨
    m.issue i h w = m.goOn (w.run (m.hash i)) i h := by
  unfold Mach.issue
  split
  · exact .inl ⟨_, rfl⟩
  · split
    · rename_i t ht; exact .inr (.inl ⟨t, ht, rfl⟩)
    · split
      · rename_i r hr; exact .inr (.inr (.inl ⟨r, hr, rfl⟩))
      · split
        · rename_i r hr; exact .inr (.inr (.inr (.inl ⟨r, hr, rfl⟩)))
        · exact .inr (.inr (.inr (.inr rfl)))

/-- A word that nothing keeps back and that raises nothing has its effect. -/
theorem issue_runs {m : Mach} {i : Instr} {h : Hdr} {w : Word} (hb : m.blocked i h = none) (hs : m.staticTrap i = none)
    (hc : m.me.callTrap h.nas = none) (hr : m.me.retireTrap = none) (hp : w.pre m = none) (hw : w.wait m = none) :
    m.issue i h w = m.goOn (w.run (m.hash i)) i h := by
  simp [Mach.issue, Mach.issueTrap, Mach.perform, hb, hs, hc, hr, hp, hw]

theorem issueWord_eq (i : Instr) (h : Hdr) (w : Word) (s : State) : issueWord i h w s = .next { s with m := s.m.issue i h w } := rfl

theorem regWord_eq (i : Instr) (h : Hdr) (f : Nat → Group → Group) (s : State) :
    regWord i h f s = .next { s with m := s.m.issue i h { run := fun m => m.modMe (f m.tick) } } := rfl

/-- A word that only rewrites its group, when it issues. -/
theorem regWord_runs {i : Instr} {h : Hdr} {f : Nat → Group → Group} {s : State} (hb : s.m.blocked i h = none) (hs : s.m.staticTrap i = none)
    (hc : s.m.me.callTrap h.nas = none) (hr : s.m.me.retireTrap = none) :
    regWord i h f s = .next { s with m := s.m.goOn ((s.m.hash i).modMe (f s.m.tick)) i h } := by
  rw [regWord_eq, issue_runs hb hs hc hr rfl rfl]
  dsimp only
  rw [hash_tick]

theorem partStep_eq (f : Mach → Mach) (s : State) : partStep f s = .next { s with m := f s.m } := rfl

theorem stepIf_of {ok : Mach → Bool} {f : Mach → Mach} {s : State} (h : ok s.m = true) : stepIf ok f s = .next { s with m := f s.m } := by
  simp [stepIf, h]

/-- A step whose condition does not hold changes nothing. -/
theorem stepIf_not {ok : Mach → Bool} {f : Mach → Mach} {s : State} (h : ok s.m = false) : stepIf ok f s = .next s := by
  simp [stepIf, h]

theorem powerStep_eq (e r : List (Unit404 × Nat)) (s : State) : execPowerArbiterStep e r s = .next (powerNow s e r) := rfl

/-! ### After the effect (R66, R67) -/

theorem goOn_ended {m m' : Mach} {i : Instr} {h : Hdr} (he : (m'.group m.cur.1 m.cur.2).status = .ended) : m.goOn m' i h = m' := by
  simp [Mach.goOn, he]

/-- In sequence: the pc moves to the next word and nothing else changes. -/
theorem goOn_seq {m m' : Mach} {i : Instr} {h : Hdr} (he : (m'.group m.cur.1 m.cur.2).status ≠ .ended) (hn : h.nas = .seq) :
    m.goOn m' i h = m'.setGroup m.cur.1 m.cur.2 { (m'.group m.cur.1 m.cur.2) with pc := m.me.pc + 1 } := by
  simp [Mach.goOn, he, hn, Mach.sequence]

/-- Everything that a branch can do (R67). -/
theorem branch_cases (m : Mach) (c k : Nat) (taken target fall : W64) (u : Bool) :
    (taken = 0 ∧ m.branch c k taken target fall u = .ok (m.setGroup c k { m.group c k with pc := fall })) ∨
    (taken ≠ 0 ∧ taken = (m.group c k).xm ∧ m.branch c k taken target fall u = .ok (m.setGroup c k { m.group c k with pc := target })) ∨
    (taken ≠ 0 ∧ taken ≠ (m.group c k).xm ∧ u = true ∧ m.branch c k taken target fall u = .error { cause := 6, lanes := taken, detail := 0 }) ∨
    (taken ≠ 0 ∧ taken ≠ (m.group c k).xm ∧ u = false ∧ m.branch c k taken target fall u = m.pushRec c k taken target fall) := by
  unfold Mach.branch
  dsimp only
  by_cases h0 : taken = 0
  · exact .inl ⟨h0, if_pos h0⟩
  · rw [if_neg h0]
    by_cases h1 : taken = (m.group c k).xm
    · exact .inr (.inl ⟨h0, h1, if_pos h1⟩)
    · rw [if_neg h1]
      cases u
      · exact .inr (.inr (.inr ⟨h0, h1, rfl, rfl⟩))
      · exact .inr (.inr (.inl ⟨h0, h1, rfl, rfl⟩))

/-! ### Presenting the null witness (R81) -/

theorem classify_null (m : Mach) (c p : Nat) : m.classify c p 0 = .ok := rfl
theorem presentTrap_null (m : Mach) (c p : Nat) (lanes : W64) : m.presentTrap c p lanes 0 = none := rfl
theorem present_null (m : Mach) (c k p : Nat) : m.present c k p 0 = .ok m := rfl
theorem presented_null (m : Mach) (f : Mach → Mach) : m.presented 0 f = f m := rfl
theorem presentHold_null (m : Mach) : m.presentHold 0 = none := rfl

/-! ### The next sequence number (R185) -/

/-- Everything that taking a number can do to the machine: the counters of the core, and with the last number of the open epoch a demand. -/
theorem takeSeq_cases (m : Mach) (c p : Nat) :
    (((m.core c).taken + 1 < 2 ^ 18 - 1 ∨ (m.core c).epoch ≠ (m.part p).ep.openEpoch) ∧
      m.takeSeq c p = m.setCore c { m.core c with seq := (m.core c).seq + 1, taken := (m.core c).taken + 1 }) ∨
    (2 ^ 18 - 1 ≤ (m.core c).taken + 1 ∧ (m.core c).epoch = (m.part p).ep.openEpoch ∧
      m.takeSeq c p =
        (m.setCore c { m.core c with seq := (m.core c).seq + 1, taken := (m.core c).taken + 1 }).demandClose p (m.core c).epoch) := by
  unfold Mach.takeSeq
  by_cases h : 2 ^ 18 - 1 ≤ (m.core c).taken + 1 ∧ (m.core c).epoch = (m.part p).ep.openEpoch
  · exact .inr ⟨h.1, h.2, if_pos h⟩
  · refine .inl ⟨?_, if_neg h⟩
    by_cases h1 : 2 ^ 18 - 1 ≤ (m.core c).taken + 1
    · exact .inr fun h2 => h ⟨h1, h2⟩
    · exact .inl (by omega)

@[simp] theorem takeSeq_core (m : Mach) (c p : Nat) :
    (m.takeSeq c p).core c = { m.core c with seq := (m.core c).seq + 1, taken := (m.core c).taken + 1 } := by
  obtain ⟨-, h⟩ | ⟨-, -, h⟩ := takeSeq_cases m c p <;> rw [h]
  · simp
  · simp [Mach.demandClose]

/-- Everything that asking for a number can come to. -/
theorem nextSeq_cases (m : Mach) (c p : Nat) :
    (∃ m' why, m.nextSeq c p = .hold m' why) ∨ m.nextSeq c p = .ok (m.takeSeq c p) (m.core c).seq (m.core c).epoch := by
  unfold Mach.nextSeq
  dsimp only
  split
  · exact .inl ⟨_, _, rfl⟩
  · split
    · exact .inl ⟨_, _, rfl⟩
    · exact .inr rfl

theorem nextSeq_runs {m : Mach} {c p : Nat} (h1 : (m.part p).ep.snapHolds c (m.core c).epoch = false) (h2 : (m.core c).taken < 2 ^ 18 - 1) :
    m.nextSeq c p = .ok (m.takeSeq c p) (m.core c).seq (m.core c).epoch := by
  have h3 : ¬ (m.core c).taken ≥ 2 ^ 18 - 1 := by omega
  simp only [Mach.nextSeq, h1, h3, if_false, Bool.false_eq_true]

/-! ### A result that is given later (R220, R227, R338) -/

/-- Everything that rewriting a group where it is can do: the group in its slot, or one in the shadow of its team. -/
theorem modWhere_cases (m : Mach) (id c s : Nat) (f : Group → Group) :
    ((m.group c s).team = id ∧ m.modWhere id c s f = m.setGroup c s (f (m.group c s))) ∨
    ((m.group c s).team ≠ id ∧ ∃ sh, m.modWhere id c s f = { m with shadow := sh }) := by
  unfold Mach.modWhere
  split
  · exact .inl ⟨‹_›, rfl⟩
  · exact .inr ⟨‹_›, _, rfl⟩

/-! ### Refresh (R377) -/

@[simp] theorem raise_debt (x : Refresh) (d : Int) : (x.raise d).debt = d := rfl
@[simp] theorem raise_forced (x : Refresh) (d : Int) : (x.raise d).forced = x.forced := rfl

/-- Everything that the end of an interval can do. -/
theorem interval_cases (x : Refresh) (demand : Bool) :
    (8 ≤ x.debt ∧ x.interval demand = { x.raise x.debt with forced := satAdd1 x.forced }) ∨
    (x.debt < 8 ∧ x.interval demand = x.raise (if demand then x.debt + 1 else x.debt)) := by
  unfold Refresh.interval
  split
  · exact .inl ⟨‹_›, rfl⟩
  · exact .inr ⟨by omega, rfl⟩

/-! ### Taking a trap (R76, R389) -/

/-- The first trap of a domain is recorded; every trap is counted, up to the greatest count. -/
theorem record_traps (f : FaultDom) (pc xm : W64) (t : Trap) (who : W32) (now : Nat) : (f.record pc xm t who now).traps = satAdd1 f.traps := by
  unfold FaultDom.record
  dsimp only
  split <;> rfl

theorem record_hasRec (f : FaultDom) (pc xm : W64) (t : Trap) (who : W32) (now : Nat) : (f.record pc xm t who now).hasRec = true := by
  unfold FaultDom.record
  dsimp only
  split
  · rename_i h; simp only [FaultDom.keeps, Bool.and_eq_true] at h; exact h.1
  · rfl

/-- A later trap leaves the record as it is, but for one of a lower core in the cycle of the recorded one. -/
theorem record_keeps (f : FaultDom) (pc xm : W64) (t : Trap) (who : W32) (now : Nat) (h : f.keeps who now = true) :
    f.record pc xm t who now = { f with traps := satAdd1 f.traps } := by
  have h' : ({ f with traps := satAdd1 f.traps } : FaultDom).keeps who now = true := h
  simp [FaultDom.record, h']

/-! ### A turn of the machine -/

@[simp] theorem pass_fw (s : State) (dt : Nat) : (s.pass dt).fw = s.fw := rfl
@[simp] theorem pass_agenda (s : State) (dt : Nat) : (s.pass dt).agenda = s.agenda := rfl

@[simp] theorem observeAll_fw (s : State) : s.observeAll.fw = s.fw := rfl
@[simp] theorem observeAll_agenda (s : State) : s.observeAll.agenda = s.agenda := rfl
@[simp] theorem fillAll_fw (s : State) : s.fillAll.fw = s.fw := rfl
@[simp] theorem fillAll_agenda (s : State) : s.fillAll.agenda = s.agenda := rfl
@[simp] theorem after_fw (s : State) (t : Turn) : (s.after t).fw = s.fw := by simp [State.after]
@[simp] theorem after_agenda (s : State) (t : Turn) : (s.after t).agenda = s.agenda := by simp [State.after]

@[simp] theorem prepare_fw (s : State) (c : Nat) : (s.prepare c).fw = s.fw := rfl
@[simp] theorem prepare_agenda (s : State) (c : Nat) : (s.prepare c).agenda = s.agenda := rfl
@[simp] theorem coming_fw (s : State) (c k : Nat) : (s.coming c k).fw = s.fw := by
  unfold State.coming; dsimp only; split <;> simp
@[simp] theorem coming_agenda (s : State) (c k : Nat) : (s.coming c k).agenda = s.agenda := by
  unfold State.coming; dsimp only; split <;> simp

/-- A decoded word that the stores of its core do not keep back is run. -/
theorem runNext_runs {s : State} {c k : Nat} {m : Mach} {i : Instr} (h : s.m.nextOf c k = .issue m i)
    (hr : (runsAhead i || (m.core c).sbuf.isEmpty) = true) : s.runNext c k = exec i { s with m := m } := by
  simp [State.runNext, h, hr]

/-- A group whose word cannot be fetched runs none, whatever its turn is (R248, R250). -/
theorem noWord_of_hold {s : State} {c k : Nat} {m : Mach} (h : s.m.nextOf c k = .hold m) : s.noWord c k = true := by
  simp [State.noWord, h]

/-- A turn without a word leaves the core's two places of the cycle, and the group's ready age, as they were (R250). -/
theorem issued_noWord {s : State} {m : Mach} {c k : Nat} (h : s.noWord c k = true) : s.issued m c k = m := by
  simp [State.issued, State.didIssue, h]

/-- A group's turn that is no turn to issue only rotates and fills the core's places, in the next cycle where this one is full (R251). -/
theorem issueTurn_waits {s : State} {c k : Nat} {late : Bool} (hf : s.mayFinish c k = false) (hi : (s.coming c k).mayIssue c k = false) :
    s.issueTurn c k late = .next (s.coming c k) := by
  simp [State.issueTurn, hf, hi]

theorem nextTurn_fw (s : State) : s.nextTurn.2.fw = s.fw := by
  unfold State.nextTurn
  split
  · rfl
  · split <;> rfl

/-- Only the two resets are let run on a part that has stopped. -/
theorem turn_stopped (s : State) (t : Turn) (h : s.fw.stopped = true) (ht : t.isReset = false) : s.turn t = .fault .partStopped := by
  simp [State.turn, h, ht]

/-- A turn that runs is what it does, and then the time that it takes. -/
theorem turn_next {s s' : State} {t : Turn} (h : s.turn t = .next s') : ∃ u, s.take t = .next u ∧ s' = u.after t := by
  unfold State.turn at h
  split at h
  · cases h
  · split at h
    · rename_i u hu; cases h; exact ⟨u, hu, rfl⟩
    · cases h
    · cases h

end Sys2Proof.Machine
end

