-- ==== Sys2Proof/Laws/Memory.lean ====
section
/-! SUPPORT. The laws of memory: what a byte reads as after each operation, and that every operation keeps the canonical form. -/

namespace Sys2Proof.Machine

/-! ### Dirty bytes over DRAM -/

theorem tfind_tput {α : Type} (t : List (Nat × α)) (n m : Nat) (x : α) : tfind (tput t n x) m = if m = n then some x else tfind t m := by
  induction t with
  | nil => simp [tput, tfind]
  | cons kx t ih =>
    obtain ⟨k, y⟩ := kx
    simp only [tput]
    split
    · rfl
    · split
      · subst k; simp only [tfind]; split <;> rfl
      · rename_i hk
        simp only [tfind, ih]
        by_cases h1 : m = k
        · subst h1; simp [Ne.symm hk]
        · simp [h1]

theorem tfind_tdel {α : Type} (t : List (Nat × α)) (n m : Nat) : tfind (tdel t n) m = if m = n then none else tfind t m := by
  induction t with
  | nil => simp [tdel, tfind]
  | cons kx t ih =>
    obtain ⟨k, y⟩ := kx
    simp only [tdel]
    split
    · subst k; rw [ih]; split <;> simp_all [tfind]
    · rename_i hk
      simp only [tfind, ih]
      by_cases h1 : m = k
      · subst h1; simp [Ne.symm hk]
      · simp [h1]

theorem homeByte_eq (m : Mach) (a : Nat) : m.homeByte a = (tfind m.cached a).getD (tget 0 m.dram a) := by
  unfold Mach.homeByte
  cases tfind m.cached a <;> rfl

/-- A byte written at its home reads back, and every other byte is as it was. -/
theorem homeByte_pokeByte (m : Mach) (pa : Nat) (b : Byte) (a : Nat) : (m.pokeByte pa b).homeByte a = if a = pa then b else m.homeByte a := by
  rw [homeByte_eq, homeByte_eq]
  show (tfind (if b = tget 0 m.dram pa then tdel m.cached pa else tput m.cached pa b) a).getD (tget 0 m.dram a) = _
  by_cases hb : b = tget 0 m.dram pa
  · rw [if_pos hb, tfind_tdel]
    by_cases h : a = pa
    · subst h; simpa using hb.symm
    · simp [h]
  · rw [if_neg hb, tfind_tput]
    by_cases h : a = pa
    · subst h; simp
    · simp [h]

theorem memOk_pokeByte (m : Mach) (pa : Nat) (b : Byte) (h : m.MemOk) : (m.pokeByte pa b).MemOk := by
  obtain ⟨hd, hf, hr, hn⟩ := h
  refine ⟨hd, hf, ?_, ?_⟩
  · unfold Mach.pokeByte
    split
    · exact rising_tdel _ _ hr
    · exact rising_tput _ _ _ hr
  · intro x hx
    show x.2 ≠ tget 0 m.dram x.1
    unfold Mach.pokeByte at hx
    dsimp only at hx
    split at hx
    · exact hn x ((tdel_sublist _ _).subset hx)
    · rename_i hb
      rcases mem_tput hx with rfl | hx
      · exact hb
      · exact hn x hx

theorem memOk_pokes_list (ws : List (Nat × Byte)) (m : Mach) (h : m.MemOk) : (ws.foldl (fun m w => m.pokeByte w.1 w.2) m).MemOk := by
  induction ws generalizing m with
  | nil => exact h
  | cons w ws ih => exact ih _ (memOk_pokeByte m w.1 w.2 h)

/-- The form depends on the three memories alone. -/
theorem memOk_congr {m m' : Mach} (hd : m'.dram = m.dram) (hf : m'.far = m.far) (hc : m'.cached = m.cached) (h : m.MemOk) : m'.MemOk := by
  unfold Mach.MemOk at h ⊢
  rw [hd, hf, hc]
  exact h

theorem memOk_modPart (m : Mach) (p : Nat) (f : Part → Part) (h : m.MemOk) : (m.modPart p f).MemOk := memOk_congr rfl rfl rfl h
theorem memOk_setMe (m : Mach) (g : Group) (h : m.MemOk) : (m.setMe g).MemOk := memOk_congr rfl rfl rfl h
theorem memOk_modCore (m : Mach) (c : Nat) (f : Core → Core) (h : m.MemOk) : (m.modCore c f).MemOk := memOk_congr rfl rfl rfl h

theorem tget_flushed (l : List (Nat × Byte)) (t : Tab Byte) (a : Nat) (hr : (l.map (·.1)).Pairwise (· < ·)) :
    tget 0 (l.foldl (fun d x => tset 0 d x.1 x.2) t) a = (tfind l a).getD (tget 0 t a) := by
  induction l generalizing t with
  | nil => rfl
  | cons y l ih =>
    obtain ⟨k, b⟩ := y
    simp only [List.map_cons, List.pairwise_cons] at hr
    simp only [List.foldl_cons, tfind]
    rw [ih _ hr.2, tget_tset]
    by_cases h : a = k
    · subst h
      have : tfind l a = none := by
        have hl := hr.1
        clear ih hr
        induction l with
        | nil => rfl
        | cons z l ih =>
          simp only [List.map_cons, List.mem_cons, forall_eq_or_imp] at hl
          simp only [tfind]
          rw [if_neg (by omega)]
          exact ih hl.2
      simp [this]
    · simp [h]

theorem tfind_filter (l : List (Nat × Byte)) (f : Nat → Bool) (a : Nat) :
    tfind (l.filter (fun x => f x.1)) a = if f a then tfind l a else none := by
  induction l with
  | nil => simp [tfind]
  | cons y l ih =>
    obtain ⟨k, b⟩ := y
    simp only [List.filter_cons, tfind]
    by_cases h : a = k
    · subst h
      cases hf : f a
      · simp [ih, hf]
      · simp [tfind]
    · cases hk : f k
      · simp [ih, h]
      · simp [tfind, ih, h]

/-- What leaves the caches for DRAM changes no byte as its home holds it. -/
theorem homeByte_flush (m : Mach) (f : Nat → Bool) (a : Nat) (h : m.MemOk) : (m.flush f).homeByte a = m.homeByte a := by
  rw [homeByte_eq, homeByte_eq]
  unfold Mach.flush
  dsimp only
  rw [tget_flushed _ _ _ (h.2.2.1.sublist (List.filter_sublist.map _)), tfind_filter m.cached f, tfind_filter m.cached (fun x => !f x)]
  cases hf : f a
  · simp
  · cases ht : tfind m.cached a <;> simp

theorem mem_of_tfind {l : List (Nat × Byte)} {a : Nat} {b : Byte} (h : tfind l a = some b) : (a, b) ∈ l := by
  induction l with
  | nil => simp [tfind] at h
  | cons y l ih =>
    obtain ⟨k, c⟩ := y
    simp only [tfind] at h
    split at h
    · rename_i hk; simp_all
    · exact List.mem_cons_of_mem _ (ih h)

theorem memOk_flush (m : Mach) (f : Nat → Bool) (h : m.MemOk) : (m.flush f).MemOk := by
  obtain ⟨hd, hf, hr, hn⟩ := h
  refine ⟨wf_foldl_tset 0 _ _ _ _ hd, hf, hr.sublist (List.filter_sublist.map _), ?_⟩
  intro x hx
  have hx' := List.mem_filter.1 hx
  show x.2 ≠ tget 0 ((m.cached.filter (fun x => f x.1)).foldl (fun d x => tset 0 d x.1 x.2) m.dram) x.1
  rw [tget_flushed _ _ _ (hr.sublist (List.filter_sublist.map _)), tfind_filter m.cached f]
  have : f x.1 = false := by simpa using hx'.2
  rw [this]
  exact hn x hx'.1

/-! ### Writes at the homes -/

theorem memOk_markWritten (m : Mach) (pg : Nat) (h : m.MemOk) : (m.markWritten pg).MemOk := by
  unfold Mach.markWritten
  split
  · exact h
  · dsimp only
    split
    · exact memOk_congr rfl rfl rfl h
    · exact memOk_modPart _ _ _ h

theorem memOk_foldl {β : Type} (f : Mach → β → Mach) (hf : ∀ m b, m.MemOk → (f m b).MemOk) (l : List β) (m : Mach) (h : m.MemOk) :
    (l.foldl f m).MemOk := by
  induction l generalizing m with
  | nil => exact h
  | cons b l ih => exact ih _ (hf m b h)

theorem memOk_noteLeaves (m : Mach) (as : List Nat) (h : m.MemOk) : (m.noteLeaves as).MemOk := by
  unfold Mach.noteLeaves
  split
  · exact h
  · extract_lets roots olds
    split
    · exact h
    · exact memOk_modPart _ _ _ h

/-- Reporting an event touches no memory: the log takes it at the end of the cycle. -/
theorem memOk_logEvent (m : Mach) (p chan slice unit code dom : Nat) (addr detail : W64) (h : m.MemOk) :
    (m.logEvent p chan slice unit code dom addr detail).MemOk := memOk_congr rfl rfl rfl h

theorem memOk_touchSector (m : Mach) (s : Nat) (h : m.MemOk) : (m.touchSector s).MemOk := by
  unfold Mach.touchSector
  dsimp only
  split
  · exact h
  · split
    · exact h
    · split <;> exact memOk_congr rfl rfl rfl h

theorem memOk_touchPage (m : Mach) (pg : Nat) (h : m.MemOk) : (m.touchPage pg).MemOk := by
  unfold Mach.touchPage
  exact memOk_foldl _ (fun m (s : Nat × Nat) => memOk_touchSector m s.1) _ _ h

theorem memOk_pokes (m : Mach) (keep : Option Nat) (whole : List Nat) (ws : List (Nat × Byte)) (h : m.MemOk) : (m.pokes keep whole ws).MemOk := by
  unfold Mach.pokes
  apply memOk_foldl _ (fun m b => memOk_markWritten m b)
  have hk := memOk_pokes_list ws _ (memOk_noteLeaves m (ws.map (fun w => w.1)) h)
  have hf (f : Nat → Bool) := memOk_flush _ f hk
  exact memOk_congr rfl rfl rfl (hf (fun a => (distinct (ws.map (fun (w : Nat × Byte) => lineOf w.1))).contains (lineOf a) &&
    !(ws.foldl (fun (m : Mach) (w : Nat × Byte) => m.pokeByte w.1 w.2) (m.noteLeaves (ws.map (fun (w : Nat × Byte) => w.1)))).homeHolds (lineOf a)))

theorem memOk_preserve (m m' : Mach) (pg : Nat) (h : m.MemOk) (hp : m.preserve pg = some m') : m'.MemOk := by
  unfold Mach.preserve at hp
  split at hp
  · cases hp; exact h
  · dsimp only at hp
    split at hp
    · cases hp; exact h
    · split at hp
      · cases hp
      · cases hp
        exact memOk_modPart _ _ _ (memOk_congr rfl rfl rfl (memOk_touchPage _ pg (memOk_flush m (fun a => decide (pageOf a = pg)) h)))

theorem memOk_foldlM {β : Type} (f : Mach → β → Option Mach) (hf : ∀ m b m', m.MemOk → f m b = some m' → m'.MemOk) (l : List β) (m m' : Mach)
    (h : m.MemOk) (he : l.foldlM f m = some m') : m'.MemOk := by
  induction l generalizing m with
  | nil => simp only [List.foldlM_nil, pure, Option.some.injEq] at he; exact he ▸ h
  | cons b l ih =>
    simp only [List.foldlM_cons] at he
    cases hb : f m b with
    | none => rw [hb] at he; cases he
    | some x => rw [hb] at he; exact ih x (hf m b x h hb) he

theorem memOk_homeWrite (m m' : Mach) (keep : Option Nat) (whole : List Nat) (ws : List (Nat × Byte)) (h : m.MemOk)
    (he : m.homeWrite keep whole ws = some m') : m'.MemOk := by
  unfold Mach.homeWrite at he
  cases hx : (distinct (ws.map (fun w => pageOf w.1))).foldlM Mach.preserve m with
  | none => rw [hx] at he; cases he
  | some x =>
    rw [hx] at he
    simp only [Option.map_some, Option.some.injEq] at he
    subst he
    exact memOk_pokes x keep whole ws (memOk_foldlM _ (fun m b m' => memOk_preserve m m' b) _ m x h hx)

theorem memOk_tryWrite (m m' : Mach) (x : Stalled) (h : m.MemOk) (he : m.tryWrite x = some m') : m'.MemOk := by
  unfold Mach.tryWrite at he
  split at he
  · cases he
  · exact memOk_homeWrite m m' none _ _ h he

/-- A write of the part's own is done, or waits for reserve space (R367): the form holds either way. -/
theorem memOk_ownWrite (m : Mach) (x : Stalled) (h : m.MemOk) : (m.ownWrite x).MemOk := by
  unfold Mach.ownWrite
  split
  · rename_i m' hm; exact memOk_tryWrite m m' x h hm
  · exact memOk_modPart _ _ _ (memOk_modPart _ _ _ h)

theorem memOk_selfOr (m : Mach) (pa : Nat) (x : W64) (h : m.MemOk) : (m.selfOr pa x).MemOk := memOk_ownWrite m _ h

theorem memOk_selfWrite (m : Mach) (pa : Nat) (bs : List Byte) (h : m.MemOk) : (m.selfWrite pa bs).MemOk := by
  unfold Mach.selfWrite
  split
  · exact h
  · exact memOk_ownWrite m _ h

/-- An event's entry, its counter or its drop. -/
theorem memOk_writeEvent (m : Mach) (e : Event) (h : m.MemOk) : (m.writeEvent e).MemOk := by
  unfold Mach.writeEvent
  dsimp only
  split
  · exact memOk_modPart _ _ _ (memOk_selfWrite _ _ _ (memOk_modPart _ _ _ h))
  · exact memOk_modPart _ _ _ (memOk_modPart _ _ _ h)

theorem memOk_writeEvents (m : Mach) (h : m.MemOk) : m.writeEvents.MemOk :=
  memOk_foldl _ memOk_writeEvent _ _ (memOk_congr rfl rfl rfl h)

/-! ### Memory outside the part, and scratchpads -/

theorem memOk_farWrite (m : Mach) (home pa : Nat) (bs : List Byte) (h : m.MemOk) : (m.farWrite home pa bs).MemOk :=
  ⟨h.1, wf_foldl_tset 0 _ _ _ _ h.2.1, h.2.2⟩

/-- Bytes laid at consecutive keys of a table read back; the others are as they were. -/
theorem tget_laid (bs : List Byte) (t : Tab Byte) (key n k : Nat) :
    tget 0 ((bs.zipIdx n).foldl (fun t b => tset 0 t (key + b.2) b.1) t) k =
      if key + n ≤ k ∧ k < key + n + bs.length then bs.getD (k - key - n) 0 else tget 0 t k := by
  induction bs generalizing t n with
  | nil => simp only [List.zipIdx_nil, List.foldl_nil, List.length_nil, Nat.add_zero]; rw [if_neg (by omega)]
  | cons b bs ih =>
    simp only [List.zipIdx_cons, List.foldl_cons, List.length_cons]
    rw [ih, tget_tset]
    by_cases h : k = key + n
    · subst h
      rw [if_neg (by omega), if_pos rfl, if_pos (by omega)]
      have : key + n - key - n = 0 := by omega
      rw [this]; rfl
    · by_cases h2 : key + (n + 1) ≤ k ∧ k < key + (n + 1) + bs.length
      · rw [if_pos h2, if_pos (by omega)]
        have : k - key - n = (k - key - (n + 1)) + 1 := by omega
        rw [this]; rfl
      · rw [if_neg h2, if_neg h, if_neg (by omega)]

theorem core_mapCores (m : Mach) (f : Nat → Core → Core) (c : Nat) (h : f c Core.reset = Core.reset) :
    (m.mapCores f).core c = f c (m.core c) := tget_tmap_of _ _ _ _ h

/-- A scratchpad write lays its bytes into that core's scratchpad and touches no other. -/
theorem sp_spWrite (m : Mach) (c key : Nat) (bs : List Byte) (d : Nat) :
    ((m.spWrite c key bs).core d).sp =
      if d = c then bs.zipIdx.foldl (fun s b => tset 0 s (key + b.2) b.1) (m.core d).sp else (m.core d).sp := by
  unfold Mach.spWrite
  dsimp only
  rw [core_mapCores _ _ _ rfl]
  show (Mach.core _ d).sp = _
  rw [core_modCore]
  by_cases h : d = c
  · subst h; simp
  · simp [h]

theorem wf_spWrite (m : Mach) (c key : Nat) (bs : List Byte) (d : Nat) (h : Memory.wf (m.core d).sp = true) :
    Memory.wf ((m.spWrite c key bs).core d).sp = true := by
  rw [sp_spWrite]
  split
  · exact wf_foldl_tset 0 _ _ _ _ h
  · exact h

theorem memOk_spWrite (m : Mach) (c key : Nat) (bs : List Byte) (h : m.MemOk) : (m.spWrite c key bs).MemOk := memOk_congr rfl rfl rfl h

/-- The memory that lists nothing is canonical. -/
theorem reset_memOk : State.reset.m.MemOk := ⟨rfl, rfl, List.Pairwise.nil, by simp [State.reset, Mach.reset]⟩

theorem reset_homeByte (a : Nat) : State.reset.m.homeByte a = 0 := rfl

end Sys2Proof.Machine
end

