-- ==== Sys2Proof/Laws/Traps.lean ====
section
/-! SUPPORT. What memory operations and traps leave alone: the teams, the instances, the issuing group's place and the clocks. -/

namespace Sys2Proof.Machine

/-- Teams, instances, the issuing group's place and the clocks are as they were. -/
structure Mach.Same (m m' : Mach) : Prop where
  teams : m'.teams = m.teams
  insts : m'.insts = m.insts
  cur : m'.cur = m.cur
  tick : m'.tick = m.tick
  clock : m'.clock = m.clock

theorem same_refl (m : Mach) : m.Same m := ⟨rfl, rfl, rfl, rfl, rfl⟩
theorem same_trans {a b c : Mach} (h : a.Same b) (k : b.Same c) : a.Same c :=
  ⟨k.teams.trans h.teams, k.insts.trans h.insts, k.cur.trans h.cur, k.tick.trans h.tick, k.clock.trans h.clock⟩

theorem same_foldl {β : Type} (f : Mach → β → Mach) (hf : ∀ (m : Mach) b, m.Same (f m b)) (l : List β) (m : Mach) : m.Same (l.foldl f m) := by
  induction l generalizing m with
  | nil => exact same_refl m
  | cons b l ih => exact same_trans (hf m b) (ih _)

theorem same_foldlM {β : Type} (f : Mach → β → Option Mach) (hf : ∀ (m : Mach) b m', f m b = some m' → m.Same m') (l : List β) (m m' : Mach)
    (he : l.foldlM f m = some m') : m.Same m' := by
  induction l generalizing m with
  | nil => simp only [List.foldlM_nil, pure, Option.some.injEq] at he; exact he ▸ same_refl m
  | cons b l ih =>
    simp only [List.foldlM_cons] at he
    cases hb : f m b with
    | none => rw [hb] at he; cases he
    | some x => rw [hb] at he; exact same_trans (hf m b x hb) (ih x he)

theorem same_setCore (m : Mach) (c : Nat) (x : Core) : m.Same (m.setCore c x) := ⟨rfl, rfl, rfl, rfl, rfl⟩
theorem same_modCore (m : Mach) (c : Nat) (f : Core → Core) : m.Same (m.modCore c f) := ⟨rfl, rfl, rfl, rfl, rfl⟩
theorem same_setGroup (m : Mach) (c k : Nat) (g : Group) : m.Same (m.setGroup c k g) := ⟨rfl, rfl, rfl, rfl, rfl⟩
theorem same_modPart (m : Mach) (p : Nat) (f : Part → Part) : m.Same (m.modPart p f) := ⟨rfl, rfl, rfl, rfl, rfl⟩

/-! ### Memory -/

theorem same_pokeByte (m : Mach) (pa : Nat) (b : Byte) : m.Same (m.pokeByte pa b) := ⟨rfl, rfl, rfl, rfl, rfl⟩

theorem same_markWritten (m : Mach) (pg : Nat) : m.Same (m.markWritten pg) := by
  unfold Mach.markWritten
  split
  · exact same_refl m
  · dsimp only
    split <;> exact ⟨rfl, rfl, rfl, rfl, rfl⟩

theorem same_noteLeaves (m : Mach) (as : List Nat) : m.Same (m.noteLeaves as) := by
  unfold Mach.noteLeaves
  split
  · exact same_refl m
  · extract_lets roots olds
    split
    · exact same_refl m
    · exact same_modPart m _ _

theorem same_logEvent (m : Mach) (p chan slice unit code dom : Nat) (addr detail : W64) :
    m.Same (m.logEvent p chan slice unit code dom addr detail) := ⟨rfl, rfl, rfl, rfl, rfl⟩

theorem same_touchSector (m : Mach) (s : Nat) : m.Same (m.touchSector s) := by
  unfold Mach.touchSector
  dsimp only
  split
  · exact same_refl m
  · split
    · exact same_refl m
    · split <;> exact ⟨rfl, rfl, rfl, rfl, rfl⟩

theorem same_touchPage (m : Mach) (pg : Nat) : m.Same (m.touchPage pg) := by
  unfold Mach.touchPage
  exact same_foldl _ (fun m (s : Nat × Nat) => same_touchSector m s.1) _ _

theorem same_pokes (m : Mach) (keep : Option Nat) (whole : List Nat) (ws : List (Nat × Byte)) : m.Same (m.pokes keep whole ws) := by
  unfold Mach.pokes
  dsimp only
  have h := same_trans (same_noteLeaves m (ws.map (·.1)))
    (same_foldl (fun m w => Mach.pokeByte m w.1 w.2) (fun m w => same_pokeByte m w.1 w.2) ws _)
  refine same_trans ?_ (same_foldl _ same_markWritten _ _)
  exact ⟨h.teams, h.insts, h.cur, h.tick, h.clock⟩

theorem same_preserve (m m' : Mach) (pg : Nat) (hp : m.preserve pg = some m') : m.Same m' := by
  unfold Mach.preserve at hp
  split at hp
  · cases hp; exact same_refl m
  · dsimp only at hp
    split at hp
    · cases hp; exact same_refl m
    · split at hp
      · cases hp
      · cases hp
        have h := same_touchPage (m.flush (fun a => decide (pageOf a = pg))) pg
        exact ⟨h.teams, h.insts, h.cur, h.tick, h.clock⟩

theorem same_homeWrite (m m' : Mach) (keep : Option Nat) (whole : List Nat) (ws : List (Nat × Byte)) (he : m.homeWrite keep whole ws = some m')
    : m.Same m' := by
  unfold Mach.homeWrite at he
  cases hx : (distinct (ws.map (fun w => pageOf w.1))).foldlM Mach.preserve m with
  | none => rw [hx] at he; cases he
  | some x =>
    rw [hx] at he
    simp only [Option.map_some, Option.some.injEq] at he
    subst he
    exact same_trans (same_foldlM _ (fun m b m' => same_preserve m m' b) _ m x hx) (same_pokes x keep whole ws)

theorem same_tryWrite (m m' : Mach) (x : Stalled) (h : m.tryWrite x = some m') : m.Same m' := by
  unfold Mach.tryWrite at h
  split at h
  · cases h
  · exact same_homeWrite m m' none _ _ h

theorem same_ownWrite (m : Mach) (x : Stalled) : m.Same (m.ownWrite x) := by
  unfold Mach.ownWrite
  split
  · rename_i m' hm; exact same_tryWrite m m' x hm
  · exact same_trans (same_modPart m _ _) (same_modPart _ _ _)

theorem same_selfWrite (m : Mach) (pa : Nat) (bs : List Byte) : m.Same (m.selfWrite pa bs) := by
  unfold Mach.selfWrite
  split
  · exact same_refl m
  · exact same_ownWrite m _

theorem same_writeEvent (m : Mach) (e : Event) : m.Same (m.writeEvent e) := by
  unfold Mach.writeEvent
  dsimp only
  split
  · exact same_trans (same_modPart m _ _) (same_trans (same_selfWrite _ _ _) (same_modPart _ _ _))
  · exact same_trans (same_modPart m _ _) (same_modPart _ _ _)

theorem same_setGC (m m' : Mach) (at_ pg : Nat) : m'.Same (m.setGC m' at_ pg) := by
  unfold Mach.setGC
  split
  · exact same_ownWrite m' _
  · exact same_refl m'

theorem same_sendHome (m m' : Mach) (keep : Option Nat) (p src : Nat) (e : BitVec 24) (waiters : List (Nat × Nat × Nat)) (refused : Bool)
    (whole bad : List Nat)
    (at_ : Option Nat) (ws : List (Nat × Byte)) (b : Bool) (h : m.sendHome keep p src e waiters refused whole bad at_ ws = some (m', b))
        : m.Same m' := by
  unfold Mach.sendHome at h
  split at h
  · cases h; exact same_refl m
  · dsimp only at h
    split at h
    · cases h; exact same_modPart m _ _
    · simp only [Option.map_eq_some_iff] at h
      obtain ⟨x, hx, he⟩ := h
      have ht : x.Same (x.taint bad) := ⟨rfl, rfl, rfl, rfl, rfl⟩
      obtain rfl : _ = m' := congrArg Prod.fst he
      refine same_trans (same_homeWrite m x keep _ _ hx) (same_trans ht ?_)
      cases at_ with
      | none => exact same_refl _
      | some a => exact same_setGC m _ a _

/-- Filling the tags of the caches of the home moves bytes between them and DRAM at most. -/
theorem same_flush (m : Mach) (f : Nat → Bool) : m.Same (m.flush f) := ⟨rfl, rfl, rfl, rfl, rfl⟩

theorem same_victim (m : Mach) (set : List CTag) (f : CTag → Mach) (hf : ∀ v, m.Same (f v)) : m.Same (((victim set).map f).getD m) := by
  cases victim set with
  | none => exact same_refl m
  | some v => exact hf v

theorem same_msEvict (m : Mach) (ln : Nat) : m.Same (m.msEvict ln) := ⟨rfl, rfl, rfl, rfl, rfl⟩

theorem same_msFill (m : Mach) (t : CTag) : m.Same (m.msFill t) := by
  unfold Mach.msFill
  dsimp only
  split
  · exact ⟨rfl, rfl, rfl, rfl, rfl⟩
  · refine same_trans (b := if m.ms.length < 16 then m else _) ?_ ⟨rfl, rfl, rfl, rfl, rfl⟩
    split
    · exact same_refl m
    · split
      · exact same_refl m
      · exact same_victim m _ _ (fun v => same_msEvict m v.line)

theorem same_l2Evict (m : Mach) (v : CTag) : m.Same (m.l2Evict v) := by
  unfold Mach.l2Evict
  dsimp only
  split
  · exact same_trans (b := { m with l2 := without m.l2 v.line }) ⟨rfl, rfl, rfl, rfl, rfl⟩ (same_msFill _ _)
  · exact ⟨rfl, rfl, rfl, rfl, rfl⟩

theorem same_l2Fill (m : Mach) (t : CTag) : m.Same (m.l2Fill t) := by
  unfold Mach.l2Fill
  dsimp only
  refine same_trans (b := if m.l2.length < (m.part t.part).ways then m else _) ?_ ⟨rfl, rfl, rfl, rfl, rfl⟩
  split
  · exact same_refl m
  · split
    · exact same_refl m
    · exact same_victim m _ _ (same_l2Evict m)

theorem same_readLine (m : Mach) (ln : Nat) (whole : List Nat) : m.Same (m.readLine ln whole) := by
  unfold Mach.readLine
  split
  · exact same_refl m
  · refine same_foldl _ (fun m i => ?_) _ m
    split
    · exact same_refl m
    · exact same_touchSector m _

theorem same_l2Access (m : Mach) (t : CTag) (pin : Nat) (whole : List Nat) : m.Same (m.l2Access t pin whole) := by
  unfold Mach.l2Access
  split
  · exact ⟨rfl, rfl, rfl, rfl, rfl⟩
  · split
    · exact same_refl m
    · exact same_trans (same_readLine m _ _) (same_trans (same_msFill _ _) (same_l2Fill _ _))

theorem same_writeBack (m m' : Mach) (c ln : Nat) (h : m.writeBack c ln = some m') : m.Same m' := by
  unfold Mach.writeBack at h
  split at h
  · cases h; exact same_refl m
  · dsimp only at h
    split at h
    · cases h; exact same_modCore m _ _
    · simp only [Option.map_eq_some_iff] at h
      obtain ⟨⟨x, b⟩, hx, he⟩ := h
      subst he
      exact same_trans (same_l2Access m _ _ _) (same_trans (same_sendHome _ x _ _ _ _ _ _ _ _ _ _ b hx) (same_modCore _ _ _))

theorem same_widenLine (m m' : Mach) (c ln : Nat) (h : m.widenLine c ln = some m') : m.Same m' := by
  unfold Mach.widenLine at h
  split at h
  · cases h; exact same_refl m
  · split at h
    · cases h; exact same_refl m
    · dsimp only at h
      split at h
      · exact same_trans (same_modCore m _ _) (same_writeBack _ m' _ _ h)
      · cases h; exact same_modCore m _ _

theorem same_countStall (m : Mach) (pg w : Nat) : m.Same (m.countStall pg w) := by
  unfold Mach.countStall
  split
  · exact same_refl m
  · split
    · exact same_refl m
    · exact same_modPart m _ _

theorem same_widenWaiting (m : Mach) (c : Nat) (x : L1Line) : m.Same (m.widenWaiting c x) :=
  same_trans (same_modCore m _ _) (same_countStall _ _ _)

theorem same_endPin (m : Mach) (c slot : Nat) (x : L1Line) : m.Same (m.endPin c slot x) := by
  unfold Mach.endPin
  split
  · cases hy : m.widenLine c x.line with
    | none => exact same_widenWaiting m c x
    | some y => exact same_widenLine m y _ _ hy
  · exact same_modCore m _ _

theorem same_widenAll (m : Mach) (c slot : Nat) : m.Same (m.widenAll c slot) := by
  unfold Mach.widenAll
  exact same_foldl _ (fun m x => same_endPin m c slot x) _ m

/-! ### Ending groups and teams (R69, R390) -/

theorem same_endGroup (m : Mach) (c slot : Nat) : m.Same (m.endGroup c slot) := same_trans (same_widenAll m c slot) (same_setGroup _ _ _ _)

theorem same_killCopy (m : Mach) (id k : Nat) : m.Same (m.killCopy id k) := by
  have h : m.Same { m with copies := tset none m.copies k none } := ⟨rfl, rfl, rfl, rfl, rfl⟩
  unfold Mach.killCopy
  dsimp only
  split
  · exact h
  · exact same_trans h (same_logEvent _ _ _ _ _ _ _ _ _)

theorem same_killCopies (m : Mach) (id : Nat) : m.Same (m.killCopies id) := by
  unfold Mach.killCopies
  dsimp only
  apply same_foldl
  intro m kx
  exact same_killCopy m id kx.1

theorem same_killGroup (m : Mach) (c k : Nat) : m.Same (m.killGroup c k) :=
  same_trans (same_endGroup m c k) (same_trans (same_modPart _ _ _) (same_setGroup _ _ _ _))

theorem same_recordEnds (m : Mach) (id c n : Nat) : m.Same (m.recordEnds id c n) :=
  same_foldl _ (fun m _ => same_logEvent m _ _ _ _ _ _ _ _) _ m

theorem same_killOnCore (m : Mach) (id c : Nat) : m.Same (m.killOnCore id c) := by
  unfold Mach.killOnCore
  dsimp only
  generalize hx : m.recordEnds id c ((m.core c).unfinished id + m.spilledWords id c) = x
  have h : m.Same x := hx ▸ same_recordEnds m id c _
  exact same_trans h (same_trans (same_foldl (fun m k => m.killGroup c k) (fun m k => same_killGroup m c k) _ x) (same_modCore _ _ _))

theorem same_dropAsked (m : Mach) (id : Nat) : m.Same (m.dropAsked id) := ⟨rfl, rfl, rfl, rfl, rfl⟩

/-- Ending a team marks it ended; every other team, every instance and the clocks are as they were. -/
theorem killTeam_spec (m : Mach) (id : Nat) : ∃ a, m.Same a ∧ m.killTeam id = a.modTeam id (fun t => { t with ended := true, rv := [] }) :=
  ⟨_, same_trans (same_trans (same_killCopies m id) (same_foldl _ (fun m c => same_killOnCore m id c) _ _)) (same_dropAsked _ _), rfl⟩

theorem team_killTeam (m : Mach) (id j : Nat) :
    (m.killTeam id).team j = if j = id then { m.team id with ended := true, rv := [] } else m.team j := by
  obtain ⟨a, h, he⟩ := killTeam_spec m id
  have ht (j : Nat) : a.team j = m.team j := by unfold Mach.team; rw [h.teams]
  rw [he]
  unfold Mach.modTeam
  rw [team_setTeam, ht, ht]

theorem insts_killTeam (m : Mach) (id : Nat) : (m.killTeam id).insts = m.insts := by
  obtain ⟨a, h, he⟩ := killTeam_spec m id
  rw [he]
  exact h.insts

/-- Ending several teams ends each of them and no other. -/
theorem team_killTeams (l : List Nat) (m : Mach) (j : Nat) :
    ((l.foldl Mach.killTeam m).team j) = if j ∈ l then { m.team j with ended := true, rv := [] } else m.team j := by
  induction l generalizing m with
  | nil => rfl
  | cons i l ih =>
    simp only [List.foldl_cons, List.mem_cons, ih, team_killTeam]
    by_cases h : j = i
    · subst h; by_cases h2 : j ∈ l <;> simp [h2]
    · simp [h]

/-! ### Traps -/

theorem same_noteTrap (m : Mach) (c k : Nat) (pc : W64) (t : Trap) : m.Same (m.noteTrap c k pc t) :=
  same_trans (same_modPart m _ _) (same_logEvent _ _ _ _ _ _ _ _ _)

/-- Everything that taking a trap does beside the record and the log. -/
theorem takeTrap_cases (m : Mach) (c k : Nat) (pc : W64) (t : Trap) :
    (m.rollsBack c k = true ∧ takeTrap m c k pc t = m.noteTrap c k pc t) ∨
    (m.rollsBack c k = false ∧ m.stopsAt c k t = true ∧ takeTrap m c k pc t =
      (m.noteTrap c k pc t).setGroup c k { ((m.noteTrap c k pc t).group c k) with status := .parked .brkStop }) ∨
    (m.rollsBack c k = false ∧ m.stopsAt c k t = false ∧ takeTrap m c k pc t =
      (m.noteTrap c k pc t).killGang (m.team (m.group c k).team).inst (gangOf c) t.cause) := by
  unfold takeTrap
  dsimp only
  cases hb : m.rollsBack c k
  · cases hs : m.stopsAt c k t
    · exact .inr (.inr ⟨rfl, rfl, rfl⟩)
    · exact .inr (.inl ⟨rfl, rfl, rfl⟩)
  · exact .inl ⟨rfl, rfl⟩

end Sys2Proof.Machine
end

