-- ==== Sys2Proof/Laws/Waits.lean ====
section
/-! SUPPORT. What the shared waits and turns of the part can do, said once: whose turn a row path's page is, which generation a write
belongs to, what a copy and a presented witness wait for, and when a feed or a store's pin waits. -/

namespace Sys2Proof.Machine

/-! ### Row paths (R381) -/

/-- A page has its turn only where no earlier page, nor any path that runs, occupies a bank of it. -/
theorem rowTurns_free (ps : List (Nat × Option Nat)) (busy : List Nat) (i j : Nat) (h : j ∈ rowTurns busy i ps) :
    i ≤ j ∧ ∃ p, ps[j - i]? = some p ∧ ∀ b ∈ banksOf p, b ∉ busy := by
  induction ps generalizing busy i with
  | nil => simp [rowTurns] at h
  | cons q t ih =>
    have later (h' : j ∈ rowTurns ((banksOf q).filter (fun b => !busy.contains b) ++ busy) (i + 1) t) :
        i ≤ j ∧ ∃ p, (q :: t)[j - i]? = some p ∧ ∀ b ∈ banksOf p, b ∉ busy := by
      obtain ⟨hj, p, hp, hb⟩ := ih _ _ h'
      refine ⟨by omega, p, ?_, fun b hm hbusy => hb b hm (List.mem_append_right _ hbusy)⟩
      rw [show j - i = (j - (i + 1)) + 1 by omega]
      simpa using hp
    simp only [rowTurns] at h
    split at h
    · exact later h
    · rename_i hfree
      rcases List.mem_cons.mp h with rfl | h
      · refine ⟨Nat.le_refl _, q, by simp, fun b hb hbusy => hfree ?_⟩
        exact List.any_eq_true.mpr ⟨b, hb, by simpa using hbusy⟩
      · exact later h

/-- With no bank occupied, the first page has its turn. -/
theorem rowTurns_first (p : Nat × Option Nat) (ps : List (Nat × Option Nat)) (i : Nat) : i ∈ rowTurns [] i (p :: ps) := by
  simp [rowTurns]

/-! ### Generations (R278, R362, R366) -/

/-- With DONE received everywhere a write belongs to the open generation. -/
theorem takesWrite_done (x : Part) (pg : Nat) (g : Gen) (h : x.ep.undone = []) : x.takesWrite pg g = (g.st == 0) := by
  simp [Part.takesWrite, h]

/-- A generation owes an image only while it drains. -/
theorem owes_draining (x : Part) (pg : Nat) (g : Gen) (h : x.owes pg g = true) : g.st = 1 ∧ pg ∈ g.written := by
  simp only [Part.owes, Gen.owes, Bool.and_eq_true, beq_iff_eq, List.contains_iff_mem] at h
  exact ⟨h.1.1.1, h.1.1.2⟩

/-- GC is set or the state is as the write left it. -/
theorem setGC_cases (m m' : Mach) (at_ pg : Nat) : m.setGC m' at_ pg = m' ∨ m.setGC m' at_ pg = m'.selfOr at_ 0x200#64 := by
  unfold Mach.setGC; split <;> simp

/-! ### Witnesses, stores and streams -/

/-- A word that goes on away from its core presents nothing again. -/
@[simp] theorem presentOnce_away (m : Mach) (v : View) (w : W64) (f : Mach → MemRes) (h : v.away = true) : m.presentOnce v w f = f m := by
  simp [Mach.presentOnce, h]

@[simp] theorem presentOnce_here (m : Mach) (v : View) (w : W64) (f : Mach → MemRes) (h : v.away = false) :
    m.presentOnce v w f = m.presenting v w f := by simp [Mach.presentOnce, h]

/-- A copy that moves on past its fence has the same machine, or the one that the presentation left. -/
theorem copyFence_cases (m : Mach) (x : Copy) (f : Mach → Mach × Option Copy) :
    m.copyFence x f = (m, none) ∨ m.copyFence x f = f m ∨ m.copyFence x f = m.copyShows x x.fence f := by
  unfold Mach.copyFence
  split
  · exact .inr (.inr rfl)
  · split <;> simp
  · exact .inr (.inl rfl)

/-- Only a group that lives, of the storing team, pins, and only at group or core scope. -/
theorem pinFor_some (m : Mach) (c slot team : Nat) (scp : BitVec 2) (k : Nat) (h : m.pinFor c slot team scp = some k) :
    k = slot ∧ scp.toNat ≤ 1 ∧ (m.group c slot).team = team ∧ (m.group c slot).status ≠ .ended ∧ (m.group c slot).halted = false := by
  simp only [Mach.pinFor] at h
  split at h
  · rename_i hc
    simp only [Bool.and_eq_true, decide_eq_true_eq, beq_iff_eq, bne_iff_ne, ne_eq, Bool.not_eq_true'] at hc
    exact ⟨by simpa using h.symm, hc.1.1.1, hc.1.1.2, hc.1.2, hc.2⟩
  · simp at h

/-- With room in the stream a feed waits for its tile alone. -/
theorem feedWait_room (m : Mach) (q : Q) (t : T) (h : ((m.core m.cur.1).stream q.toNat).room ≠ 0) : m.feedWait q t = m.tileWait t true := by
  unfold Mach.feedWait
  split
  · simp_all
  · simp [*]

/-- The witness of another core, or of none, leaves the group's own fence point as it was. -/
theorem fenceMe_other (m : Mach) (w : W64) (h : m.ownPoint m.cur.1 w = false) :
    m.fenceMe w = m.modMe (fun g => { g with fence := wMerge m g.fence w }) := by
  unfold Mach.fenceMe; simp [h]

end Sys2Proof.Machine
end

