-- ==== Sys2Proof/Tests/Slice0.lean ====
section
/-! SUPPORT. Own tests: terms that are no words, words written out from the spec's encodings, one step of single words with results
from the spec or by hand, and for every statement with hypotheses a state that meets them. -/

namespace Sys2Proof.Tests
open Sys2Proof Sys2Proof.Machine Sys2Proof.Claims
set_option Elab.async false

def h0 : Hdr := ⟨false, false, ⟨false, 0⟩, .seq⟩
/-- The switch marker set. -/
def hsw : Hdr := ⟨false, true, ⟨false, 0⟩, .seq⟩
def goes : Hdr := ⟨false, false, ⟨false, 0⟩, .go 1⟩
/-- Guarded by p1. -/
def hp1 : Hdr := ⟨false, false, ⟨false, 1⟩, .seq⟩
def a0 : MAttr := ⟨0, 0, 0⟩
/-- Own scratchpad, device scope. -/
def sp2 : MAttr := ⟨1, 0, 2⟩
def i32 : IntMod := ⟨false, false, false⟩
def u32 : IntMod := ⟨false, true, false⟩
def i64 : IntMod := ⟨false, false, true⟩
/-- FP32 images. -/
def fOne : W32 := 0x3F800000#32
def fTwo : W32 := 0x40000000#32

/-- A part on which the word `i` is placed, with its group and machine changed as the test needs. -/
def at_ (i : Instr) (g : Group → Group := id) (f : Mach → Mach := id) : State :=
  let s := placed State.reset (encode i)
  { s with m := f (s.m.modMe g) }

/-- The machine after the word. -/
def run (i : Instr) (g : Group → Group := id) (f : Mach → Mach := id) : Mach :=
  match exec i (at_ i g f) with
  | .next t => t.m
  | _ => Mach.reset

/-- v[r] in lane l, s[r] and p[r] after the word. -/
def vAfter (r l : Nat) (i : Instr) (g : Group → Group := id) (f : Mach → Mach := id) : W32 := tget 0 (run i g f).me.v (64 * r + l)
def sAfter (r : Nat) (i : Instr) (g : Group → Group := id) (f : Mach → Mach := id) : W64 := tget 0 (run i g f).me.s r
def pAfter (r : Nat) (i : Instr) (g : Group → Group := id) (f : Mach → Mach := id) : W64 := tget 0 (run i g f).me.p r

def vs (l : List (Nat × Nat × W32)) (g : Group) : Group := l.foldl (fun g x => g.putV x.1 x.2.1 x.2.2) g
def ss (l : List (Nat × W64)) (g : Group) : Group := l.foldl (fun g x => g.putS x.1 x.2) g
def allV (r : Nat) (x : Nat → W32) (g : Group) : Group := g.writeV (BitVec.allOnes 64) r x

/-! ### Terms that are no words (R61 to R75) -/

theorem test_wf_odd_pair : wellFormed (.add h0 i64 (.v 3) (.v 2) (.v 4)) = false := by decide
theorem test_wf_scalar_pipe_vector_source : wellFormed (.add h0 i32 (.s 3) (.v 2) (.s 4)) = false := by decide
theorem test_wf_immediate_first_source : wellFormed (.and h0 false (.v 1) (.imm 4) (.v 2)) = false := by decide
theorem test_wf_generic_goes : wellFormed (.faddG goes 3 .ne 1 (.v 2) (.v 3)) = false := by decide
theorem test_wf_generic_immediate : wellFormed (.faddG h0 3 .ne 1 (.v 2) (.imm 0)) = false := by decide
theorem test_wf_generic_space : wellFormed (.ldG h0 3 .w4 1 (.ub 2 3) 0 sp2) = false := by decide
theorem test_wf_reserved_format : wellFormed (.fmtset h0 .a 0xA) = false := by decide
theorem test_wf_saturating_mulhi : wellFormed (.mulhi h0 ⟨true, false, false⟩ (.v 1) (.v 2) (.v 3)) = false := by decide
theorem test_wf_quad : wellFormed (.ld h0 .w16 false 6 (.ub 2 3) 0 a0) = false := by decide
theorem test_wf_odd_lane_pointer : wellFormed (.ld h0 .w4 false 6 (.lp 3) 0 a0) = false := by decide
theorem test_wf_uniform_lane_pointer : wellFormed (.ld h0 .w4 true 6 (.lp 4) 0 a0) = false := by decide
theorem test_wf_signed_store : wellFormed (.st h0 .s8 false 6 (.ub 2 3) 0 a0) = false := by decide
theorem test_wf_rendezvous_24 : wellFormed (.rvarr h0 24 3) = false := by decide
theorem test_wf_matrix_k : wellFormed (.mmp h0 3 1 0 1 0) = false := by decide
theorem test_wf_sparse_k : wellFormed (.mmps h0 3 1 0 1 6) = false := by decide
theorem test_wf_pages : wellFormed (.mzero h0 1 2 3 4097) = false := by decide
theorem test_wf_special_register_14 : wellFormed (.rds h0 (.s 1) 0x14) = false := by decide
theorem test_wf_half_scalar_float : wellFormed (.fadd h0 .f16 .ne (.s 1) (.s 2) (.s 3)) = false := by decide
theorem test_wf_shup_lane_count : wellFormed (.shup h0 .s64 false 1 2 (.v 3)) = false := by decide
theorem test_wf_step_is_no_word : wellFormed (.closeEpoch 0) = false := by decide

/-! ### Words written out from R60 and the opcode map (R73) -/

/-- Worked in R115: `cmp.lt.un p3, v4, 100 then if p3 DONE`, six words ahead. -/
theorem test_decode_cmp : decode 0x3000000600000064_0842000000403430#128 =
    some (.cmp ⟨false, false, ⟨false, 0⟩, .iff 6 ⟨false, 3⟩ false⟩ .lt u32 .wr false 3 (.v 4) (.imm 100)) := by decide
/-- Worked in "Two words worked out": `nop then loop TOP`. -/
theorem test_decode_loop : decode 0x0FFFFFFD00000000_0003000000000000#128 =
    some (.nop ⟨false, false, ⟨false, 0⟩, .loop (-3) ⟨false, 0⟩ false⟩) := by decide
/-- The same section's `^ fadd.g v10, v11, v12 site 3`, its SB placed at [35:28] as R60 has it. -/
theorem test_decode_faddG : decode 0x0000000300000000_00100000C0B0A150#128 = some (.faddG hsw 3 .ne 10 (.v 11) (.v 12)) := by decide
/-- Worked after R164: `cvt.rz v20, v16, 0x30`. -/
theorem test_decode_cvt : decode 0x0000000000000030_2000000001014070#128 = some (.cvt h0 .rz 3 0 20 (.v 16) (.v 0)) := by decide
/-- R219: `(p5) copy.mc s12,s20,s21,s22,t3,0xFF`. -/
theorem test_decode_copyMc : decode 0x000000000000FF03_000051615140C6D5#128 =
    some (.copyMc ⟨false, false, ⟨false, 5⟩, .seq⟩ 0 12 20 21 22 3 0xFF) := by decide
/-- R228: `mmp.lg6 acc1,q0,q1,128`, and `mmp.g acc0,q2,q3,64,9`. -/
theorem test_decode_mmp : decode 0x0000000000000080_00000000100010E0#128 = some (.mmp h0 0 1 0 1 128) := by decide
theorem test_decode_mmpG : decode 0x0000000900000040_00000000302001E0#128 = some (.mmpG h0 9 0 2 3 64) := by decide
/-- R203: `^ mzero s20,s31,s0,1`, and `mcopy s21,s32,s30,s14,1`. -/
theorem test_decode_mzero : decode 0x0000000000000001_0010000001F140C7#128 = some (.mzero hsw 20 31 0 1) := by decide
theorem test_decode_mcopy : decode 0x0000000000000001_000000E1E20150C8#128 = some (.mcopy h0 21 32 30 14 1) := by decide
/-- OP 0x01 `trap 7`, guard p5 at [46:44]. -/
theorem test_decode_trap : decode 0x0000000000000007_0000500000000001#128 = some (.trap ⟨false, false, ⟨false, 5⟩, .seq⟩ 7) := by decide
/-- OP 0x10 `add v2, v1, 1`: DST 2, SA 1, IB at [59]. -/
theorem test_decode_add : decode 0x0000000000000001_0800000000102010#128 = some (.add h0 i32 (.v 2) (.v 1) (.imm 1)) := by decide
/-- OP 0x24 `shl.w v4:v5, v2:v3, s9`: MOD 1, SB 9, SSB at [57]. -/
theorem test_decode_shl : decode 0x0000000000000000_0220000090204024#128 = some (.shl h0 true (.v 4) (.v 2) (.s 9)) := by decide
/-- OP 0x41 `movi v7, 5`. -/
theorem test_decode_movi : decode 0x0000000000000005_0000000000007041#128 = some (.movi h0 false (.v 7) 5) := by decide
/-- OP 0x65 `fmtget s4`. -/
theorem test_decode_fmtget : decode 0x0000000000000000_0000000000004065#128 = some (.fmtget h0 4) := by decide
/-- OP 0x71 `pack v8, v12`. -/
theorem test_decode_pack : decode 0x0000000000000000_0000000000C08071#128 = some (.pack h0 8 12) := by decide
/-- OP 0x84 `redadd.un s3, v6`: MOD 2. -/
theorem test_decode_redadd : decode 0x0000000000000000_0040000000603084#128 = some (.redadd h0 u32 3 6) := by decide
/-- OP 0x91 `lds.sp s5, s6, s7, 16`: SC 7, SPC 1 at [62:61]. -/
theorem test_decode_lds : decode 0x0000000000000010_2000007000605091#128 = some (.lds h0 .w4 5 6 16 7 ⟨1, 0, 0⟩) := by decide
/-- OP 0xA7 `widen s9`. -/
theorem test_decode_widen : decode 0x0000000000000000_00000000000090A7#128 = some (.widen h0 9) := by decide
/-- OP 0xB2 `atoms.cas.dev s1, s2, s3, s4, s5`: SUB 7, SCP 2, IMM[5:0] = 4, IMM[13:8] = 5. -/
theorem test_decode_atoms : decode 0x0000000000000504_0200003000201EB2#128 = some (.atoms h0 .cas false false 1 2 3 4 5 ⟨0, 0, 2⟩) := by decide
/-- OP 0xF0 `rvinit rv2, 5`. -/
theorem test_decode_rvinit : decode 0x0000000000000005_00000000000020F0#128 = some (.rvinit h0 2 5) := by decide
/-- R60, R75: sixteen zero bytes are `nop`; OP 0xFF, a generic word that goes on by GO, and TGT bit 112 of one are no words. -/
theorem test_decode_zero : decode 0 = some (.nop h0) := by decide
theorem test_decode_ones : decode (BitVec.allOnes 128) = none := by decide
theorem test_decode_generic_go : decode 0x0000000300000000_00110000C0B0A150#128 = none := by decide
theorem test_decode_generic_tgt : decode 0x0001000300000000_00100000C0B0A150#128 = none := by decide
theorem test_table_word : decodeTableWord 128 0x0000000000000001_0800000000102010 = some (.add h0 i32 (.v 2) (.v 1) (.imm 1)) := by decide

/-! ### One step from reset -/

/-- R60: a placed `nop` only advances. -/
theorem test_step_nop : (match step (State.withFetchWord State.reset 128 0) with
  | .next t => (t.m.group 0 0).pc
  | _ => 0) = 1 := by decide +kernel


/-! ### Single words -/

theorem test_add_wraps : vAfter 2 0 (.add h0 i32 (.v 2) (.v 1) (.imm 1)) (vs [(1, 0, 0xFFFFFFFF)]) = 0 := by decide +kernel
/-- R105: a signed saturating sum stops at the greatest value. -/
theorem test_add_saturates : vAfter 2 0 (.add h0 ⟨true, false, false⟩ (.v 2) (.v 1) (.imm 1)) (vs [(1, 0, 0x7FFFFFFF)]) = 0x7FFFFFFF := by
  decide +kernel
theorem test_sub_source_is_destination : vAfter 1 0 (.sub h0 i32 (.v 1) (.v 2) (.v 1)) (vs [(1, 0, 3), (2, 0, 1)]) = 0xFFFFFFFE := by decide +kernel
theorem test_mulhi_unsigned : vAfter 3 0 (.mulhi h0 u32 (.v 3) (.v 1) (.v 1)) (vs [(1, 0, 0xFFFFFFFF)]) = 0xFFFFFFFE := by decide +kernel
/-- R106: the most negative value over −1. -/
theorem test_div_overflow : vAfter 3 0 (.div h0 i32 (.v 3) (.v 1) (.imm 0xFFFFFFFF)) (vs [(1, 0, 0x80000000)]) = 0x80000000 := by decide +kernel
theorem test_rem_sign : vAfter 3 0 (.rem h0 i32 (.v 3) (.v 1) (.imm 2)) (vs [(1, 0, 0xFFFFFFF9)]) = 0xFFFFFFFF := by decide +kernel
theorem test_addc_carry : pAfter 2 (.addc h0 false false 3 (.v 1) (.v 1) 2) (vs [(1, 0, 0x80000000)]) = 1 := by decide +kernel
/-- R104: a pair holds 64 bits, low half first. -/
theorem test_add_pair : vAfter 5 7 (.add h0 i64 (.v 4) (.v 2) (.imm 1)) (vs [(2, 7, 0xFFFFFFFF), (3, 7, 8)]) = 9 := by decide +kernel
theorem test_guard_holds_back : vAfter 2 1 (.add hp1 i32 (.v 2) (.v 1) (.imm 1)) (fun g => (g.putP 1 (BitVec.allOnes 64) 1).putV 2 1 7) = 7 := by
  decide +kernel
theorem test_s0_discards : sAfter 0 (.add h0 i32 (.s 0) (.s 1) (.imm 1)) = 0 := by decide +kernel
theorem test_shl_full : vAfter 2 0 (.shl h0 false (.v 2) (.v 1) (.imm 32)) (vs [(1, 0, 1)]) = 0 := by decide +kernel
theorem test_sar_full : vAfter 2 0 (.sar h0 false (.v 2) (.v 1) (.imm 40)) (vs [(1, 0, 0x80000000)]) = 0xFFFFFFFF := by decide +kernel
theorem test_rot_reduces : vAfter 2 0 (.rot h0 false (.v 2) (.v 1) (.imm 33)) (vs [(1, 0, 0x80000001)]) = 3 := by decide +kernel
/-- R111: 8 bits at bit 4. -/
theorem test_bfx : vAfter 2 0 (.bfx h0 false false (.v 2) (.v 1) (.imm 2052)) (vs [(1, 0, 0x1234)]) = 0x23 := by decide +kernel
/-- R112: table 0xC0 is a and b. -/
theorem test_lop3_and : vAfter 4 0 (.lop3 h0 false (.v 4) (.v 1) (.v 2) (.v 3) 0xC0) (vs [(1, 0, 0xF0), (2, 0, 0xCC), (3, 0, 0xAA)]) = 0xC0 := by
  decide +kernel
/-- R113: byte 4 is b's lowest; bit 3 of a selector gives the byte's sign. -/
theorem test_perm : vAfter 4 0 (.perm h0 (.v 4) (.v 1) (.v 2) (.v 3)) (vs [(1, 0, 0x44332281), (2, 0, 0x88776655), (3, 0, 0x8047)]) = 0xFF815588 := by
  decide +kernel
theorem test_clz_zero : vAfter 2 0 (.clz h0 false (.v 2) (.v 1)) = 32 := by decide +kernel
/-- R115: against −1 written for an unsigned compare. -/
theorem test_cmp_unsigned : pAfter 3 (.cmp h0 .lt u32 .wr false 3 (.v 4) (.imm 0xFFFFFFFF)) = BitVec.allOnes 64 := by decide +kernel
theorem test_fcmp_nan : pAfter 3 (.fcmp h0 .ne .fp32 .wr false 3 (.v 4) (.v 4)) (vs [(4, 1, 0x7FC00000)]) = 2 := by decide +kernel
theorem test_ptest_count : sAfter 3 (.ptest h0 .cnt 3 1) (fun g => g.putP 1 (BitVec.allOnes 64) 0xB) = 3 := by decide +kernel
theorem test_elect : pAfter 2 (.elect h0 2 1) (fun g => g.putP 1 (BitVec.allOnes 64) 0xC) = 4 := by decide +kernel
theorem test_movi_wide : vAfter 5 0 (.movi h0 true (.v 4) 0xFFFFFFFE) = 0xFFFFFFFF := by decide +kernel
theorem test_vtos_lane : sAfter 3 (.vtos h0 false (some 5) 3 1) (vs [(1, 5, 42)]) = 42 := by decide +kernel
/-- R144: 1 + 2^−24 is a tie to even, and the next value up when rounded up. -/
theorem test_fadd_tie : vAfter 3 0 (.fadd h0 .fp32 .ne (.v 3) (.v 1) (.v 2)) (vs [(1, 0, fOne), (2, 0, 0x33800000)]) = fOne := by decide +kernel
theorem test_fadd_up : vAfter 3 0 (.fadd h0 .fp32 .ru (.v 3) (.v 1) (.v 2)) (vs [(1, 0, fOne), (2, 0, 0x33800000)]) = 0x3F800001 := by decide +kernel
/-- R145: (1 + 2^−23)^2 − (1 + 2^−22) is 2^−46 exactly. -/
theorem test_ffma_once : vAfter 4 0 (.ffma h0 .fp32 .ne (.v 4) (.v 1) (.v 1) (.v 2)) (vs [(1, 0, 0x3F800001), (2, 0, 0xBF800002)]) = 0x28800000 := by
  decide +kernel
theorem test_fmin_zeros : vAfter 4 0 (.fmin h0 .fp32 (.v 4) (.v 1) (.v 2)) (vs [(2, 0, 0x80000000)]) = 0x80000000 := by decide +kernel
theorem test_frcp_three : vAfter 4 0 (.frcp h0 .fp32 (.v 4) (.v 1)) (fun g => { vs [(1, 0, 0x40400000)] g with xm := 1 }) = 0x3EAAAAAB := by
  decide +kernel
theorem test_frsq_minus_zero : vAfter 4 0 (.frsq h0 .fp32 (.v 4) (.v 1)) (fun g => { vs [(1, 0, 0x80000000)] g with xm := 1 }) = 0xFF800000 := by
  decide +kernel
theorem test_fsqrt_two : vAfter 4 0 (.fsqrt h0 .fp32 .ne (.v 4) (.v 1)) (fun g => { vs [(1, 0, fTwo)] g with xm := 1 }) = 0x3FB504F3 := by
  decide +kernel
theorem test_fsinpi_half : vAfter 4 0 (.fsinpi h0 .fp32 (.v 4) (.v 1)) (fun g => { vs [(1, 0, 0x3F000000)] g with xm := 1 }) = fOne := by
  decide +kernel
/-- R148: −0.3 rounds to −0. -/
theorem test_frnd_keeps_sign : vAfter 4 0 (.frnd h0 .rn .fp32 (.v 4) (.v 1)) (vs [(1, 0, 0xBE99999A)]) = 0x80000000 := by decide +kernel
/-- Worked after R152: `lmul` of 0x16 and 0x2B is 0x31. -/
theorem test_lmul : vAfter 3 0 (.lmul h0 false 3 (.v 1) (.v 2)) (vs [(1, 0, 0x16), (2, 0, 0x2B)]) = 0x31 := by decide +kernel
theorem test_fmtset_d : (run (.fmtset h0 .d 3) (fun g => { g with fmt := 0x1222 })).me.fmt = 0x1322 := by decide +kernel
/-- Worked conversions: 3.0 to LG6 is 0x16; LG6 0x2B is 0xBED7_4800; 300.0 is 0x79 and, toward zero, 500.0 is 0x7E in E4M3. -/
theorem test_cvt_to_lg6 : vAfter 3 0 (.cvt h0 .ne 8 0 3 (.v 4) (.v 0)) (vs [(4, 0, 0x40400000)]) = 0x16 := by decide +kernel
theorem test_cvt_from_lg6 : vAfter 8 0 (.cvt h0 .ne 0 8 8 (.v 4) (.v 0)) (vs [(4, 0, 0x2B)]) = 0xBED74800 := by decide +kernel
theorem test_cvt_e4m3 : vAfter 20 0 (.cvt h0 .rz 3 0 20 (.v 16) (.v 0)) (vs [(16, 0, 0x43960000), (17, 0, 0x43FA0000)]) = 0x7E79 := by decide +kernel
/-- −200.7 to INT8 is −128 (0x80). -/
theorem test_cvt_int8 : vAfter 20 0 (.cvt h0 .ne 6 0 20 (.v 16) (.v 0)) (vs [(16, 0, 0xC348B333)]) = 0x80 := by decide +kernel
/-- Worked after R164: `qnt.mx4` of −0.01 in every lane of block 1, and `dqnt` of it. -/
theorem test_qnt : vAfter 8 40 (.qnt h0 .mx4 8 (.v 4)) (fun g => { allV 4 (fun _ => 0xBC23D70A) g with xm := 0xFFFFFFFF00000000 }) = 0x760F := by
  decide +kernel
theorem test_dqnt : vAfter 8 0 (.dqnt h0 .mx4 8 (.v 4)) (vs [(4, 0, 0x760F)]) = 0xBC400000 := by decide +kernel
theorem test_shup_keeps_low_lanes : vAfter 2 8 (.shup h0 .s8 false 2 1 (.imm 1)) (vs [(1, 7, 70), (1, 8, 80)]) = 80 := by decide +kernel
theorem test_redadd_wraps : sAfter 3 (.redadd h0 i32 3 1) (vs [(1, 0, 0xFFFFFFFF), (1, 63, 3)]) = 2 := by decide +kernel
/-- R57: lanes 0 and 1 are summed first, then with 2 and 3: 2^24 + 1 rounds back, 1 + 1 does not. -/
theorem test_fredadd_tree : sAfter 3 (.fredadd h0 3 1) (vs [(1, 0, 0x4B800000), (1, 1, fOne), (1, 2, fOne), (1, 3, fOne)]) = 0x4B800001 := by
  decide +kernel
theorem test_scan_exclusive : vAfter 2 3 (.scan h0 .addx i32 2 1) (vs [(1, 0, 5), (1, 2, 6), (1, 3, 100)]) = 11 := by decide +kernel
theorem test_compact : vAfter 2 1 (.compact h0 false 2 1 1 4) (fun g => (vs [(1, 3, 33), (1, 9, 99)] g).putP 1 (BitVec.allOnes 64) 0x208) = 99 := by
  decide +kernel

/-- R137: the hash of a word, folded as R137's Crc gives it: eight zero bytes leave a zero SIG zero. -/
theorem test_sig_of_nop : (run (.nop h0) (fun g => { g with sig := 0 })).me.sig = 0 := by decide +kernel
theorem test_lcset : (run (.lcset h0 9)).me.lc = 9 := by decide +kernel
/-- R135: lanes that the path has lost do not come back. -/
theorem test_xmset_or : (run (.xmsetOr h0 3) (fun g => { ss [(3, 0xFF)] g with xm := 1, retired := 0xF0 })).me.xm = 0xF := by decide +kernel
theorem test_rds_core : sAfter 3 (.rds h0 (.s 3) 1) = 0 := by decide +kernel

/-- R67: LOOP with LC 1 leaves 0 and falls through; with LC 2 it goes back. -/
theorem test_loop_ends : (run (.nop ⟨false, false, ⟨false, 0⟩, .loop (-3) ⟨false, 0⟩ false⟩) (fun g => { g with pc := 10, lc := 1 })).me.pc = 11 := by
  decide +kernel
theorem test_loop_again : (run (.nop ⟨false, false, ⟨false, 0⟩, .loop (-3) ⟨false, 0⟩ false⟩) (fun g => { g with pc := 10, lc := 2 })).me.pc = 7 := by
  decide +kernel
/-- R253: the lanes that fall through go on; the others wait in the entry. -/
theorem test_branch_splits : (run (.nop ⟨false, false, ⟨false, 0⟩, .iff 6 ⟨false, 1⟩ false⟩) (fun g => g.putP 1 (BitVec.allOnes 64) 0xF)).me.xm =
    0xFFFFFFFFFFFFFFF0 := by decide +kernel
theorem test_ret : (run (.nop ⟨false, false, ⟨false, 0⟩, .ret⟩) (fun g => { g with calls := [77, 5] })).me.pc = 77 := by decide +kernel
theorem test_end : (run (.nop ⟨false, false, ⟨false, 0⟩, .fin⟩)).me.status = .ended := by decide +kernel
/-- R131, R76: `trap 7` records cause 0x08 and DETAIL 7 in the domain of its region. -/
theorem test_trap_record : (((run (.trap h0 7)).part 0).fd 0).rdetail = 7 := by decide +kernel
theorem test_privilege : (((run (.genrb h0 1 2) id (fun m => m.modInst 1 (fun x => { x with priv := false }))).part 0).fd 0).rcause = 7 := by
  decide +kernel
/-- R13: v200 in a team of 8 vector registers. -/
theorem test_vregs : (((run (.add h0 i32 (.v 200) (.v 1) (.v 1))
    id (fun m => m.modTeam 1 (fun x => { x with pool := 0 }))).part 0).fd 0).rcause = 3 := by decide +kernel

/-! ### Memory and witnesses -/

/-- A store of a lane's register to the own scratchpad, byte order R7. -/
def padStore : Instr := .st h0 .w4 false 9 (.ub 2 3) 1 sp2
def padGroup (g : Group) : Group := { vs [(1, 0, 0x11223344), (3, 0, 8)] (ss [(2, 0x1000000000000100)] g) with xm := 1 }
theorem test_st_bytes : ((run padStore padGroup).spRead 0 0x108 4) = [0x44#8, 0x33#8, 0x22#8, 0x11#8] := by decide +kernel
/-- R184: a point witness of core 0, number 0, epoch 0, device scope. -/
theorem test_st_witness : (run padStore padGroup).me.s.any (fun x => x.1 == 9 && x.2 == 0x6000000000000000#64) = true := by decide +kernel
theorem test_lds_outstanding : (run (.lds h0 .z8 5 2 1 0 sp2) padGroup (fun m => m.spWrite 0 0x101 [0xAB])).me.outs.map (fun o =>
    o.writes.map (·.val)) =
    [[0xAB]] := by decide +kernel
theorem test_misaligned : (((run (.lds h0 .w4 5 2 2 0 sp2) padGroup).part 0).fd 0).rcause = 0x10 := by decide +kernel
theorem test_atom_new : (run (.atom h0 .add false false 5 (.ub 2 3) 1 9 0 sp2) padGroup (fun m => m.spWrite 0 0x108 [1, 0, 0, 0])).spRead 0 0x108 4 =
    [0x45#8, 0x33#8, 0x22#8, 0x11#8] := by decide +kernel
/-- R82: two witnesses of one core merge to the later number. -/
theorem test_wmrg : sAfter 3 (.wmrg h0 3 1 2) (ss [(1, pointW 2 0 5 7 1), (2, pointW 1 0 5 9 1)]) = pointW 2 0 5 9 1 := by decide +kernel
theorem test_wmrg_null : sAfter 3 (.wmrg h0 3 1 0) (ss [(1, pointW 2 0 5 7 1)]) = pointW 2 0 5 7 1 := by decide +kernel
/-- R185: number 0 of the next epoch is later than number 524,287 of this one. -/
theorem test_later_point : laterPoint (pointW 2 0 5 524287 1) (pointW 2 0 5 0 2) = pointW 2 0 5 0 2 := by decide
theorem test_store_reads_back : ((Mach.reset.selfWrite 0x2000 [1, 2]).homeBytes 0x1FFF 4) = [0, 1, 2, 0] := by decide +kernel

/-! ### Tiles and the array -/

/-- R53, R54, worked in "two orders of the same two steps": the LG6 product of 0x16 and 0x2B aligned at E = 8, and the realigned sum. -/
theorem test_aligned_product : alignedProduct (lgProduct false 0x16 0x2B) (36 - 8) = -319225856 := by decide +kernel
theorem test_realign : realign (-319231648) 5 = -9975989 := by decide +kernel
/-- R54: the second addend of that example, dropped to −2,896. -/
theorem test_aligned_truncates : alignedProduct (lgProduct false 0x1F 0x3F) (-24 + 36 - 8) = -2896 := by decide +kernel
theorem test_rvarr_completes : (run (.rvarr h0 2 1) (ss [(1, pointW 2 0 5 7 1)]) (fun m => m.setRv 2 (.opened 1 0 0))).myTeam.rvAt 2 =
    .complete (pointW 2 0 5 7 1) := by decide +kernel
/-- R23, worked in the state chapter: 32 registers, 32 slots, 2 banks, 48 KiB. -/
theorem test_pool_word : poolOk 0x005F0C03 = true := by decide +kernel

/-! ### Steps of the part -/

/-- R278, R362: a write at a home that has not received DONE belongs to the generation just closed, elsewhere to the open one. -/
theorem test_write_before_done : (let g : Gen := { Gen.first with num := 1, st := 1, epoch := 4 }
    let x : Part := { Part.reset with genopen := 2, gens := [g], ep := { Epochs.reset with closed := 4, undone := [0] } }
    (x.takesWrite 5 g, { x with ep := { x.ep with undone := [] } }.takesWrite 5 g)) = (true, false) := by decide
/-- R381: with bank 3 read into bank 7, a page of bank 7 waits and one of bank 4 runs. -/
theorem test_row_banks : rowTurns [] 0 [(7, some 3), (7, none), (4, none)] = [0, 2] := by decide
/-- FIPS 180-4, the one block example: "abc". -/
theorem test_sha256 : sha256 [0x61, 0x62, 0x63] = 0xBA7816BF8F01CFEA414140DE5DAE2223B00361A396177A9CB410FF61F20015AD := by decide +kernel

def partRun (i : Instr) (s : State) : State :=
  match exec i s with
  | .next t => t
  | _ => State.reset
/-- R404, R400: PKGCAP is clamped, and the host does not reach it. -/
theorem test_pkgcap : (partRun (.pkgcapWrite ⟨.control 2, 100⟩) State.reset).fw.pkgcap = 1200 ∧
    (partRun (.pkgcapWrite ⟨.host, 2000⟩) State.reset).fw.pkgcap = 2600 := by decide +kernel
theorem test_thermal_trip : (partRun (.thermalAction (.die 2) 105) State.reset).fw.dutyCap = [(2, 0)] := by decide +kernel
/-- R377: HIGH, written with 0 while DEBT stood at 8, is 8 again. -/
theorem test_refresh_high : (tget Refresh.reset (partRun (.refreshInterval 3 5 true)
    { State.reset with m := State.reset.m.setRefresh 3 5 { Refresh.reset with debt := 8 } }).m.refresh 197).high = 8 := by decide +kernel
theorem test_refresh : (tget Refresh.reset (partRun (.refreshInterval 3 5 true) State.reset).m.refresh 197).debt = 1 := by decide +kernel
theorem test_sleep_expires : (partRun (.sleepExpiry 0 0) (at_ (.nop h0) (fun g => { g with status := .sleeping 0 }))).m.me.status = .pending := by
  decide +kernel
theorem test_close_owed : ((partRun (.epochTimerExpiry 0) (at_ (.nop h0) id (fun m => { m with clock := 8192 }))).m.part 0).ep.demands = [0] := by
  decide +kernel
theorem test_lqtail : ((partRun (.lqtailWrite 0 ⟨.host, 3⟩) (at_ (.nop h0))).m.part 0).lqtail = 3 := by decide +kernel
theorem test_cold_reset : (partRun (.coldReset [] [true, true, true]) (at_ (.nop h0))).m.cores = [] := by decide +kernel

/-! ### States that meet the hypotheses of the statements

Every word below issues, at group 0 of core 0, from the placed part. -/

/-- `Issues`, as a test. -/
def issuesB (m : Mach) (i : Instr) (h : Hdr) : Bool :=
  (m.blocked i h).isNone && (m.staticTrap i).isNone && (m.me.callTrap h.nas).isNone && m.me.retireTrap.isNone

theorem issues_of (m : Mach) (i : Instr) (h : Hdr) (t : issuesB m i h = true) : Issues m i h := by
  simp only [issuesB, Bool.and_eq_true, Option.isNone_iff_eq_none] at t
  exact ⟨t.1.1.1, t.1.1.2, t.1.2, t.2⟩

/-- The words issue on the placed part, their lanes perform, and the group has not ended. -/
def issueAll (l : List Instr) (g : Group → Group := id) (f : Mach → Mach := id) : Bool :=
  l.all (fun i => let m := (at_ i g f).m
    issuesB m i h0 && m.me.perf m.tick h0 != 0 && m.me.status != .ended && wellFormed i)

/-- A generic word's site entry is held. -/
def sitesAll (l : List Instr) (g : Group → Group := id) (f : Mach → Mach := id) : Bool :=
  issueAll l g f && l.all (fun i => ((at_ i g f).m.siteWait 3).isNone && siteOf i == some 3)

def integerL : List Instr :=
  [.add h0 i32 (.v 2) (.v 1) (.imm 1), .sub h0 i64 (.v 2) (.v 4) (.s 3), .mul h0 i32 (.s 2) (.s 1) (.s 0), .mulhi h0 u32 (.v 2) (.v 1) (.v 3),
   .mad h0 i32 (.v 2) (.v 1) (.v 3) (.v 4), .madhi h0 i32 (.v 2) (.v 1) (.v 3) (.v 4), .div h0 i32 (.v 2) (.v 1) (.imm 0),
       .rem h0 u32 (.v 2) (.v 1) (.imm 0),
   .min h0 i32 (.v 2) (.v 1) (.v 3), .max h0 i32 (.v 2) (.v 1) (.v 3), .abs h0 i32 (.v 2) (.v 1), .neg h0 i32 (.v 2) (.v 1),
   .sad h0 i32 (.v 2) (.v 1) (.v 3) (.v 4), .clamp h0 i32 (.v 2) (.v 1) (.v 3) (.v 4), .lea h0 true 7 (.v 2) (.v 4) (.v 1),
   .addc h0 true false 2 (.v 1) (.v 3) 1]
def logicL : List Instr :=
  [.and h0 false (.v 2) (.v 1) (.imm 1), .or h0 true (.v 2) (.v 4) (.s 3), .xor h0 false (.s 2) (.s 1) (.s 0), .not h0 false (.v 2) (.v 1),
   .shl h0 false (.v 2) (.v 1) (.imm 32), .shr h0 true (.v 2) (.v 4) (.imm 63), .sar h0 false (.v 2) (.v 1) (.v 3),
       .rot h0 false (.v 2) (.v 1) (.v 3),
   .bfx h0 true false (.v 2) (.v 1) (.imm 5), .bfi h0 false (.v 2) (.v 1) (.v 3) (.v 4), .popc h0 true (.v 2) (.v 4), .clz h0 false (.v 2) (.v 1),
   .brev h0 false (.v 2) (.v 1), .lop3 h0 false (.v 2) (.v 1) (.v 3) (.v 4) 0x96, .sel h0 false 2 (.v 1) (.v 3) 1,
       .perm h0 (.v 2) (.v 1) (.v 3) (.v 4)]
def compareL : List Instr :=
  [.cmp h0 .ge i64 .and false 3 (.v 4) (.s 1), .fcmp h0 .nan .f16 .wr false 3 (.v 4) (.v 5), .plog h0 .xor 1 2 3, .ptest h0 .all 3 1, .ballot h0 3 0,
   .elect h0 2 0, .pset h0 0 (.k true), .pset h0 1 (.s 2), .pset h0 1 (.nz 2), .ucheck h0 false false 1 2, .ucheck h0 true true 0 2]
def moveL : List Instr :=
  [.mov h0 false (.v 2) (.s 1), .movi h0 true (.v 2) 5, .movh h0 (.v 2) 5, .movh h0 (.s 2) 5, .bcast h0 false 2 1 (.imm 63), .vtos h0 false none 2 1,
   .vtos h0 true (some 63) 2 4, .stov h0 false 2 1, .ldk h0 true 2 4088, .ldk h0 false 2 4092, .tbget h0 .limit 2 3, .tbset h0 3 1]
def floatL : List Instr :=
  [.fadd h0 .fp32 .ru (.v 2) (.v 1) (.v 3), .fsub h0 .f16 .ne (.v 2) (.v 1) (.v 3), .fmul h0 .bf16 .rz (.v 2) (.v 1) (.v 3),
   .ffma h0 .fp32 .rd (.v 2) (.v 1) (.v 3) (.v 4), .fmin h0 .fp32 (.v 2) (.v 1) (.v 3), .fmax h0 .fp32 (.s 2) (.s 1) (.s 3),
   .fsgn h0 .xor .fp32 (.v 2) (.v 1) (.v 3), .frcp h0 .fp32 (.v 2) (.v 1), .frsq h0 .fp32 (.v 2) (.v 1), .fsqrt h0 .fp32 .ne (.v 2) (.v 1),
   .fexp2 h0 .fp32 (.v 2) (.v 1), .flog2 h0 .fp32 (.v 2) (.v 1), .fsinpi h0 .fp32 (.v 2) (.v 1), .fcospi h0 .fp32 (.v 2) (.v 1),
   .frnd h0 .ra .fp32 (.v 2) (.v 1), .fclass h0 .fp32 (.v 2) (.v 1)]
def genericL : List Instr :=
  [.faddG h0 3 .ne 2 (.v 1) (.v 3), .fsubG h0 3 .ne 2 (.v 1) (.v 3), .fmulG h0 3 .ne 2 (.v 1) (.v 3), .ffmaG h0 3 .ne 2 (.v 1) (.v 3) (.v 4),
   .fminG h0 3 2 (.v 1) (.v 3), .fmaxG h0 3 2 (.v 1) (.v 3), .fsgnG h0 3 .cpy 2 (.v 1) (.v 3), .frcpG h0 3 2 (.v 1), .frsqG h0 3 2 (.v 1),
   .fsqrtG h0 3 .ne 2 (.v 1), .fexp2G h0 3 2 (.v 1), .flog2G h0 3 2 (.v 1), .fsinpiG h0 3 2 (.v 1), .fcospiG h0 3 2 (.v 1), .frndG h0 3 .rz 2 (.v 1),
   .fclassG h0 3 2 (.v 1), .dot4G h0 3 2 (.v 1) (.v 3) (.v 4)]
def genericMoveL : List Instr := [.movG h0 3 false (.v 2) (.v 1), .movG h0 3 true (.s 2) (.s 1), .bcastG h0 3 false 2 1 (.s 3),
    .cvtG h0 3 .ne 8 (.v 4) (.v 0)]
def formatL : List Instr :=
  [.ladd h0 false 2 (.v 1) (.v 3), .lmul h0 true 2 (.v 1) (.v 3), .lfma h0 false 2 (.v 1) (.v 3) (.v 4), .fmtset h0 .all 0x1222, .fmtsetR h0 1,
   .fmtget h0 2, .dot4 h0 .e4m3 2 (.v 1) (.v 3) (.v 4), .cvt h0 .ne 8 0 8 (.v 4) (.v 0), .cvtF2i h0 .rz (.v 2) (.v 1), .cvtF2u h0 .rz (.v 2) (.v 1),
   .cvtI2f h0 .ne (.v 2) (.v 1), .cvtU2f h0 .ne (.s 2) (.s 1), .pack h0 8 12, .unpack h0 8 12, .scale h0 true .fp32 2 (.v 1) (.v 3),
   .qnt h0 .mx4 8 (.v 4), .dqnt h0 .i8 8 (.v 4)]
def laneL : List Instr :=
  [.shfl h0 .s8 false 2 1 (.v 3), .shup h0 .s64 false 2 1 (.imm 63), .shdn h0 .s16 true 2 4 (.imm 15), .shxor h0 .s32 false 2 1 (.s 3),
   .redadd h0 i64 2 4, .redmin h0 i32 2 1, .redmax h0 u32 2 1, .fredadd h0 2 1, .scan h0 .add i32 2 1, .scan h0 .addx i32 2 1, .scan h0 .min i32 2 1,
   .scan h0 .max u32 2 1, .scan h0 .fadd i32 2 1, .scan h0 .faddx i32 2 1, .compact h0 false 2 1 1 3]
def controlL : List Instr :=
  [.nop h0, .sleep h0 5, .sleep h0 0, .yield h0, .lcset h0 9, .lcsetR h0 1, .lcsetGet h0 2, .xmset h0 1, .xmsetAnd h0 1, .xmsetOr h0 1, .xmget h0 2,
   .rds h0 (.v 1) 0, .rds h0 (.s 1) 4, .wrs h0 1, .iflush h0 0, .sitex h0 1 3, .sitexCnt h0 1 3, .sitexReset h0 3, .sitexPin h0 3, .trap h0 7,
       .brk h0 7]

theorem wit_RoundTrip : wellFormed (.mmps h0 3 1 0 1 8) = true := by decide
theorem wit_DecodeExact : (decode 0).isSome = true := by decide
/-- The hypotheses of StepRunsDecoded's second half, for a code word placed at the pc. -/
def fetchable (m : Mach) (c k : Nat) : Bool :=
  let g := m.group c k
  let t := m.team g.team
  let va := 16 * g.pc.toNat
  match m.translate c t.part t.ctx va false with
  | none => false
  | some e =>
    let pa := leafBase e.leaf + va % e.size
    let y := m.cacheTlb c e
    let x := (y.reachHome (y.reachOf t.part t.ctx pa e 0) (lineOf pa) []).readBytes pa 16
    let w := wordOf (x.codeBytes c pa)
    fld g.pc 53 11 == 0 && leafX e.leaf && !leafHost e.leaf && leafHome e.leaf == m.partno && !badPa pa && (y.keptFrom c (lineOf pa)).isNone &&
      ((y.core c).ibuf.find? (fun x => x.1 == t.part && x.2.1 == t.ctx && x.2.2.1 == va)).isNone && !x.heldFrom t.part c (lineOf pa) &&
      !x.poisonedAt c pa 16 &&
      !(joinBit w && g.atJoin)
def placedNop : State := State.withFetchWord State.reset 128 0
def placedBad : State := State.withFetchWord State.reset 128 (2 ^ 128 - 1)
/-- What a turn of the placed group comes to, with the machine that the fetch left. -/
def nextAt (s : State) : NextOf := (atIssue s.nextTurn.2 0 0).m.nextOf 0 0
def turnReady (s : State) : Bool :=
  decide (s.nextTurn.1 = .issue 0 0) && !s.fw.stopped && !s.nextTurn.2.mayFinish 0 0 && (s.nextTurn.2.coming 0 0).mayIssue 0 0
theorem wit_StepRunsDecoded :
    turnReady placedNop = true ∧ turnReady placedBad = true ∧
    (match nextAt placedNop with
      | .issue m i => decide (i = .nop h0) && runsAhead i && (m.core 0).sbuf.isEmpty
      | _ => false) = true ∧
    (match nextAt placedBad with
      | .trap _ t => t.cause == 1
      | _ => false) = true ∧
    fetchable placedNop.m 0 0 = true ∧ fetchable placedBad.m 0 0 = true := by decide +kernel
/-- 1 GiB of data at 1 GiB, writable. -/
def dataMap (m : Mach) : Mach := m.selfWrite 0x102008 (bytesOf 8 0x40000019)
def dataLeaf : TlbEntry := { part := 0, ctx := 0, va := 0x40000000, size := 2 ^ 30, leaf := 0x40000019, at_ := 0x102008 }
def entering : Entering := { slot := 0, team := 1, scp := 2, cc := 0, seq := 0, epoch := 0, places := [(0x40000000, dataLeaf, [7])], whole := [] }
/-- A store of core 0 on its way into the L1. -/
def storeWaits (m : Mach) : Mach := (dataMap m).modCore 0 (fun k => { k with sbuf := [entering] })
/-- Another core pins its line. -/
def lineHeld (m : Mach) : Mach := m.modCore 1 (fun k => { k with l1 :=
  [{ line := 0x800000, part := 0, ctx := 0, data := 0, valid := 1, dirty := 1, stamp := 0, tick := 0, pins := [0], pinTick := 0, refusedAt := none,
     owed := false, whole := 0,
     stores := [], cls := 0, poison := 0, lag := false, chain := 0 }] })
/-- A word that waits for the stores of its core: they enter, or cannot. -/
def waitsFor (f : Mach → Mach) : Bool × Bool :=
  let s : State := { at_ (.iflush h0 0) id f with agenda := [.issue 0 0] }
  match nextAt s with
  | .issue m i => (turnReady s && !runsAhead i && !(m.core 0).sbuf.isEmpty, ((m.settleCore 0).core 0).sbuf.isEmpty)
  | _ => (false, false)
theorem wit_StepRunsDecoded_stores : waitsFor storeWaits = (true, true) ∧ waitsFor (fun m => lineHeld (storeWaits m)) = (true, false) := by
  decide +kernel
/-- A group that issues late has a turn of the agenda of its own. -/
theorem wit_StepRunsDecoded_late : State.nextTurn { placedNop with agenda := [.issueLate 0 0] } = (.issueLate 0 0, placedNop) := by decide +kernel
/-- A stopped part with a word to come, with nothing to come, and with a reset. -/
theorem wit_StoppedPart : (let s (a : List Turn) : State := { State.reset with fw := { State.reset.fw with stopped := true }, agenda := a }
    (s []).fw.stopped && !(s [.issue 0 0]).nextTurn.1.isReset && !(s []).nextTurn.1.isReset &&
      (s [.event (.coldReset [] [])]).nextTurn.1.isReset) = true := by decide +kernel
/-- Firmware state within its limits, PKGCAP not the reset's. -/
def okFirm : Firm := { State.reset.fw with pkgcap := 1300 }
theorem okFirm_ok : Firm.Ok okFirm := ⟨by decide, by decide, by decide, fun d => ⟨by show 2 ≤ 16; decide, Nat.le_refl 16, Nat.le_refl 16⟩⟩
theorem wit_StepKeepsFirm : Firm.Ok okFirm ∧ (match step { State.withFetchWord State.reset 128 0 with fw := okFirm } with
    | .next _ => true
    | _ => false) = true := ⟨okFirm_ok, by decide +kernel⟩
theorem wit_GrantsWithinCap : Firm.Ok okFirm := okFirm_ok
theorem wit_OnlyFirmwareChangesFirm : firmStep (.closeEpoch 0) = false ∧ (match exec (.closeEpoch 0) State.reset with
    | .next _ => true
    | _ => false) = true := by decide +kernel
theorem wit_LeafNeverFalls : (match step State.reset with
    | .next _ => true
    | _ => false) = true := by decide +kernel
theorem wit_VectorResults : (16383 : Nat) < 64 * 256 := by decide
theorem wit_IntegerFrame : issueAll integerL = true := by decide +kernel
theorem wit_LogicFrame : issueAll (logicL ++ compareL.take 8 ++ moveL.take 9) = true := by decide +kernel
theorem wit_IntegerValues : (⟨true, true, true⟩ : IntMod).sat = true := by decide
theorem wit_DivisionCorners : issueAll integerL = true ∧ (⟨false, true, true⟩ : IntMod).un = true ∧
    (⟨false, false, false⟩ : IntMod).un = false := by decide +kernel
theorem wit_ShiftValues : 32 ≤ (32 : W64).toNat ∧ 64 ≤ (64 : W64).toNat ∧ (31 : W64).toNat < 32 ∧ (63 : W64).toNat < 64 := by decide
/-- Fail, two unequal nulls, two of one core in one epoch and in two, a point beside an epoch, of one partition and of two. -/
theorem wit_WitnessMerge : wKind (failW 6) = 3 ∧ wKind 0 = 0 ∧ wKind 1 = 0 ∧ wKind (pointW 2 0 5 7 1) = 1 ∧
    fld (pointW 2 0 5 7 1) 43 17 = fld (pointW 1 0 5 9 1) 43 17 ∧ wEpoch (pointW 2 0 5 7 1) = wEpoch (pointW 1 0 5 9 1) ∧
    wEpoch (pointW 2 0 5 7 1) ≠ wEpoch (pointW 1 0 5 9 2) ∧ wKind (epochW 2 0 0 3) = 2 ∧
    sameOrigin (at_ (.nop h0)).m (pointW 2 0 5 7 1) (epochW 2 0 0 3) = true ∧
    sameOrigin (at_ (.nop h0)).m (pointW 2 0 5 7 1) (epochW 2 1 0 3) = false := by decide +kernel
theorem wit_IntegerWords : issueAll integerL = true := by decide +kernel
theorem wit_LogicWords : issueAll logicL = true := by decide +kernel
theorem wit_CompareWords : issueAll compareL = true ∧ (let m := (at_ (.ucheck h0 true true 0 2)).m
    m.me.differing m.tick true 2 (m.me.perf m.tick h0) (m.me.perf m.tick h0)) = 0 := by decide +kernel
theorem wit_MoveWords : issueAll moveL = true := by decide +kernel
theorem wit_FloatWords : issueAll floatL = true := by decide +kernel
theorem wit_GenericFloatWords : sitesAll genericL = true := by decide +kernel
theorem wit_GenericMoveWords : sitesAll genericMoveL = true := by decide +kernel
theorem wit_FormatWords : issueAll formatL = true := by decide +kernel
theorem wit_LaneWords : issueAll laneL = true := by decide +kernel
theorem wit_ControlWords : issueAll controlL = true ∧ ((at_ (.sitex h0 1 3)).m.siteHold 3 true).isNone = true ∧
    ((at_ (.sitexReset h0 3)).m.siteHold 3 false).isNone = true ∧
    ((at_ (.iflush h0 0)).m.me.rdS (at_ (.iflush h0 0)).m.tick 0) = 0 := by decide +kernel
/-- `sigck` with SIGCHECK clear, and set with the value that it finds. -/
def sigAt (imm : W32) : State := at_ (.sigck h0 imm) id (fun m => m.setDesc 0 0 0 { (m.part 0).desc 0 0 with sigcheck := true })
theorem wit_ControlWords_sigck :
    issueAll [.sigck h0 1] = true ∧ (at_ (.sigck h0 1)).m.sigcheck = false ∧
    (let imm := crc (sigAt 0).m.me.sig ((sigAt 0).m.me.xm ^^^ (sigAt 0).m.me.xs)
     let m := (sigAt imm).m
     issuesB m (.sigck h0 imm) h0 && m.sigcheck && crc m.me.sig (m.me.xm ^^^ m.me.xs) == imm) = true := by decide +kernel
theorem wit_TrapWords : issueAll [.trap h0 7, .brk h0 7] = true := by decide +kernel

/-! ### Sequencing and traps -/

def nopN (n : Nas) : Instr := .nop ⟨false, false, ⟨false, 0⟩, n⟩
def nopB (n : Nas) : Hdr := ⟨false, false, ⟨false, 0⟩, n⟩
/-- A `nop` with this selector issues. -/
def goesOn (n : Nas) (g : Group → Group := id) : Bool :=
  let m := (at_ (nopN n) g).m
  issuesB m (nopN n) (nopB n) && m.me.status != .ended && wellFormed (nopN n)
theorem wit_NextWord : [Nas.seq, .go (-1), .jumpi 7].all (fun n => goesOn n) = true := by decide +kernel
def ifP1 : Nas := .iff 6 ⟨false, 1⟩ false
def ifUni : Nas := .iff 6 ⟨false, 1⟩ true
def loopP1 : Nas := .loop (-3) ⟨false, 1⟩ false
def takes (x : W64) (n : Nat) (g : Group) : Group := { g.putP 1 (BitVec.allOnes 64) x with lc := 9,
                                                                                           recs := List.replicate n ⟨1, 1, 0, 0, false, false, 0, 0⟩ }
/-- No lane, all lanes, and some take the branch, with room for a last entry; marked uniform; and a LOOP at its last round. -/
theorem wit_Branches :
    (goesOn ifP1 (takes 0 0) && goesOn ifP1 (takes (BitVec.allOnes 64) 0) && goesOn ifP1 (takes 1 7) && goesOn ifUni (takes 1 0) &&
      goesOn loopP1 (takes 1 0) && goesOn loopP1 (fun g => { takes 1 0 g with lc := 1 }) &&
      (at_ (nopN ifP1) (takes 1 7)).m.me.recs.length == 7 && (at_ (nopN ifP1) (takes 0 0)).m.me.pred 0 ⟨false, 1⟩ == 0 &&
      (at_ (nopN ifP1) (takes 1 7)).m.me.pred 0 ⟨false, 1⟩ == 1 && (at_ (nopN ifP1) (takes 1 7)).m.me.xm == BitVec.allOnes 64) = true := by
  decide +kernel
/-- A call over fifteen entries and over sixteen, with private memory, and a return. -/
theorem wit_CallsAndReturns :
    (goesOn (.call 6) (fun g => { g with calls := List.replicate 15 1 }) &&
      goesOn (.call 6) (fun g => { g with calls := List.replicate 16 1, privSize := 4096, privBase := 0x10000 }) &&
      goesOn .ret (fun g => { g with calls := [9, 1] })) = true := by decide +kernel
def pendingEntry : Reconv := ⟨0xFF, 0xF, 40, 0, false, false, 0, 0⟩
theorem wit_EndRetires :
    (goesOn .fin && (at_ (nopN .fin)).m.me.recs.isEmpty && (at_ (nopN .fin)).m.cur == (0, 0) && ((at_ (nopN .fin)).m.core 0).l1.isEmpty &&
      goesOn .fin (fun g => { g with xm := 0xF0, recs := [pendingEntry] }) && pendingEntry.take &&& ~~~(0xF0 : W64) != 0) = true := by decide +kernel
/-- No record; a record of the same cycle from core 5 beside a trap of core 4; and one of an earlier cycle. -/
theorem wit_TrapRecord : FaultDom.reset.hasRec = false ∧
    (let f : FaultDom := { FaultDom.reset with hasRec := true, traps := BitVec.allOnes 32, recAt := 9, rwho := 0x00A00000 }
     f.hasRec = true ∧ f.recAt = 9 ∧ f.recAt ≠ 10 ∧ fld (0x00800000 : W32) 21 11 < fld f.rwho 21 11) := by decide
/-- The placed team, on gang 0. -/
theorem wit_TrapEndsGang : (let m := (at_ (.nop h0)).m
    let tm := m.team (m.group 0 0).team
    !(m.part tm.part).rollback.contains (m.inst tm.inst).fdom && !((m.part tm.part).fd (m.inst tm.inst).fdom).dbg && m.team 1 != Team.none &&
      (m.team 1).inst == tm.inst && gangOf (m.team 1).core == gangOf 0) = true := by decide +kernel
def dbgOn (m : Mach) : Mach := m.modPart 0 (fun p => p.setFd 0 { (p.fd 0) with dbg := true })
theorem wit_BreakpointStops : (let m := (at_ (.brk h0 3) id dbgOn).m
    issuesB m (.brk h0 3) h0 && m.performs h0 && ((m.part m.myPart).fd (m.inst m.myTeam.inst).fdom).dbg &&
      !(m.part m.myPart).rollback.contains (m.inst m.myTeam.inst).fdom &&
      !((m.part m.myPart).fd (m.inst m.myTeam.inst).fdom).hasRec) = true := by decide +kernel

/-! ### Memory words on the own scratchpad -/

/-- Lanes 0 and 5 at offsets 0x108 and 0xFFFC, the last word of the scratchpad. -/
def padTwo (g : Group) : Group := { vs [(3, 0, 8), (3, 5, 0xFEFC)] (ss [(2, 0x1000000000000100), (4, 0x1000000000000200)] g) with xm := 0x21 }
/-- Lane 5 just past the end. -/
def padPast (g : Group) : Group := { vs [(3, 0, 8), (3, 5, 0xFF00)] (ss [(2, 0x1000000000000100)] g) with xm := 0x21 }
def ubad : Addr := .ub 2 3
/-- What LoadWords, StoreWords, AtomicWords and WaitaWords ask of a word on these groups. -/
def padOk (i : Instr) (n : Nat) (g : Group → Group) : Bool :=
  let m := (at_ i g).m
  issuesB m i h0 && wellFormed i && m.me.rdS m.tick 0 == 0 && m.me.fence == 0 && (m.core m.cur.1).sbuf.isEmpty &&
      lanesOf (m.me.perf m.tick h0) == [0, 5] &&
    [0, 5].all (fun l => ownPad m (m.me.ptr m.tick ubad l) n) && (siteOf i != some 3 || (m.siteWait 3).isNone)
def mayStoreB (i : Instr) : Bool :=
  let m := (at_ i padTwo).m
  !(m.part m.myPart).ep.snapHolds m.cur.1 (m.core m.cur.1).epoch && decide ((m.core m.cur.1).taken < 2 ^ 18 - 1) && !m.awayLoads m.view
def xOk (i : Instr) (f : VF) (n : Nat) : Bool :=
  let g0 (g : Group) : Group := { vs [(1, 0, 0x10), (1, 5, 0x20)] (ss [(2, 0x1000000000000100)] g) with xm := 0x21 }
  let m := (at_ i g0).m
  issuesB m i h0 && wellFormed i && [0, 5].all (fun l => let p := m.me.xPtr m.tick (.ub 2 1) l
    fld p.1.val 60 4 == 1 && p.1.val.toNat % vfBytes f == 0 && (List.range (n * vfPer f)).all (fun j =>
      ownPad m (let e := ptrAdd p.1.val ((p.2 + j) * vfBytes f)
        { e with ok := e.ok && p.1.ok }) (vfBytes f))) && (siteOf i != some 3 || (m.siteWait 3).isNone)
def pastOk (i : Instr) : Bool :=
  let m := (at_ i padPast).m
  issuesB m i h0 && [0, 5].all (fun l => fld (m.me.ptr m.tick ubad l).val 60 4 == 1) && ownPad m (m.me.ptr m.tick ubad 0) 4 &&
    !ownPad m (m.me.ptr m.tick ubad 5) 4 && wellFormed i
def sOk (i : Instr) (n : Nat) : Bool :=
  let m := (at_ i padTwo).m
  issuesB m i h0 && ownPad m (m.me.sPtr m.tick 4 0) n && wellFormed i
theorem wit_LoadWords :
    (padOk (.ld h0 .w4 false 5 ubad 0 sp2) 4 padTwo && padOk (.ldG h0 3 .w4 5 ubad 0 a0) 4 padTwo && sOk (.lds h0 .w8 6 4 0 0 sp2) 8 &&
      sOk (.ldsG h0 3 .w4 6 4 0 0 a0) 4 && xOk (.ldx h0 1 .f16 5 (.ub 2 1) 0 sp2) .f16 2 && xOk (.ldxG h0 3 0 .fp32 5 (.ub 2 1) 0 a0) .fp32 1 &&
      pastOk (.ldt h0 .w4 5 1 ubad 0 sp2) && pastOk (.ldtG h0 3 .w4 5 1 ubad 0 a0)) = true := by decide +kernel
theorem wit_StoreWords :
    (padOk (.st h0 .w4 false 9 ubad 1 sp2) 4 padTwo && padOk (.stG h0 3 .w4 9 ubad 1 a0) 4 padTwo && sOk (.sts h0 .w8 9 4 5 0 sp2) 8 &&
      xOk (.stx h0 1 .f16 9 (.ub 2 1) 5 sp2) .f16 2 && xOk (.stxG h0 3 0 .fp32 9 (.ub 2 1) 5 a0) .fp32 1 && pastOk (.stt h0 .w4 9 1 ubad 6 sp2) &&
      mayStoreB (.st h0 .w4 false 9 ubad 1 sp2)) = true := by decide +kernel
theorem wit_AtomicWords :
    (padOk (.atom h0 .cas false false 5 ubad 1 9 0 sp2) 4 padTwo && padOk (.atomG h0 3 .add false false 5 ubad 1 9 0 a0) 4 padTwo &&
      padOk (.fatom h0 .min 5 ubad 1 9 0 sp2) 4 padTwo && padOk (.fatomG h0 3 .add 5 ubad 1 9 0 a0) 4 padTwo &&
      sOk (.atoms h0 .xor false true 6 4 7 9 0 sp2) 8 && sOk (.atomsG h0 3 .add true false 6 4 7 9 0 a0) 4 &&
      mayStoreB (.atom h0 .cas false false 5 ubad 1 9 0 sp2)) = true := by decide +kernel
/-- The word at the first lane's address is 0: `waita` waits for it to change from 0, and goes on when compared with 7. -/
theorem wit_WaitaWords :
    (padOk (.waita h0 false false 5 ubad 6 100 sp2) 4 padTwo && padOk (.waitaG h0 3 true false 5 ubad 6 0 a0) 4 padTwo &&
      (let m := (at_ (.waita h0 false false 5 ubad 6 100 sp2) padTwo).m
       natOf (padBytes m (m.me.ptr m.tick ubad 0) 4) == 0 && m.me.rdS m.tick 6 == 0)) = true := by decide +kernel

/-! ### Witness, cache and row words -/

def seqFree (m : Mach) : Bool :=
  !(m.part m.myPart).ep.snapHolds m.cur.1 (m.core m.cur.1).epoch && decide ((m.core m.cur.1).taken < 2 ^ 18 - 1) && !m.awayLoads m.view
def okSeq (m : Mach) : Bool :=
  match m.nextSeq m.cur.1 m.myPart with
  | .ok .. => true
  | .hold .. => false
theorem wit_WitnessWords :
    (issueAll [.wmrg h0 3 1 2, .wmrgRed h0 3 4 0, .wtest h0 3 1, .wtestKick h0 3 1, .wfence h0 0, .widen h0 3] && seqFree (at_ (.widen h0 3)).m &&
      okSeq ((at_ (.widen h0 3)).m.hash (.widen h0 3)) && ((at_ (.widen h0 3)).m.widenStuck 0 0).isNone) = true := by decide +kernel
def atData (g : Group) : Group := { ss [(2, 0x40000000), (4, 0x40020000), (5, 0x10000)] g with xm := 1 }
def lineAd : Addr := .ub 2 3
theorem wit_CacheWords :
    issueAll [.pfl h0 .l1 lineAd, .pft h0 true 2, .pin h0 false 6 2 5, .pin h0 true 6 3 5, .unpin h0 1, .inv h0 true lineAd, .inv h0 false lineAd,
      .wb h0 true 6 lineAd, .tlbsync h0 true 2 0, .tlbsync h0 false 2 0, .chainDemote h0 3, .chainDrop h0 3,
          .chainCnt h0 6 3] atData dataMap = true := by
  decide +kernel
/-- Homes in canonical form with no symbol in error (`pfl`), and a layout record that `pft` reads. -/
theorem wit_CacheWords_memory : Mach.MemOk (at_ (.pfl h0 .l2 lineAd) atData dataMap).m ∧ (at_ (.pfl h0 .l2 lineAd) atData dataMap).m.symErr = [] := by
  unfold Mach.MemOk; decide +kernel
/-- A pin window that is granted (PINLIM 8 MiB) and one that is not; lines that are cleaned; a removal with no row path. -/
theorem wit_CacheWords_clauses :
    (let lim (m : Mach) : Mach := (dataMap m).modPart 0 (fun p => p.setCtx 0 { (p.ctxAt 0) with pinlim := 8, banks := 0xFFFFFFFF })
     let m := (at_ (.pin h0 true 6 2 5) atData lim).m
     let pinned (m : Mach) : Option Nat := m.pinAnswer m.myPart m.myCtx (m.me.rdS m.tick 2) (m.me.rdS m.tick 5) true
     let wb : Instr := .wb h0 true 6 lineAd
     let n := (at_ wb atData dataMap).m
     let cleans (m : Mach) : Bool := (match m.linesNamed m.view h0 lineAd with
       | .ok l => l == [0x800000]
       | .error _ => false) && (m.cleanNamed m.view h0 lineAd [0x800000]).any (fun y => !y.heldFrom 0 0 0x800000)
     (pinned m == some 1) && (pinned (m.hash (.pin h0 true 6 2 5)) == some 1) && issuesB m (.pin h0 true 6 2 5) h0 && (pinned n).isNone &&
       cleans n && cleans (n.hash wb) && cleans (n.hash (.inv h0 true lineAd)) && cleans (n.hash (.inv h0 false lineAd)) && seqFree n && okSeq n &&
       !n.oldNow (n.syncVa true 2) && !n.oldNow (n.syncVa false 2) && n.mySync.isNone) = true := by decide +kernel
/-- Two pages at 1 GiB, from two at 1 GiB + 128 KiB. -/
def rowOk (i : Instr) (src : Bool) : Bool :=
  let m := (at_ i atData dataMap).m
  let dst := m.runPages m.view (m.me.rdS m.tick 2) 2 true
  let sp := if src then m.runPages m.view (m.me.rdS m.tick 4) 2 false else []
  let dirty (y : Mach) : Bool := match (y.cacheAll y.cur.1 (dst ++ sp)).nextSeq y.cur.1 y.myPart with
    | .ok y1 _ _ => (match dirtyAll (whoGroup y.cur.1 y.cur.2) y.myPart dst y1 with
      | .ok _ => true
      | .error _ => false)
    | .hold .. => false
  issuesB m i h0 && m.me.perf m.tick h0 != 0 && seqFree m && (dst ++ sp).all (fun p => p.good && (match p.loc with
    | .dev .. => true
    | _ => false)) && dst.all (fun p => !p.noWrite) && pagesOf dst == [0x4000, 0x4001] && (!src || pagesOf sp == [0x4002, 0x4003]) &&
    ((pagesOf dst).zip (pagesOf sp)).all (fun x => stackOfPage x.1 == stackOfPage x.2) && dirty m && dirty (m.hash i)
theorem wit_RowWords : (rowOk (.mzero h0 6 2 0 2) false && rowOk (.mcopy h0 6 2 4 0 2) true) = true := by decide +kernel

/-! ### Tiles, copies, streams and the array -/

def tileAt (st : TState) (owner : BitVec 2) : Tile :=
  { rem := 0, chk := 2, fcode := 0, owner := owner, team := 1, st := st, chunk := 128, size := 16384, off := 0x1000, cw := 0x55, ring := none }
/-- Tile 1 in this state on core 0; a base, a size and a chunk number in s5, s6 and s7. -/
def tiled (st : TState) (m : Mach) : Mach := m.modCore 0 (fun k => k.setTile 1 (some (tileAt st 0)))
def tileRegs (g : Group) : Group := ss [(5, 0x1000000000000800), (6, 0x400), (7, 1), (8, 0), (9, 0x100)] g
def word (i : Instr) (st : TState) (f : Mach → Mach := id) : Bool :=
  let m := (at_ i tileRegs (fun m => f (tiled st m))).m
  issuesB m i h0 && m.performs h0 && wellFormed i && (m.myTile 1).isSome
/-- A layout record at 0x800: 128 columns of one row of E4M3 at address 0. -/
def recordBytes : List Byte :=
  bytesOf 8 0 ++ bytesOf 8 0 ++ bytesOf 8 128 ++ bytesOf 8 0 ++ bytesOf 4 128 ++ bytesOf 4 1 ++ bytesOf 2 128 ++ bytesOf 2 1 ++ bytesOf 2 128 ++
    [3] ++ List.replicate 17 0
def withRecord (m : Mach) : Mach := m.spWrite 0 (spKey 0 0x800) recordBytes
theorem wit_TileWords :
    (word (.tdef h0 false 2 5 6 128) .empty && word (.tdef h0 true 1 5 6 128) .poisoned && word (.tfree h0 1) .ready &&
        word (.tstat h0 .wit 3 1) .filling &&
      word (.twait h0 3 1) .ready && word (.twaitCh h0 1 7) .filling && word (.layout h0 3 5) .ready withRecord &&
      (let m := (at_ (.nop h0) tileRegs (fun m => withRecord (tiled .filling m))).m
       !m.spilledHolds (fun x => (tget none x.tiles 2).isSome) && m.tdefOk (m.me.rdS m.tick 5) (m.me.rdS m.tick 6) 128 &&
           ((m.core 0).tile 2).isNone && (m.recordAt (m.me.rdS m.tick 5)).isSome &&
         (m.myTile 1).any (fun x => x.st != .poisoned && decide ((m.me.rdS m.tick 7).toNat < x.chk.toNat)))) = true := by decide +kernel
def owned (q : Nat) (c : Nat) (scl : Bool) (m : Mach) : Mach := m.modCore c (fun k => k.setStream q { Stream.free with owner := some 1, scl := scl })
def copyOk (i : Instr) (k : CopyDst) (t : T) (q : Q) (mask : Nat) (st : TState) : Bool :=
  let m := (at_ i tileRegs (fun m => owned 2 0 false (withRecord (tiled st m)))).m
  issuesB m i h0 && wellFormed i && m.performs h0 && (firstTrap (m.copyTraps k t.toNat mask q 5 8 0)).isNone && (m.copyWait k t mask 0).isNone &&
    ((m.hash i).copyWait k t mask 0).isNone && (m.recordAt (m.me.rdS m.tick 5)).isSome
/-- The record that `pft` reads. -/
theorem wit_CacheWords_pft : (let m := (at_ (.pft h0 true 5) tileRegs withRecord).m
    issuesB m (.pft h0 true 5) h0 && m.performs h0 && (m.recordAt (m.me.rdS m.tick 5)).any (fun r => layoutCode r == 0)) = true := by decide +kernel
theorem wit_CopyWords :
    (copyOk (.copy h0 0 3 5 8 0 1) .tile 1 0 0 .empty && copyOk (.copyOut h0 1 3 5 8 0 1) .out 1 0 0 .ready &&
      copyOk (.copyQ h0 2 3 5 8 0 2) .stream 0 2 0 .empty && copyOk (.copyMc h0 0 3 5 8 0 1 1) .multi 1 0 1 .ready) = true := by decide +kernel
/-- A team of the region on every core of gang 0, with a READY tile 1. -/
def ringUp (m : Mach) : Mach :=
  (List.range 7).foldl (fun (m : Mach) i =>
    let c := i + 1
    (m.setTeam (50 + c) { placedTeam with core := c, num := 1 }).setCore c
      { Core.reset with pool := placedPool, teams := [(0, 50 + c)], tiles := [(1, some { tileAt .ready 0 with team := 50 + c })] }) m
theorem wit_StreamWords :
    (word (.feed h0 2 1 8 9) .ready (owned 2 0 false) && word (.sdef h0 3 true) .ready && word (.sflush h0 2) .ready (owned 2 0 false) &&
      word (.sflushRel h0 2) .ready (owned 2 0 false) && word (.rrot h0 3 1) .ready ringUp &&
      (let m := (at_ (.nop h0) tileRegs (fun m => ringUp (owned 2 0 false (tiled .ready m)))).m
       m.ownsStream 0 2 && ((m.core 0).stream 2).room != 0 && feedOk (m.myTile 1) (m.me.rdS m.tick 8) (m.me.rdS m.tick 9) && (m.sdefTrap 3).isNone &&
         (m.ringTiles 1).all Option.isSome)) = true := by decide +kernel
/-- The placed team on the pair of cores 0 and 1, with streams 2 and 3 and tile 1 on both. -/
def pairUp (m : Mach) : Mach :=
  (owned 2 0 true (owned 3 0 true (owned 3 1 true (((m.modTeam 1 (fun t => { t with pair := true })).setCore 1
    { Core.reset with pool := placedPool, teams := [(0, 1)], tiles := [(1, some (tileAt .ready 0))] })))))
theorem wit_MatrixWords :
    ([.mmp h0 5 3 2 3 128, .mmps h0 6 0 2 3 8, .mmpG h0 3 0 2 3 128, .mmpsG h0 3 0 2 3 8, .accz h0 3, .acco h0 ⟨true, true, true, true⟩ 6 1 0 1 0x7F,
        .atab h0 1 5 6, .mstat h0 3, .mstatClr h0 3 5, .mstatEn h0 3 5, .accld h0 1 4 3 9].all (fun i =>
        let m := (at_ i (fun g => { ss [(9, 127)] g with fmt := 0x1222 }) (fun m => pairUp (tiled .ready m))).m
        issuesB m i h0 && m.performs h0 && wellFormed i && (siteOf i != some 3 || (m.siteWait 3).isNone)) &&
      (let m := (at_ (.nop h0) (fun g => { ss [(9, 127)] g with fmt := 0x1222 }) (fun m => pairUp (tiled .ready m))).m
       decide (3 < accb m.myTeam.pool) && m.myTeam.pair && (m.streamTrap m.myLead 2 5).isNone && (m.streamTrap m.myLead 3 5).isNone &&
         (m.streamTrap (m.myLead + 1) 3 5).isNone && (m.streamTrap m.myLead 2 (fmtCodes m).1).isNone &&
             (m.streamTrap m.myLead 3 (fmtCodes m).2).isNone &&
         (m.streamTrap (m.myLead + 1) 3 (fmtCodes m).2).isNone && decide (stepsQueued (m.core m.myLead) < 8) &&
         (m.tilesHere 1).length == 2 && (m.tilesHere 1).all (fun x => x.any (fun y => y.st == .ready && decide (accoBytes 6 ≤ y.size.toNat))) &&
         decide ((m.me.rdS m.tick 9).toNat < 128))) = true := by decide +kernel

/-! ### Teams -/

def launched (ans : Option W64) (m : Mach) : Mach :=
  m.modPart 0 (fun p => { p with dev := [{ id := 70, core := 0, slot := 0, outId := 70, rcb := 0x100, patch := none, w := 0, parent := some 1,
                                           ctx := 0, ans := ans }] })
def wordT (i : Instr) (f : Mach → Mach) : Bool :=
  let m := (at_ i (ss [(1, 0x100), (2, 0x40)]) f).m
  issuesB m i h0 && m.performs h0 && wellFormed i
theorem wit_TeamWords :
    (wordT (.rvinit h0 2 5) id && wordT (.rvarr h0 2 0) (fun m => m.setRv 2 (.opened 2 0 0)) &&
        wordT (.rvarr h0 2 0) (fun m => m.setRv 2 (.opened 2 1 0)) &&
      wordT (.rvwait h0 3 2) (fun m => m.setRv 2 (.complete 7)) && wordT (.rvwait h0 3 2) (fun m => m.modMe (fun g => { g with rvGot := some 7 })) &&
      wordT (.launch h0 3 1 0) (launched (some 4)) && wordT (.replay h0 3 1 2 0) (launched (some 4)) && wordT (.launch h0 3 1 0) id &&
      wordT (.replay h0 3 1 2 0) id && wordT (.snap h0 3 4) id && wordT (.genq h0 3 0) id && wordT (.genrel h0 3 0) id && wordT (.genrb h0 3 0) id &&
      (let m := (at_ (.nop h0) (ss [(1, 0x100), (2, 0x40)])).m
       m.myLaunch.isNone && rcbPtr (m.me.rdS m.tick 1) && m.patchPtr (m.me.rdS m.tick 2) && (m.part 0).dev.isEmpty &&
           m.myTeam.rvAt 2 == .unset)) = true := by
  decide +kernel

/-! ### Steps of the part -/

/-- The placed part with its group and machine changed. -/
def pm (g : Group → Group := id) (f : Mach → Mach := id) : Mach := (at_ (.nop h0) g f).m
def out1 : Outst := { id := 9, pc := 0, writes := [wS 3 7], ready := true, stamp := none }
def logged : Mach → Mach := fun m => m.modCore 0 (fun k => { k with log := [{ slot := 0, id := 9, word := .ld h0 .w4 false 5 (.ub 2 3) 0 a0, pc := 0,
                                                                              g := m.me }] })
theorem wit_GroupSteps :
    ((at_ (.nop ⟨true, false, ⟨false, 0⟩, .seq⟩) (fun g => { g with recs := [pendingEntry] })).m.joins 0 0 &&
      (pm (fun g => { g with status := .ended })).slotFree 0 0 && ((pm (fun g => { g with status := .ended })).group 0 0).finished &&
      ((pm (fun g => { g with outs := [out1] })).group 0 0).outs == [out1] && !(pm (fun g => { g with outs := [out1] })).remoteReady 0 0 9 &&
      (pm (fun g => { g with status := .waiting .switch })).cleared 0 0 .switch && !(pm.group 0 0).halted &&
      (pm id (fun m => { m with clock := 200, cores := [(0, (List.range 8).foldl (fun (k : Core) i =>
        { k with groups := tset Group.none k.groups (i + 1) { (m.group 0 0) with status := if i = 7 then .pending else .active, since := 1 } })
            (m.core 0))] })).rotates 0 0 &&
      ((pm id logged).core 0).log.length == 1) = true := by decide +kernel
def waits (dead : Option Nat) (g : Group) : Group :=
  { g with status := .waiting .waita, waita := some { pc := 0, scratch := true, core := 0, block := 0, addr := 0, w64 := false, ne := false,
                                                      cmp := 0, dst := 5,
                                                      lanes := 1, deadline := dead, armed := true,
                                                      word := .nop h0, issued := 0, va := 0, cc := 0, leaf := none } }
theorem wit_GroupSteps_waits :
    ((match (at_ (.nop ⟨true, false, ⟨false, 0⟩, .seq⟩) (fun g => { g with recs := [pendingEntry] })).m.nextOf 0 0 with
      | .join _ => true
      | _ => false) &&
      ((pm id dataMap).tbFrame 0 0 0 0 0 0x40000000).isSome && ((pm id dataMap).tbFrame 0 0 0 0 0 0x80000000).isNone &&
      ((pm (fun g => { g with status := .sleeping 0 })).group 0 0).status == .sleeping 0 &&
      (tget Tb.reset ((pm (fun g => { g with tb := [(3, { base := 0, frame := 0, limit := 0, busy := true,
                                                          leaf := none })] })).group 0 0).tb 3).busy &&
      ((pm (waits none)).group 0 0).waita.isSome && ((pm (waits (some 0))).group 0 0).waita.any (fun w => w.deadline == some 0)) = true := by
        decide +kernel

def drainOf (w : Bool) : Drain := { core := 0, seq := 0, epoch := 0, byCore := 1, w := pointW 2 0 0 0 0, written := w }
def withDrain (w : Bool) (m : Mach) : Mach := m.setDrain 80 (some (drainOf w))
def pinnedLine (m : Mach) : Mach := m.modCore 0 (fun k => { k with l1 :=
  [{ line := 5, part := 0, ctx := 0, data := 0, valid := 1, dirty := 1, stamp := 0, tick := 0, pins := [0], pinTick := 0, refusedAt := some 0,
     owed := false, whole := 0, stores := [], cls := 0,
     poison := 0, lag := false, chain := 0 }] })
def ep0 (f : Epochs → Epochs) (m : Mach) : Mach := m.modPart 0 (fun p => { p with ep := f p.ep })
def later (t : Nat) (m : Mach) : Mach := { m with clock := t }
theorem wit_EpochSteps :
    ((let m := pm id (withDrain false)
      m.drainAt 80 == some (drainOf false) && !m.closeOwed (m.drainPart (drainOf false)) 0 &&
          (m.drainLines 0 (m.drainUpTo (drainOf false)) 0).isSome) &&
      (pm id (withDrain true)).drained (drainOf true) &&
      (let m := pm id (fun m => later 65536 (pinnedLine m))
       ((m.core 0).line? 5).any (fun x => x.pinned && x.refusedAt == some 0) && (m.forceWiden 0 5).isSome) &&
      (let m := pm id (later 8192)
       (m.part 0).v && (m.part 0).ep.closing.isNone && decide ((m.part 0).ep.openedAt + 8192 ≤ m.clock)) &&
      (pm id (fun m => later 512 (ep0 (fun e => { e with demands := [e.openEpoch], lastStart := some 0 }) m))).mayClose 0 &&
      (let m := pm id (ep0 (fun e => { e with closing := some 0 }))
       m.partOfCore 0 == some 0 && m.closeOwed 0 0 && m.partOf 0 == some 0 && !(m.part 0).ep.holding.contains 0 && decide (3 < (m.part 0).eng) &&
         !(m.part 0).ep.enginesDone.contains 3 && !m.oldWork 0 0) &&
      (pm id (ep0 (fun e => { e with closing := some 0, coresDone := List.range 96, enginesDone := [0, 1, 2, 3], holding := [0] }))).closeReady 0 0 &&
      ((pm id (ep0 (fun e => { e with undone := [0] }))).part 0).ep.undone.contains 0) = true := by decide +kernel

def copyIn (st : CopyStage) (m : Mach) : Mach := m.setCopy 90 (some
  { core := 0, slot := 0, outId := 90, part := 0, ctx := 0, kind := .tile, lay := layoutOf recordBytes, x0 := 0, y0 := 0, w := 0, seq := none,
    epoch := 0,
    targets := [(0, 1, 1)], q := 0, cc := 0, stage := st, engine := none, pos := 0, buf := 0, team := 1, code := 0, zero := false, begun := 0,
    drop := false,
    ring := false, fence := 0 })
def feeding (drop : Bool) (m : Mach) : Mach := m.modCore 0 (fun k => k.setStream 2 { (k.stream 2) with owner := some 1, feeds :=
  [{ id := 3, team := 1, tile := 1, off := 0, len := 32, pos := 0, drop := drop }] })
def queuedOp (w : MatOp) (m : Mach) : Mach := m.modCore 0 (fun k => { k with queue := [(1, w)] })
def oneStep : MatStep := { acc := 0, qa := 2, qb := 3, k := 1, fa := 8, fb := 8, sparse := false, slot := 0, pc := 0, sa := false, sl := false,
                           sf := false, a := [], bl := [], bf := [] }
def ringIssued (m : Mach) : Mach :=
  (List.range 8).foldl (fun (m : Mach) c => m.modCore c (fun k => k.setTile 1 (some { tileAt .draining 0 with ring := some (0, 9) }))) m
theorem wit_EngineSteps :
    ((pm id (fun m => copyIn .queued (tiled .filling m))).engineReady 90 3 && ((pm id (copyIn .moved)).copyAt 90).any (fun x => x.stage == .moved) &&
      ((pm id (copyIn (.faulted 1))).copyAt 90).any (fun x => faultCode x.stage == some 1) &&
      ((pm id (copyIn .pageFault)).copyAt 90).any (fun x => x.stage == .pageFault && faultCode x.stage == some 2) &&
      ((pm id (copyIn (.faulted 3))).copyAt 90).any (fun x => x.stage == .faulted 3) &&
      (pm id (feeding false)).firstWriter 1 0 2 3 && (((pm id (feeding true)).core 0).stream 2).feeds.length == 1 &&
          ((pm id ringIssued).ring 0 1).isSome &&
      ((pm id (queuedOp (.step oneStep))).core 0).queue.length == 1 &&
      ((pm id (queuedOp (.acco ⟨false, false, false, false⟩ 6 1 0 0 0 false))).core 0).queue.length == 1) = true := by decide +kernel

def inst1 (f : Inst → Inst) (m : Mach) : Mach := m.modInst 1 f
def part0 (f : Part → Part) (m : Mach) : Mach := m.modPart 0 f
theorem wit_RegionSteps :
    ((pm.part 0).v && (pm.part 0).ep.idle && ((pm id (launched none)).part 0).devHead.isSome &&
      ((pm id (part0 (fun p => { p with lqsize := 16, lqtail := 1 }))).part 0).hostReady && !pm.linkPaused 16 &&
      (let m := pm id (inst1 (fun x => { x with state := .held }))
       (m.inst 1).state == .held && !(m.inst 1).frozen && m.firstOfBlock 1 && (m.inst 1).deps.all (m.depMet (m.inst 1))) &&
      (pm id (fun m => m.modCore 0 (fun k => { k with pool := 0,
                                                      mark := some { inst := 1, team := 0, start := none } }))).wantedWord 0 == some placedPool &&
      (let t : Task := { inst := 1, team := 0, waited := 0, front := 0, saved := none }
       let m := pm id (fun m => part0 (fun p => { p with persQ := [t] }) (inst1 (fun x => { x with pers := true, state := .queued }) m))
       m.persHead 0 == some t && m.persFirst 0 t && (m.persReserved 0).isNone &&
         (part0 (fun p => { p with reserved := [(1, 0)] }) m).persReserved 0 == some t) &&
      (let m := pm id (later 1024)
       m.coreFor 0 0 true && m.coreFor 8 0 true && decide (tget 0 (m.part 0).balancedAt 0 + 1024 ≤ m.clock)) &&
      (let m := pm id (inst1 (fun x => { x with teamsDone := 1 }))
       (m.inst 1).state == .running && !(m.inst 1).frozen && (m.inst 1).teamsDone == (m.inst 1).grid && (m.inst 1).children == 0 &&
           (m.writeWait 0 0 ((m.inst 1).rcb + 0x38) 24).isNone && !(m.inst 1).endch && (m.inst 1).parent.isNone) &&
      (let m := pm id (fun m => part0 (fun p => { p with lqsize := 16 })
          (inst1 (fun x => { x with state := .complete, host := some 0, recorded := false }) m))
       m.nextRecord 0 == some 1 && (m.inst 1).state.finished) &&
      (pm id (inst1 (fun x => { x with ovb := true, budget := 1, spent := 2 ^ 24 }))).exhausted 1) = true := by decide +kernel
/-- A dependence on an instance that ended without completing. -/
theorem wit_RegionSteps_dep :
    (let m := pm id (fun m => (inst1 (fun x => { x with state := .held, deps := [(0x500, 3)] }) m).setInst 2
      { Inst.none with rcb := 0x500, num := 3, state := .ended, status := 2, cause := 8 })
     (m.depEnded (m.inst 1)).isSome) = true := by decide +kernel

def twoCtx (m : Mach) : Mach :=
  (part0 (fun p => p.setCtx 1 { placedContext with slice := 64 }) m).setInst 2 { placedInst with ctx := 1, state := .queued }
def shadowed (m : Mach) : Mach := m.setInst 1 (m.inst 1) |>.spill 1 0
def lentTo (l eff : Bool) (m : Mach) : Mach :=
  (m.modPart 3 (fun p => { p with v := true, size := 1 })).setLend 3 { Lend.reset with l := l, borrower := 0, inEffect := eff }
def msgOf (owed : Bool) (m : Mach) : Mach := m.setSiteMsg 60 (some { part := 0, ctx := 0, desc := 0, site := 3, team := 1, grp := 0, version := 0,
                                                                     upd := .claim 1, owed := owed })
theorem wit_ContextSteps :
    ((let m := pm id (fun m => inst1 (fun x => { x with state := .complete }) (twoCtx m))
      (m.part 0).v && !(m.part 0).halting && m.sliceOver 0 && (m.nextCtx 0).isSome) &&
      (let m := pm id (part0 (fun p => { p with halting := true }))
       (m.part 0).halting && m.sitesQuiet 0 0 && m.sitesGone 0 0 && (m.rebankAll 0).isSome) &&
      (pm (fun g => { g with halted := true }) shadowed).claimAt 0 0 == some 1 && !(at_ (.nop h0)).swapWaits 0 && pm.partOfCore 0 == some 0 &&
          (pm id (lentTo true false)).lendReady 3 &&
      ((pm id (lentTo false true)).lendOf 3).inEffect && ((pm id (msgOf false)).siteMsg 60).any (fun x => !x.owed) &&
      ((pm id (msgOf true)).siteMsg 60).any (fun x => x.owed) &&
      (let m := pm (fun g => { g with status := .parked (.siteFill 0 7) })
       m.partOfCore 0 == some 0 && m.wantsSite 0 0 0 7 && ((m.core 0).siteLine 0 0 0 7).isNone) &&
      (let m := pm id (later 65536)
       decide ((m.core 0).countsAt + 65536 ≤ m.clock))) = true := by decide +kernel

def away (w : Option W64) (m : Mach) : Mach :=
  m.setRemote 61 (some { core := 0, slot := 0, outId := 61, home := 3, ports := [2], lines := [], spans := [], w := w, entry := none, seq := none,
                         sent := 0 })
theorem wit_FabricSteps :
    ((pm.part 0).v && decide (((pm id (later 1024)).part 0).abudAt + 1024 ≤ (pm id (later 1024)).clock) &&
      ((pm id (away (some 5))).remoteAt 61).any (fun r => r.home != 64 && r.w == some 5 && !(pm id (away (some 5))).linkShut r.ports) &&
          !(pm.port 15).down && !pm.linkPaused 15 &&
      ((pm id (fun m => m.setRemote 61 (some { core := 0, slot := 0, outId := 61, home := 3, ports := [2], lines := [(3, 0)], spans := [], w := none,
                                               entry := none, seq := none, sent := 0 }))).remoteAt 61).any
        (fun r => r.w.isSome || r.lines.any (fun l => l.1 != 64 && l.1 != pm.partno.toNat)) &&
      decide (16 ≤ ((pm id (fun m => m.setPort 15 { Port.reset with retries := 16 })).port 15).retries) &&
      decide (16 ≤ ((pm id (fun m => m.setPort 15 { Port.reset with sent := 16 })).port 15).sent) && trains (.pcie 64) &&
          trains (.cxl 68)) = true := by
  decide +kernel

def genDraining (ws : List Nat) (m : Mach) : Mach :=
  part0 (fun p => { p with gens := [{ Gen.first with num := 1, st := 1, written := ws }], waitsOn := [(5, 2)] }) m
def pendingRow : RowOp :=
  { core := 0, slot := 0, outId := 62, part := 0, pages := [(0x4000, none)], leaves := [0x102008], poisoned := false, seq := 0, epoch := 0, d := 6 }
def rowPending (m : Mach) : Mach := { m with rowOps := [(62, some pendingRow)] }
theorem wit_MemorySteps :
    ((pm id (genDraining [5])).owed 5 && (pm id (genDraining [5])).writeAwaits 5 && ((pm id (genDraining [5])).preserve 5).isSome &&
        (pm id (genDraining [5])).partOf (stackOfPage 5) == some 0 &&
        (let p := (pm id (genDraining [5])).part 0
         p.draining.any (fun g => p.settled g) && p.gens.any (fun g => p.settled { g with num := p.genopen - 1, epoch := p.ep.closed })) &&
        ((pm id (genDraining [5])).part 0).draining.any (fun g => g.nextPage.isSome) &&
      ((pm id (genDraining [])).part 0).draining.any (fun g => g.nextPage.isNone) && (pm id rowPending).rowTurn 62 &&
      ((pm id (fun m => m.setRefresh 11 63 { Refresh.reset with debt := 8 })).refreshAt 11 63).debt == 8 && (pm.refreshAt 11 63).debt == 0 &&
      (tget Scrub.reset (pm id (fun m => { m with scrub := [(11, { Scrub.reset with base := 1 })] })).scrub 11).base != 0) = true := by decide +kernel

/-- A module of one `nop` and nothing else. -/
def oneWord : List Byte :=
  bytesOf 4 0x1A4F5649 ++ bytesOf 2 1 ++ bytesOf 2 0 ++ bytesOf 2 1 ++ [3, 0] ++ bytesOf 4 0 ++ bytesOf 4 0 ++ bytesOf 4 0 ++ bytesOf 8 64 ++
      bytesOf 8 0 ++
    List.replicate 24 0 ++ [1, 0, 0, 0, 4, 0, 0, 0] ++ bytesOf 8 96 ++ bytesOf 8 16 ++ bytesOf 8 16 ++ List.replicate 16 0
theorem wit_FaultAndLoaderSteps :
    ((let v : W64 := 0x8000000000000000#64
      bitAt v 63 && fld v 16 47 == 0 && (pm (fun g => { g with status := .parked .brkStop })).stoppedBy 0 0 0 0) &&
      (let m := pm
       (m.part 0).v && !((m.part 0).desc 0 31).v && (m.loadCode 0 0 (ivoOf oneWord)
           [{ sect := 0, va := 0x10000, pa := 0x30000, len := 16 }]).isNone &&
         byImage 0 (m.role (.control 3)) && byImage 0 (m.role (.control 0))) &&
      (let m := pm id (inst1 (fun x => { x with state := .complete }))
       ((m.part 0).desc 0 0).v && m.retired 0 0 0 ((m.part 0).desc 0 0))) = true := by decide +kernel
theorem wit_PowerAndHeat : (5 : Nat) < 6 ∧ tget 16 State.reset.fw.dutyCap 2 ≠ 0 ∧ viaReeve (State.reset.m.role (.control 2)) = true ∧
    viaReeve (State.reset.m.role .host) = false := by decide
theorem wit_ResetsAndReports :
    (nthOk [true, true] 0 && nthOk [true, true] 1 && (partRun (.warmReset [] [true, false]) (at_ (.nop h0))).fw.stopped && (pm.part 0).v &&
      decide ((at_ (.nop h0)).fw.leaf < 2 ^ 20) && ((State.reset.m.part 2).idle && !(State.reset.m.part 2).v && bitAt (0x10041200 : W64) 28 &&
        State.reset.m.pcfgOk 2 0x10041200)) = true := by decide +kernel
theorem wit_MemoryReadsBack : Mach.MemOk { Mach.reset with dram := [(3, 7)] } ∧
    ∀ c, Memory.wf (({ Mach.reset with dram := [(3, 7)] } : Mach).core c).sp = true :=
  ⟨⟨by decide, by decide, List.Pairwise.nil, fun _ h => by cases h⟩, fun _ => rfl⟩

end Sys2Proof.Tests
end

/-! Proofs about the registers of a group: the hard-wired s0 and p0 (R12), and results of the scalar pipe (R102). -/

section
namespace Sys2Proof.Machine

/-! ### The extension of a scalar-pipe result (R102) -/

/-- The three rows of R102's table: an N-bit result is held in the low bits. -/
theorem scalarExt_eq (w sx : Bool) (x : W64) :
    scalarExt w sx x = if w then x else if sx then (x.setWidth 32).signExtend 64 else (x.setWidth 32).setWidth 64 := by
  have low : fld x 0 32 = x.setWidth 32 := (BitVec.setWidth_eq_extractLsb' (by decide)).symm
  rw [scalarExt, low]

/-! ### A result on the scalar pipe (R64, R102) -/

section
variable (g : Group) (w sx : Bool) (r : S) (f : Nat → W64)

theorem result_scalar_of_no_lane : g.result 0 w sx (.s r) f = g := rfl

theorem result_scalar_of_lane {lanes : W64} (h : lanes ≠ 0) :
    g.result lanes w sx (.s r) f = g.putS r.toNat (scalarExt w sx (f 0)) := if_neg h

/-- A write to a scalar register that an operand names: s0 is the register whose number is 0. -/
theorem putS_toNat_s (x : W64) (k : Nat) :
    tget 0 (g.putS r.toNat x).s k = if r ≠ 0 ∧ k = r.toNat then x else tget 0 g.s k := by
  have hr : r.toNat ≠ 0 ↔ r ≠ 0 := BitVec.toNat_ne_iff_ne (n := 6) (x := r) (y := 0)
  simp only [putS_s, hr]

/-- The scalar registers after a scalar-pipe result. -/
theorem result_scalar_s (lanes : W64) (k : Nat) :
    tget 0 (g.result lanes w sx (.s r) f).s k =
      if lanes ≠ 0 ∧ r ≠ 0 ∧ k = r.toNat then scalarExt w sx (f 0) else tget 0 g.s k := by
  by_cases h : lanes = 0
  · subst h
    rw [result_scalar_of_no_lane, if_neg (fun hc => hc.1 rfl)]
  · rw [result_scalar_of_lane g w sx r f h, putS_toNat_s]
    simp only [ne_eq, h, not_false_eq_true, true_and]

end

/-- Settles O12: a result that some lane performs is one write of the scalar register, extended by R102's table; no write
when no lane performs (R64). -/
theorem scalarResults : Obligations.ScalarResults := by
  intro g lanes w sx r f k
  rw [result_scalar_s, scalarExt_eq]

/-- Settles O10: the reads and the discarded writes of s0 and p0. -/
theorem hardWired : Obligations.HardWired := by
  intro g t x lanes
  exact ⟨rdS_zero g t, putS_zero g x, rdP_zero g t, putP_zero g lanes x⟩

end Sys2Proof.Machine
end

/-! Proofs about the system image's steps: FDRES and FDREC (R389, R394), the module loader (R99, R100), and writes of control
registers. -/

section
namespace Sys2Proof.Machine
open Sys2Proof.Claims

/-! ### The steps' arms -/

section
variable (s : State)

theorem exec_fdresGo (p dom : Nat) (val : Write W64) : exec (.fdresGo p dom val) s = execFdresGo p dom val s := rfl

theorem exec_fdstatRecClear (p : Nat) (dom : Write Nat) : exec (.fdstatRecClear p dom) s = execFdstatRecClear p dom s := rfl

theorem exec_moduleLoad (p ctx d : Nat) (file : List Byte) (places : List Place) (tables : List PtWrite) :
    exec (.moduleLoad p ctx d file places tables) s = execModuleLoad p ctx d file places tables s := rfl

theorem exec_moduleUnload (p ctx d : Nat) : exec (.moduleUnload p ctx d) s = execModuleUnload p ctx d s := rfl

theorem exec_registerWrite (by_ : Writer) (sp : RegSpace) (off : Nat) (val : W64) :
    exec (.registerWrite by_ sp off val) s = execRegisterWrite by_ sp off val s := rfl

end

/-! ### FDRES and FDREC (R389, R394) -/

/-- The return from a breakpoint is a wake of the group at the next word. -/
theorem resumeBrk_eq_woken (m : Mach) (c k : Nat) :
    resumeBrk m c k = m.setGroup c k { Woken m (m.group c k) with pc := (m.group c k).pc + 1 } := rfl

theorem steps_fdresGo {s : State} {p dom : Nat} {val : Write W64} (himg : byImage p (s.m.role val.by_) = true)
    (hgo : bitAt val.val 63 = true) (hzero : fld val.val 16 47 = 0)
    (hstop : s.m.stoppedBy p dom (fld val.val 0 11).toNat (fld val.val 11 5).toNat = true) :
    Steps s (.fdresGo p dom val) (resumeBrk s.m (fld val.val 0 11).toNat (fld val.val 11 5).toNat) := by
  rw [Steps, exec_fdresGo, execFdresGo]
  exact stepIf_of (by simp only [himg, hgo, hzero, hstop, beq_self_eq_true, Bool.and_self])

/-- The machine once the record of fault domain `d` of partition `p` is cleared. -/
def Mach.clearRec (m : Mach) (p d : Nat) : Mach := m.modPart p (fun x => x.setFd d { (x.fd d) with hasRec := false })

theorem steps_fdstatRecClear {s : State} {p : Nat} {dom : Write Nat} (hv : (s.m.part p).v = true)
    (himg : byImage p (s.m.role dom.by_) = true) : Steps s (.fdstatRecClear p dom) (s.m.clearRec p dom.val) :=
  (exec_fdstatRecClear s p dom).trans (stepIf_of (by simp [hv, himg]))

theorem clearRec_hasRec (m : Mach) (p d : Nat) : (((m.clearRec p d).part p).fd d).hasRec = false := by
  simp [Mach.clearRec]

/-! ### Modules (R99, R100, R316) -/

theorem steps_moduleLoad {s : State} {p ctx d : Nat} {file : List Byte} {places : List Place} (tables : List PtWrite)
    (hv : (s.m.part p).v = true) (hctx : ctx < 8) (hd : d < 32) (hfree : ((s.m.part p).desc ctx d).v = false)
    (hcode : s.m.loadCode p ctx (ivoOf file) places = none) :
    Steps s (.moduleLoad p ctx d file places tables) (s.m.load p ctx d (ivoOf file) places tables) :=
  (exec_moduleLoad s p ctx d file places tables).trans (stepIf_of (by simp [hv, hctx, hd, hfree, hcode]))

theorem steps_moduleUnload {s : State} {p ctx d : Nat} (hv : ((s.m.part p).desc ctx d).v = true)
    (hret : s.m.retired p ctx d ((s.m.part p).desc ctx d) = true) : Steps s (.moduleUnload p ctx d) (s.m.unload p ctx d) :=
  (exec_moduleUnload s p ctx d).trans (stepIf_of (by simp [hv, hret]))

/-- Settles O56: each step's condition holds, so its effect happens; the resumed group wakes at the next word (R394), and a
cleared record reads as none. -/
theorem faultAndLoaderSteps : Obligations.FaultAndLoaderSteps := by
  intro s p dom val ctx d file places tables by_ sp off
  refine ⟨fun himg hgo hzero hstop => ?_, fun hv himg => ?_, steps_moduleLoad tables, steps_moduleUnload, ?_⟩
  · exact resumeBrk_eq_woken s.m _ _ ▸ steps_fdresGo himg hgo hzero hstop
  · exact ⟨s.m.clearRec p dom, steps_fdstatRecClear hv himg, clearRec_hasRec s.m p dom⟩
  · exact (exec_registerWrite s by_ sp off val).trans (partStep_eq _ s)

end Sys2Proof.Machine
end

/-! Proofs about the computation words that rewrite their own group: integer, logic, compare, move and generic move words
(R103 to R129, R157, R160). -/

section
namespace Sys2Proof.Machine
open Sys2Proof.Claims

/-! ### From a word's effect to what the statements say of it -/

section
variable {s : State} {i : Instr} {h : Hdr}

/-- A word that issues, raises no cause of its own and waits for nothing of its own has its effect. -/
theorem does_of_issueWord {w : Word} (he : exec i s = issueWord i h w s) (hi : Issues s.m i h) (hp : w.pre s.m = none)
    (hw : w.wait s.m = none) : Does s i h (w.run (s.m.hash i)) := by
  rw [Does, he, issueWord_eq, issue_runs hi.free hi.static hi.calls hi.retire hp hw]

/-- A word whose effect, as it issues, comes to a rewrite of its group. -/
theorem rewrites_of_issueWord {w : Word} {f : Group → Group} (he : exec i s = issueWord i h w s) (hp : w.pre s.m = none)
    (hw : w.wait s.m = none) (hr : w.run (s.m.hash i) = (s.m.hash i).modMe f) : Rewrites s i h f :=
  fun hi => hr ▸ does_of_issueWord he hi hp hw

/-- A word whose only effect is a rewrite of its group by `f`, which reads the registers at the machine's tick. -/
theorem rewrites_of_regWord {f : Nat → Group → Group} {f' : Group → Group} (he : exec i s = regWord i h f s) (hf : f s.m.tick = f') :
    Rewrites s i h f' := by
  subst hf
  intro hi
  rw [Does, he, regWord_runs hi.free hi.static hi.calls hi.retire]

end

/-! ### Integer and logic words (R103 to R113) -/

/-- Settles O19: each integer word is a rewrite of its group by the result that the rule names. -/
theorem integerWords : Obligations.IntegerWords := by
  intro s h m d a b c bw w e q zx sh
  and_intros <;> exact rewrites_of_regWord (by unfold exec; exact rfl) rfl

/-- Settles O20: each logic word is a rewrite of its group by the result that the rule names. -/
theorem logicWords : Obligations.LogicWords := by
  intro s h w d a b c sx tt e q
  and_intros <;> exact rewrites_of_regWord (by unfold exec; exact rfl) rfl

/-! ### Compare and mask words (R114 to R121) -/

section
variable {s : State} {h : Hdr} {w : Bool} {d : P} {v : V}

/-- `ucheck` without `.t`: whether the performing lanes agree goes to every active lane (R121). -/
theorem rewrites_ucheck : Rewrites s (.ucheck h false w d v) h (fun g =>
    g.putP d.toNat g.xm (if g.differing s.m.tick w v (g.perf s.m.tick h) (g.perf s.m.tick h) = 0 then BitVec.allOnes 64 else 0)) := by
  refine rewrites_of_issueWord (by unfold exec; exact rfl) rfl rfl ?_
  simp only [hash_tick, Bool.false_eq_true, if_false]

/-- `ucheck.t` has no effect where the performing lanes agree. -/
theorem rewrites_ucheck_of_agree
    (ha : s.m.me.differing s.m.tick w v (s.m.me.perf s.m.tick h) (s.m.me.perf s.m.tick h) = 0) :
    Rewrites s (.ucheck h true w d v) h id :=
  rewrites_of_issueWord (by unfold exec; exact rfl) (by simp [ha]) rfl rfl

end

/-- Settles O21: every clause but those of `ucheck` is a rewrite of the group alone. -/
theorem compareWords : Obligations.CompareWords := by
  intro s h k m x sp d a b kf f pk pa pb tk r ps w v
  refine ⟨?_, ?_, ?_, ?_, ?_, ?_, ?_, rewrites_ucheck, rewrites_ucheck_of_agree⟩ <;>
    exact rewrites_of_regWord (by unfold exec; exact rfl) rfl

/-! ### Moves (R122 to R129) -/

/-- Bits [5:0] of the lane operand are its value modulo 64 (R125). -/
theorem bcastLane_eq (g : Group) (t : Nat) (b : Src) : g.bcastLane t b = (g.src t true 0 b).toNat % 64 := by
  simp [Group.bcastLane]

section
variable {s : State} {h : Hdr}

theorem rewrites_mov {w : Bool} {d : Dst} {a : Src} :
    Rewrites s (.mov h w d a) h (fun g => g.result (g.perf s.m.tick h) (match d with | .v _ => w | .s _ => true) false d (fun l =>
      g.src s.m.tick (match d with | .v _ => w | .s _ => true) l a)) := by
  cases d <;> exact rewrites_of_regWord (by unfold exec; exact rfl) rfl

theorem rewrites_bcast {w : Bool} {e v : V} {b : Src} : Rewrites s (.bcast h w e v b) h (fun g =>
    g.vecResult (g.perf s.m.tick h) w e.toNat (fun _ => g.vec s.m.tick w v.toNat ((g.src s.m.tick true 0 b).toNat % 64))) := by
  refine rewrites_of_regWord (by unfold exec; exact rfl) (funext fun g => ?_)
  rw [Group.bcast, bcastLane_eq]

/-- The source lane of `vtos`, the lowest performing lane where none is named, has been found or there is none (R126). -/
theorem rewrites_vtos {w : Bool} {ln : Option (BitVec 6)} {r : S} {v : V} :
    Rewrites s (.vtos h w ln r v) h (fun g =>
      match (match ln with | some l => some l.toNat | none => lowest (g.perf s.m.tick h)) with
      | some l => g.wideS s.m.tick h r (g.vec s.m.tick w v.toNat l)
      | none => g) := by
  cases ln <;> exact rewrites_of_regWord (by unfold exec; exact rfl) rfl

/-- `ldk` with its offset aligned and inside the 4 KiB raises nothing and reads the constant copy (R127). -/
theorem rewrites_ldk {w : Bool} {r : S} {off : W32} (hal : off.toNat % (if w then 8 else 4) = 0)
    (hin : off.toNat + (if w then 8 else 4) ≤ 4096) :
    Rewrites s (.ldk h w r off) h (fun g => g.wideS s.m.tick h r (BitVec.ofNat 64 (natOf
      ((List.range (if w then 8 else 4)).map (fun i => tget 0 s.m.myInst.const (off.toNat + i)))))) := by
  refine rewrites_of_issueWord (by unfold exec; exact rfl) (by simp [hal, hin]) rfl ?_
  simp only [hash_tick, myInst_hash]

/-- A group-wide word without a condition of its own (R64). -/
theorem wide_of_wideWord {i : Instr} {e e' : Mach → Mach} (he : exec i s = issueWord i h (wideWord h e) s)
    (heq : e (s.m.hash i) = e' (s.m.hash i)) : Wide s i h e' := by
  intro hi
  rw [← heq, ← performs_hash s.m i]
  exact does_of_issueWord he hi rfl rfl

end

/-- Settles O22: the moves are rewrites of the group, `tbset` a group-wide word (R64, R128). -/
theorem moveWords : Obligations.MoveWords := by
  intro s h w d a b imm e v ln r x off kb q
  refine ⟨rewrites_mov, ?movi, ?movhV, ?movhS, rewrites_bcast, rewrites_vtos, ?stov, rewrites_ldk, ?tbset, ?tbget⟩
  case tbset => exact wide_of_wideWord (by unfold exec; exact rfl) (by rw [hash_tick])
  all_goals exact rewrites_of_regWord (by unfold exec; exact rfl) rfl

/-! ### Generic moves (R124, R157, R160, R320) -/

@[simp] theorem touchSite_tick (m : Mach) (n : Nat) (attr : BitVec 16) (guard : BitVec 16 → Bool) :
    (m.touchSite n attr guard).tick = m.tick := by
  unfold Mach.touchSite
  split
  · rfl
  · dsimp only
    split
    · rfl
    · split <;> rfl

/-- A generic word over the rewrite of its group, once its site's entry is in the core's site cache (R320). -/
theorem rewritesAt_of_generic {s : State} {i : Instr} {h : Hdr} {n : BitVec 16} {attr attr' : Mach → BitVec 16}
    {guard guard' : Mach → BitVec 16 → Bool} {f : Nat → Group → Group} {f' : Group → Group}
    (he : exec i s = issueWord i h ((groupWord f).generic n attr guard) s) (ha : attr = attr') (hg : guard = guard')
    (hf : f s.m.tick = f') : RewritesAt s i h n attr' guard' f' := by
  subst ha hg hf
  intro hi hsite
  have hd := does_of_issueWord he hi rfl (by simp [Word.generic, groupWord, hsite])
  simpa only [Word.generic, groupWord, touchSite_tick, hash_tick] using hd

/-- Settles O25: each word is generic over the rewrite of the native word, with the site's flag (R124) or formats (R160). -/
theorem genericMoveWords : Obligations.GenericMoveWords := by
  intro s h n w d v e a b r c
  refine ⟨?_, ?_, ?_⟩
  · refine rewritesAt_of_generic (by unfold exec; exact rfl) rfl rfl (funext fun g => ?_)
    cases e <;> rfl
  · exact rewritesAt_of_generic (by unfold exec; exact rfl) rfl rfl rfl
  · exact rewritesAt_of_generic (by unfold exec; exact rfl) rfl rfl rfl

end Sys2Proof.Machine
end

/-! Proofs about the control words (R130 to R139). -/

section
namespace Sys2Proof.Machine
open Sys2Proof.Claims

/-! ### Writing once more what is there -/

theorem tput_tput {α : Type} (t : Tab α) (n : Nat) (x y : α) : tput (tput t n x) n y = tput t n y := by
  induction t with
  | nil => simp [tput]
  | cons kz t ih =>
    obtain ⟨k, z⟩ := kz
    by_cases hlt : n < k
    · simp [tput, hlt]
    · by_cases heq : n = k <;> simp [tput, hlt, heq, ih]

theorem tdel_tdel {α : Type} (t : Tab α) (n : Nat) : tdel (tdel t n) n = tdel t n := by
  induction t with
  | nil => rfl
  | cons kz t ih =>
    obtain ⟨k, z⟩ := kz
    by_cases heq : n = k
    · simp only [tdel, heq, if_true]; rwa [heq] at ih
    · simp only [tdel, heq, if_false, ih]

theorem tset_tset_same {α : Type} [DecidableEq α] (d : α) (t : Tab α) (n : Nat) (x : α) : tset d (tset d t n x) n x = tset d t n x := by
  by_cases hx : x = d
  · simp only [tset, hx, if_true, tdel_tdel]
  · simp only [tset, hx, if_false, tput_tput]

theorem setMe_setMe_same (m : Mach) (g : Group) : (m.setMe g).setMe g = m.setMe g := by
  simp only [Mach.setMe, Mach.setGroup, Mach.setCore, Mach.core, tget_tset_self, tset_tset_same]

/-- Nothing more is written by a word whose effect leaves its group as the hash left it. -/
theorem hash_modMe_id (m : Mach) (i : Instr) (hi : ∀ hd imm, i ≠ .sigck hd imm) : (m.hash i).modMe id = m.hash i := by
  rw [hash_eq m i hi, Mach.modMe, me_modMe]
  exact setMe_setMe_same m _

section
variable {s : State} {h : Hdr}

/-- A group-wide word that presents the null witness waits for nothing and has its effect (R81). -/
theorem wide_of_presentNull {i : Instr} {w : Mach → W64} {e : Mach → Mach} (he : exec i s = issueWord i h (presentWord h w e) s)
    (hw : w s.m = 0) (hw' : w (s.m.hash i) = 0) : Wide s i h e := by
  intro hi
  have hd := does_of_issueWord he hi 
    (by simp only [presentWord, hw, presentTrap_null, ite_self]) (by simp only [presentWord, hw, presentHold_null, ite_self])
  simpa only [presentWord, hw', presented_null, performs_hash] using hd

/-- A `sitex` whose condition holds when it performs (R64, R139). -/
theorem when_of_sitexWord {i : Instr} {n : Nat} {query : Bool} {e : Mach → Mach}
    (he : exec i s = issueWord i h (sitexWord h n query e) s) : When s i h (s.m.siteHold n query = none) e := by
  intro hi hcond
  have hwait : (sitexWord h n query e).wait s.m = none := by
    by_cases hp : s.m.performs h = true
    · exact (if_pos hp).trans (hcond hp)
    · exact if_neg hp
  have hd := does_of_issueWord he hi rfl hwait
  simpa only [sitexWord, wideWord, performs_hash] using hd

/-- `sleep` with a count leaves the active set until its time (R132). -/
theorem wide_sleep {imm : W32} (hne : imm ≠ 0) :
    Wide s (.sleep h imm) h (fun m => m.modMe (fun g => { g with status := .sleeping (m.clock + imm.toNat) })) :=
  wide_of_wideWord (by unfold exec; exact rfl) (if_neg (BitVec.toNat_ne_iff_ne.mpr hne))

/-- `sigck` of a module that checks, where the folded signature is the expected one: SIG starts anew (R137). -/
theorem rewrites_sigck_of_match {imm : W32} (hon : s.m.sigcheck = true) (hsig : crc s.m.me.sig (s.m.me.xm ^^^ s.m.me.xs) = imm) :
    Rewrites s (.sigck h imm) h (fun g => { g with sig := 0xFFFFFFFF#32, xs := g.xm }) := by
  refine rewrites_of_issueWord (by unfold exec; exact rfl) (by simp [Group.sigFold, hsig]) rfl ?_
  simp only [Mach.hash, hon, if_true]

theorem rewrites_sigck_of_unchecked {imm : W32} (hoff : s.m.sigcheck = false) :
    Rewrites s (.sigck h imm) h (fun g => { g with sig := crc g.sig (g.xm ^^^ g.xs), xs := g.xm }) := by
  refine rewrites_of_issueWord (by unfold exec; exact rfl) (by simp [hoff]) rfl ?_
  simp only [Mach.hash, hoff, Bool.false_eq_true, if_false, Group.sigFold]

/-- A special register is read with the word itself in SIG (R136, R137). -/
theorem rewrites_rds_scalar {d : S} {idx : BitVec 5} :
    Rewrites s (.rds h (.s d) idx) h (fun g => g.wideS s.m.tick h d ((s.m.hash (.rds h (.s d) idx)).special idx.toNat)) :=
  rewrites_of_issueWord (by unfold exec; exact rfl) rfl rfl (by simp only [hash_tick])

theorem rewrites_rds_vector {v : V} {idx : BitVec 5} :
    Rewrites s (.rds h (.v v) idx) h (fun g => g.writeV (g.perf s.m.tick h) v.toNat (fun l => BitVec.ofNat 32 l)) :=
  rewrites_of_issueWord (by unfold exec; exact rfl) rfl rfl (by simp only [hash_tick])

end

/-- Settles O28: SIG, LC, XM and SIG's write are rewrites of the group; the others are group-wide words over their effect. -/
theorem controlWords : Obligations.ControlWords := by
  intro s h imm a d v idx site
  refine ⟨?nop, wide_sleep, ?sleepZero, ?yield, rewrites_sigck_of_match, rewrites_sigck_of_unchecked, ?_, ?_, ?_, ?_, ?_, ?_, ?_,
    rewrites_rds_vector, rewrites_rds_scalar, ?_, fun hw => ?iflush, ?sitex, ?sitexCnt, ?sitexReset, ?sitexPin⟩
  case nop =>
    refine rewrites_of_issueWord (by unfold exec; exact rfl) rfl rfl ?_
    exact (hash_modMe_id s.m (.nop h) nofun).symm
  case sleepZero => exact wide_of_wideWord (by unfold exec; exact rfl) rfl
  case yield => exact wide_of_wideWord (by unfold exec; exact rfl) rfl
  case iflush => exact wide_of_presentNull (by unfold exec; exact rfl) hw (by simp [rdS_hash, hw])
  case sitex | sitexCnt | sitexReset | sitexPin => exact when_of_sitexWord (by unfold exec; exact rfl)
  all_goals exact rewrites_of_regWord (by unfold exec; exact rfl) rfl

end Sys2Proof.Machine
end

/-! Proofs about the values of integer and logic words: N-bit arithmetic and saturation (R103, R104), division (R106), shifts (R110). -/

section
namespace Sys2Proof.Machine
open Sys2Proof.Claims

/-! ### Patterns of any width and their values (R103) -/

/-- The value of an N-bit pattern, unsigned or signed. -/
def patVal (un : Bool) {n : Nat} (y : BitVec n) : Int := if un then (y.toNat : Int) else y.toInt

section
variable {n : Nat}

/-- Either reading of a pattern is a representative of it modulo 2^N. -/
theorem ofInt_patVal (un : Bool) (y : BitVec n) : BitVec.ofInt n (patVal un y) = y := by
  cases un
  · exact BitVec.ofInt_toInt
  · exact (BitVec.ofInt_natCast n y.toNat).trans (by rw [BitVec.ofNat_toNat, BitVec.setWidth_eq])

theorem ofInt_sub (x y : Int) : BitVec.ofInt n (x - y) = BitVec.ofInt n x - BitVec.ofInt n y := by
  rw [Int.sub_eq_add_neg, BitVec.ofInt_add, BitVec.ofInt_neg, ← BitVec.sub_eq_add_neg]

theorem ofInt_patVal_add (un : Bool) (x y : BitVec n) : BitVec.ofInt n (patVal un x + patVal un y) = x + y := by
  rw [BitVec.ofInt_add, ofInt_patVal, ofInt_patVal]

theorem ofInt_patVal_sub (un : Bool) (x y : BitVec n) : BitVec.ofInt n (patVal un x - patVal un y) = x - y := by
  rw [ofInt_sub, ofInt_patVal, ofInt_patVal]

theorem ofInt_patVal_mul (un : Bool) (x y : BitVec n) : BitVec.ofInt n (patVal un x * patVal un y) = x * y := by
  rw [BitVec.ofInt_mul, ofInt_patVal, ofInt_patVal]

/-- An unsigned value below 2^N is read back from its pattern. -/
theorem patVal_ofInt_unsigned {z : Int} (hlo : 0 ≤ z) (hhi : z ≤ 2 ^ n - 1) : patVal true (BitVec.ofInt n z) = z := by
  rw [patVal, if_pos rfl, BitVec.toNat_ofInt, Int.emod_eq_of_lt hlo (by push_cast; omega), Int.toNat_of_nonneg hlo]

/-- A signed value from −2^(N−1) to 2^(N−1) − 1 is read back from its pattern. -/
theorem patVal_ofInt_signed (hn : 0 < n) {z : Int} (hlo : -(2 ^ (n - 1)) ≤ z) (hhi : z ≤ 2 ^ (n - 1) - 1) :
    patVal false (BitVec.ofInt n z) = z := by
  rw [patVal, if_neg Bool.false_ne_true, BitVec.toInt_ofInt_eq_self hn hlo (by omega)]

end

/-! ### Values under the type of MOD -/

theorem fld_low (x : W64) : fld x 0 32 = x.setWidth 32 := (BitVec.setWidth_eq_extractLsb' (by decide)).symm

theorem ival_wide {m : IntMod} (hw : m.w = true) (x : W64) : ival m x = patVal m.un x := by
  simp only [ival, hw, if_true, patVal]

theorem ival_narrow {m : IntMod} (hw : m.w = false) (x : W64) : ival m x = patVal m.un (x.setWidth 32) := by
  simp only [ival, hw, Bool.false_eq_true, if_false, fld_low, patVal]

theorem wrapN_wide (z : Int) : wrapN true z = BitVec.ofInt 64 z := rfl
theorem wrapN_narrow (z : Int) : wrapN false z = (BitVec.ofInt 32 z).setWidth 64 := rfl

theorem ifit_wraps (un w : Bool) (z : Int) : ifit ⟨false, un, w⟩ z = wrapN w z := rfl

theorem ifit_saturates {m : IntMod} (hs : m.sat = true) (z : Int) : ifit m z = wrapN m.w (clampInt (ileast m) (igreatest m) z) := by
  simp only [ifit, hs, if_true]

/-- A value in the range of the type of MOD is read back from its pattern. -/
theorem ival_wrapN_of_mem {m : IntMod} {z : Int} (hlo : ileast m ≤ z) (hhi : z ≤ igreatest m) : ival m (wrapN m.w z) = z := by
  obtain ⟨sat, un, w⟩ := m
  cases w
  · rw [ival_narrow rfl, wrapN_narrow, BitVec.setWidth_setWidth_of_le _ (by decide), BitVec.setWidth_eq]
    cases un
    · exact patVal_ofInt_signed (by decide) hlo hhi
    · exact patVal_ofInt_unsigned hlo hhi
  · rw [ival_wide rfl, wrapN_wide]
    cases un
    · exact patVal_ofInt_signed (by decide) hlo hhi
    · exact patVal_ofInt_unsigned hlo hhi

theorem ileast_le_igreatest : ∀ m : IntMod, ileast m ≤ igreatest m
  | ⟨_, false, false⟩ | ⟨_, false, true⟩ | ⟨_, true, false⟩ | ⟨_, true, true⟩ => by simp [ileast, igreatest, nBits]

/-- Clamping once to a range is a minimum and a maximum. -/
theorem clampInt_eq {lo hi : Int} (h : lo ≤ hi) (z : Int) : clampInt lo hi z = max lo (min hi z) := by
  unfold clampInt; omega

/-- The value of a saturated result is the exact result clamped to the range of the type (R103). -/
theorem ival_ifit_of_sat {m : IntMod} (hs : m.sat = true) (z : Int) : ival m (ifit m z) = max (ileast m) (min (igreatest m) z) := by
  have hr := ileast_le_igreatest m
  rw [ifit_saturates hs, clampInt_eq hr]
  exact ival_wrapN_of_mem (by omega) (by omega)

/-- Settles O15: wrapped results are taken modulo 2^N from either reading of the operands, and saturation clamps once. -/
theorem integerValues : Obligations.IntegerValues := by
  intro un x y m32 m64
  simp only [m32, m64, ifit_wraps, wrapN_wide, wrapN_narrow, ival_wide (m := ⟨false, un, true⟩) rfl,
    ival_narrow (m := ⟨false, un, false⟩) rfl, ofInt_patVal_add, ofInt_patVal_sub, ofInt_patVal_mul, true_and]
  exact fun sa hs => ival_ifit_of_sat hs _

/-! ### Division (R106) -/

theorem iquot_zero (m : IntMod) (a : Int) : iquot m a 0 = if m.un then igreatest m else -1 := if_pos rfl

theorem irem_zero (a : Int) : irem a 0 = a := if_pos rfl

theorem iquot_neg_one (m : IntMod) (a : Int) : iquot m a (-1) = -a := by
  rw [iquot, if_neg (by decide), Int.tdiv_neg, Int.tdiv_one]

/-- Division of the least value by −1 wraps to the least value, with no remainder. -/
theorem div_least_neg_one (m : IntMod) (w : Bool) :
    wrapN w (iquot m (-(2 ^ (nBits w - 1))) (-1)) = wrapN w (-(2 ^ (nBits w - 1))) ∧ irem (-(2 ^ (nBits w - 1))) (-1) = 0 := by
  rw [iquot_neg_one]
  cases w <;> decide

/-- Settles O16: `div` and `rem` are rewrites of their group whatever their operands; the corners are the cases of the quotient
and the remainder. -/
theorem divisionCorners : Obligations.DivisionCorners := by
  refine ⟨fun s h m d a b => ⟨fun hi => ?_, fun hi => ?_⟩, fun w x => ⟨?_, ?_⟩, by decide⟩
  · exact ⟨_, rewrites_of_regWord (by unfold exec; exact rfl) rfl hi⟩
  · exact ⟨_, rewrites_of_regWord (by unfold exec; exact rfl) rfl hi⟩
  · rintro m rfl hun
    exact ⟨by rw [iquot_zero, if_pos hun, igreatest, if_pos hun], irem_zero _⟩
  · rintro m rfl hun
    exact ⟨by rw [iquot_zero, hun]; rfl, irem_zero _, div_least_neg_one m m.w⟩

/-! ### Shifts (R110) -/

section
variable {n : Nat} (x : BitVec n)

/-- A signed shift by all but one of the bits leaves copies of the sign. -/
theorem sshiftRight_pred (hn : 0 < n) : x.sshiftRight (n - 1) = if bitAt x (n - 1) then BitVec.allOnes n else 0 := by
  ext i hi
  have hbit : (if n - 1 + i < n then x.getLsbD (n - 1 + i) else x.msb) = bitAt x (n - 1) := by
    by_cases h0 : i = 0
    · subst h0; rw [Nat.add_zero, if_pos (by omega)]
    · rw [if_neg (by omega), BitVec.msb_eq_getLsbD_last]
  rw [← BitVec.getLsbD_eq_getElem, BitVec.getLsbD_sshiftRight, hbit]
  cases bitAt x (n - 1) <;> simp [hi]

theorem toInt_sshiftRight_div (k : Nat) : (x.sshiftRight k).toInt = x.toInt / 2 ^ k := by
  rw [BitVec.toInt_sshiftRight, Int.shiftRight_eq_div_pow]; norm_cast

/-- A rotation by a count modulo N moves bit `k` to bit `k` + count modulo N. -/
theorem bitAt_rotateLeft {k : Nat} (hk : k < n) (c : Nat) : bitAt (x.rotateLeft (c % n)) ((k + c) % n) = bitAt x k := by
  have hc : c % n < n := Nat.mod_lt _ (by omega)
  rw [bitAt, BitVec.getLsbD_rotateLeft, Nat.mod_mod, Nat.add_mod, Nat.mod_eq_of_lt hk]
  by_cases hwrap : k + c % n < n
  · have hnot : ¬ k + c % n < c % n := by omega
    rw [Nat.mod_eq_of_lt hwrap, decide_eq_false hnot, cond_false, decide_eq_true hwrap, Bool.true_and, Nat.add_sub_cancel]
  · have hm : (k + c % n) % n = k + c % n - n := by
      rw [Nat.mod_eq_sub_mod (by omega), Nat.mod_eq_of_lt (by omega)]
    have hlt : k + c % n - n < c % n := by omega
    have hback : n - c % n + (k + c % n - n) = k := by omega
    rw [hm, decide_eq_true hlt, cond_true, hback]

end

section
variable (a z : W32) (x y : W64)

theorem fld_zeroExt_low : fld (z.setWidth 64) 0 32 = z := by
  rw [fld_low, BitVec.setWidth_setWidth_of_le _ (by decide), BitVec.setWidth_eq]

theorem fld_zeroExt_high : fld (z.setWidth 64) 32 32 = 0 := by
  ext i; simp

section
variable {w : Bool} {x y}

theorem shlN_of_le (h : nBits w ≤ y.toNat) : shlN w x y = 0 := if_pos h
theorem shlN_of_lt (h : y.toNat < nBits w) : shlN w x y = lowN w (x <<< y.toNat) := if_neg (by omega)
theorem shrN_of_le (h : nBits w ≤ y.toNat) : shrN w x y = 0 := if_pos h
theorem shrN_of_lt (h : y.toNat < nBits w) : shrN w x y = x >>> y.toNat := if_neg (by omega)

end

theorem sarN_narrow : sarN false x y = ((fld x 0 32).sshiftRight (if 32 ≤ y.toNat then 31 else y.toNat)).setWidth 64 := rfl
theorem sarN_wide : sarN true x y = x.sshiftRight (if 64 ≤ y.toNat then 63 else y.toNat) := rfl

theorem bitAt_fld_low {k : Nat} (hk : k < 32) : bitAt (fld x 0 32) k = bitAt x k := by simp [fld_low, hk]

theorem bitAt_zeroExt {k : Nat} (hk : k < 64) : bitAt (z.setWidth 64) k = bitAt z k := by simp [hk]

/-- With a count of 32 or more a 32-bit `sar` gives 32 copies of the sign, zero-extended. -/
theorem sarN_narrow_of_le (h : 32 ≤ y.toNat) : sarN false x y = if bitAt x 31 then 0xFFFFFFFF#64 else 0 := by
  rw [sarN_narrow, if_pos h, sshiftRight_pred _ (by decide), bitAt_fld_low x (by decide)]
  cases bitAt x 31 <;> rfl

theorem sarN_wide_of_le (h : 64 ≤ y.toNat) : sarN true x y = if bitAt x 63 then BitVec.allOnes 64 else 0 := by
  rw [sarN_wide, if_pos h]
  exact sshiftRight_pred x (by decide)

theorem bitAt_rotN_narrow {k : Nat} (hk : k < 32) : bitAt (rotN false (a.setWidth 64) y) ((k + y.toNat) % 32) = bitAt a k := by
  have hlt : (k + y.toNat) % 32 < 64 := by omega
  rw [rotN, if_neg Bool.false_ne_true, bitAt_zeroExt _ hlt, fld_zeroExt_low]
  exact bitAt_rotateLeft a hk y.toNat

theorem toNat_lowN_shiftLeft (k : Nat) : (lowN false (a.setWidth 64 <<< k)).toNat = a.toNat * 2 ^ k % 2 ^ 32 := by
  rw [lowN, if_neg Bool.false_ne_true, fld_low, BitVec.toNat_setWidth_of_le (by decide), BitVec.toNat_setWidth,
    BitVec.toNat_shiftLeft, BitVec.toNat_setWidth_of_le (by decide), Nat.shiftLeft_eq, Nat.mod_mod_of_dvd _ (by decide)]

end

/-- Settles O17: a count of N or more is judged by value, a smaller one shifts the number, and `rot` moves each bit. -/
theorem shiftValues : Obligations.ShiftValues := by
  intro x y a a'
  refine ⟨fun h => ⟨shlN_of_le h, shrN_of_le h, sarN_narrow_of_le x y h⟩,
    fun h => ⟨shlN_of_le h, shrN_of_le h, sarN_wide_of_le x y h⟩, fun h => ⟨?_, ?_, ?_, ?_⟩, fun h => ⟨?_, ?_, ?_⟩,
    fun k hk => bitAt_rotateLeft x hk y.toNat, fun k hk => bitAt_rotN_narrow a y hk, fld_zeroExt_high _⟩
  · rw [shlN_of_lt h, toNat_lowN_shiftLeft]
  · rw [shrN_of_lt h, BitVec.toNat_ushiftRight, Nat.shiftRight_eq_div_pow, BitVec.toNat_setWidth_of_le (by decide)]
  · rw [sarN_narrow, fld_zeroExt_high]
  · rw [sarN_narrow, if_neg (by omega), fld_zeroExt_low, fld_zeroExt_low, toInt_sshiftRight_div]
  · rw [shlN_of_lt h]; exact (BitVec.toNat_shiftLeft).trans (by rw [Nat.shiftLeft_eq])
  · rw [shrN_of_lt h, BitVec.toNat_ushiftRight, Nat.shiftRight_eq_div_pow]
  · rw [sarN_wide, if_neg (by omega), toInt_sshiftRight_div]

end Sys2Proof.Machine
end

/-! Proofs about the part's steps on a group (R128, R132, R197, R248 to R264). -/

section
namespace Sys2Proof.Machine
open Sys2Proof.Claims

/-! ### A step whose condition holds -/

theorem steps_of_stepIf {s : State} {i : Instr} {ok : Mach → Bool} {f : Mach → Mach} {m' : Mach} (he : exec i s = stepIf ok f s)
    (hok : ok s.m = true) (hf : f s.m = m') : Steps s i m' := by
  subst hf
  exact he.trans (stepIf_of hok)

/-! ### GROUP_SLOT_RELEASE (R69) -/

/-- A rewrite of a core that keeps its groups keeps every group. -/
theorem group_modCore {f : Core → Core} (hf : ∀ x, (f x).groups = x.groups) (m : Mach) (d c k : Nat) :
    (m.modCore d f).group c k = m.group c k := by
  unfold Mach.group
  rw [core_modCore]
  split
  · rw [hf, ‹c = d›]
  · rfl

theorem group_foldl_modCore {f : Core → Core} (hf : ∀ x, (f x).groups = x.groups) (cs : List Nat) (m : Mach) (c k : Nat) :
    (cs.foldl (fun m d => m.modCore d f) m).group c k = m.group c k := by
  induction cs generalizing m with
  | nil => rfl
  | cons d cs ih => rw [List.foldl_cons, ih, group_modCore hf]

/-- What a team held on its cores is released without a change of any group. -/
theorem group_releaseTeam (m : Mach) (id c k : Nat) : (m.releaseTeam id).group c k = m.group c k := by
  unfold Mach.releaseTeam
  dsimp only
  rw [group_setTeam]
  split <;> exact group_foldl_modCore (by intro; rfl) _ m c k

theorem group_releaseSlot (m : Mach) (c k : Nat) : (m.releaseSlot c k).group c k = Group.none := by
  have hfree : (m.setGroup c k Group.none).group c k = Group.none := by simp
  unfold Mach.releaseSlot
  dsimp only
  split
  · rw [group_releaseTeam, hfree]
  · exact hfree

/-- A finished group whose slot is free leaves it empty. -/
theorem steps_groupSlotRelease {s : State} {c k : Nat} (hfree : s.m.slotFree c k = true) :
    Steps s (.groupSlotRelease c k) (s.m.releaseSlot c k) :=
  steps_of_stepIf (by unfold exec; exact rfl) hfree rfl

/-! ### LONG_LATENCY_RETURN (R258, R259) -/

@[simp] theorem deliver_outs (g : Group) (w : PWrite) : (g.deliver w).outs = g.outs := by
  unfold Group.deliver
  split
  · rfl
  · split
    · rfl
    · split <;> rfl
    · split <;> rfl

@[simp] theorem foldl_deliver_outs (ws : List PWrite) (g : Group) : (ws.foldl Group.deliver g).outs = g.outs := by
  induction ws generalizing g with
  | nil => rfl
  | cons w ws ih => rw [List.foldl_cons, ih, deliver_outs]

theorem foldl_overtake_nil (ws : List PWrite) (x : PWrite → W64) : ws.foldl (fun l w => overtake l w.dst (x w)) [] = [] := by
  induction ws with
  | nil => rfl
  | cons w ws ih => exact ih

/-- The one result outstanding overtakes nothing. -/
theorem overtakenBy_outs_of_only {g : Group} {o : Outst} (h : g.outs = [o]) : (g.overtakenBy o).outs = [o] := by
  simp [Group.overtakenBy, h, foldl_overtake_nil]

/-- A group after its one result has returned. -/
def Group.returned (g : Group) (o : Outst) : Group := { o.writes.foldl Group.deliver (g.overtakenBy o) with outs := [] }

theorem returned_outs (g : Group) (o : Outst) : (g.returned o).outs = [] := rfl

/-- A returned value reads back from its register; s0 discards it (R12). -/
theorem returned_rdS {g : Group} {o : Outst} {r : Nat} {x : W64} (hw : o.writes = [wS r x]) (t : Nat) :
    (g.returned o).rdS t r = if r = 0 then 0 else x := by
  rw [rdS_quiet _ _ _ (returned_outs g o)]
  by_cases hr : r = 0
  · rw [if_pos hr, if_pos hr]
  · simp [hr, Group.returned, hw, Group.deliver, wS]

/-- A ready result without a stamp, the group's only one, is delivered. -/
theorem group_returnOut {m : Mach} {c k : Nat} {o : Outst} (ho : (m.group c k).outs = [o]) (hr : o.ready = true)
    (hs : o.stamp = none) : (m.returnOut c k o.id).group c k = (m.group c k).returned o := by
  simp [Mach.returnOut, ho, hr, hs, group_modCore, overtakenBy_outs_of_only ho, Group.returned]

theorem steps_longLatencyReturn {s : State} {c k id : Nat} {o : Outst} (ho : (s.m.group c k).outs = [o]) (hid : o.id = id)
    (hr : o.ready = true) (hq : s.m.remoteReady c k id = false) :
    Steps s (.longLatencyReturn c k id) (s.m.returnOut c k id) :=
  steps_of_stepIf (by unfold exec; exact rfl) (by simp [ho, hid, hr]) (by simp [Mach.remoteReturn, hq])

/-! ### Groups that wake (R132, R248, R251) -/

theorem wake_eq_woken (m : Mach) (c k : Nat) : m.wake c k = m.setGroup c k (Woken m (m.group c k)) := rfl

section
variable {s : State} {c k : Nat}

theorem steps_groupUnpark {w : Why} (hh : (s.m.group c k).halted = false) (hw : (s.m.group c k).why = some w)
    (hc : s.m.cleared c k w = true) : Steps s (.groupUnpark c k) (s.m.wake c k) :=
  steps_of_stepIf (by unfold exec; exact rfl) (by simp [hh, hw, hc]) rfl

theorem steps_activeSetRotation (hr : s.m.rotates c k = true) :
    Steps s (.activeSetRotation c k) ((s.m.wake c k).fillActive c) :=
  steps_of_stepIf (by unfold exec; exact rfl) hr rfl

theorem steps_sleepExpiry {u : Nat} (hh : (s.m.group c k).halted = false) (hs : (s.m.group c k).status = .sleeping u)
    (hu : u ≤ s.m.clock) : Steps s (.sleepExpiry c k) (s.m.wake c k) :=
  steps_of_stepIf (by unfold exec; exact rfl) (by simp [hh, hs, hu]) rfl

/-! ### Joins, replays, translations and `waita` (R128, R197, R254, R264) -/

theorem steps_reconvergenceJoin {m1 : Mach} (hj : s.m.joins c k = true) (hn : s.m.nextOf c k = .join m1) :
    Steps s (.reconvergenceJoin c k) (m1.joinRound c k) :=
  steps_of_stepIf (by unfold exec; exact rfl) hj (by simp only [hn])

theorem steps_operandLogReplay {idx : Nat} {res : Bool} {e : LogEntry} (he : (s.m.core c).log[idx]? = some e) (hd : e.done = false)
    (hgo : (s.m.group c e.slot).halted = false ∨ s.m.reserveWaits c e.slot = true) :
    Steps s (.operandLogReplay c idx res) (s.m.replay c e res) := by
  refine steps_of_stepIf (by unfold exec; exact rfl) ?_ (by simp only [he])
  obtain hh | hw := hgo
  · simp [he, hd, hh]
  · simp [he, hd, hw]

section
variable {tb : Nat} {g : Group} (hg : s.m.group c k = g) (hb : (tget Tb.reset g.tb tb).busy = true)
include hg hb

/-- `tbset`'s translation ends without a frame: V stays 0. -/
theorem steps_tbsetTranslationDone_of_none
    (hf : s.m.tbFrame c (s.m.team g.team).part (s.m.team g.team).ctx g.privBase g.privSize (tget Tb.reset g.tb tb).base = none) :
    Steps s (.tbsetTranslationDone c k tb)
      ((s.m.walked (s.m.team g.team).part (s.m.team g.team).ctx (ptrVa g.privBase (tget Tb.reset g.tb tb).base)).setGroup c k
        { g with tb := tset Tb.reset g.tb tb { (tget Tb.reset g.tb tb) with busy := false } }) := by
  subst hg
  exact steps_of_stepIf (by unfold exec; exact rfl) hb (by simp only [hf])

/-- `tbset`'s translation ends with a frame, and its page's entry is in the core's TLB. -/
theorem steps_tbsetTranslationDone_of_some {e : TlbEntry} {f l : W64}
    (hf : s.m.tbFrame c (s.m.team g.team).part (s.m.team g.team).ctx g.privBase g.privSize (tget Tb.reset g.tb tb).base =
      some (e, f, l)) :
    Steps s (.tbsetTranslationDone c k tb) ((s.m.setGroup c k { g with
      tb := tset Tb.reset g.tb tb { (tget Tb.reset g.tb tb) with frame := f, limit := l, busy := false, leaf := some e } }).cacheTlb c e) := by
  subst hg
  exact steps_of_stepIf (by unfold exec; exact rfl) hb (by simp only [hf])

end

theorem steps_waitaWake {w : WaitaRec} (hh : (s.m.group c k).halted = false) (hw : (s.m.group c k).waita = some w) :
    Steps s (.waitaWake c k) (s.m.waitaAgain c k false) :=
  steps_of_stepIf (by unfold exec; exact rfl) (by simp [hh, hw]) rfl

theorem steps_waitaTimeout {w : WaitaRec} {d : Nat} (hh : (s.m.group c k).halted = false) (hw : (s.m.group c k).waita = some w)
    (hd : w.deadline = some d) (hc : d ≤ s.m.clock) : Steps s (.waitaTimeout c k) (s.m.waitaAgain c k true) :=
  steps_of_stepIf (by unfold exec; exact rfl) (by simp [hh, hw, hd, hc]) rfl

end

/-- Settles O49: each step's own condition holds, so its effect happens; the cases of `tbset`'s translation are what it found. -/
theorem groupSteps : Obligations.GroupSteps := by
  intro s c k id idx res tb m g woken
  refine ⟨fun hj m1 => steps_reconvergenceJoin hj, fun _ hf => ⟨steps_groupSlotRelease hf, group_releaseSlot m c k⟩, ?_,
    fun w => steps_groupUnpark, steps_activeSetRotation, fun u => steps_sleepExpiry, fun e => steps_operandLogReplay,
    fun hb => ⟨steps_tbsetTranslationDone_of_none rfl hb, fun e f l => steps_tbsetTranslationDone_of_some rfl hb⟩,
    fun w => steps_waitaWake, fun w d => steps_waitaTimeout⟩
  rintro o ho rfl hr hs hq
  have hg := group_returnOut ho hr hs
  refine ⟨_, steps_longLatencyReturn ho rfl hr hq, ?_, fun r x hw => ?_⟩
  · rw [hg, returned_outs]
  · rw [hg, returned_rdS hw]

end Sys2Proof.Machine
end

/-! Proofs about the float words, native and generic (R142 to R150), the log-domain words, FMT and `dot4` (R151 to R155), the
conversions (R156 to R164), and the words across lanes (R165 to R170). -/

section
namespace Sys2Proof.Machine
open Sys2Proof.Claims

/-- A word whose site's class and attribute are those of a format word: once the site's entry is in the core's site cache it rewrites
its group by `f`, which reads FMT in the group and not the site (R150, R320). -/
theorem rewritesAt_of_faWord {s : State} {i : Instr} {h : Hdr} {n : BitVec 16} {f : Nat → Group → Group} {f' : Group → Group}
    (he : exec i s = faWord i h n f s) (hf : f s.m.tick = f') :
    RewritesAt s i h n (fun m => BitVec.ofNat 16 (fmtA m.me.fmt)) (fun m x => x == BitVec.ofNat 16 (fmtA m.me.fmt)) f' :=
  rewritesAt_of_generic he rfl rfl hf

/-- Settles O23: each native float word is a rewrite of its group by the operation on elements that the rule names. -/
theorem floatWords : Obligations.FloatWords := by
  intro s h f r d a b c ks kr
  and_intros <;> exact rewrites_of_regWord (by unfold exec; exact rfl) rfl

/-- Settles O24: each generic float word, and the generic `dot4`, is a format word over the rewrite of the native word. -/
theorem genericFloatWords : Obligations.GenericFloatWords := by
  intro s h n r d a b c ks kr
  and_intros <;> exact rewritesAt_of_faWord (by unfold exec; exact rfl) rfl

/-- Settles O26: each word is a rewrite of its group. A reserved code that `fmtset.r` finds in its register needs no case of its own:
it is a cause judged before the effect (`Mach.staticTrap`), so that word does not issue (R153). -/
theorem formatWords : Obligations.FormatWords := by
  intro s h lg8 d v e a b c k imm r f ro tgt src inv vf q
  and_intros <;> exact rewrites_of_regWord (by unfold exec; exact rfl) rfl

/-- Settles O27: each word is a rewrite of its group that reads all source lanes before it writes one; the six clauses of `scan`
are the branches of its one meaning. -/
theorem laneWords : Obligations.LaneWords := by
  intro s h sg w d v b m r q
  and_intros <;> exact rewrites_of_regWord (by unfold exec; exact rfl) rfl

end Sys2Proof.Machine
end

/-! Proofs about the group-wide words with causes and a wait of their own: what they share, and the tile words (R64, R208 to R217). -/

section
namespace Sys2Proof.Machine
open Sys2Proof.Claims

/-! ### Group-wide words with causes and a wait (R64, R78) -/

theorem firstTrap_eq_none_iff (l : List (Option Trap)) : firstTrap l = none ↔ ∀ x ∈ l, x = none := by
  simp [firstTrap, List.findSome?_eq_none_iff]

section
variable {s : State} {i : Instr} {h : Hdr} {pre : Mach → List (Option Trap)} {wait : Mach → Option (Mach × Why)} {f e : Mach → Mach}

/-- A group-wide word whose condition keeps its causes and its wait away has its effect; one that no lane performs judges neither. -/
theorem when_of_tileWord {cond : Prop} (he : exec i s = issueWord i h (tileWord h pre wait f) s)
    (hpre : cond → ∀ x ∈ pre s.m, x = none) (hwait : cond → wait s.m = none) (hf : f (s.m.hash i) = e (s.m.hash i)) :
    When s i h cond e := by
  intro hi hcond
  have hp : (tileWord h pre wait f).pre s.m = none :=
    ite_eq_right_iff.mpr fun hperf => (firstTrap_eq_none_iff _).mpr (hpre (hcond hperf))
  have hw : (tileWord h pre wait f).wait s.m = none := ite_eq_right_iff.mpr fun hperf => hwait (hcond hperf)
  rw [← hf, ← performs_hash s.m i h]
  exact does_of_issueWord he hi hp hw

/-- A group-wide word that waits for nothing of its own. -/
theorem when_of_freeWord {cond : Prop} (he : exec i s = issueWord i h (tileWord h pre (fun _ => none) f) s)
    (hpre : cond → ∀ x ∈ pre s.m, x = none) (hf : f (s.m.hash i) = e (s.m.hash i)) : When s i h cond e :=
  when_of_tileWord he hpre (fun _ => rfl) hf

end

/-! ### What the hash of a word leaves alone (R137) -/

section
variable (m : Mach) (i : Instr)

@[simp] theorem tile_hash (c t : Nat) : ((m.hash i).core c).tile t = (m.core c).tile t := by
  obtain ⟨gs, hc⟩ := core_hash m i c
  rw [hc]; rfl

@[simp] theorem stream_hash (c q : Nat) : ((m.hash i).core c).stream q = (m.core c).stream q := by
  obtain ⟨gs, hc⟩ := core_hash m i c
  rw [hc]; rfl

@[simp] theorem spRead_hash (c key n : Nat) : (m.hash i).spRead c key n = m.spRead c key n := by
  obtain ⟨gs, hc⟩ := core_hash m i c
  rw [Mach.spRead, hc]; rfl

@[simp] theorem myTile_hash (t : T) : (m.hash i).myTile t = m.myTile t := by
  simp only [Mach.myTile, Mach.tileOf, tile_hash, hash_cur, team_of_hash]

@[simp] theorem recordAt_hash (p : W64) : (m.hash i).recordAt p = m.recordAt p := by
  simp only [Mach.recordAt, Mach.ownOffset, spRead_hash, hash_cur, myTeam_hash]

end

/-! ### Tiles of the issuing team (R209, R210) -/

section
variable {m : Mach} {x : Tile}

@[simp] theorem notMine_some : m.notMine (some x) = none := rfl

theorem poisonedTile_some_of (h : x.st ≠ .poisoned) : m.poisonedTile (some x) = none := if_neg h

theorem poisonedTile_of_ready (h : x.st = .ready) : m.poisonedTile (some x) = none := poisonedTile_some_of (by simp [h])

theorem notBusy_some_of (hf : x.st ≠ .filling) (hd : x.st ≠ .draining) : notBusy (some x) = true := by simp [notBusy, hf, hd]

theorem readyOnly_some_of (h : x.st = .ready) : readyOnly (some x) = true := by simp [readyOnly, h]

section
variable {t : T}

theorem tileWait_idle (h : notBusy (m.myTile t) = true) : m.tileWait t false = none := if_pos h

theorem tileWait_full (h : readyOnly (m.myTile t) = true) : m.tileWait t true = none := if_pos h

theorem readyWait_of (h : readyOnly (m.myTile t) = true) : m.readyWait t = none := if_pos h

/-- An entry that is not allocated is no tile of the team. -/
theorem myTile_of_none (h : (m.core m.cur.1).tile t.toNat = none) : m.myTile t = none := by simp [Mach.myTile, Mach.tileOf, h]

/-- A tile of the team that is neither filling nor draining. -/
theorem notBusy_of_free (h : ∃ y, m.myTile t = some y ∧ y.st ≠ .filling ∧ y.st ≠ .draining) : notBusy (m.myTile t) = true := by
  obtain ⟨y, hy, hf, hd⟩ := h
  rw [hy]; exact notBusy_some_of hf hd

end

end

/-! ### The tile words (R212 to R217) -/

section
variable {s : State} {h : Hdr} {t : T} {x : Tile}

/-- `tdef` takes an entry that is free, or one of the team's own that is not in use (R212). -/
theorem when_tdef {ready : Bool} {a b : S} {chunk : W32} : When s (.tdef h ready t a b chunk) h
    ((((s.m.core s.m.cur.1).tile t.toNat = none ∧ s.m.spilledHolds (fun x => (tget none x.tiles t.toNat).isSome) = false) ∨
        ∃ y, s.m.myTile t = some y ∧ y.st ≠ .filling ∧ y.st ≠ .draining) ∧
      s.m.tdefOk (s.m.me.rdS s.m.tick a.toNat) (s.m.me.rdS s.m.tick b.toNat) chunk.toNat = true)
    (fun m => m.setTileAt m.cur.1 t.toNat
      (some (m.newTile ready (m.me.rdS s.m.tick a.toNat) (m.me.rdS s.m.tick b.toNat) chunk))) := by
  refine when_of_tileWord (by unfold exec; exact rfl) ?_ ?_ (by rw [hash_tick])
  · rintro ⟨hown, hok⟩
    obtain ⟨hfree, hspill⟩ | ⟨y, hy, -, -⟩ := hown
    · simp [hfree, hspill, hok]
    · simp [hy, hok]
  · rintro ⟨hown, -⟩
    obtain ⟨hfree, -⟩ | hmine := hown
    · exact tileWait_idle (by rw [myTile_of_none hfree]; rfl)
    · exact tileWait_idle (notBusy_of_free hmine)

theorem when_tfree : When s (.tfree h t) h (∃ y, s.m.myTile t = some y ∧ y.st ≠ .filling ∧ y.st ≠ .draining)
    (fun m => m.setTileAt m.cur.1 t.toNat none) := by
  refine when_of_tileWord (by unfold exec; exact rfl) ?_ (fun hmine => tileWait_idle (notBusy_of_free hmine)) rfl
  rintro ⟨y, hy, -⟩
  simp [hy]

section
variable (hx : s.m.myTile t = some x)
include hx

theorem when_tstat {k : TsWord} {d : S} : When s (.tstat h k d t) h True (fun m => m.modMe (fun g => g.putS d.toNat (x.word k))) :=
  when_of_freeWord (by unfold exec; exact rfl) (by simp [hx]) (by simp only [myTile_hash, hx])

theorem when_twait {d : S} : When s (.twait h d t) h (x.st = .ready) (fun m => m.modMe (fun g => g.putS d.toNat x.cw)) := by
  refine when_of_tileWord (by unfold exec; exact rfl) (fun hr => ?_) (fun hr => ?_) (by simp only [myTile_hash, hx])
  · simp [hx, poisonedTile_of_ready hr]
  · exact readyWait_of (by rw [hx]; exact readyOnly_some_of hr)

/-- `twait.ch` goes on once the tile is READY, or more chunks than asked for have landed (R215). -/
theorem when_twaitCh {b : S} : When s (.twaitCh h t b) h
    (x.st = .ready ∨ x.st ≠ .poisoned ∧ (s.m.me.rdS s.m.tick b.toNat).toNat < x.chk.toNat) id := by
  refine when_of_tileWord (by unfold exec; exact rfl) (fun hgo => ?_) (fun hgo => ?_) rfl
  · have hnp : x.st ≠ .poisoned := by
      obtain hr | ⟨hnp, -⟩ := hgo
      · simp [hr]
      · exact hnp
    simp [hx, poisonedTile_some_of hnp]
  · rw [hx]
    exact if_pos (hgo.imp_right And.right)

end

/-- `layout` judges the record that its pointer names, writes the code into it, and its predicate says whether it is 0 (R217). -/
theorem when_layout {p : P} {a : S} {r : List Byte} (hr : s.m.recordAt (s.m.me.rdS s.m.tick a.toNat) = some r) :
    When s (.layout h p a) h True (fun m =>
      (m.spWrite m.cur.1 (spKey (m.myTeam.slotOn m.cur.1) ((fld (m.me.rdS s.m.tick a.toNat) 0 32).toNat + 0x3C))
        (bytesOf 2 (layoutCode r))).modMe
          (fun g => g.putP p.toNat (g.perf s.m.tick h) (if layoutCode r = 0 then BitVec.allOnes 64 else 0))) :=
  when_of_freeWord (by unfold exec; exact rfl) (by simp [hr]) (by simp only [rdS_hash, hash_tick, recordAt_hash, hr])

end

/-- Settles O44: each tile word is a group-wide word whose condition keeps its causes and its wait away. -/
theorem tileWords : Obligations.TileWords := by
  intro s h ready t a b d chunk k x r p m n free
  exact ⟨when_tdef, when_tfree, fun hx => when_tstat hx, fun hx => when_twait hx, fun hx => when_twaitCh hx, when_layout⟩

end Sys2Proof.Machine
end

/-! Proofs about the stream words and the issue of a ring rotation (R223 to R227). -/

section
namespace Sys2Proof.Machine
open Sys2Proof.Claims

section
variable {s : State} {h : Hdr} {q : Q} {t : T}

theorem notOwned_of {m : Mach} (ho : m.ownsStream m.cur.1 q.toNat = true) : m.notOwned q = none := if_pos ho

/-- A `feed` of a READY tile, within its size, to an owned stream with room is queued, and the tile drains (R225). -/
theorem when_feed {b c : S} {x : Tile} (hx : s.m.myTile t = some x) : When s (.feed h q t b c) h
    (s.m.ownsStream s.m.cur.1 q.toNat = true ∧ x.st = .ready ∧ ((s.m.core s.m.cur.1).stream q.toNat).room ≠ 0 ∧
      feedOk (some x) (s.m.me.rdS s.m.tick b.toNat) (s.m.me.rdS s.m.tick c.toNat) = true)
    (fun m => (m.fresh.1.modMyTile t (fun x => { x with st := .draining })).modCore m.cur.1 (fun k =>
      k.setStream q.toNat { (k.stream q.toNat) with feeds := (k.stream q.toNat).feeds ++
        [{ id := m.fresh.2, team := m.me.team, tile := t.toNat, off := (m.me.rdS s.m.tick b.toNat).toNat,
           len := (m.me.rdS s.m.tick c.toNat).toNat, pos := 0, drop := false }] })) := by
  refine when_of_tileWord (by unfold exec; exact rfl) ?_ ?_ ?_
  · rintro ⟨ho, hr, -, hok⟩
    simp [hx, notOwned_of ho, hok, poisonedTile_of_ready hr]
  · rintro ⟨-, hr, hroom, -⟩
    rw [feedWait_room s.m q t hroom]
    exact tileWait_full (by rw [hx]; exact readyOnly_some_of hr)
  · rw [hash_tick]

theorem when_sdef {scl : Bool} : When s (.sdef h q scl) h (s.m.sdefTrap q = none)
    (fun m => m.modCore m.cur.1 (fun k => k.setStream q.toNat { (k.stream q.toNat) with owner := some m.me.team, scl := scl })) :=
  when_of_freeWord (by unfold exec; exact rfl) (by simp) rfl

theorem when_sflush : When s (.sflush h q) h (s.m.ownsStream s.m.cur.1 q.toNat = true) (fun m => m.flushStream q false) :=
  when_of_freeWord (by unfold exec; exact rfl) (fun ho => by simp [notOwned_of ho]) rfl

theorem when_sflushRel : When s (.sflushRel h q) h (s.m.ownsStream s.m.cur.1 q.toNat = true) (fun m => m.flushStream q true) :=
  when_of_freeWord (by unfold exec; exact rfl) (fun ho => by simp [notOwned_of ho]) rfl

/-- `rrot` of a READY tile drains it, as one of the eight entries of its ring (R227). -/
theorem when_rrot {d : S} {x : Tile} (hx : s.m.myTile t = some x) : When s (.rrot h d t) h
    (x.st = .ready ∧ (s.m.ringTiles t.toNat).all Option.isSome = true)
    (fun m => (m.fresh.1.modMyTile t (fun x => { x with st := .draining, ring := some (m.cur.2, m.fresh.2) })).modMe
      (fun g => g.addOuts m.fresh.2 [wS d.toNat 0] false none)) := by
  refine when_of_tileWord (by unfold exec; exact rfl) ?_ ?_ ?_
  · rintro ⟨hr, hring⟩
    have hnone : (s.m.ringTiles t.toNat).any Option.isNone = false := by
      simpa [List.all_eq_true, Option.ne_none_iff_isSome] using hring
    simp [hnone, hx, poisonedTile_of_ready hr]
  · rintro ⟨hr, -⟩
    exact tileWait_full (by rw [hx]; exact readyOnly_some_of hr)
  · rfl

end

/-- Settles O46: each word is a group-wide word whose condition keeps its causes and its wait away. -/
theorem streamWords : Obligations.StreamWords := by
  intro s h q t b c d scl x m n own
  exact ⟨fun hx => when_feed hx, when_sdef, when_sflush, when_sflushRel, fun hx => when_rrot hx⟩

end Sys2Proof.Machine
end

/-! Proofs about the matrix words (R228 to R239). -/

section
namespace Sys2Proof.Machine
open Sys2Proof.Claims

/-! ### Causes of bank, role and stream (R78, R228, R230) -/

section
variable {m : Mach}

theorem bankTrap_of {n : Sys2Proof.Acc} (hb : n.toNat < accb m.myTeam.pool) : m.bankTrap n = none := if_neg (Nat.not_le.mpr hb)

theorem roleTrap_pair (hp : m.myTeam.pair = true) : m.roleTrap false = none := by simp [Mach.roleTrap, hp]

theorem roleTrap_leader (hp : m.myTeam.pair = true) (hl : m.cur.1 % 2 = 0) : m.roleTrap true = none := by simp [Mach.roleTrap, hp, hl]

end

/-! ### The tiles of a pair (R236, R237) -/

/-- Every core's tile is there, and of a size of `sz` or more. -/
def AllFull (sz : Nat) (l : List (Option Tile)) : Prop := ∀ x ∈ l, ∃ y, x = some y ∧ sz ≤ y.size.toNat

/-- Every core's tile is there and READY. -/
def AllReady (l : List (Option Tile)) : Prop := ∀ x ∈ l, ∃ y, x = some y ∧ y.st = .ready

/-- No core's tile is in use or poisoned. -/
def AllIdle (l : List (Option Tile)) : Prop := ∀ x ∈ l, ∀ y, x = some y → y.st = .empty ∨ y.st = .ready

section
variable {m : Mach} {l : List (Option Tile)}

theorem any_isNone_of_some {p : Tile → Prop} (hl : ∀ x ∈ l, ∃ y, x = some y ∧ p y) : l.any Option.isNone = false := by
  refine List.any_eq_false.mpr fun x hx => ?_
  obtain ⟨y, rfl, -⟩ := hl x hx
  exact Bool.false_ne_true

theorem AllFull.any_small {sz : Nat} (hl : AllFull sz l) : l.any (fun x => x.any (fun y => decide (y.size.toNat < sz))) = false := by
  refine List.any_eq_false.mpr fun x hx => ?_
  obtain ⟨y, rfl, hy⟩ := hl x hx
  simpa using hy

theorem AllReady.all_readyOnly (hl : AllReady l) : l.all readyOnly = true := by
  refine List.all_eq_true.mpr fun x hx => ?_
  obtain ⟨y, rfl, hy⟩ := hl x hx
  exact readyOnly_some_of hy

theorem AllReady.idle (hl : AllReady l) : AllIdle l := by
  intro x hx y hy
  obtain ⟨z, rfl, hz⟩ := hl x hx
  cases hy
  exact .inr hz

theorem AllIdle.all_notBusy (hl : AllIdle l) : l.all notBusy = true := by
  refine List.all_eq_true.mpr fun x hx => ?_
  cases x with
  | none => rfl
  | some y => obtain he | hr := hl _ hx y rfl <;> exact notBusy_some_of (by simp [*]) (by simp [*])

/-- Idle tiles raise no 0x20. -/
theorem AllIdle.poisoned_head (hl : AllIdle l) : (l.filterMap m.poisonedTile).head? = none := by
  rw [List.head?_eq_none_iff, List.filterMap_eq_nil_iff]
  intro x hx
  cases x with
  | none => rfl
  | some y => obtain he | hr := hl _ hx y rfl <;> exact poisonedTile_some_of (by simp [*])

theorem AllIdle.append {l' : List (Option Tile)} (hl : AllIdle l) (hl' : AllIdle l') : AllIdle (l ++ l') :=
  fun x hx => (List.mem_append.mp hx).elim (hl x) (hl' x)

end

/-! ### Steps (R229, R233, R234) -/

/-- What a step asks of its bank, its pair, its streams and the queue. -/
def StepCond (m : Mach) (acc : Sys2Proof.Acc) (qa qb : Q) (c : BitVec 4 × BitVec 4) : Prop :=
  acc.toNat < accb m.myTeam.pool ∧ m.myTeam.pair = true ∧ m.cur.1 % 2 = 0 ∧
    (m.streamTrap m.myLead qa c.1 = none ∧ m.streamTrap m.myLead qb c.2 = none ∧ m.streamTrap (m.myLead + 1) qb c.2 = none) ∧
    stepsQueued (m.core m.myLead) < 8

/-- A step as it enters the queue. -/
def stepOf (m : Mach) (sp : Bool) (acc : Sys2Proof.Acc) (qa qb : Q) (k : BitVec 9) (c : BitVec 4 × BitVec 4) : MatStep :=
  { acc := acc.toNat, qa := qa.toNat, qb := qb.toNat, k := k.toNat, fa := c.1, fb := c.2, sparse := sp, slot := m.cur.2, pc := m.me.pc,
    sa := ((m.core m.myLead).stream qa.toNat).scl, sl := ((m.core m.myLead).stream qb.toNat).scl,
    sf := ((m.core (m.myLead + 1)).stream qb.toNat).scl, a := [], bl := [], bf := [] }

section
variable {m : Mach} {f : Mach → BitVec 4 × BitVec 4} {acc : Sys2Proof.Acc} {qa qb : Q}

theorem stepWord_causes (hc : StepCond m acc qa qb (f m)) : ∀ x ∈ [m.bankTrap acc, m.roleTrap true, m.streamTrap m.myLead qa (f m).1,
    m.streamTrap m.myLead qb (f m).2, m.streamTrap (m.myLead + 1) qb (f m).2], x = none := by
  obtain ⟨hb, hp, hl, ⟨ha, hlead, hfol⟩, -⟩ := hc
  simp [bankTrap_of hb, roleTrap_leader hp hl, ha, hlead, hfol]

theorem stepWord_room (hc : StepCond m acc qa qb (f m)) :
    (if 8 ≤ stepsQueued (m.core m.myLead) then some (m, Why.matrixQueue) else none) = none := by
  obtain ⟨-, -, -, -, hroom⟩ := hc
  exact if_neg (Nat.not_le.mpr hroom)

end

section
variable {s : State} {i : Instr} {h : Hdr} {sp : Bool} {acc : Sys2Proof.Acc} {qa qb : Q} {k : BitVec 9}

/-- A native step. -/
theorem when_of_stepWord {c : BitVec 4 × BitVec 4} (he : exec i s = issueWord i h (stepWord h (fun _ => c) sp acc qa qb k) s) :
    When s i h (StepCond s.m acc qa qb c) (fun m => m.enqueue m.myLead m.me.team (.step (stepOf m sp acc qa qb k c))) :=
  when_of_tileWord he (stepWord_causes (f := fun _ => c)) (stepWord_room (f := fun _ => c)) rfl

/-- Everything that touching a site can do: a line of the core's site cache is counted, and an update may be sent (R320). -/
theorem touchSite_cases (m : Mach) (n : Nat) (attr : BitVec 16) (guard : BitVec 16 → Bool) :
    m.touchSite n attr guard = m ∨ ∃ (f : List SiteLine → List SiteLine) (msgs : Tab (Option SiteMsg)) (id : Nat), m.touchSite n attr guard =
      { m.modCore m.cur.1 (fun k => { k with sites := f k.sites }) with siteMsgs := msgs, nextId := id } := by
  unfold Mach.touchSite
  split
  · exact .inl rfl
  · dsimp only
    split
    · exact .inl rfl
    · split <;> exact .inr ⟨_, _, _, rfl⟩

/-- The group that touches a site is as it was. -/
theorem me_touchSite (m : Mach) (n : Nat) (attr : BitVec 16) (guard : BitVec 16 → Bool) : (m.touchSite n attr guard).me = m.me := by
  obtain hm | ⟨f, msgs, id, hm⟩ := touchSite_cases m n attr guard <;> rw [hm]
  exact group_modCore (f := fun k => { k with sites := f k.sites }) (fun _ => rfl) m _ _ _

theorem performs_touchSite (m : Mach) (n : Nat) (attr : BitVec 16) (guard : BitVec 16 → Bool) :
    (m.touchSite n attr guard).performs h = m.performs h := by
  rw [Mach.performs, me_touchSite, touchSite_tick]; rfl

theorem fmtCodes_touchSite (m : Mach) (n : Nat) (attr : BitVec 16) (guard : BitVec 16 → Bool) :
    fmtCodes (m.touchSite n attr guard) = fmtCodes m := by
  rw [fmtCodes, me_touchSite]; rfl

theorem fmtCodes_hash (m : Mach) : fmtCodes (m.hash i) = fmtCodes m := by
  obtain ⟨x, hx⟩ := me_hash m i
  rw [fmtCodes, hx]; rfl

/-- The machine once a generic step has touched its site (R233, R320). -/
def Mach.touchPair (m : Mach) (i : Instr) (n : BitVec 16) : Mach :=
  (m.hash i).touchSite n.toNat (pairAttr (m.hash i)) (fun x => x == pairAttr (m.hash i))

/-- A generic step, whose formats are the group's (R233), once its site's entry is in the core's site cache. -/
theorem does_of_genericStep {n : BitVec 16}
    (he : exec i s = issueWord i h ((stepWord h fmtCodes sp acc qa qb k).generic n pairAttr (fun m a => a == pairAttr m)) s)
    (hsite : s.m.siteWait n.toNat = none) (hi : Issues s.m i h) (hp : s.m.performs h = true)
    (hc : StepCond s.m acc qa qb (fmtCodes s.m)) :
    Does s i h ((s.m.touchPair i n).enqueue (s.m.touchPair i n).myLead (s.m.touchPair i n).me.team
      (.step (stepOf (s.m.touchPair i n) sp acc qa qb k (fmtCodes s.m)))) := by
  have hperf : (s.m.touchPair i n).performs h = true := by rw [Mach.touchPair, performs_touchSite, performs_hash, hp]
  have hfmt : fmtCodes (s.m.touchPair i n) = fmtCodes s.m := by rw [Mach.touchPair, fmtCodes_touchSite, fmtCodes_hash]
  have hd := does_of_issueWord he hi
    ((if_pos hp).trans ((firstTrap_eq_none_iff _).mpr (stepWord_causes hc)))
    (by simp only [Word.generic, hsite]; exact (if_pos hp).trans (stepWord_room hc))
  have hrun : ((stepWord h fmtCodes sp acc qa qb k).generic n pairAttr (fun m a => a == pairAttr m)).run (s.m.hash i) =
      (s.m.touchPair i n).enqueue (s.m.touchPair i n).myLead (s.m.touchPair i n).me.team
        (.step (stepOf (s.m.touchPair i n) sp acc qa qb k (fmtCodes (s.m.touchPair i n)))) := if_pos hperf
  rw [← hfmt]
  exact hrun ▸ hd

end

/-! ### The other words (R235 to R239) -/

section
variable {s : State} {h : Hdr} {acc : Sys2Proof.Acc}

theorem when_accz : When s (.accz h acc) h (acc.toNat < accb s.m.myTeam.pool ∧ s.m.myTeam.pair = true)
    (fun m => m.enqueue m.myLead m.me.team (.accz acc.toNat)) := by
  refine when_of_freeWord (by unfold exec; exact rfl) ?_ ?_
  · rintro ⟨hb, hp⟩
    simp [bankTrap_of hb, roleTrap_pair hp]
  · rfl

/-- The bias tiles that an `acco` reads, none where its flags ask for no bias. -/
def Mach.biasTiles (m : Mach) (fl : AccoFlags) (bias : T) : List (Option Tile) := if fl.bias then m.tilesHere bias else []

theorem allReady_biasTiles {m : Mach} {fl : AccoFlags} {bias : T} (hbias : fl.bias = true → AllReady (m.tilesHere bias)) :
    AllReady (m.biasTiles fl bias) := by
  unfold Mach.biasTiles
  split
  · exact hbias ‹_›
  · exact fun _ hx => absurd hx List.not_mem_nil

/-- What an `acco` asks: its bank, its pair, tiles large enough and not in use, and READY bias tiles where it names any (R236). -/
def AccoCond (m : Mach) (fl : AccoFlags) (f : BitVec 3) (t : T) (acc : Sys2Proof.Acc) (bias : T) : Prop :=
  acc.toNat < accb m.myTeam.pool ∧ m.myTeam.pair = true ∧ m.cur.1 % 2 = 0 ∧ AllFull (accoBytes f) (m.tilesHere t) ∧
    AllIdle (m.tilesHere t) ∧ (fl.bias = true → AllReady (m.tilesHere bias))

section
variable {m : Mach} {fl : AccoFlags} {f : BitVec 3} {t bias : T}

theorem acco_causes (hc : AccoCond m fl f t acc bias) :
    ∀ x ∈ [if (m.tilesHere t ++ m.biasTiles fl bias).any Option.isNone then m.raise 0x22 0 else none, m.bankTrap acc, m.roleTrap true,
      if (m.tilesHere t).any (fun x => x.any (fun y => decide (y.size.toNat < accoBytes f))) then m.raise 0x10 0 else none,
      ((m.tilesHere t ++ m.biasTiles fl bias).filterMap m.poisonedTile).head?], x = none := by
  obtain ⟨hb, hp, hl, hfull, hidle, hbias⟩ := hc
  have hready := allReady_biasTiles hbias
  have hnone : (m.tilesHere t ++ m.biasTiles fl bias).any Option.isNone = false := by
    rw [List.any_append, any_isNone_of_some hfull, any_isNone_of_some hready]; rfl
  rw [hnone, bankTrap_of hb, roleTrap_leader hp hl, hfull.any_small, (hidle.append hready.idle).poisoned_head]
  simp

theorem acco_goes (hc : AccoCond m fl f t acc bias) :
    ¬ ((fl.bias && !(m.tilesHere bias).all readyOnly) || !(m.tilesHere t).all notBusy) = true := by
  obtain ⟨-, -, -, -, hidle, hbias⟩ := hc
  rw [hidle.all_notBusy]
  by_cases hf : fl.bias = true
  · simp [(hbias hf).all_readyOnly]
  · simp [hf]

end

theorem when_acco {fl : AccoFlags} {f : BitVec 3} {t bias : T} {code : BitVec 8} :
    When s (.acco h fl f t acc bias code) h (AccoCond s.m fl f t acc bias)
      (fun m => (m.halves.foldl (fun m c => m.modTileAt c t.toNat (fun x => x.fill (accoBytes f))) m).enqueue m.myLead m.me.team
        (.acco fl f t.toNat acc.toNat bias.toNat code (fmtSat m.me.fmt))) := by
  refine when_of_tileWord (by unfold exec; exact rfl) ?_ ?_ ?_
  · exact acco_causes
  · exact fun hc => if_neg (acco_goes hc)
  · rfl

/-- `atab` with tables of 2048 bytes in READY tiles reads them at issue (R237). -/
theorem when_atab {t : T} {a b : S} : When s (.atab h t a b) h
    (s.m.myTeam.pair = true ∧ AllFull 2048 (s.m.tilesHere t) ∧ AllReady (s.m.tilesHere t))
    (fun m => m.enqueue m.myLead m.me.team
      (.atab (m.readAtab t) (fld (m.me.rdS m.tick a.toNat) 0 32) (fld (m.me.rdS m.tick b.toNat) 0 32))) := by
  refine when_of_tileWord (by unfold exec; exact rfl) ?_ ?_ ?_
  · rintro ⟨hp, hfull, hready⟩
    simp [any_isNone_of_some hfull, roleTrap_pair hp, hfull.any_small, hready.idle.poisoned_head]
  · rintro ⟨-, -, hready⟩
    exact if_pos hready.all_readyOnly
  · rfl

/-- `mstat` and its forms return MSTAT, and enter the queue with what they clear or enable (R238). -/
theorem when_of_mstatWord {i : Instr} {d : S} {clr en : Mach → Option (BitVec 5)} (he : exec i s = issueWord i h (mstatWord h d clr en) s) :
    When s i h (s.m.myTeam.pair = true) (fun m =>
      (m.fresh.1.modMe (fun g => g.addOuts m.fresh.2 [wS d.toNat 0] false none)).enqueue m.myLead m.me.team
        (.mstat (clr m) (en m) m.cur.2 m.cur.1 d.toNat m.fresh.2)) :=
  when_of_freeWord he (fun hp => by simp [roleTrap_pair hp]) rfl

theorem accld_causes {m : Mach} {r : W64} (hb : acc.toNat < accb m.myTeam.pool) (hp : m.myTeam.pair = true) (hrow : r.toNat < 128) :
    ∀ x ∈ [m.bankTrap acc, m.roleTrap false, if 128 ≤ r.toNat then m.raise 0x10 r else none], x = none := by
  rw [bankTrap_of hb, roleTrap_pair hp, if_neg (Nat.not_le.mpr hrow)]
  simp

/-- `accld` of a row of the bank leaves the registers of its performing lanes outstanding (R239). -/
theorem when_accld {f : BitVec 3} {v : V} {row : S} : When s (.accld h f v acc row) h
    (acc.toNat < accb s.m.myTeam.pool ∧ s.m.myTeam.pair = true ∧ (s.m.me.rdS s.m.tick row.toNat).toNat < 128)
    (fun m => (m.fresh.1.modMe (fun g => g.addOuts m.fresh.2 ((lanesOf (m.me.perf m.tick h)).flatMap (fun l =>
        (List.range (if f = 0 then 2 else 1)).map (fun j => wV (v.toNat + j) l 0))) false none)).enqueue m.myLead m.me.team
      (.accld f v.toNat acc.toNat (m.me.rdS m.tick row.toNat).toNat m.cur.2 m.cur.1 m.fresh.2 (m.me.perf m.tick h) (fmtSat m.me.fmt))) := by
  refine when_of_freeWord (by unfold exec; exact rfl) ?_ ?_
  · exact fun ⟨hb, hp, hrow⟩ => accld_causes hb hp hrow
  · rfl

end

/-- Settles O47: each native word is a group-wide word whose condition keeps its causes and its wait away, and a generic step is
the native one over its site. -/
theorem matrixWords : Obligations.MatrixWords := by
  intro s h n f acc qa qb k fl t bias code a b d row v m bank pair lead streams room sclOf op enq fmt gen full idle ready stat
  exact ⟨when_of_stepWord (by unfold exec; exact rfl), when_of_stepWord (by unfold exec; exact rfl),
    does_of_genericStep (by unfold exec; exact rfl), does_of_genericStep (by unfold exec; exact rfl), when_accz, when_acco, when_atab,
    when_of_mstatWord (by unfold exec; exact rfl), when_of_mstatWord (by unfold exec; exact rfl),
    when_of_mstatWord (by unfold exec; exact rfl), when_accld⟩

end Sys2Proof.Machine
end

/-! Proofs about rendezvous, launches from a group and the words over generations (R241 to R245). -/

section
namespace Sys2Proof.Machine
open Sys2Proof.Claims

/-! ### Rendezvous (R241) -/

section
variable {s : State} {h : Hdr} {r : RvN} {a : S}

/-- A point that no group has arrived at since it was opened may be opened anew. -/
theorem when_rvinit {n : BitVec 16} : When s (.rvinit h r n) h (∀ c k y, s.m.myTeam.rvAt r.toNat = .opened c k y → k = 0)
    (fun m => m.setRv r.toNat (.opened n.toNat 0 0)) := by
  refine when_of_freeWord (by unfold exec; exact rfl) (fun hfresh => ?_) rfl
  have hnone : s.m.rvinitTrap r.toNat = none := by
    unfold Mach.rvinitTrap
    split
    · next c k y hrv => exact if_neg (by rw [hfresh c k y hrv]; exact Nat.lt_irrefl 0)
    · rfl
  simp [hnone]

section
variable {cnt arr : Nat} {y : W64} (hrv : s.m.myTeam.rvAt r.toNat = .opened cnt arr y)
include hrv

/-- A word that arrives at an open point is free to issue. -/
theorem when_of_rvarr {e : Mach → Mach}
    (he : (s.m.hash (.rvarr h r a)).rvarrive r.toNat (s.m.me.rdS s.m.tick a.toNat) = e (s.m.hash (.rvarr h r a))) :
    When s (.rvarr h r a) h True e :=
  when_of_freeWord (by unfold exec; exact rfl) (by simp [Mach.rvarrTrap, hrv]) (by rw [rdS_hash, hash_tick]; exact he)

theorem when_rvarr_waits (hne : arr + 1 ≠ cnt) : When s (.rvarr h r a) h True (fun m =>
    m.setRv r.toNat (.opened cnt (arr + 1) (wMerge m y (m.me.rdS s.m.tick a.toNat)))) :=
  when_of_rvarr hrv (by simp only [Mach.rvarrive, myTeam_hash, hrv, hne, if_false, rdS_hash])

theorem when_rvarr_completes (heq : arr + 1 = cnt) : When s (.rvarr h r a) h True (fun m =>
    m.rvComplete r.toNat (wMerge m y (m.me.rdS s.m.tick a.toNat))) :=
  when_of_rvarr hrv (by simp only [Mach.rvarrive, myTeam_hash, hrv, heq, if_true, rdS_hash])

end

@[simp] theorem rvMerge_hash (m : Mach) (i : Instr) (k : Nat) : (m.hash i).rvMerge k = m.rvMerge k := by
  obtain ⟨x, hx⟩ := me_hash m i
  rw [Mach.rvMerge, hx, myTeam_hash]; rfl

/-- The merge of the round waited for, or of the complete round, is returned. -/
theorem when_rvwait {d : S} {y : W64} (hy : s.m.me.rvGot = some y ∨ (s.m.me.rvGot = none ∧ s.m.myTeam.rvAt r.toNat = .complete y)) :
    When s (.rvwait h d r) h True (fun m => m.modMe (fun g => { (g.putS d.toNat y) with rvGot := none })) := by
  have hmerge : s.m.rvMerge r.toNat = y := by
    obtain hg | ⟨hg, hc⟩ := hy
    · simp [Mach.rvMerge, hg]
    · simp [Mach.rvMerge, hg, hc]
  refine when_of_tileWord (by unfold exec; exact rfl) (fun _ => ?_) (fun _ => ?_) (by simp only [rvMerge_hash, hmerge])
  · obtain hg | ⟨hg, hc⟩ := hy
    · simp [Mach.rvwaitTrap, hg]
    · simp [Mach.rvwaitTrap, hg, hc]
  · obtain hg | ⟨hg, hc⟩ := hy
    · simp [Mach.rvwaitHold, hg]
    · simp [Mach.rvwaitHold, hg, hc]

end

/-! ### `launch` and `replay` (R242, R243, R303) -/

/-- A word that nothing keeps back and that raises nothing waits where its own wait holds. -/
theorem issue_waits {m : Mach} {i : Instr} {h : Hdr} {w : Word} {r : Mach × Why} (hi : Issues m i h) (hp : w.pre m = none)
    (hw : w.wait m = some r) : m.issue i h w = r.1.park r.2 := by
  simp [Mach.issue, Mach.issueTrap, hi.free, hi.static, hi.calls, hi.retire, hp, hw]

theorem presentAway_null (m : Mach) (c k p : Nat) : m.presentAway c k p 0 = .ok m := rfl

theorem addOuts_single (g : Group) (id : Nat) (w : PWrite) (ready : Bool) (stamp : Option (BitVec 24)) :
    g.addOuts id [w] ready stamp =
      { g with outs := g.outs ++ [{ id := id, pc := g.pc, writes := [w], ready := ready, stamp := stamp }] } := rfl

@[simp] theorem myLaunch_hash (m : Mach) (i : Instr) : (m.hash i).myLaunch = m.myLaunch := by
  simp only [Mach.myLaunch, part_hash, myPart_hash, hash_cur]

section
variable {s : State} {i : Instr} {h : Hdr} {d a w : S} {b : Option S}

/-- The second issue of a launch that has been answered returns the answer. -/
theorem does_of_answeredLaunch {x : DevLaunch} {ans : W64} (he : exec i s = issueWord i h (launchWord h d a b w) s) (hi : Issues s.m i h)
    (hp : s.m.performs h = true) (hx : s.m.myLaunch = some x) (ha : x.ans = some ans) :
    ∃ m', Does s i h m' ∧ m'.me.outs =
      s.m.me.outs ++ [{ id := x.outId, pc := s.m.me.pc, writes := [wS d.toNat ans], ready := true, stamp := none }] := by
  have hd := does_of_issueWord he hi
    ((if_pos hp).trans ((firstTrap_eq_none_iff _).mpr (by simp [Mach.launchTraps, hx])))
    ((if_pos hp).trans (by simp [Mach.launchWait, hx, ha]))
  have hrun : (launchWord h d a b w).run (s.m.hash i) = (s.m.hash i).launchRun d w := if_pos ((performs_hash s.m i h).trans hp)
  refine ⟨_, hrun ▸ hd, ?_⟩
  obtain ⟨sig, hme⟩ := me_hash s.m i
  simp [Mach.launchRun, hx, ha, addOuts_single, hme]

/-- The machine once a launch of the issuing group stands at the end of its partition's device launch queue. -/
def Mach.posted (m : Mach) (rcb : Nat) (patch : Option W64) (wit : W64) : Mach :=
  m.fresh.1.modPart m.myPart (fun p => { p with dev := p.dev ++
    [{ id := m.nextId, core := m.cur.1, slot := m.cur.2, outId := m.nextId, rcb := rcb, patch := patch, w := wit,
       parent := some m.myTeam.inst, ctx := m.myCtx, ans := none }] })

section
variable (m : Mach) (rcb : Nat) (patch : Option W64) (wit : W64)

theorem me_posted : (m.posted rcb patch wit).me = m.me := rfl

theorem dev_posted : ((m.posted rcb patch wit).part m.myPart).dev = (m.part m.myPart).dev ++
    [{ id := m.nextId, core := m.cur.1, slot := m.cur.2, outId := m.nextId, rcb := rcb, patch := patch, w := wit,
       parent := some m.myTeam.inst, ctx := m.myCtx, ans := none }] := by
  rw [Mach.posted, part_modPart, if_pos rfl]; rfl

/-- With space in the queue a launch is placed there (R303). -/
theorem postLaunch_of_room (hroom : ((m.part m.myPart).dev.filter (fun d => d.ans.isNone)).length < 1024) :
    m.postLaunch rcb patch wit = (m.posted rcb patch wit, .launchAccept m.nextId) := if_neg (Nat.not_le.mpr hroom)

end

/-- A group that waits at a launch for its acceptance; nothing else changes. -/
theorem park_launchAccept (m : Mach) (id : Nat) :
    m.park (.launchAccept id) = m.modMe (fun g => { g with status := .waiting (.launchAccept id) }) := rfl

/-- A launch that asks is in the device launch queue, and its group waits there (R242). -/
theorem asks_of_launchWord (he : exec i s = issueWord i h (launchWord h d a b w) s) (hi : Issues s.m i h) (hp : s.m.performs h = true)
    (hnew : s.m.myLaunch = none) (hw : s.m.me.rdS s.m.tick w.toNat = 0) (hrcb : rcbPtr (s.m.me.rdS s.m.tick a.toNat) = true)
    (hpatch : ∀ y, b.map (fun r => s.m.me.rdS s.m.tick r.toNat) = some y → s.m.patchPtr y = true)
    (hroom : ((s.m.part s.m.myPart).dev.filter (fun d => d.ans.isNone)).length < 1024) :
    ∃ m', exec i s = .next { s with m := m' } ∧ m'.me.status = .waiting (.launchAccept s.m.nextId) ∧ m'.me.pc = s.m.me.pc ∧
      ∃ y ∈ (m'.part s.m.myPart).dev, y.id = s.m.nextId ∧ y.rcb = (s.m.me.rdS s.m.tick a.toNat).toNat ∧
        y.patch = b.map (fun r => s.m.me.rdS s.m.tick r.toNat) := by
  have hpre : (launchWord h d a b w).pre s.m = none := by
    have hnull : s.m.presentTrap s.m.cur.1 s.m.myPart s.m.me.xm (s.m.me.rdS s.m.tick w.toNat) = none := by
      rw [hw, presentTrap_null]
    refine (if_pos hp).trans ((firstTrap_eq_none_iff _).mpr ?_)
    cases b with
    | none => simp [Mach.launchTraps, hnew, hrcb, hnull]
    | some r => simp [Mach.launchTraps, hnew, hrcb, hnull, hpatch _ rfl]
  have hwait : (launchWord h d a b w).wait s.m = some (s.m.postLaunch (s.m.me.rdS s.m.tick a.toNat).toNat
      (b.map (fun r => s.m.me.rdS s.m.tick r.toNat)) 0) :=
    (if_pos hp).trans (by simp only [Mach.launchWait, hnew, hw, presentAway_null])
  have hissue := issue_waits hi hpre hwait
  rw [postLaunch_of_room _ _ _ _ hroom, park_launchAccept] at hissue
  refine ⟨_, by rw [he, issueWord_eq, hissue], ?_, ?_, ?_⟩
  · rw [me_modMe]
  · rw [me_modMe, me_posted]
  · rw [part_modMe, dev_posted]
    exact ⟨_, List.mem_append_right _ (List.mem_singleton_self _), rfl, rfl, rfl⟩

end

/-- Settles O48: rendezvous words are group-wide words under their conditions, a launch asks or returns its answer, and the words
over generations are group-wide words over their effect. -/
theorem teamWords : Obligations.TeamWords := by
  intro s h r n a b d g w x cnt arr ans m t rv back asks
  exact ⟨when_rvinit, fun y hrv hne => when_rvarr_waits hrv hne, fun y hrv heq => when_rvarr_completes hrv heq,
    fun y hy => when_rvwait hy, does_of_answeredLaunch (s := s) (b := none) (by unfold exec; exact rfl),
    does_of_answeredLaunch (s := s) (b := some b) (by unfold exec; exact rfl),
    asks_of_launchWord (s := s) (d := d) (b := none) (by unfold exec; exact rfl),
    asks_of_launchWord (s := s) (d := d) (b := some b) (by unfold exec; exact rfl),
    wide_of_wideWord (by unfold exec; exact rfl) rfl, wide_of_wideWord (by unfold exec; exact rfl) (by rw [hash_tick]),
    wide_of_wideWord (by unfold exec; exact rfl) (by rw [hash_tick]), wide_of_wideWord (by unfold exec; exact rfl) (by rw [hash_tick])⟩

end Sys2Proof.Machine
end

/-! Proofs about the issue of a copy (R219 to R221). Taking a number may carry out a close at the core first (R279), whose write-backs
reach the homes: no group is disturbed by that, but for a watch that a write ends. -/

section
namespace Sys2Proof.Machine
open Sys2Proof.Claims

/-! ### Operations on memory that touch no core (R366, R375, R386) -/

theorem cores_foldl {β : Type} (f : Mach → β → Mach) (hf : ∀ (m : Mach) b, (f m b).cores = m.cores) (l : List β) (m : Mach) :
    (l.foldl f m).cores = m.cores := by
  induction l generalizing m with
  | nil => rfl
  | cons b l ih => rw [List.foldl_cons, ih, hf]

theorem cores_noteLeaves (m : Mach) (as : List Nat) : (m.noteLeaves as).cores = m.cores := by
  unfold Mach.noteLeaves
  split
  · rfl
  · extract_lets roots olds
    split <;> rfl

theorem cores_touchSector (m : Mach) (s : Nat) : (m.touchSector s).cores = m.cores := by
  unfold Mach.touchSector
  dsimp only
  split
  · rfl
  · split
    · rfl
    · split <;> rfl

theorem cores_markWritten (m : Mach) (pg : Nat) : (m.markWritten pg).cores = m.cores := by
  unfold Mach.markWritten
  split
  · rfl
  · dsimp only
    split <;> rfl

theorem cores_preserve {m m' : Mach} {pg : Nat} (hp : m.preserve pg = some m') : m'.cores = m.cores := by
  unfold Mach.preserve at hp
  split at hp
  · cases hp; rfl
  · dsimp only at hp
    split at hp
    · cases hp; rfl
    · split at hp
      · cases hp
      · cases hp
        exact cores_foldl _ (fun (m : Mach) (s : Nat × Nat) => cores_touchSector m s.1) _ (m.flush _)

theorem cores_foldlM_preserve {m m' : Mach} {pgs : List Nat} (hp : pgs.foldlM Mach.preserve m = some m') : m'.cores = m.cores := by
  induction pgs generalizing m with
  | nil => cases hp; rfl
  | cons pg pgs ih =>
    rw [List.foldlM_cons] at hp
    obtain ⟨x, hx, hp⟩ := Option.bind_eq_some_iff.mp hp
    rw [ih hp, cores_preserve hx]

theorem cores_victim (m : Mach) (set : List CTag) (f : CTag → Mach) (hf : ∀ v, (f v).cores = m.cores) :
    (((victim set).map f).getD m).cores = m.cores := by
  cases victim set with
  | none => rfl
  | some v => exact hf v

theorem cores_msFill (m : Mach) (t : CTag) : (m.msFill t).cores = m.cores := by
  unfold Mach.msFill
  dsimp only
  split
  · rfl
  · show (if m.ms.length < 16 then m else _ : Mach).cores = m.cores
    split
    · rfl
    · split
      · rfl
      · exact cores_victim m _ _ (fun _ => rfl)

theorem cores_l2Evict (m : Mach) (v : CTag) : (m.l2Evict v).cores = m.cores := by
  unfold Mach.l2Evict
  dsimp only
  split
  · exact cores_msFill _ _
  · rfl

theorem cores_l2Fill (m : Mach) (t : CTag) : (m.l2Fill t).cores = m.cores := by
  unfold Mach.l2Fill
  show (if m.l2.length < (m.part t.part).ways then m else _ : Mach).cores = m.cores
  split
  · rfl
  · dsimp only
    split
    · rfl
    · exact cores_victim m _ _ (cores_l2Evict m)

theorem cores_readLine (m : Mach) (ln : Nat) (whole : List Nat) : (m.readLine ln whole).cores = m.cores := by
  unfold Mach.readLine
  split
  · rfl
  · refine cores_foldl _ (fun m i => ?_) _ m
    split
    · rfl
    · exact cores_touchSector m _

theorem cores_l2Access (m : Mach) (t : CTag) (pin : Nat) (whole : List Nat) : (m.l2Access t pin whole).cores = m.cores := by
  unfold Mach.l2Access
  split
  · rfl
  · split
    · rfl
    · rw [cores_l2Fill, cores_msFill, cores_readLine]

/-! ### Groups that only lose a watch (R197, R269) -/

/-- A group apart from its `waita`, whose watch a write to the block ends. -/
def Group.unwatched (g : Group) : Group := { g with waita := Option.none }

/-- The issuing group's place is as it was, and so is every group but for its watch. -/
structure Mach.SameGroups (m m' : Mach) : Prop where
  cur : m'.cur = m.cur
  groups : ∀ c k, (m'.group c k).unwatched = (m.group c k).unwatched

theorem sameGroups_refl (m : Mach) : m.SameGroups m := ⟨rfl, fun _ _ => rfl⟩

theorem sameGroups_trans {a b c : Mach} (h : a.SameGroups b) (k : b.SameGroups c) : a.SameGroups c :=
  ⟨k.cur.trans h.cur, fun d j => (k.groups d j).trans (h.groups d j)⟩

theorem sameGroups_foldl {β : Type} (f : Mach → β → Mach) (hf : ∀ (m : Mach) b, m.SameGroups (f m b)) (l : List β) (m : Mach) :
    m.SameGroups (l.foldl f m) := by
  induction l generalizing m with
  | nil => exact sameGroups_refl m
  | cons b l ih => exact sameGroups_trans (hf m b) (ih _)

theorem sameGroups_foldlM {β : Type} (f : Mach → β → Option Mach) (hf : ∀ (m : Mach) b m', f m b = some m' → m.SameGroups m')
    (l : List β) {m m' : Mach} (he : l.foldlM f m = some m') : m.SameGroups m' := by
  induction l generalizing m with
  | nil => cases he; exact sameGroups_refl _
  | cons b l ih =>
    rw [List.foldlM_cons] at he
    obtain ⟨x, hx, he⟩ := Option.bind_eq_some_iff.mp he
    exact sameGroups_trans (hf _ b x hx) (ih he)

theorem sameGroups_of_cores {m m' : Mach} (hcur : m'.cur = m.cur) (hcores : m'.cores = m.cores) : m.SameGroups m' :=
  ⟨hcur, fun c k => by unfold Mach.group Mach.core; rw [hcores]⟩

theorem sameGroups_modPart (m : Mach) (p : Nat) (f : Part → Part) : m.SameGroups (m.modPart p f) := sameGroups_of_cores rfl rfl

theorem sameGroups_fresh (m : Mach) : m.SameGroups m.fresh.1 := sameGroups_of_cores rfl rfl

theorem sameGroups_modCore (m : Mach) (c : Nat) {f : Core → Core} (hf : ∀ x, (f x).groups = x.groups) : m.SameGroups (m.modCore c f) :=
  ⟨rfl, fun d k => by rw [group_modCore hf]⟩

section
variable {m m' : Mach} (h : m.SameGroups m')
include h

theorem Mach.SameGroups.me : m'.me.unwatched = m.me.unwatched := by
  rw [Mach.me, h.cur]
  exact h.groups m.cur.1 m.cur.2

theorem Mach.SameGroups.me_outs : m'.me.outs = m.me.outs :=
  have hg := h.me
  (congrArg Group.outs hg :)

theorem Mach.SameGroups.me_pc : m'.me.pc = m.me.pc :=
  have hg := h.me
  (congrArg Group.pc hg :)

end

@[simp] theorem unwatched_disarm (g : Group) (scratch : Bool) (block : Nat) : (g.disarm scratch block).unwatched = g.unwatched := by
  unfold Group.disarm
  split
  · split <;> rfl
  · rfl

/-- An invalidation reaches the groups of a core through their watches alone. -/
theorem unwatched_invalidate (c : Core) (lines : List Nat) (k : Nat) :
    (tget Group.none (c.invalidate lines).groups k).unwatched = (tget Group.none c.groups k).unwatched := by
  show (tget Group.none (lines.foldl (fun t ln => tmap Group.none (fun _ g => g.disarm false ln) t) c.groups) k).unwatched = _
  generalize c.groups = t
  induction lines generalizing t with
  | nil => rfl
  | cons ln lines ih =>
    rw [List.foldl_cons, ih, tget_tmap_of _ _ _ _ rfl, unwatched_disarm]

theorem invalidate_reset (lines : List Nat) : Core.reset.invalidate lines = Core.reset := by
  have hg : lines.foldl (fun t ln => tmap Group.none (fun _ g => g.disarm false ln) t) ([] : Tab Group) = [] := by
    induction lines with
    | nil => rfl
    | cons ln lines ih => exact ih
  exact congrArg (fun gs => { Core.reset with groups := gs }) hg

/-- A write at the homes reaches the cores by its invalidations alone. -/
theorem sameGroups_pokes (m : Mach) (keep : Option Nat) (whole : List Nat) (ws : List (Nat × Byte)) : m.SameGroups (m.pokes keep whole ws) := by
  refine ⟨(same_pokes m keep whole ws).cur, fun c k => ?_⟩
  have hwritten : ∀ (x : Mach) (pgs : List Nat), (pgs.foldl Mach.markWritten x).group c k = x.group c k := fun x pgs => by
    unfold Mach.group Mach.core
    rw [cores_foldl _ cores_markWritten]
  have hpoked : (ws.foldl (fun m w => m.pokeByte w.1 w.2) (m.noteLeaves (ws.map (·.1)))).core c = m.core c := by
    unfold Mach.core
    rw [cores_foldl (fun (m : Mach) (w : Nat × Byte) => m.pokeByte w.1 w.2) (fun _ _ => rfl), cores_noteLeaves]
  have hreset : (if keep = some c then Core.reset else Core.reset.invalidate (distinct (ws.map (fun w => lineOf w.1)))) = Core.reset := by
    split
    · rfl
    · exact invalidate_reset _
  unfold Mach.pokes
  dsimp only
  rw [hwritten, Mach.group, core_mapCores _ _ _ hreset]
  refine Eq.trans ?_ (congrArg (fun x => (tget Group.none x.groups k).unwatched) hpoked)
  split
  · rfl
  · exact unwatched_invalidate _ _ k

theorem sameGroups_homeWrite {m m' : Mach} {keep : Option Nat} {whole : List Nat} {ws : List (Nat × Byte)}
    (he : m.homeWrite keep whole ws = some m') : m.SameGroups m' := by
  have hcur := (same_homeWrite m m' keep whole ws he).cur
  obtain ⟨x, hx, rfl⟩ := Option.map_eq_some_iff.mp he
  have hp := sameGroups_pokes x keep whole ws
  have hk : m.SameGroups x := sameGroups_of_cores (hp.cur.symm.trans hcur) (cores_foldlM_preserve hx)
  exact sameGroups_trans hk hp

/-- A write that reached its home through no leaf of its own, as a write-back does. -/
theorem sameGroups_sendHome {m m' : Mach} {keep : Option Nat} {p src : Nat} {e : BitVec 24} {waiters : List (Nat × Nat × Nat)}
    {refused : Bool} {whole bad : List Nat} {ws : List (Nat × Byte)} {b : Bool}
    (he : m.sendHome keep p src e waiters refused whole bad none ws = some (m', b)) : m.SameGroups m' := by
  unfold Mach.sendHome at he
  split at he
  · cases he; exact sameGroups_refl m
  · dsimp only at he
    split at he
    · cases he; exact sameGroups_of_cores rfl rfl
    · obtain ⟨x, hx, he⟩ := Option.map_eq_some_iff.mp he
      obtain rfl : x.taint bad = m' := congrArg Prod.fst he
      exact sameGroups_trans (sameGroups_homeWrite hx) (sameGroups_of_cores rfl rfl)

theorem sameGroups_setLine (m : Mach) (c : Nat) (x : L1Line) : m.SameGroups (m.modCore c (fun k => k.setLine x)) :=
  sameGroups_modCore m c (fun _ => rfl)

theorem sameGroups_writeBack {m m' : Mach} {c ln : Nat} (he : m.writeBack c ln = some m') : m.SameGroups m' := by
  unfold Mach.writeBack at he
  split at he
  · cases he; exact sameGroups_refl m
  · dsimp only at he
    split at he
    · cases he; exact sameGroups_setLine m c _
    · obtain ⟨⟨y, b⟩, hy, rfl⟩ := Option.map_eq_some_iff.mp he
      exact sameGroups_trans (sameGroups_of_cores (same_l2Access m _ _ _).cur (cores_l2Access m _ _ _))
        (sameGroups_trans (sameGroups_sendHome hy) (sameGroups_setLine y c _))

theorem sameGroups_closeAtCore {m m' : Mach} {c : Nat} {e : BitVec 24} {snap : Bool} (he : m.closeAtCore c e snap = some m') :
    m.SameGroups m' := by
  unfold Mach.closeAtCore at he
  split at he
  · cases he
  · exact sameGroups_foldlM _ (fun _ _ _ => sameGroups_writeBack) _ he

/-! ### The number of a copy (R185, R279, R280) -/

theorem sameGroups_adoptEpoch {m m' : Mach} {c p : Nat} {e : BitVec 24} (he : m.adoptEpoch c p e = some m') : m.SameGroups m' := by
  have hgo (x : Mach) : x.SameGroups (x.modCore c (fun k => { k with epoch := e, taken := 0, satisfied := [] })) :=
    sameGroups_modCore x c (fun _ => rfl)
  unfold Mach.adoptEpoch at he
  dsimp only at he
  split at he
  · cases he; exact sameGroups_refl m
  · split at he
    · cases he; exact hgo m
    · split at he
      · cases he; exact hgo m
      · obtain ⟨x, hx, rfl⟩ := Option.map_eq_some_iff.mp he
        exact sameGroups_trans (sameGroups_closeAtCore hx) (sameGroups_trans (sameGroups_modPart x p _) (hgo _))

theorem sameGroups_takeSeq (m : Mach) (c p : Nat) : m.SameGroups (m.takeSeq c p) := by
  have hset : m.SameGroups (m.setCore c { m.core c with seq := (m.core c).seq + 1, taken := (m.core c).taken + 1 }) :=
    sameGroups_modCore m c (f := fun k => { k with seq := k.seq + 1, taken := k.taken + 1 }) (fun _ => rfl)
  obtain ⟨-, ht⟩ | ⟨-, -, ht⟩ := takeSeq_cases m c p <;> rw [ht]
  · exact hset
  · exact sameGroups_trans hset (sameGroups_of_cores rfl rfl)

theorem sameGroups_nextSeq {m m' : Mach} {c p : Nat} {q : BitVec 19} {e : BitVec 24} (he : m.nextSeq c p = .ok m' q e) :
    m.SameGroups m' := by
  obtain ⟨x, why, hn⟩ | hn := nextSeq_cases m c p <;> rw [hn] at he <;> cases he
  exact sameGroups_takeSeq m c p

/-- What a copy that waits for nothing adopts: an epoch or none, and then a number or, where it presents the open epoch, none. -/
theorem copySeq_cases {m m1 : Mach} {w : W64} {q : Option (BitVec 19)} {e : BitVec 24} (he : m.copySeq w = .ok m1 q e) :
    ∃ m0, (m0 = m ∨ ∃ e0, m.adoptEpoch m.cur.1 m.myPart e0 = some m0) ∧
      (m1 = m0 ∨ ∃ q0, m0.nextSeq m.cur.1 m0.myPart = .ok m1 q0 e) := by
  have hgo (x : Mach) (hx : (match x.nextSeq m.cur.1 x.myPart with
      | .ok y q e => CopySeq.ok y (some q) e
      | .hold y why => .hold y why) = .ok m1 q e) : ∃ q0, x.nextSeq m.cur.1 x.myPart = .ok m1 q0 e := by
    split at hx
    · next y q0 e0 hn => cases hx; exact ⟨q0, hn⟩
    · cases hx
  unfold Mach.copySeq at he
  dsimp only at he
  split at he
  case h_1 =>
    split at he
    · next m0 ha => cases he; exact ⟨_, .inr ⟨_, ha⟩, .inl rfl⟩
    · cases he
  case h_2 => split at he <;> cases he
  case h_6 => exact ⟨m, .inl rfl, .inr (hgo m he)⟩
  all_goals
    split at he
    · next m0 ha => exact ⟨m0, .inr ⟨_, ha⟩, .inr (hgo m0 he)⟩
    · cases he

/-- What a copy adopts disturbs no group. -/
theorem sameGroups_copySeq {m m1 : Mach} {w : W64} {q : Option (BitVec 19)} {e : BitVec 24} (he : m.copySeq w = .ok m1 q e) :
    m.SameGroups m1 := by
  obtain ⟨m0, hadopt, hnum⟩ := copySeq_cases he
  have h0 : m.SameGroups m0 := by
    obtain rfl | ⟨e0, ha⟩ := hadopt
    · exact sameGroups_refl m0
    · exact sameGroups_adoptEpoch ha
  obtain rfl | ⟨q0, hn⟩ := hnum
  · exact h0
  · exact sameGroups_trans h0 (sameGroups_nextSeq hn)

/-! ### What the hash of a word leaves alone (R137) -/

section
variable (m : Mach) (i : Instr)

@[simp] theorem ringTeam_hash (c : Nat) : (m.hash i).ringTeam c = m.ringTeam c := by
  obtain ⟨gs, hc⟩ := core_hash m i c
  simp only [Mach.ringTeam, Mach.gangTeam, hc, team_hash, myTeam_hash, hash_cur, team_of_hash]

@[simp] theorem copyTargets_hash (k : CopyDst) (t mask : Nat) : (m.hash i).copyTargets k t mask = m.copyTargets k t mask := by
  cases k <;> simp only [Mach.copyTargets, ringTeam_hash, hash_cur, team_of_hash]

end

/-! ### The copy enters the machine (R220) -/

/-- The copy that a word issues, with what it has adopted. -/
def Mach.issuedCopy (m : Mach) (k : CopyDst) (cc : BitVec 2) (b w : S) (t : T) (q : Q) (mask : Nat) (r : List Byte)
    (seq : Option (BitVec 19)) (e : BitVec 24) (id : Nat) : Copy :=
  { core := m.cur.1, slot := m.cur.2, outId := id, part := m.myPart, ctx := m.myCtx, kind := k, lay := layoutOf r,
    x0 := (fld (m.me.rdS m.tick b.toNat) 0 32).toNat, y0 := (fld (m.me.rdS m.tick b.toNat) 32 32).toNat, w := m.me.rdS m.tick w.toNat,
    seq := seq, epoch := e, targets := m.copyTargets k t.toNat mask, q := q.toNat, cc := cc, stage := .queued, engine := none, pos := 0,
    buf := 0, team := m.me.team, code := 0, zero := false, begun := 0, drop := false, ring := false, fence := m.me.ownFence }

/-- The destinations of a copy are claimed: a fill begins, or the tile of a `copy.out` drains. -/
def Mach.claimTargets (m : Mach) (x : Copy) : Mach :=
  x.targets.foldl (fun (m : Mach) y => m.modTarget y (fun z =>
    if x.kind = .out then { z with st := .draining } else z.fill x.lay.total)) m

theorem sameGroups_modTarget (m : Mach) (y : Nat × Nat × Nat) (f : Tile → Tile) : m.SameGroups (m.modTarget y f) := by
  unfold Mach.modTarget
  split
  · exact sameGroups_modCore m y.1 (f := fun k => k.setTile y.2.1 (((m.core y.1).tile y.2.1).map f)) (fun _ => rfl)
  · exact sameGroups_refl m

theorem sameGroups_claimTargets (m : Mach) (x : Copy) : m.SameGroups (m.claimTargets x) :=
  sameGroups_foldl _ (fun m y => sameGroups_modTarget m y _) _ m

section
variable {m : Mach} {k : CopyDst} {cc : BitVec 2} {d a b w : S} {t : T} {q : Q} {mask : Nat}

/-- A copy that waits for nothing has what it adopts. -/
theorem copySeq_of_copyWait (hw : m.copyWait k t mask w = none) : ∃ m1 seq e, m.copySeq (m.me.rdS m.tick w.toNat) = .ok m1 seq e := by
  unfold Mach.copyWait at hw
  dsimp only at hw
  split at hw
  · cases hw
  · split at hw
    · cases hw
    · split at hw
      · cases hw
      · split at hw
        · cases hw
        · next m1 seq e hseq => exact ⟨m1, seq, e, hseq⟩

/-- The machine once a copy stands among the part's copies and its witness among the group's results. -/
def Mach.queueCopy (m : Mach) (d : S) (id : Nat) (x : Copy) : Mach :=
  { m with copies := tset none m.copies id (some x) }.modMe (fun g => g.addOuts id [wS d.toNat 0] false none)

theorem copies_queueCopy (m : Mach) (d : S) (id : Nat) (x : Copy) : tget none (m.queueCopy d id x).copies id = some x := by
  rw [Mach.queueCopy, modMe_copies, tget_tset_self]

theorem outs_queueCopy (m : Mach) (d : S) (id : Nat) (x : Copy) : (m.queueCopy d id x).me.outs =
    m.me.outs ++ [{ id := id, pc := m.me.pc, writes := [wS d.toNat 0], ready := false, stamp := none }] := by
  rw [Mach.queueCopy, me_modMe, addOuts_single]
  rfl

theorem startCopy_eq {r : List Byte} {m1 : Mach} {seq : Option (BitVec 19)} {e : BitVec 24}
    (hr : m.recordAt (m.me.rdS m.tick a.toNat) = some r) (hseq : m.copySeq (m.me.rdS m.tick w.toNat) = .ok m1 seq e) :
    m.startCopy k cc d a b w t q mask =
      (m1.fresh.1.claimTargets (m.issuedCopy k cc b w t q mask r seq e m1.nextId)).queueCopy d m1.nextId
        (m.issuedCopy k cc b w t q mask r seq e m1.nextId) := by
  simp only [Mach.startCopy, hr, hseq]
  rfl

end

section
variable {s : State} {i : Instr} {h : Hdr} {k : CopyDst} {cc : BitVec 2} {d a b w : S} {t : T} {q : Q} {mask : Nat} {r : List Byte}

/-- A copy that raises no cause and waits for nothing is queued, with its witness outstanding. -/
theorem does_of_copyWord (he : exec i s = issueWord i h (copyWord h k cc d a b w t q mask) s) (hi : Issues s.m i h)
    (hp : s.m.performs h = true) (htrap : firstTrap (s.m.copyTraps k t.toNat mask q a b w) = none)
    (hw : s.m.copyWait k t mask w = none) (hw' : (s.m.hash i).copyWait k t mask w = none)
    (hr : s.m.recordAt (s.m.me.rdS s.m.tick a.toNat) = some r) :
    ∃ m' id x, Does s i h m' ∧ tget none m'.copies id = some x ∧ x.kind = k ∧ x.lay = layoutOf r ∧ x.core = s.m.cur.1 ∧
      x.stage = .queued ∧ x.w = s.m.me.rdS s.m.tick w.toNat ∧ x.cc = cc ∧ x.targets = s.m.copyTargets k t.toNat mask ∧
      m'.me.outs = s.m.me.outs ++ [{ id := id, pc := s.m.me.pc, writes := [wS d.toNat 0], ready := false, stamp := none }] := by
  obtain ⟨m1, seq, e, hseq⟩ := copySeq_of_copyWait hw'
  have hrec : (s.m.hash i).recordAt ((s.m.hash i).me.rdS (s.m.hash i).tick a.toNat) = some r := by
    rw [rdS_hash, hash_tick, recordAt_hash, hr]
  have hd := does_of_issueWord he hi ((if_pos hp).trans htrap) ((if_pos hp).trans hw)
  have hrun : (copyWord h k cc d a b w t q mask).run (s.m.hash i) = (s.m.hash i).startCopy k cc d a b w t q mask :=
    if_pos ((performs_hash s.m i h).trans hp)
  rw [hrun, startCopy_eq hrec hseq] at hd
  refine ⟨_, m1.nextId, (s.m.hash i).issuedCopy k cc b w t q mask r seq e m1.nextId, hd, copies_queueCopy _ _ _ _, rfl, rfl,
    congrArg Prod.fst (hash_cur s.m i), rfl, ?_, rfl, copyTargets_hash s.m i k _ _, ?_⟩
  · exact (rdS_hash s.m i _ _).trans (by rw [hash_tick])
  · have hkeep : (s.m.hash i).SameGroups (m1.fresh.1.claimTargets ((s.m.hash i).issuedCopy k cc b w t q mask r seq e m1.nextId)) :=
      sameGroups_trans (sameGroups_copySeq hseq) (sameGroups_trans (sameGroups_fresh m1) (sameGroups_claimTargets _ _))
    obtain ⟨sig, hme⟩ := me_hash s.m i
    rw [outs_queueCopy, hkeep.me_outs, hkeep.me_pc, hme]

end

/-- Settles O45: the four forms are one word over their kind of destination. -/
theorem copyWords : Obligations.CopyWords := by
  intro s h cc d a b w t q mask r m starts
  exact ⟨does_of_copyWord (s := s) (by unfold exec; exact rfl), does_of_copyWord (s := s) (by unfold exec; exact rfl),
    does_of_copyWord (s := s) (by unfold exec; exact rfl), does_of_copyWord (s := s) (by unfold exec; exact rfl)⟩

end Sys2Proof.Machine
end

/-! Proofs about the engines, feeds, ring rotation and the matrix array's steps (R220 to R227, R230, R236). -/

section
namespace Sys2Proof.Machine
open Sys2Proof.Claims

/-! ### Copies (R220, R222, R334) -/

section
variable {s : State} {id : Nat} {x : Copy}

theorem steps_copyEngineStart {eng n : Nat} (hr : s.m.engineReady id eng = true) :
    Steps s (.copyEngineStart id eng n) (s.m.engineWork id eng n) :=
  steps_of_stepIf (by unfold exec; exact rfl) hr rfl

theorem steps_copyComplete (hx : s.m.copyAt id = some x) (hs : x.stage = .moved) : Steps s (.copyComplete id) (s.m.completeCopy id) :=
  steps_of_stepIf (by unfold exec; exact rfl) (by simp [hx, hs]) rfl

theorem steps_copyFault {code : Nat} (hx : s.m.copyAt id = some x) (hc : faultCode x.stage = some code) :
    Steps s (.copyFault id) (s.m.faultCopy id code) :=
  steps_of_stepIf (by unfold exec; exact rfl) (by simp [hx, hc]) (by simp [hx, hc])

/-- A page fault, or a missing permission, is resolved: the copy moves on from the element that failed. -/
theorem steps_engineFaultResolved (hx : s.m.copyAt id = some x) (hs : x.stage = .pageFault ∨ x.stage = .faulted 3) :
    Steps s (.engineFaultResolved id) (s.m.setCopy id (some { x with stage := .moving })) := by
  refine steps_of_stepIf (by unfold exec; exact rfl) ?_ (by simp only [hx])
  obtain hp | hf := hs
  · simp [hx, hp]
  · simp [hx, hf]

end

/-! ### Feeds, the ring and the array (R225, R227, R230, R236) -/

section
variable {s : State} {c : Nat}

theorem steps_feedComplete {q : Nat} {f : Feed} {l : List Feed} (hl : ((s.m.core c).stream q).feeds = f :: l)
    (hgo : f.drop = true ∨ s.m.firstWriter f.team c q f.id = true) : Steps s (.feedComplete c q) (s.m.feedOn c q) := by
  refine steps_of_stepIf (by unfold exec; exact rfl) ?_ rfl
  obtain hd | hw := hgo
  · simp [hl, hd]
  · simp [hl, hw]

theorem steps_rrotRingComplete {gang tile : Nat} {r : List (Nat × Tile × Nat × Nat)} (hr : s.m.ring gang tile = some r) :
    Steps s (.rrotRingComplete gang tile) (s.m.rotate tile r) :=
  steps_of_stepIf (by unfold exec; exact rfl) (by simp [hr]) (by simp only [hr])

theorem steps_matrixStepExecute {t : Nat} {x : MatStep} {l : List (Nat × MatOp)} (hq : (s.m.core c).queue = (t, .step x) :: l) :
    Steps s (.matrixStepExecute c) (s.m.stepOn c) :=
  steps_of_stepIf (by unfold exec; exact rfl) (by simp only [hq]) rfl

theorem steps_accoComplete {t : Nat} {fl : AccoFlags} {f : BitVec 3} {a b d : Nat} {e : BitVec 8} {sat : Bool} {l : List (Nat × MatOp)}
    (hq : (s.m.core c).queue = (t, .acco fl f a b d e sat) :: l) : Steps s (.accoComplete c) (s.m.accoOn c) :=
  steps_of_stepIf (by unfold exec; exact rfl) (by simp only [hq]) rfl

end

/-- Settles O51: each step's own condition holds, so its effect happens. -/
theorem engineSteps : Obligations.EngineSteps := by
  intro s id eng n c q gang tile m
  exact ⟨steps_copyEngineStart, fun x => steps_copyComplete, fun x code => steps_copyFault, fun x => steps_engineFaultResolved,
    fun f l => steps_feedComplete, fun r => steps_rrotRingComplete, fun t x l => steps_matrixStepExecute,
    fun t fl f a b d e sat l => steps_accoComplete⟩

end Sys2Proof.Machine
end

/-! Proofs about the memories (R268, R375): bytes laid at consecutive keys read back, from a scratchpad and from memory outside
the part. -/

section
namespace Sys2Proof.Machine
open Sys2Proof.Claims

/-! ### Bytes laid at consecutive keys -/

section
variable (t : Tab Byte) (key : Nat) (bs : List Byte)

theorem tget_laid_at (k : Nat) :
    tget 0 (laid t key bs) k = if key ≤ k ∧ k < key + bs.length then bs.getD (k - key) 0 else tget 0 t k :=
  tget_laid bs t key 0 k

theorem tget_laid_of_outside {k : Nat} (h : k < key ∨ key + bs.length ≤ k) : tget 0 (laid t key bs) k = tget 0 t k := by
  rw [tget_laid_at, if_neg (by omega)]

theorem read_laid : (List.range bs.length).map (fun i => tget 0 (laid t key bs) (key + i)) = bs := by
  refine List.ext_getElem (by rw [List.length_map, List.length_range]) fun i _ hi => ?_
  rw [List.getElem_map, List.getElem_range, tget_laid_at, if_pos (by omega), Nat.add_sub_cancel_left,
    List.getD_eq_getElem?_getD, List.getElem?_eq_getElem hi, Option.getD_some]

end

/-! ### Memory outside the part -/

section
variable (m : Mach) (home pa : Nat)

theorem farKey_add (i : Nat) : farKey home (pa + i) = farKey home pa + i := (Nat.add_assoc ..).symm

theorem far_farWrite (bs : List Byte) : (m.farWrite home pa bs).far = laid m.far (farKey home pa) bs := by
  simp only [Mach.farWrite, farKey_add, laid]

theorem farBytes_farWrite (bs : List Byte) : (m.farWrite home pa bs).farBytes home pa bs.length = bs := by
  simp only [Mach.farBytes, far_farWrite, farKey_add, read_laid]

end

/-! ### Scratchpads -/

section
variable (m : Mach) (c key : Nat) (bs : List Byte)

theorem sp_spWrite_self : ((m.spWrite c key bs).core c).sp = laid (m.core c).sp key bs := by
  rw [sp_spWrite, if_pos rfl, laid]

theorem sp_spWrite_of_ne {d : Nat} (h : d ≠ c) : ((m.spWrite c key bs).core d).sp = (m.core d).sp := by
  rw [sp_spWrite, if_neg h]

theorem spRead_spWrite : (m.spWrite c key bs).spRead c key bs.length = bs := by
  rw [Mach.spRead, sp_spWrite_self, read_laid]

/-- A read of one byte outside what was written. -/
theorem spRead_spWrite_of_outside {a : Nat} (h : a < key ∨ key + bs.length ≤ a) :
    (m.spWrite c key bs).spRead c a 1 = m.spRead c a 1 := by
  simp only [Mach.spRead, sp_spWrite_self, List.range_one, List.map_singleton, Nat.add_zero, tget_laid_of_outside _ _ _ h]

end

/-- Settles O60: each memory's law of reading after a write, with the canonical form that each operation keeps. -/
theorem memoryReadsBack : Obligations.MemoryReadsBack := by
  intro m pa b f home bs a c key hm hsp
  exact ⟨memOk_pokeByte m pa b hm, homeByte_pokeByte m pa b a, memOk_flush m f hm, homeByte_flush m f a hm,
    memOk_farWrite m home pa bs hm, farBytes_farWrite m home pa bs, spRead_spWrite m c key bs,
    spRead_spWrite_of_outside m c key bs, sp_spWrite_of_ne m c key bs, fun k => wf_spWrite m c key bs k (hsp k)⟩

end Sys2Proof.Machine
end

/-! Proofs about the steps of regions: acceptance (R299 to R303), leaving HELD (R305), placement (R310 to R314), completion (R307),
records (R302) and budgets (R308). -/

section
namespace Sys2Proof.Machine
open Sys2Proof.Claims

/-! ### Launch queues (R299, R301, R303) -/

section
variable {s : State} {p : Nat}

/-- The host writes through its port, which must not be paused (R405). -/
theorem role_host {m : Mach} (hport : m.linkPaused 16 = false) : m.role .host = .host := by
  simp [Mach.role, hport]

theorem steps_lqtailWrite (tail : W32) (hv : (s.m.part p).v = true) (hport : s.m.linkPaused 16 = false) :
    Steps s (.lqtailWrite p ⟨.host, tail⟩) (s.m.modPart p (fun y => { y with lqtail := tail })) :=
  steps_of_stepIf (by unfold exec; exact rfl) (by simp [hv, role_host hport]) rfl

section
variable (hv : (s.m.part p).v = true) (hidle : (s.m.part p).ep.idle = true)
include hv hidle

theorem steps_acceptance_device (hd : (s.m.part p).devHead.isSome = true) : Steps s (.acceptance p true 0) (s.m.acceptDevice p) :=
  steps_of_stepIf (by unfold exec; exact rfl) (by simp [hv, hidle, hd]) rfl

theorem steps_acceptance_host (hh : (s.m.part p).hostReady = true) (hport : s.m.linkPaused 16 = false) :
    Steps s (.acceptance p false (s.m.part p).lqacc.toNat) (s.m.acceptHost p) :=
  steps_of_stepIf (by unfold exec; exact rfl) (by simp [hv, hidle, hh, hport]) rfl

end
end

/-! ### REGION_LEAVE_HELD (R305, R306) -/

theorem steps_regionLeaveHeld {s : State} {i : Nat} (hs : (s.m.inst i).state = .held) (hf : (s.m.inst i).frozen = false)
    (hfirst : s.m.firstOfBlock i = true)
    (hdeps : (s.m.depEnded (s.m.inst i)).isSome = true ∨ (s.m.inst i).deps.all (s.m.depMet (s.m.inst i)) = true) :
    Steps s (.regionLeaveHeld i) (s.m.leaveHeld i) :=
  steps_of_stepIf (by unfold exec; exact rfl)
    (by simpa [hs, hf, hfirst] using hdeps) rfl

/-! ### Placement and balancing (R311 to R314) -/

section
variable {s : State} {p : Nat}

theorem steps_taskPlacement {gang : Nat} (idx : Nat) (hv : (s.m.part p).v = true) (hc : s.m.coreFor (8 * gang) p true = true) :
    Steps s (.taskPlacement p gang idx) (s.m.gangTurn p gang idx) :=
  steps_of_stepIf (by unfold exec; exact rfl) (by simp [hv, hc]) rfl

theorem steps_coreWordRewrite {c : Nat} {w : W32} (hw : s.m.wantedWord c = some w) :
    Steps s (.coreWordRewrite c) (s.m.rewriteWord c w) :=
  steps_of_stepIf (by unfold exec; exact rfl) (by simp [hw]) (by simp only [hw])

/-- A region with reserved cores has the turn, whatever heads the queue (log 90). -/
theorem persNext_of_reserved {m : Mach} {t : Task} (hr : m.persReserved p = some t) : m.persNext p = some t := by
  simp only [Mach.persNext, hr]

/-- With no cores reserved, the head has the turn once it comes first. -/
theorem persNext_of_head {m : Mach} {t : Task} (hr : m.persReserved p = none) (hh : m.persHead p = some t)
    (hfirst : m.persFirst p t = true) : m.persNext p = some t := by
  simp [Mach.persNext, hr, hh, hfirst]

theorem steps_persistentPlacement {t : Task} (hn : s.m.persNext p = some t) : Steps s (.persistentPlacement p) (s.m.persTurn p t) :=
  steps_of_stepIf (by unfold exec; exact rfl) (by simp [hn]) (by simp only [hn])

theorem steps_gangBalance {gang : Nat} (hc : s.m.coreFor (8 * gang) p true = true) (hc' : s.m.coreFor (8 * (gang + 1)) p true = true)
    (hdue : tget 0 (s.m.part p).balancedAt gang + 1024 ≤ s.m.clock) : Steps s (.gangBalance p gang) (s.m.balance p gang) :=
  steps_of_stepIf (by unfold exec; exact rfl) (by simp [hc, hc', hdue]) rfl

end

/-! ### REGION_COMPLETE (R307) -/

/-- All teams of a region that runs, and all its children, are done. -/
theorem regionDone_of {m : Mach} {i : Nat} (hf : (m.inst i).frozen = false)
    (hs : (m.inst i).state = .running ∨ (m.inst i).state = .children) (ht : (m.inst i).teamsDone = (m.inst i).grid)
    (hk : (m.inst i).children = 0) : m.regionDone i = true := by
  simpa [Mach.regionDone, hf, ht, hk] using hs

/-- Nothing keeps the block's line from being written, so the region completes. -/
theorem steps_regionComplete {s : State} {i : Nat} (hd : s.m.regionDone i = true)
    (hidle : (s.m.part (s.m.inst i).part).ep.idle = true)
    (hw : s.m.writeWait (s.m.inst i).part (s.m.inst i).ctx ((s.m.inst i).rcb + 0x38) 24 = none) :
    Steps s (.regionComplete i) (s.m.completeRegion i) :=
  steps_of_stepIf (by unfold exec; exact rfl) (by simp [hd, hidle]) (by simp only [hw])

theorem inst_modInst_self (m : Mach) (i : Nat) (f : Inst → Inst) : (m.modInst i f).inst i = f (m.inst i) := by
  rw [Mach.modInst, inst_setInst, if_pos rfl]

/-- FDCFG.V follows the instances and changes none. -/
theorem inst_sweepDoms (m : Mach) (p j : Nat) : (m.sweepDoms p).inst j = m.inst j := inst_modPart m p _ j

/-- With no parent to tell and no chain to demote, what completion last writes of the instance is its state and OUTW. -/
theorem inst_completeRegion_of_host {m : Mach} {i : Nat} (he : (m.inst i).endch = false) (hp : (m.inst i).parent = none) :
    ∃ y : Inst, (m.completeRegion i).inst i =
      { y with state := .complete, outw := epochW 2 m.partno (m.inst i).part (m.part (m.inst i).part).ep.openEpoch } := by
  simp only [Mach.completeRegion, he, hp, Bool.false_and, Bool.false_eq_true, if_false, inst_sweepDoms, inst_modInst_self]
  exact ⟨_, rfl⟩

/-! ### Records and budgets (R302, R308) -/

theorem steps_completionRecordPublish {s : State} {p j : Nat} (hq : (s.m.part p).lqsize ≠ 0) (hport : s.m.linkPaused 16 = false)
    (hj : s.m.nextRecord p = some j) (hf : (s.m.inst j).state.finished = true) :
    Steps s (.completionRecordPublish p) (s.m.publishNext p j) :=
  steps_of_stepIf (by unfold exec; exact rfl) (by simp [hq, hport, hj, hf]) (by simp only [hj])

theorem steps_budgetExhausted {s : State} {i : Nat} (hx : s.m.exhausted i = true) : Steps s (.budgetExhausted i) (s.m.endBudget i) :=
  steps_of_stepIf (by unfold exec; exact rfl) hx rfl

/-- Settles O52: each step's own condition holds, so its effect happens; completion writes state and OUTW of its instance last. -/
theorem regionSteps : Obligations.RegionSteps := by
  intro s p i gang idx c tail m x
  refine ⟨steps_lqtailWrite tail, fun hv hidle => ⟨steps_acceptance_device hv hidle, steps_acceptance_host hv hidle⟩,
    steps_regionLeaveHeld, steps_taskPlacement idx, fun w => steps_coreWordRewrite,
    ⟨fun t hr => steps_persistentPlacement (persNext_of_reserved hr),
      fun t hr hh hfirst => steps_persistentPlacement (persNext_of_head hr hh hfirst)⟩,
    steps_gangBalance, fun hf hs ht hk => steps_regionComplete (regionDone_of hf hs ht hk),
    fun hq hport j hj hf => ⟨m.publishNext p j, steps_completionRecordPublish hq hport hj hf⟩, steps_budgetExhausted, ?_⟩
  intro he hp
  obtain ⟨y, hy⟩ := inst_completeRegion_of_host he hp
  rw [hy]
  exact ⟨rfl, rfl⟩

end Sys2Proof.Machine
end

/-! Proofs about the steps of contexts (R327, R328, R336 to R338, R342), of lent slices (R346, R347) and of sites (R321 to R325). -/

section
namespace Sys2Proof.Machine
open Sys2Proof.Claims

/-! ### Slices and halts of contexts (R328, R336, R337, R342) -/

section
variable {s : State} {p : Nat}

theorem steps_contextSliceEnd (hv : (s.m.part p).v = true) (hh : (s.m.part p).halting = false) (ho : s.m.sliceOver p = true)
    (hn : (s.m.nextCtx p).isSome = true) : Steps s (.contextSliceEnd p) (s.m.endSlice p) :=
  steps_of_stepIf (by unfold exec; exact rfl) (by simp [hv, hh, ho, hn]) rfl

/-- Every change of BANKS has taken effect, so the halt ends in the switch. -/
theorem haltDone_of_rebanked {m m1 : Mach} (hb : m.rebankAll p = some m1) : m.haltDone p = m1.switchCtx p := by
  simp only [Mach.haltDone, hb]

theorem exec_contextHaltComplete (s : State) (p : Nat) : exec (.contextHaltComplete p) s = execContextHaltComplete p s := rfl

/-- No die of the partition has tripped, so the halt is judged by the machine alone (R408). -/
theorem steps_contextHaltComplete (hw : s.swapWaits p = false) (hh : (s.m.part p).halting = true)
    (hq : ∀ x, (s.m.part p).running = some x → s.m.sitesQuiet p x = true ∧ s.m.sitesGone p x = true) :
    Steps s (.contextHaltComplete p) (s.m.haltDone p) := by
  refine steps_of_stepIf ((exec_contextHaltComplete s p).trans (if_neg (by simp [hw]))) ?_ rfl
  cases hr : (s.m.part p).running with
  | none => simp [hh]
  | some x =>
    obtain ⟨hquiet, hgone⟩ := hq x hr
    simp [hh, hquiet, hgone]

theorem steps_contextRestore {ctx : Nat} {otherPart layoutChanged : Bool} (hv : (s.m.part p).v = true)
    (hc : otherPart = true ∨ layoutChanged = true) :
    Steps s (.contextRestore p ctx otherPart layoutChanged) (s.m.newEpochs p ctx) :=
  steps_of_stepIf (by unfold exec; exact rfl) (by simpa [hv] using hc) rfl

end

/-! ### Rows claimed back, and lent slices (R338, R346, R347, R408) -/

section
variable {s : State}

theorem exec_rowClaim (s : State) (c slot : Nat) : exec (.rowClaim c slot) s = execRowClaim c slot s := rfl

theorem steps_rowClaim {c slot t : Nat} (hw : ((s.m.partOfCore c).map s.swapWaits).getD false = false)
    (ht : s.m.claimAt c slot = some t) : Steps s (.rowClaim c slot) (s.m.claimRows t c slot) :=
  steps_of_stepIf ((exec_rowClaim s c slot).trans (if_neg (by simp [hw]))) (by simp [ht]) (by simp only [ht])

theorem steps_lendTakeEffect {slice : Nat} (hr : s.m.lendReady slice = true) :
    Steps s (.lendTakeEffect slice) (s.m.lendNow slice) :=
  steps_of_stepIf (by unfold exec; exact rfl) hr rfl

theorem steps_sliceReturn {slice : Nat} (he : (s.m.lendOf slice).inEffect = true) (hl : (s.m.lendOf slice).l = false) :
    Steps s (.sliceReturn slice) (s.m.returnSlice slice) :=
  steps_of_stepIf (by unfold exec; exact rfl) (by simp [he, hl]) rfl

end

/-! ### Site updates at their homes (R321, R322) -/

section
variable {s : State} {id : Nat} {x : SiteMsg}

theorem steps_siteUpdateAtHome (hx : s.m.siteMsg id = some x) (ho : x.owed = false) :
    Steps s (.siteUpdateAtHome id) (s.m.siteAtHome id x) :=
  steps_of_stepIf (by unfold exec; exact rfl) (by simp [hx, ho]) (by simp only [hx])

theorem steps_siteResolve (hx : s.m.siteMsg id = some x) (ho : x.owed = true) :
    Steps s (.siteResolve id) (s.m.setSiteMsg id (some x.resolve)) :=
  steps_of_stepIf (by unfold exec; exact rfl) (by simp [hx, ho]) (by simp only [hx, Option.map_some])

end

/-! ### Site caches (R324, R325) -/

section
variable {s : State} {c : Nat}

theorem steps_siteCacheFill {p ctx d n : Nat} (hp : s.m.partOfCore c = some p) (hw : s.m.wantsSite c ctx d n = true)
    (hl : (s.m.core c).siteLine p ctx d n = none) : Steps s (.siteCacheFill c ctx d n) (s.m.fillSite c p ctx d n) :=
  steps_of_stepIf (by unfold exec; exact rfl) (by simp [hp, hw, hl]) (by simp only [hp])

/-- The core's deltas go to their homes, its entries stay, and the cycle is noted. -/
def Mach.flushCounts (m : Mach) (c : Nat) : Mach :=
  (m.flushSites c (fun _ => true) false).modCore c (fun k => { k with countsAt := m.clock })

theorem countsAt_flushCounts (m : Mach) : ((m.flushCounts c).core c).countsAt = m.clock := by
  rw [Mach.flushCounts, core_modCore, if_pos rfl]

theorem steps_siteCountFlush (hdue : (s.m.core c).countsAt + 65536 ≤ s.m.clock) :
    Steps s (.siteCountFlush c) (s.m.flushCounts c) :=
  steps_of_stepIf (by unfold exec; exact rfl) (decide_eq_true hdue) rfl

end

/-- Settles O53: each step's own condition holds, so its effect happens; a halt whose bank masks take effect ends in the switch, and a
count flush writes its cycle last. -/
theorem contextSteps : Obligations.ContextSteps := by
  intro s p c slot slice id ctx d n o l m
  refine ⟨steps_contextSliceEnd, ?_, fun t => steps_rowClaim, steps_lendTakeEffect, steps_sliceReturn,
    fun x hx => ⟨steps_siteUpdateAtHome hx, steps_siteResolve hx⟩, steps_siteCacheFill,
    fun hdue => ⟨m.flushCounts c, steps_siteCountFlush hdue, countsAt_flushCounts m⟩, steps_contextRestore⟩
  intro m1 hw hh hq hb
  rw [← haltDone_of_rebanked hb]
  exact steps_contextHaltComplete hw hh hq

end Sys2Proof.Machine
end

/-! Proofs about the dirty ring and removals (R353, R354), inbound accesses (R357), requests and presentations between parts (R355, R359),
and the ports (R356, R358, R369). -/

section
namespace Sys2Proof.Machine
open Sys2Proof.Claims

/-! ### Writes of DRHEAD and TLBINV (R353, R354) -/

section
variable {s : State} {p : Nat} {who : Writer} (hv : (s.m.part p).v = true) (himg : byImage p (s.m.role who) = true)
include hv himg

theorem steps_drheadWrite (head : W32) :
    Steps s (.drheadWrite p ⟨who, head⟩) ((s.m.modPart p (fun x => { x with drhead := head })).proceedRing p) :=
  steps_of_stepIf (by unfold exec; exact rfl) (by simp [hv, himg]) rfl

theorem steps_tlbinvWrite (val : W64) : Steps s (.tlbinvWrite p ⟨who, val⟩) (s.m.tlbinv p val) :=
  steps_of_stepIf (by unfold exec; exact rfl) (by simp [hv, himg]) rfl

end

/-! ### Inbound accesses and their budgets (R356, R357, R405) -/

section
variable {s : State}

theorem steps_inboundAccess {a : Inbound} (hpass : a.src ≠ 64 ∨ s.m.linkPaused 16 = false) :
    Steps s (.inboundAccess a) (s.m.inbound a) :=
  steps_of_stepIf (by unfold exec; exact rfl) (by simpa using hpass) rfl

/-- The partition at the start of an interval: every window has its whole budget again (R357). -/
def Part.newInterval (x : Part) (clock : Nat) : Part :=
  { x with abudAt := clock, wins := tmap InWin.reset (fun _ w => { w with used := [] }) x.wins }

/-- An unlisted window has used nothing, so clearing the listed ones clears all. -/
theorem newInterval_used (x : Part) (clock k : Nat) : (tget InWin.reset (x.newInterval clock).wins k).used = [] := by
  rw [Part.newInterval, tget_tmap_of _ _ _ _ rfl]

theorem steps_abudInterval {p : Nat} (hv : (s.m.part p).v = true) (hdue : (s.m.part p).abudAt + 1024 ≤ s.m.clock) :
    Steps s (.abudInterval p) ((s.m.setPart p ((s.m.part p).newInterval s.m.clock)).retryAtoms p) :=
  steps_of_stepIf (by unfold exec; exact rfl) (by simp [hv, hdue]) rfl

end

/-! ### Requests and presentations between parts (R355, R359, R393) -/

section
variable {s : State} {id : Nat} {r : Remote}

theorem steps_remoteAccessRefused (hr : s.m.remoteAt id = some r) (hl : s.m.leaves r = true) :
    Steps s (.remoteAccessRefused id) (s.m.remoteRefused id r) :=
  steps_of_stepIf (by unfold exec; exact rfl) (by simpa only [hr] using hl) (by simp only [hr])

theorem steps_remotePresent (s : State) (src id : Nat) (w : W64) : Steps s (.remotePresent src id w) (s.m.remotePresented src w) := by
  unfold Steps exec
  exact partStep_eq _ s

/-- The answer to a presentation whose links are up and not paused is noted at its core. -/
theorem remoteAnswered_of {m : Mach} {w : W64} (hr : m.remoteAt id = some r) (hw : r.w = some w) (hup : m.linkShut r.ports = false)
    (refused : Bool) : m.remoteAnswered id refused = (m.setRemote id none).noteAnswer r.core w refused := by
  simp [Mach.remoteAnswered, hr, hw, hup]

theorem steps_remotePresentAnswer {w : W64} (hr : s.m.remoteAt id = some r) (hw : r.w = some w) (hup : s.m.linkShut r.ports = false)
    (refused : Bool) : Steps s (.remotePresentAnswer id refused) ((s.m.setRemote id none).noteAnswer r.core w refused) := by
  rw [← remoteAnswered_of hr hw hup]
  unfold Steps exec
  exact partStep_eq _ s

end

/-! ### The ports (R356, R358, R359, R369, R405) -/

section
variable {s : State} {port : Nat}

theorem steps_flitReceive (f : Flit) (hp : port < 16) (hup : (s.m.port port).down = false) (hpass : s.m.linkPaused port = false) :
    Steps s (.flitReceive port f) (s.m.receive port f) :=
  steps_of_stepIf (by unfold exec; exact rfl) (by simp [hp, hup, hpass]) rfl

theorem steps_linkDown (hp : port < 16) (hup : (s.m.port port).down = false)
    (hfail : 16 ≤ (s.m.port port).retries ∨ 16 ≤ (s.m.port port).sent) : Steps s (.linkDown port) (s.m.portDown port) :=
  steps_of_stepIf (by unfold exec; exact rfl) (by simpa [hp, hup] using hfail) rfl

theorem steps_hostPortTrain {mode : HostMode} (ht : trains mode = true) : Steps s (.hostPortTrain mode) { s.m with host := mode } :=
  steps_of_stepIf (by unfold exec; exact rfl) ht rfl

/-- The granary port sends flits of 256 bytes, or of 68. -/
def Mach.trainGranary (m : Mach) (port : Nat) (fast : Bool) : Mach := { m with granary := tset 0 m.granary port (if fast then 256 else 68) }

theorem steps_granaryPortTrain (hp : port < 2) (fast : Bool) : Steps s (.granaryPortTrain port fast) (s.m.trainGranary port fast) :=
  steps_of_stepIf (by unfold exec; exact rfl) (decide_eq_true hp) rfl

/-- The part has two granary ports; a training of another changes nothing (log 1). -/
theorem steps_granaryPortTrain_of_le (hp : 2 ≤ port) (fast : Bool) : Steps s (.granaryPortTrain port fast) s.m := by
  unfold Steps exec
  exact stepIf_not (decide_eq_false (Nat.not_lt.mpr hp))

theorem granary_trainGranary (m : Mach) (fast : Bool) : tget 0 (m.trainGranary port fast).granary port = if fast then 256 else 68 :=
  (tget_tset ..).trans (if_pos rfl)

end

/-- Settles O54: each step's own condition holds, so its effect happens; a new interval leaves no window a count, and a granary port has
its mode when it is one of the two. -/
theorem fabricSteps : Obligations.FabricSteps := by
  intro s who p head val a id r src w refused port f mode fast m
  refine ⟨fun hv himg => ⟨⟨_, steps_drheadWrite hv himg head⟩, steps_tlbinvWrite hv himg val⟩, steps_inboundAccess, ?interval,
    steps_remoteAccessRefused, steps_remotePresent s src id w, fun hr hw hup => steps_remotePresentAnswer hr hw hup refused,
    fun hp hup => ⟨steps_flitReceive f hp hup, steps_linkDown hp hup⟩, steps_hostPortTrain, ?granary⟩
  case interval =>
    exact fun hv hdue => ⟨_, (m.part p).newInterval m.clock, steps_abudInterval hv hdue, rfl, rfl, rfl, newInterval_used (m.part p) m.clock⟩
  case granary =>
    by_cases hp : port < 2
    · exact ⟨m.trainGranary port fast, steps_granaryPortTrain hp fast, fun _ => granary_trainGranary m fast⟩
    · exact ⟨m, steps_granaryPortTrain_of_le (Nat.not_lt.mp hp) fast, fun h => absurd h hp⟩

end Sys2Proof.Machine
end

/-! Proofs about boot and the resets (R401, R403), attestation reports (R402) and the creation of a partition (R332, R333, R362). -/

section
namespace Sys2Proof.Machine
open Sys2Proof.Claims

/-! ### No boot step takes a leaf (R401, R402)

Rewritten law by law: to compare two firmware states field by field would have the kernel run the hash of the images. -/

section
variable (f : Firm) (images : List (List Byte)) (ok : List Bool) (tick : Nat)

theorem leaf_setMeas (n : Nat) (x : BitVec 256) : (f.setMeas n x).leaf = f.leaf := rfl
theorem leaf_extend (n : Nat) (image : List Byte) : (f.extend n image).leaf = f.leaf := leaf_setMeas f n _
theorem leaf_passed (step : Nat) : (f.passed step).leaf = f.leaf := rfl
theorem leaf_fail (step : Nat) : (f.fail step tick).leaf = f.leaf := rfl

theorem leaf_step1 : (f.step1 ok tick).leaf = f.leaf := by
  rw [Firm.step1]
  split
  · rw [leaf_passed, leaf_setMeas]
  · rw [leaf_fail, leaf_setMeas]

theorem leaf_step2 : (f.step2 images ok tick).leaf = f.leaf := by
  rw [Firm.step2]
  split
  · rw [leaf_passed, leaf_extend]
  · rw [leaf_fail, leaf_extend]

theorem leaf_step3 : (f.step3 images ok tick).leaf = f.leaf := by
  rw [Firm.step3]
  split
  · rw [leaf_passed, leaf_extend]
  · rw [leaf_fail]

theorem leaf_step4 (p : Nat) (image : List Byte) (b : Bool) : (f.step4 p image b tick).leaf = f.leaf := by
  rw [Firm.step4]
  split
  · rw [leaf_passed, leaf_extend]
  · rw [leaf_fail]

theorem leaf_next {g : Firm → Firm} (hg : ∀ f, (g f).leaf = f.leaf) : (f.next g).leaf = f.leaf := by
  unfold Firm.next
  split
  · rfl
  · exact hg f

theorem leaf_boot : (f.boot images ok tick).leaf = f.leaf := by
  rw [Firm.boot, leaf_next _ (fun f => leaf_step3 f images ok tick), leaf_next _ (fun f => leaf_step2 f images ok tick), leaf_step1]

theorem leaf_foldl {β : Type} {g : Firm → β → Firm} (hg : ∀ f b, (g f b).leaf = f.leaf) (l : List β) : (l.foldl g f).leaf = f.leaf := by
  induction l generalizing f with
  | nil => rfl
  | cons b l ih => rw [List.foldl_cons, ih, hg]

end

/-! ### COLD_RESET and WARM_RESET (R403) -/

section
variable (s : State) (images : List (List Byte)) (ok : List Bool)

theorem exec_coldReset : exec (.coldReset images ok) s = .next (coldNow s images ok) := rfl

theorem exec_warmReset : exec (.warmReset images ok) s = .next (warmNow s images ok) := rfl

/-- The leaf index stands in non-volatile memory. -/
theorem leaf_cleared (f : Firm) : f.cleared.leaf = f.leaf := rfl

theorem leaf_coldNow : (coldNow s images ok).fw.leaf = s.fw.leaf := by
  rw [coldNow, leaf_boot, leaf_cleared]

theorem leaf_warmNow : (warmNow s images ok).fw.leaf = s.fw.leaf := by
  rw [warmNow, leaf_foldl _ (fun f pk => leaf_next f (fun f => leaf_step4 f s.m.tick _ _ _)), leaf_boot, leaf_cleared]

theorem cores_cold (m : Mach) (zeroed : Bool) : (m.cold zeroed).cores = [] := by cases zeroed <;> rfl

theorem parts_cold (m : Mach) (zeroed : Bool) : (m.cold zeroed).parts = [] := by cases zeroed <;> rfl

/-- Boot step 2 was reached and passed, so it has zeroed device memory. -/
theorem coldNow_zeroed (h0 : nthOk ok 0 = true) (h1 : nthOk ok 1 = true) :
    (coldNow s images ok).m.dram = [] ∧ (coldNow s images ok).m.poison = [] := by
  have hm : (coldNow s images ok).m = s.m.cold true := by rw [coldNow, h0, h1, Bool.and_self]
  rw [hm]
  exact ⟨rfl, rfl⟩

/-- A boot that stops reaches no rescan. -/
theorem warmNow_of_stopped (h : (warmNow s images ok).fw.stopped = true) : (warmNow s images ok).m = s.m.warm := if_pos h

end

/-! ### Reports (R402) -/

section
variable {s : State} {p : Nat} (nonce : BitVec 256)

theorem exec_attestationReport (hv : (s.m.part p).v = true) : exec (.attestationReport p nonce) s = .next { s with fw := s.fw.attest p nonce } :=
  congrArg Host.Outcome.next (if_pos hv)

theorem attest_of_le {f : Firm} (h : 2 ^ 20 ≤ f.leaf) : f.attest p nonce = f := if_pos h

theorem attest_of_lt {f : Firm} (h : f.leaf < 2 ^ 20) : f.attest p nonce =
    { f with leaf := f.leaf + 1, report := some (f.leaf, nonce, Config.lmsSign f.leaf (f.signed p nonce)) } := if_neg (Nat.not_le.mpr h)

end

/-! ### PARTITION_CREATE (R332, R333, R362) -/

theorem tget_eq_tfind (t : Tab Byte) (a : Nat) : tget 0 t a = (tfind t a).getD 0 := by
  induction t with
  | nil => rfl
  | cons y t ih =>
    simp only [tget, tfind, ih]
    split <;> rfl

/-- Neither a cache nor DRAM lists a byte of the slices zeroed, and an unlisted byte is zero. -/
theorem homeByte_zero {p size a : Nat} (m : Mach) (ha : inSlices p size a = true) : (m.zero p size).homeByte a = 0 := by
  simp only [homeByte_eq, tget_eq_tfind, Mach.zero, tfind_filter _ (fun b => !inSlices p size b), ha, Bool.not_true, Bool.false_eq_true,
    if_false, Option.getD_none]

section
variable (m : Mach) (p : Nat)

theorem part_endImages (q : Nat) : (m.endImages p).part q = m.part q := rfl

theorem homeByte_endImages (a : Nat) : (m.endImages p).homeByte a = m.homeByte a := rfl

theorem homeByte_setPart (x : Part) (a : Nat) : (m.setPart p x).homeByte a = m.homeByte a := rfl

theorem part_startImage (q : Nat) : (m.startImage p).part q = m.part q := by unfold Mach.startImage; split <;> rfl

theorem homeByte_startImage (a : Nat) : (m.startImage p).homeByte a = m.homeByte a := by unfold Mach.startImage; split <;> rfl

theorem part_makeAnew (val : W64) : (m.makeAnew p val).part p = (m.part p).remade.firstGen.pcfg val := by
  simp only [Mach.makeAnew, part_startImage, part_endImages, part_setPart, if_true]

theorem homeByte_makeAnew {val : W64} {a : Nat} (ha : inSlices p (fld val 12 4).toNat a = true) : (m.makeAnew p val).homeByte a = 0 := by
  simp only [Mach.makeAnew, homeByte_startImage, homeByte_endImages, homeByte_setPart, homeByte_zero _ ha]

end

/-- The reeve's control core 0 writes PCFG for itself (R399, R400). -/
theorem exec_partitionCreate_reeve (s : State) (p : Nat) (val : W64) (image : List Byte) (b : Bool) :
    exec (.partitionCreate p ⟨.control 0, val⟩ image b) s = .next (createNow s p val image b) :=
  congrArg Host.Outcome.next (if_pos rfl)

/-- A write within the limits to a partition that does not exist makes it. -/
theorem createNow_of_invalid {s : State} {p : Nat} {val : W64} (image : List Byte) (b : Bool) (hidle : (s.m.part p).idle = true)
    (hv : (s.m.part p).v = false) (hset : bitAt val 28 = true) (hok : s.m.pcfgOk p val = true) :
    createNow s p val image b = { s with fw := s.fw.step4 p image b s.m.tick, m := s.m.makeAnew p val } := by
  simp only [createNow, hidle, hv, hset, hok, Bool.not_true, Bool.false_and, Bool.false_eq_true, if_false]

/-- Settles O59: no boot step touches the leaf index, a stopped boot ends before the rescan, and a partition made anew lists no byte of
its slices in DRAM or in a cache. -/
theorem resetsAndReports : Obligations.ResetsAndReports := by
  intro s images ok p nonce val image b
  refine ⟨?cold, ?warm, ?signs, ?refuses, ?create⟩
  case cold =>
    exact ⟨coldNow s images ok, exec_coldReset s images ok, leaf_coldNow s images ok, cores_cold .., parts_cold .., coldNow_zeroed s images ok⟩
  case warm =>
    refine ⟨warmNow s images ok, exec_warmReset s images ok, leaf_warmNow s images ok, fun hstop => ?_⟩
    rw [warmNow_of_stopped s images ok hstop]
    exact ⟨rfl, rfl, rfl, rfl⟩
  case signs =>
    intro hv hlt
    refine ⟨s.fw.attest p nonce, exec_attestationReport nonce hv, ?_⟩
    rw [attest_of_lt nonce hlt]
    exact ⟨rfl, rfl⟩
  case refuses =>
    intro hv hle
    rw [exec_attestationReport nonce hv, attest_of_le nonce hle]
  case create =>
    intro hidle hv hset hok
    refine ⟨_, exec_partitionCreate_reeve s p val image b, ?_⟩
    rw [createNow_of_invalid image b hidle hv hset hok, part_makeAnew]
    exact ⟨rfl, rfl, fun a => homeByte_makeAnew s.m p⟩

end Sys2Proof.Machine
end

/-! Proofs about the firmware's state: who changes it (R399, R400), the limits of its registers (R402, R404, R405), and a part that has
stopped (R401, R403). -/

section
namespace Sys2Proof.Machine
open Sys2Proof.Claims

/-! ### Words and steps that rewrite the machine alone (R397 to R400) -/

/-- The answer is a next state that has another machine at most. -/
def OnlyMach (s : State) (o : Host.Outcome State Fault Refusal) : Prop := ∃ m, o = .next { s with m := m }

/-- A step whose condition fails leaves the machine too as it was (log 1). -/
theorem onlyMach_stepIf {s : State} {o : Host.Outcome State Fault Refusal} {ok : Mach → Bool} {f : Mach → Mach} (h : o = stepIf ok f s) :
    OnlyMach s o := by
  subst h
  cases hok : ok s.m
  · exact ⟨s.m, stepIf_not hok⟩
  · exact ⟨f s.m, stepIf_of hok⟩

/-- A tripped die keeps a context swap back; then nothing happens (R408). -/
theorem onlyMach_contextHaltComplete (p : Nat) (s : State) : OnlyMach s (execContextHaltComplete p s) := by
  unfold execContextHaltComplete
  split
  · exact ⟨s.m, rfl⟩
  · exact onlyMach_stepIf rfl

theorem onlyMach_rowClaim (c k : Nat) (s : State) : OnlyMach s (execRowClaim c k s) := by
  unfold execRowClaim
  split
  · exact ⟨s.m, rfl⟩
  · exact onlyMach_stepIf rfl

/-- The firmware's steps apart, every word is `issueWord`'s, and every step of the part rewrites the machine, if its condition holds. -/
theorem exec_onlyMach {i : Instr} (hi : firmStep i = false) (s : State) : OnlyMach s (exec i s) := by
  cases i
  case coldReset | warmReset | partitionCreate | attestationReport | powerArbiterStep | pkgcapWrite | thermalAction => cases hi
  case contextHaltComplete p => exact onlyMach_contextHaltComplete p s
  case rowClaim c k => exact onlyMach_rowClaim c k s
  case fdresGo p dom val => exact onlyMach_stepIf ((exec_fdresGo s p dom val).trans (by rw [execFdresGo]))
  case reconvergenceJoin | groupSlotRelease | longLatencyReturn | groupUnpark | activeSetRotation | sleepExpiry | operandLogReplay |
      tbsetTranslationDone | drain | drainComplete | pinForcedWiden | epochTimerExpiry | closeSpacingExpiry | closeEpoch | closeReceipt |
      closeHoldAtHome | engineCloseReport | epochCloseComplete | doneReceipt | waitaWake | waitaTimeout | copyEngineStart | copyComplete |
      copyFault | engineFaultResolved | feedComplete | rrotRingComplete | matrixStepExecute | accoComplete | lqtailWrite | acceptance |
      regionLeaveHeld | taskPlacement | coreWordRewrite | persistentPlacement | gangBalance | regionComplete | completionRecordPublish |
      budgetExhausted | contextSliceEnd | lendTakeEffect | sliceReturn | siteUpdateAtHome | siteResolve | siteCacheFill | siteCountFlush |
      drheadWrite | tlbinvWrite | inboundAccess | abudInterval | remoteAccessRefused | flitReceive | linkDown | hostPortTrain | copyOnWrite |
      generationDrainPage | generationComplete | rowPathComplete | refreshInterval | refreshPullIn | scrubPage | fdstatRecClear |
      moduleLoad | moduleUnload | granaryPortTrain | contextRestore =>
    exact onlyMach_stepIf (by unfold exec; exact rfl)
  all_goals exact ⟨_, rfl⟩

/-! ### Everything that a word or a step does to the firmware's state (R401 to R405) -/

/-- The firmware's state before and after a word or a step. -/
inductive FirmChange : Firm → Firm → Prop
  | same (f : Firm) : FirmChange f f
  | cold (s : State) (images : List (List Byte)) (ok : List Bool) : FirmChange s.fw (coldNow s images ok).fw
  | warm (s : State) (images : List (List Byte)) (ok : List Bool) : FirmChange s.fw (warmNow s images ok).fw
  | image (f : Firm) (p : Nat) (image : List Byte) (ok : Bool) (tick : Nat) : FirmChange f (f.step4 p image ok tick)
  | report (f : Firm) (p : Nat) (nonce : BitVec 256) : FirmChange f (f.attest p nonce)
  | arbiter (f : Firm) (energy req : List (Unit404 × Nat)) : FirmChange f (f.arbiter energy req)
  | cap (f : Firm) (w : Nat) : FirmChange f { f with pkgcap := clampCap w }
  | heat (f : Firm) (u : Unit404) (t : Nat) : FirmChange f (f.heat u t)

/-- PARTITION_CREATE measures an image where it makes a partition anew, and else leaves the firmware's state; never the agenda. -/
theorem createNow_cases (s : State) (p : Nat) (val : W64) (image : List Byte) (ok : Bool) :
    ((createNow s p val image ok).fw = s.fw ∨ (createNow s p val image ok).fw = s.fw.step4 p image ok s.m.tick) ∧
      (createNow s p val image ok).agenda = s.agenda := by
  unfold createNow
  dsimp only
  split
  · exact ⟨.inl rfl, rfl⟩
  · split
    · exact ⟨.inl rfl, rfl⟩
    · split
      · exact ⟨.inl rfl, rfl⟩
      · split
        · exact ⟨.inl rfl, rfl⟩
        · exact ⟨.inr rfl, rfl⟩

section
variable (s : State)

theorem exec_partitionCreate (p : Nat) (val : Write W64) (image : List Byte) (ok : Bool) : exec (.partitionCreate p val image ok) s =
    .next (if mayCreate s val.by_ p val.val then createNow s p val.val image ok else s) := rfl

theorem exec_attestationReport_ite (p : Nat) (nonce : BitVec 256) : exec (.attestationReport p nonce) s =
    .next (if (s.m.part p).v then { s with fw := s.fw.attest p nonce } else s) := rfl

theorem exec_powerArbiterStep (energy req : List (Unit404 × Nat)) : exec (.powerArbiterStep energy req) s = .next (powerNow s energy req) := rfl

theorem exec_pkgcapWrite (watts : Write (BitVec 12)) : exec (.pkgcapWrite watts) s =
    .next (if viaReeve (s.m.role watts.by_) then { s with fw := { s.fw with pkgcap := clampCap watts.val.toNat } } else s) := rfl

theorem exec_thermalAction (u : Unit404) (t : Nat) : exec (.thermalAction u t) s = .next (heatNow s u t) := rfl

end

theorem agenda_powerNow (s : State) (energy req : List (Unit404 × Nat)) : (powerNow s energy req).agenda = s.agenda := by
  unfold powerNow
  rfl

/-- What the firmware's own steps answer: one of their changes, on the same agenda. -/
theorem exec_firmware {i : Instr} (hi : firmStep i = true) (s : State) :
    ∃ t, exec i s = .next t ∧ FirmChange s.fw t.fw ∧ t.agenda = s.agenda := by
  cases i
  case coldReset images ok => exact ⟨_, exec_coldReset s images ok, .cold s images ok, rfl⟩
  case warmReset images ok => exact ⟨_, exec_warmReset s images ok, .warm s images ok, rfl⟩
  case partitionCreate p val image ok =>
    refine ⟨_, exec_partitionCreate s p val image ok, ?_⟩
    split
    · obtain ⟨hfw, hag⟩ := createNow_cases s p val.val image ok
      refine ⟨?_, hag⟩
      obtain hfw | hfw := hfw
      · exact hfw ▸ .same s.fw
      · exact hfw ▸ .image s.fw p image ok s.m.tick
    · exact ⟨.same s.fw, rfl⟩
  case attestationReport p nonce =>
    refine ⟨_, exec_attestationReport_ite s p nonce, ?_⟩
    split
    · exact ⟨.report s.fw p nonce, rfl⟩
    · exact ⟨.same s.fw, rfl⟩
  case powerArbiterStep energy req => exact ⟨_, exec_powerArbiterStep s energy req, .arbiter s.fw energy req, agenda_powerNow s energy req⟩
  case pkgcapWrite watts =>
    refine ⟨_, exec_pkgcapWrite s watts, ?_⟩
    split
    · exact ⟨.cap s.fw watts.val.toNat, rfl⟩
    · exact ⟨.same s.fw, rfl⟩
  case thermalAction u t => exact ⟨_, exec_thermalAction s u t, .heat s.fw u t, rfl⟩
  all_goals cases hi

theorem exec_firmChange {i : Instr} {s t : State} (h : exec i s = .next t) : FirmChange s.fw t.fw := by
  cases hi : firmStep i
  · obtain ⟨m, hm⟩ := exec_onlyMach hi s
    cases hm.symm.trans h
    exact .same s.fw
  · obtain ⟨u, hu, hc, -⟩ := exec_firmware hi s
    cases hu.symm.trans h
    exact hc

/-- Settles O8: what is no step of the firmware has another machine at most, and the firmware's steps keep the agenda. -/
theorem onlyFirmwareChangesFirm : Obligations.OnlyFirmwareChangesFirm := by
  intro i s t h
  cases hi : firmStep i
  · obtain ⟨m, hm⟩ := exec_onlyMach hi s
    cases hm.symm.trans h
    exact ⟨fun _ => rfl, rfl⟩
  · obtain ⟨u, hu, -, hag⟩ := exec_firmware hi s
    cases hu.symm.trans h
    exact ⟨nofun, hag⟩

/-! ### A step of the part (R70, R250, R401) -/

section
variable {s t : State} {c k : Nat}

/-- The word that a group's turn runs is the one fetched, on a machine that the fetch, or the stores before it, have changed. -/
theorem runNext_firmChange (h : s.runNext c k = .next t) : FirmChange s.fw t.fw := by
  unfold State.runNext at h
  split at h
  case h_1 m i hn =>
    split at h
    · have hc := exec_firmChange h
      exact hc
    · split at h
      · have hc := exec_firmChange h
        exact hc
      · cases h; exact .same s.fw
  case h_2 => exact exec_firmChange h
  all_goals cases h; exact .same s.fw

theorem finish_firmChange (h : s.finish c k = .next t) : FirmChange s.fw t.fw := by
  unfold State.finish at h
  have hc := runNext_firmChange h
  exact hc

theorem issueTurn_firmChange {late : Bool} (h : s.issueTurn c k late = .next t) : FirmChange s.fw t.fw := by
  unfold State.issueTurn at h
  split at h
  · exact finish_firmChange h
  · have hfw := coming_fw s c k
    generalize s.coming c k = r at h hfw
    rw [← hfw]
    dsimp only at h
    split at h
    · split at h
      · next u hu =>
        cases h
        have hc := runNext_firmChange hu
        exact hc
      · next r hr => exact absurd h (hr t)
    · cases h
      exact .same _

/-- A turn other than a group's runs a step, or is an input to the machine. -/
theorem other_firmChange {n : Turn} (h : s.other n = .next t) : FirmChange s.fw t.fw := by
  cases n
  case event i =>
    have hready : (s.ready i).fw = s.fw := by unfold State.ready; split <;> rfl
    unfold State.other at h
    dsimp only at h
    split at h
    · exact hready ▸ exec_firmChange h
    · cases h; exact .same s.fw
  all_goals cases h; exact .same s.fw

theorem take_firmChange {n : Turn} (h : s.take n = .next t) : FirmChange s.fw t.fw := by
  unfold State.take at h
  split at h
  · exact issueTurn_firmChange h
  · exact issueTurn_firmChange h
  · have hc := other_firmChange h
    split at hc <;> exact hc

/-- A step changes the firmware's state as its word or its step of the part does; time leaves it. -/
theorem step_firmChange (h : step s = .next t) : FirmChange s.fw t.fw := by
  obtain ⟨u, hu, rfl⟩ := turn_next h
  have hc := take_firmChange hu
  rwa [nextTurn_fw, ← after_fw u s.nextTurn.1] at hc

end

/-! ### The leaf index (R402) -/

section
variable (f : Firm) (energy req : List (Unit404 × Nat))

theorem leaf_arbiter : (f.arbiter energy req).leaf = f.leaf := by
  unfold Firm.arbiter
  rfl

theorem pkgcap_arbiter : (f.arbiter energy req).pkgcap = f.pkgcap := by
  unfold Firm.arbiter
  rfl

theorem dutyCap_arbiter : (f.arbiter energy req).dutyCap = f.dutyCap := by
  unfold Firm.arbiter
  rfl

end

/-- Boot steps keep the leaf index, a report takes the next leaf, and nothing else concerns it. -/
theorem FirmChange.leaf_le {f g : Firm} (h : FirmChange f g) : f.leaf ≤ g.leaf := by
  cases h
  case same => exact Nat.le_refl _
  case cold s images ok => exact Nat.le_of_eq (leaf_coldNow s images ok).symm
  case warm s images ok => exact Nat.le_of_eq (leaf_warmNow s images ok).symm
  case image p image ok tick => exact Nat.le_of_eq (leaf_step4 f tick p image ok).symm
  case report p nonce =>
    by_cases hle : 2 ^ 20 ≤ f.leaf
    · exact Nat.le_of_eq (congrArg Firm.leaf (attest_of_le nonce hle).symm)
    · rw [attest_of_lt nonce (Nat.lt_of_not_le hle)]
      exact Nat.le_succ _
  case arbiter energy req => exact Nat.le_of_eq (leaf_arbiter f energy req).symm
  case cap => exact Nat.le_refl _
  case heat u t => cases u <;> exact Nat.le_refl _

/-- Settles O9: each change that a step can make to the firmware's state lets the leaf index stand or raises it. -/
theorem leafNeverFalls : Obligations.LeafNeverFalls := by
  intro s t h
  exact (step_firmChange h).leaf_le

/-! ### Limits (R402, R404, R405) -/

/-- The registers that have limits hold what they held. -/
structure Firm.SameLimits (f g : Firm) : Prop where
  pkgcap : g.pkgcap = f.pkgcap
  leaf : g.leaf = f.leaf
  duty : g.duty = f.duty
  dutyCap : g.dutyCap = f.dutyCap

theorem Firm.SameLimits.trans {f g k : Firm} (h : f.SameLimits g) (h' : g.SameLimits k) : f.SameLimits k :=
  ⟨h'.pkgcap.trans h.pkgcap, h'.leaf.trans h.leaf, h'.duty.trans h.duty, h'.dutyCap.trans h.dutyCap⟩

theorem Firm.SameLimits.ok {f g : Firm} (h : f.SameLimits g) (hf : f.Ok) : g.Ok := by
  unfold Firm.Ok
  rw [h.pkgcap, h.leaf, h.duty, h.dutyCap]
  exact hf

section
variable (f : Firm) (images : List (List Byte)) (ok : List Bool) (tick : Nat)

theorem sameLimits_refl : f.SameLimits f := ⟨rfl, rfl, rfl, rfl⟩
theorem sameLimits_setMeas (n : Nat) (x : BitVec 256) : f.SameLimits (f.setMeas n x) := ⟨rfl, rfl, rfl, rfl⟩
theorem sameLimits_extend (n : Nat) (image : List Byte) : f.SameLimits (f.extend n image) := sameLimits_setMeas f n _
theorem sameLimits_passed (step : Nat) : f.SameLimits (f.passed step) := ⟨rfl, rfl, rfl, rfl⟩
theorem sameLimits_fail (step : Nat) : f.SameLimits (f.fail step tick) := ⟨rfl, rfl, rfl, rfl⟩

theorem sameLimits_step1 : f.SameLimits (f.step1 ok tick) := by
  unfold Firm.step1
  refine (sameLimits_setMeas f 0 Config.romHash).trans ?_
  dsimp only
  split
  · exact sameLimits_passed _ 1
  · exact sameLimits_fail _ tick 1

theorem sameLimits_step2 : f.SameLimits (f.step2 images ok tick) := by
  unfold Firm.step2
  refine (sameLimits_extend f 1 (nthImage images 0)).trans ?_
  dsimp only
  split
  · exact sameLimits_passed _ 2
  · exact sameLimits_fail _ tick 2

theorem sameLimits_step3 : f.SameLimits (f.step3 images ok tick) := by
  unfold Firm.step3
  split
  · exact (sameLimits_extend f 2 _).trans (sameLimits_passed _ 3)
  · exact sameLimits_fail f tick 3

theorem sameLimits_step4 (p : Nat) (image : List Byte) (b : Bool) : f.SameLimits (f.step4 p image b tick) := by
  unfold Firm.step4
  split
  · exact (sameLimits_extend f (3 + p) image).trans (sameLimits_passed _ 4)
  · exact sameLimits_fail f tick 4

theorem sameLimits_next {g : Firm → Firm} (hg : ∀ f : Firm, f.SameLimits (g f)) : f.SameLimits (f.next g) := by
  unfold Firm.next
  split
  · exact sameLimits_refl f
  · exact hg f

theorem sameLimits_boot : f.SameLimits (f.boot images ok tick) := by
  unfold Firm.boot
  exact (sameLimits_step1 f ok tick).trans ((sameLimits_next _ fun f => sameLimits_step2 f images ok tick).trans
    (sameLimits_next _ fun f => sameLimits_step3 f images ok tick))

theorem sameLimits_foldl {β : Type} {g : Firm → β → Firm} (hg : ∀ (f : Firm) b, f.SameLimits (g f b)) (l : List β) : f.SameLimits (l.foldl g f) := by
  induction l generalizing f with
  | nil => exact sameLimits_refl f
  | cons b l ih => exact (hg f b).trans (ih (g f b))

end

section
variable {f : Firm}

/-- A reset gives every register its value at reset but for the leaf index. -/
theorem ok_cleared (h : f.leaf ≤ 2 ^ 20) : f.cleared.Ok :=
  have hduty : 2 ≤ 16 ∧ 16 ≤ 16 ∧ 16 ≤ 16 := by decide
  ⟨(by decide : 1200 ≤ 2600), Nat.le_refl 2600, h, fun _ => hduty⟩

theorem ok_coldNow {s : State} (images : List (List Byte)) (ok : List Bool) (h : s.fw.Ok) : (coldNow s images ok).fw.Ok := by
  obtain ⟨-, -, hleaf, -⟩ := h
  exact (sameLimits_boot _ images ok s.m.tick).ok (ok_cleared hleaf)

theorem ok_warmNow {s : State} (images : List (List Byte)) (ok : List Bool) (h : s.fw.Ok) : (warmNow s images ok).fw.Ok := by
  obtain ⟨-, -, hleaf, -⟩ := h
  refine Firm.SameLimits.ok ?_ (ok_cleared hleaf)
  exact (sameLimits_boot _ images ok s.m.tick).trans
    (sameLimits_foldl _ (fun f pk => sameLimits_next f fun f => sameLimits_step4 f s.m.tick _ _ _) _)

theorem ok_attest (p : Nat) (nonce : BitVec 256) (h : f.Ok) : (f.attest p nonce).Ok := by
  by_cases hle : 2 ^ 20 ≤ f.leaf
  · rw [attest_of_le nonce hle]
    exact h
  · rw [attest_of_lt nonce (Nat.lt_of_not_le hle)]
    obtain ⟨hlo, hhi, -, hduty⟩ := h
    exact ⟨hlo, hhi, Nat.lt_of_not_le hle, hduty⟩

/-- A table of the first `n` keys reads as the function there, and as the default elsewhere. -/
theorem tget_table (n d : Nat) (g : Nat → Nat) (k : Nat) : tget d (table n d g) k = if k < n then g k else d := by
  unfold table
  induction n with
  | zero => rfl
  | succ n ih =>
    rw [List.range_succ, List.foldl_append, List.foldl_cons, List.foldl_nil, tget_tset, ih]
    by_cases hk : k = n
    · simp [hk]
    · simp only [hk, if_false, Nat.lt_succ_iff, Nat.lt_iff_le_and_ne, ne_eq, not_false_eq_true, and_true]

theorem duty_arbiter (f : Firm) (energy req : List (Unit404 × Nat)) (d : Nat) : tget 16 (f.arbiter energy req).duty d =
    if d < 6 then dutyStep (tget 16 f.duty d) (tget 0 f.grants d != 0 && decide (tget 0 f.grants d < amount energy d)) else 16 :=
  tget_table ..

theorem dutyStep_bounds {d : Nat} (lo : 2 ≤ d) (hi : d ≤ 16) (passed : Bool) : 2 ≤ dutyStep d passed ∧ dutyStep d passed ≤ 16 := by
  unfold dutyStep
  split <;> omega

theorem ok_arbiter (energy req : List (Unit404 × Nat)) (h : f.Ok) : (f.arbiter energy req).Ok := by
  obtain ⟨hlo, hhi, hleaf, hduty⟩ := h
  rw [Firm.Ok, pkgcap_arbiter, leaf_arbiter, dutyCap_arbiter]
  refine ⟨hlo, hhi, hleaf, fun d => ?_⟩
  obtain ⟨lo, hi, hcap⟩ := hduty d
  have hstep : 2 ≤ tget 16 (f.arbiter energy req).duty d ∧ tget 16 (f.arbiter energy req).duty d ≤ 16 := by
    rw [duty_arbiter]
    split
    · exact dutyStep_bounds lo hi _
    · exact ⟨by decide, by decide⟩
  exact ⟨hstep.1, hstep.2, hcap⟩

theorem clampCap_bounds (w : Nat) : 1200 ≤ clampCap w ∧ clampCap w ≤ 2600 := by
  unfold clampCap
  split
  · decide
  · split <;> omega

theorem capStep_le (cap t : Nat) : capStep cap t ≤ 16 := by
  unfold capStep
  split
  · exact Nat.zero_le 16
  · split
    · decide
    · exact Nat.le_refl 16

theorem ok_heat (u : Unit404) (t : Nat) (h : f.Ok) : (f.heat u t).Ok := by
  cases u
  case die k =>
    obtain ⟨hlo, hhi, hleaf, hduty⟩ := h
    refine ⟨hlo, hhi, hleaf, fun d => ?_⟩
    obtain ⟨lo, hi, hcap⟩ := hduty d
    refine ⟨lo, hi, ?_⟩
    rw [Firm.heat, tget_tset]
    split
    · exact capStep_le _ t
    · exact hcap
  case stack | io => exact h

end

/-- Each change that a word or a step makes keeps the limits. -/
theorem FirmChange.ok {f g : Firm} (h : FirmChange f g) (hf : f.Ok) : g.Ok := by
  cases h
  case same => exact hf
  case cold s images ok => exact ok_coldNow images ok hf
  case warm s images ok => exact ok_warmNow images ok hf
  case image p image ok tick => exact (sameLimits_step4 f tick p image ok).ok hf
  case report p nonce => exact ok_attest p nonce hf
  case arbiter energy req => exact ok_arbiter energy req hf
  case cap w =>
    obtain ⟨-, -, hleaf, hduty⟩ := hf
    exact ⟨(clampCap_bounds w).1, (clampCap_bounds w).2, hleaf, hduty⟩
  case heat u t => exact ok_heat u t hf

/-- Settles O7: whatever a step does to the firmware's state keeps the limits. -/
theorem stepKeepsFirm : Obligations.StepKeepsFirm := by
  intro s t hok h
  exact (step_firmChange h).ok hok

/-- Settles O6: the values at reset are those that a reset gives. -/
theorem resetKeepsLimits : Obligations.ResetKeepsLimits := ok_cleared (f := Firm.reset) (Nat.zero_le _)

/-! ### A part that has stopped (R401, R403) -/

/-- Only the two resets answer `isReset`, and each is a step that always happens. -/
theorem turn_reset {n : Turn} (hn : n.isReset = true) (s : State) : ∃ t, s.turn n = .next t := by
  have htake : ∃ u, s.take n = .next u := by
    cases n
    case event i =>
      cases i
      case coldReset images ok => exact ⟨coldNow _ images ok, rfl⟩
      case warmReset images ok => exact ⟨warmNow _ images ok, rfl⟩
      all_goals cases hn
    all_goals cases hn
  obtain ⟨u, hu⟩ := htake
  exact ⟨u.after n, by simp [State.turn, hn, hu]⟩

/-- Settles O5: a stopped part refuses every turn but the resets, which nothing keeps back. -/
theorem stoppedPart : Obligations.StoppedPart := by
  intro s hs
  refine ⟨fun hn => ?_, fun hn => turn_reset hn s.nextTurn.2⟩
  exact turn_stopped _ _ ((congrArg Firm.stopped (nextTurn_fw s)).trans hs) hn

end Sys2Proof.Machine
end

/-! Proofs about traps that end a gang, or stop a group at a breakpoint (R389, R390, R394). -/

section
namespace Sys2Proof.Machine
open Sys2Proof.Claims

/-! ### Teams of an instance on a gang (R390) -/

theorem tget_mem {α : Type} {d : α} {t : Tab α} {k : Nat} (h : tget d t k ≠ d) : (k, tget d t k) ∈ t := by
  induction t with
  | nil => exact absurd rfl h
  | cons y t ih =>
    obtain ⟨j, x⟩ := y
    rw [tget_cons] at h ⊢
    split
    · next hk => exact hk ▸ List.mem_cons_self
    · next hk =>
      rw [if_neg hk] at h
      exact List.mem_cons_of_mem _ (ih h)

/-- A listed team that lives and is meant is among those named. -/
theorem mem_teamsOf {m : Mach} {f : Team → Bool} {id : Nat} (hid : m.team id ≠ Team.none) (hlive : (m.team id).ended = false)
    (hf : f (m.team id) = true) : id ∈ m.teamsOf f := by
  refine List.mem_map.mpr ⟨(id, m.team id), List.mem_filter.mpr ⟨tget_mem hid, ?_⟩, rfl⟩
  simp only [hlive, hf, Bool.not_false, Bool.and_self]

/-- What follows the kill of a gang's teams, a relaunch or a request for the policy, concerns no team (R390 to R392). -/
theorem teams_killGang (m : Mach) (i gang cause : Nat) :
    (m.killGang i gang cause).teams = ((m.teamsOf (fun t => t.inst == i && gangOf t.core == gang)).foldl Mach.killTeam m).teams := by
  unfold Mach.killGang
  extract_lets x p ids tasks m1 m2 m3 count
  have hm3 : m3.teams = m1.teams := (same_logEvent ..).teams.trans (same_modPart ..).teams
  clear_value m3
  split
  · rw [Mach.modInst, setInst_teams, modPart_teams, hm3]
  · rw [Mach.askPolicy, modPart_teams, hm3]

/-- The kill of a gang leaves no team of the instance on it alive. -/
theorem ended_killGang {m : Mach} {i gang id : Nat} (cause : Nat) (hid : m.team id ≠ Team.none) (hi : (m.team id).inst = i)
    (hg : gangOf (m.team id).core = gang) : ((m.killGang i gang cause).team id).ended = true := by
  rw [Mach.team, teams_killGang, ← Mach.team, team_killTeams]
  cases hlive : (m.team id).ended
  · have hmem : id ∈ m.teamsOf (fun t => t.inst == i && gangOf t.core == gang) :=
      mem_teamsOf hid hlive (by simp only [hi, hg, beq_self_eq_true, Bool.and_self])
    rw [if_pos hmem]
  · split
    · rfl
    · exact hlive

theorem stopsAt_iff {m : Mach} {c k : Nat} {t : Trap} : m.stopsAt c k t = true ↔
    t.cause = 9 ∧ ((m.part (m.team (m.group c k).team).part).fd (m.domOf c k)).dbg = true := by
  simp only [Mach.stopsAt, Bool.and_eq_true, beq_iff_eq]

/-- Settles O35: the trap neither rolls back nor stops, so the gang is killed. -/
theorem trapEndsGang : Obligations.TrapEndsGang := by
  intro m c k pc t id tm hroll hstop hid hinst hgang
  obtain ⟨hb, -⟩ | ⟨-, hs, -⟩ | ⟨-, -, he⟩ := takeTrap_cases m c k pc t
  · exact absurd (hb.symm.trans hroll) (by decide)
  · exact absurd (stopsAt_iff.mp hs) hstop
  · have hteam : (m.noteTrap c k pc t).team id = m.team id := by
      unfold Mach.team
      rw [(same_noteTrap m c k pc t).teams]
    rw [he]
    exact ended_killGang t.cause (by rwa [hteam]) (by rwa [hteam]) (by rwa [hteam])

/-! ### A breakpoint that stops its group (R394) -/

/-- The trap is noted, and its group parked where it stands. -/
def Mach.stopGroup (m : Mach) (c k : Nat) (pc : W64) (t : Trap) : Mach :=
  (m.noteTrap c k pc t).setGroup c k { m.group c k with status := .parked .brkStop }

section
variable {m : Mach} {c k : Nat} {t : Trap} (pc : W64)

/-- In a domain with DBG that does not roll back, a breakpoint parks its group once it is noted. -/
theorem takeTrap_of_stops (hb : m.rollsBack c k = false) (hs : m.stopsAt c k t = true) : takeTrap m c k pc t = m.stopGroup c k pc t := by
  obtain ⟨h, -⟩ | ⟨-, -, he⟩ | ⟨-, h, -⟩ := takeTrap_cases m c k pc t
  · exact absurd (hb.symm.trans h) (by decide)
  · exact he
  · exact absurd (hs.symm.trans h) (by decide)

theorem group_stopGroup : (m.stopGroup c k pc t).group c k = { m.group c k with status := .parked .brkStop } :=
  (group_setGroup ..).trans (if_pos ⟨rfl, rfl⟩)

/-- The trap is noted in the record of its domain. -/
theorem fd_stopGroup (hb : m.rollsBack c k = false) :
    ((m.stopGroup c k pc t).part (m.team (m.group c k).team).part).fd (m.domOf c k) =
      ((m.part (m.team (m.group c k).team).part).fd (m.domOf c k)).record pc (m.group c k).xm t (m.who c k) m.clock := by
  rw [Mach.stopGroup, part_setGroup, Mach.noteTrap, hb]
  exact (congrArg (fun x => Part.fd x _) (part_modPart ..)).trans (by simp only [if_true, Bool.false_eq_true, if_false, fd_setFd])

/-- Only the groups of the core are written. -/
theorem core_stopGroup (d : Nat) : ((m.stopGroup c k pc t).core d).l1 = (m.core d).l1 ∧ ((m.stopGroup c k pc t).core d).sp = (m.core d).sp := by
  rw [Mach.stopGroup, core_setGroup]
  split
  · next hd => subst hd; exact ⟨rfl, rfl⟩
  · exact ⟨rfl, rfl⟩

theorem sameDevice_stopGroup : SameDevice m (m.stopGroup c k pc t) := by
  refine ⟨?_, ?_, ?_, fun d => (core_stopGroup pc d).1⟩
  · simp only [Mach.stopGroup, Mach.noteTrap, Mach.logEvent, setGroup_dram, modPart_dram]
  · simp only [Mach.stopGroup, Mach.noteTrap, Mach.logEvent, setGroup_cached, modPart_cached]
  · simp only [Mach.stopGroup, Mach.noteTrap, Mach.logEvent, setGroup_far, modPart_far]

end

/-- The first trap of a domain is the one recorded. -/
theorem record_of_first {f : FaultDom} (hf : f.hasRec = false) (pc xm : W64) (t : Trap) (who : W32) (now : Nat) :
    (f.record pc xm t who now).rcause = BitVec.ofNat 16 t.cause ∧ (f.record pc xm t who now).rpc = pc ∧
      (f.record pc xm t who now).rdetail = t.detail := by
  have hk : ({ f with traps := satAdd1 f.traps } : FaultDom).keeps who now = false := by simp only [FaultDom.keeps, hf, Bool.false_and]
  simp [FaultDom.record, hk]

/-- The trap of a `brk` (R131). -/
def brkTrap (m : Mach) (imm : W32) : Trap := { cause := 9, lanes := m.me.xm, detail := imm.setWidth 64 }

/-- A performing `brk` that issues takes its trap at its own address. -/
theorem exec_brk_traps {s : State} {h : Hdr} {imm : W32} (hi : Issues s.m (.brk h imm) h) (hp : s.m.performs h = true) :
    exec (.brk h imm) s = .next { s with m := takeTrap s.m s.m.cur.1 s.m.cur.2 s.m.me.pc (brkTrap s.m imm) } := by
  have he : exec (.brk h imm) s = execBrk h imm s := by unfold exec; exact rfl
  rw [he, execBrk, issueWord_eq]
  simp [Mach.issue, Mach.issueTrap, hi.free, hi.static, hp, brkTrap]

/-- Settles O36: the trap is recorded, and then its group alone is parked. -/
theorem breakpointStops : Obligations.BreakpointStops := by
  intro s h imm dom hi hp hdbg hroll
  have hb : s.m.rollsBack s.m.cur.1 s.m.cur.2 = false := hroll
  have hs : s.m.stopsAt s.m.cur.1 s.m.cur.2 (brkTrap s.m imm) = true := stopsAt_iff.mpr ⟨rfl, hdbg⟩
  have hrun := exec_brk_traps hi hp
  rw [takeTrap_of_stops s.m.me.pc hb hs] at hrun
  have hme : (s.m.stopGroup s.m.cur.1 s.m.cur.2 s.m.me.pc (brkTrap s.m imm)).me = { s.m.me with status := .parked .brkStop } :=
    group_stopGroup s.m.me.pc
  have hfd : ((s.m.stopGroup s.m.cur.1 s.m.cur.2 s.m.me.pc (brkTrap s.m imm)).part s.m.myPart).fd dom =
      ((s.m.part s.m.myPart).fd dom).record s.m.me.pc s.m.me.xm (brkTrap s.m imm) (s.m.who s.m.cur.1 s.m.cur.2) s.m.clock :=
    fd_stopGroup s.m.me.pc hb
  refine ⟨_, hrun, ?_⟩
  rw [hme, hfd]
  refine ⟨rfl, rfl, rfl, rfl, rfl, rfl, ?_, ?_, record_hasRec .., sameDevice_stopGroup s.m.me.pc,
    fun c => (core_stopGroup s.m.me.pc c).2, fun hf => record_of_first hf ..⟩
  · exact (setGroup_teams ..).trans (same_noteTrap ..).teams
  · exact (setGroup_insts ..).trans (same_noteTrap ..).insts

end Sys2Proof.Machine
end

/-! Proofs about power and heat: grants within PKGCAP and duties (R404), and the thermal actions (R405). -/

section
namespace Sys2Proof.Machine
open Sys2Proof.Claims

/-! ### Shares of one pool (R404) -/

/-- A sum of sums, by the two parts. -/
theorem sum_map_add_eq (a b : Nat → Nat) (l : List Nat) : (l.map (fun u => a u + b u)).sum = (l.map a).sum + (l.map b).sum := by
  induction l with
  | nil => rfl
  | cons u l ih =>
    simp only [List.map_cons, List.sum_cons, ih]
    omega

/-- Whole shares of `pool`, in proportion to their demands, are together at most the pool. -/
theorem sum_proportional_le (demand : Nat → Nat) (pool : Nat) {total : Nat} (hpos : 0 < total) (l : List Nat)
    (hl : (l.map demand).sum ≤ total) : (l.map (fun u => demand u * pool / total)).sum ≤ pool := by
  have hmul (l : List Nat) : (l.map (fun u => demand u * pool / total)).sum * total ≤ (l.map demand).sum * pool := by
    induction l with
    | nil => simp only [List.map_nil, List.sum_nil, Nat.zero_mul, Nat.le_refl]
    | cons u l ih =>
      simp only [List.map_cons, List.sum_cons, Nat.add_mul]
      exact Nat.add_le_add (Nat.div_mul_le_self _ _) ih
  refine Nat.le_of_mul_le_mul_right ?_ hpos
  calc (l.map (fun u => demand u * pool / total)).sum * total
      _ ≤ (l.map demand).sum * pool := hmul l
      _ ≤ total * pool := Nat.mul_le_mul_right pool hl
      _ = pool * total := Nat.mul_comm total pool

/-- Demands above the floors get no more than the pool. -/
theorem sum_shareOf_le (demand : Nat → Nat) (pool : Nat) : ((List.range 20).map (shareOf demand pool)).sum ≤ pool := by
  unfold shareOf
  dsimp only
  split
  · next h => exact h
  · next h => exact sum_proportional_le demand pool (Nat.zero_lt_of_lt (Nat.lt_of_not_le h)) (List.range 20) (Nat.le_refl _)

/-- No consumer gets more than it demands. -/
theorem shareOf_le (demand : Nat → Nat) (pool u : Nat) : shareOf demand pool u ≤ demand u := by
  unfold shareOf
  dsimp only
  split
  · exact Nat.le_refl _
  · next h =>
    refine Nat.div_le_of_le_mul ?_
    rw [Nat.mul_comm]
    exact Nat.mul_le_mul_right _ (Nat.le_of_not_le h)

/-! ### Grants (R404) -/

theorem grants_arbiter (f : Firm) (energy req : List (Unit404 × Nat)) (u : Nat) : tget 0 (f.arbiter energy req).grants u =
    if u < 20 then grantOf f.pkgcap req u else 0 := by
  unfold Firm.arbiter
  dsimp only
  rw [tget_table]

/-- The floors and what PKGCAP leaves above them are PKGCAP. -/
theorem sum_grantOf_le {cap : Nat} (hcap : floors ≤ 1000 * cap) (req : List (Unit404 × Nat)) :
    ((List.range 20).map (grantOf cap req)).sum ≤ 1000 * cap := by
  unfold grantOf
  have hshare := sum_shareOf_le (demandOf req) (1000 * cap - floors)
  calc ((List.range 20).map (fun u => floorOf u + shareOf (demandOf req) (1000 * cap - floors) u)).sum
      _ = floors + ((List.range 20).map (shareOf (demandOf req) (1000 * cap - floors))).sum := sum_map_add_eq floorOf _ _
      _ ≤ floors + (1000 * cap - floors) := Nat.add_le_add_left hshare floors
      _ = 1000 * cap := Nat.add_sub_cancel' hcap

theorem floors_eq : floors = 1180000 := by decide

/-- Settles O58: the smallest PKGCAP covers the floors, and the demands above them share the rest. -/
theorem grantsWithinCap : Obligations.GrantsWithinCap := by
  intro f energy req hok
  obtain ⟨hlo, -⟩ := hok
  have hmap : (List.range 20).map (fun u => tget 0 (f.arbiter energy req).grants u) = (List.range 20).map (grantOf f.pkgcap req) :=
    List.map_congr_left fun u hu => (grants_arbiter f energy req u).trans (if_pos (List.mem_range.mp hu))
  rw [hmap]
  refine sum_grantOf_le ?_ req
  rw [floors_eq]
  omega

/-- A die's grant lies between its floor and its ceiling. -/
theorem grantOf_die {d : Nat} (hd : d < 6) (cap : Nat) (req : List (Unit404 × Nat)) : 120000 ≤ grantOf cap req d ∧ grantOf cap req d ≤ 340000 := by
  have hfloor : floorOf d = 120000 := if_pos hd
  have hceil : ceilOf d = 340000 := if_pos hd
  have hdemand : demandOf req d ≤ 220000 := by
    rw [demandOf, hfloor, hceil]
    omega
  have hshare := shareOf_le (demandOf req) (1000 * cap - floors) d
  rw [grantOf, hfloor]
  omega

/-! ### Heat (R405) -/

theorem latch_of_le {was : Bool} {t on off : Nat} (h : on ≤ t) : latch was t on off = true := by simp [latch, h]
theorem latch_of_lt {was : Bool} {t on off : Nat} (hon : t < on) (hoff : t < off) : latch was t on off = false := by
  simp [latch, hon, hoff]

/-- An action that is not under way is taken only at its temperature. -/
theorem latch_false_of_lt {t on off : Nat} (h : t < on) : latch false t on off = false := by simp [latch, h]

theorem capStep_of_tripped {t : Nat} (cap : Nat) (h : 105 ≤ t) : capStep cap t = 0 := by
  rw [capStep, latch_of_le h, if_pos rfl]

theorem capStep_of_hot {cap t : Nat} (h : 95 ≤ t) (ht : t < 105) (hcap : cap ≠ 0) : capStep cap t = 8 := by
  rw [capStep, beq_eq_false_iff_ne.mpr hcap, latch_false_of_lt ht, latch_of_le h]
  rfl

theorem capStep_of_cool {t : Nat} (cap : Nat) (h : t < 90) : capStep cap t = 16 := by
  rw [capStep, latch_of_lt (by omega) (by omega), latch_of_lt (by omega) h]
  rfl

/-- What is logged of a power or thermal action. -/
theorem trips_logEvent (m : Mach) (p chan slice unit code dom : Nat) (addr detail : W64) :
    (m.logEvent p chan slice unit code dom addr detail).stackTrip = m.stackTrip ∧
      (m.logEvent p chan slice unit code dom addr detail).ioTrip = m.ioTrip := ⟨rfl, rfl⟩

theorem trips_foldl {β : Type} {f : Mach → β → Mach} (hf : ∀ m b, (f m b).stackTrip = m.stackTrip ∧ (f m b).ioTrip = m.ioTrip) (l : List β)
    (m : Mach) : (l.foldl f m).stackTrip = m.stackTrip ∧ (l.foldl f m).ioTrip = m.ioTrip := by
  induction l generalizing m with
  | nil => exact ⟨rfl, rfl⟩
  | cons b l ih =>
    obtain ⟨hs, hi⟩ := ih (f m b)
    obtain ⟨hs', hi'⟩ := hf m b
    exact ⟨hs.trans hs', hi.trans hi'⟩

theorem trips_logAction (m : Mach) (u : Unit404) :
    (m.logAction u).stackTrip = m.stackTrip ∧ (m.logAction u).ioTrip = m.ioTrip := by
  unfold Mach.logAction Mach.logAll
  exact trips_foldl (fun m (kp : Nat × Part) => trips_logEvent m kp.1 ..) _ m

/-- The log of a thermal action changes no trip. -/
theorem trips_heatNow (s : State) (u : Unit404) (t : Nat) :
    (heatNow s u t).m.stackTrip = (s.m.heat u t).stackTrip ∧ (heatNow s u t).m.ioTrip = (s.m.heat u t).ioTrip :=
  trips_foldl (fun m _ => trips_logAction m u) _ (s.m.heat u t)

theorem fw_heatNow (s : State) (u : Unit404) (t : Nat) : (heatNow s u t).fw = s.fw.heat u t := rfl

section
variable (s : State) (t : Nat)

theorem dutyCap_heatNow_die (d e : Nat) : tget 16 (heatNow s (.die d) t).fw.dutyCap e =
    if e = d then capStep (tget 16 s.fw.dutyCap d) t else tget 16 s.fw.dutyCap e := by
  rw [fw_heatNow, Firm.heat, tget_tset]

theorem hot_heatNow_stack (k : Nat) : tget false (heatNow s (.stack k) t).fw.hot k = decide (85 ≤ t) := by
  rw [fw_heatNow, Firm.heat, tget_tset_self]
  by_cases h : 85 ≤ t
  · rw [latch_of_le h, decide_eq_true h]
  · rw [latch_of_lt (Nat.lt_of_not_le h) (Nat.lt_of_not_le h), decide_eq_false h]

theorem stackTrip_heatNow (k : Nat) : tget false (heatNow s (.stack k) t).m.stackTrip k = latch (tget false s.m.stackTrip k) t 105 95 := by
  rw [(trips_heatNow s (.stack k) t).1, Mach.heat, tget_tset_self]

theorem ioTrip_heatNow (k : Nat) : tget false (heatNow s (.io k) t).m.ioTrip k = latch (tget false s.m.ioTrip k) t 105 95 := by
  rw [(trips_heatNow s (.io k) t).2, Mach.heat, tget_tset_self]

end

/-- Settles O57: PKGCAP as written is clamped, a die's duty and grant are those of the arbiter's tables, and each trip and cap is a latch
between two temperatures. -/
theorem powerAndHeat : Obligations.PowerAndHeat := by
  intro s by_ w energy req d t
  refine ⟨exec_pkgcapWrite s ⟨by_, w⟩, fun hd => ?arbiter, fun _ => ?die, fun k => ?stack, fun k => ?io⟩
  case arbiter =>
    refine ⟨_, exec_powerArbiterStep s energy req, ?_⟩
    have hg : tget 0 (s.fw.arbiter energy req).grants d = grantOf s.fw.pkgcap req d :=
      (grants_arbiter ..).trans (if_pos (Nat.lt_trans hd (by decide)))
    have hduty := (duty_arbiter s.fw energy req d).trans (if_pos hd)
    refine ⟨hduty.trans ?_, hg ▸ grantOf_die hd s.fw.pkgcap req⟩
    simp only [dutyStep, Bool.and_eq_true, bne_iff_ne, decide_eq_true_eq]
  case die =>
    refine ⟨_, exec_thermalAction s (.die d) t, ?_⟩
    have hself := (dutyCap_heatNow_die s t d d).trans (if_pos rfl)
    exact ⟨fun h => hself.trans (capStep_of_tripped _ h), fun h ht hcap => hself.trans (capStep_of_hot h ht hcap),
      fun h => hself.trans (capStep_of_cool _ h), fun e he => (dutyCap_heatNow_die s t d e).trans (if_neg he)⟩
  case stack =>
    refine ⟨_, exec_thermalAction s (.stack k) t, hot_heatNow_stack s t k, rfl, ?_⟩
    rw [stackTrip_heatNow]
    exact ⟨latch_of_le, fun h => latch_of_lt (by omega) h⟩
  case io =>
    refine ⟨_, exec_thermalAction s (.io k) t, rfl, ?_⟩
    rw [ioTrip_heatNow]
    exact ⟨latch_of_le, fun h => latch_of_lt (by omega) h⟩

end Sys2Proof.Machine
end

/-! Proofs about the steps of the memory side: copy-on-write and the drain (R366, R368), row paths (R381), refresh, scrub and double errors
(R377, R378, R387). -/

section
namespace Sys2Proof.Machine
open Sys2Proof.Claims

/-! ### Copy-on-write and the drain (R366, R368) -/

section
variable {s : State} {p : Nat}

/-- A first write waits on an owed page, and the reserve has room for its copies. -/
theorem steps_copyOnWrite {pg : Nat} {m1 : Mach} (howed : s.m.owed pg = true) (hw : s.m.writeAwaits pg = true)
    (hroom : s.m.preserve pg = some m1) (hp : s.m.partOf (stackOfPage pg) = some p) :
    Steps s (.copyOnWrite pg) (m1.modPart p (fun x => { x with copied := pg :: x.copied })) :=
  steps_of_stepIf (by unfold exec; exact rfl) (by simp only [howed, hw, Bool.and_self]) (by simp only [Mach.copyOnWrite, hroom, hp])

variable {g : Gen} (hd : (s.m.part p).draining = some g) (hset : (s.m.part p).settled g = true)
include hd hset

theorem steps_generationDrainPage (hn : g.nextPage.isSome = true) : Steps s (.generationDrainPage p) (s.m.drainPage p) :=
  steps_of_stepIf (by unfold exec; exact rfl) (by simp only [hd, hset, hn, Bool.and_self]) rfl

theorem steps_generationComplete (hn : g.nextPage = none) :
    Steps s (.generationComplete p) (s.m.modPart p (fun x => x.setGen { g with st := 2 })) :=
  steps_of_stepIf (by unfold exec; exact rfl) (by simp only [hd, hset, hn, Option.isNone_none, Bool.and_self]) (by simp only [hd])

end

/-! ### Row paths (R381) -/

theorem steps_rowPathComplete {s : State} {id : Nat} (ht : s.m.rowTurn id = true) : Steps s (.rowPathComplete id) (s.m.rowDone id) :=
  steps_of_stepIf (by unfold exec; exact rfl) ht rfl

/-! ### Refresh, scrub and double errors (R377, R378, R387) -/

section
variable {s : State} {stk pc : Nat} (hstk : stk < 12)
include hstk

theorem steps_scrubPage (hb : (tget Scrub.reset s.m.scrub stk).base ≠ 0) : Steps s (.scrubPage stk) (s.m.scrubPage stk) :=
  steps_of_stepIf (by unfold exec; exact rfl) (by simpa [hstk] using hb) rfl

variable (hpc : pc < 64)
include hpc

theorem steps_refreshInterval (demand : Bool) :
    Steps s (.refreshInterval stk pc demand) (s.m.setRefresh stk pc ((s.m.refreshAt stk pc).interval demand)) :=
  steps_of_stepIf (by unfold exec; exact rfl) (by simp only [hstk, hpc, decide_true, Bool.and_self]) rfl

theorem steps_refreshPullIn (hdebt : -8 < (s.m.refreshAt stk pc).debt) :
    Steps s (.refreshPullIn stk pc) (s.m.setRefresh stk pc (s.m.refreshAt stk pc).pullIn) :=
  steps_of_stepIf (by unfold exec; exact rfl) (by simp only [hstk, hpc, hdebt, decide_true, Bool.and_self]) rfl

end

/-- At DEBT 8 the refresh is forced. -/
theorem interval_of_le {x : Refresh} (demand : Bool) (h : 8 ≤ x.debt) :
    x.interval demand = { x.raise x.debt with forced := satAdd1 x.forced } := if_pos h

/-- Below it, with demand waiting, it is postponed. -/
theorem interval_of_lt {x : Refresh} (h : x.debt < 8) : x.interval true = x.raise (x.debt + 1) := if_neg (by omega)

theorem steps_sramDoubleError (s : State) (at_ : SramSite) : Steps s (.sramDoubleError at_) (s.m.doubleError at_) := by
  unfold Steps exec
  exact partStep_eq _ s

/-- Settles O55: each step's own condition holds, so its effect happens; the two cases of a refresh are DEBT's. -/
theorem memorySteps : Obligations.MemorySteps := by
  intro s p pg id stk pc demand at_ g m1 m x high
  refine ⟨steps_copyOnWrite, fun hd hset => ⟨steps_generationDrainPage hd hset, steps_generationComplete hd hset⟩, steps_rowPathComplete,
    fun hstk hpc => ⟨fun hdebt => ?forced, fun hdebt hdem => ?postponed, steps_refreshPullIn hstk hpc⟩, steps_scrubPage,
    steps_sramDoubleError s at_⟩
  case forced =>
    have h := steps_refreshInterval (s := s) hstk hpc demand
    rwa [interval_of_le demand hdebt] at h
  case postponed =>
    subst hdem
    have h := steps_refreshInterval (s := s) hstk hpc true
    rwa [interval_of_lt hdebt] at h

end Sys2Proof.Machine
end

/-! Proofs about the encoding: the fields of a packed word and the operands that a decoder reads back. -/

section
namespace Sys2Proof
open Sys2Proof.Claims

/-! ### The fields of a packed word (R60) -/

theorem fld_all {n : Nat} (x : BitVec n) : fld x 0 n = x := BitVec.extractLsb'_eq_self

theorem fld_append_low {a b : Nat} (x : BitVec a) (y : BitVec b) : fld (x ++ y) 0 b = y :=
  (BitVec.extractLsb'_append_eq_of_add_le (by omega)).trans (fld_all y)

theorem fld_append_high {a b lo n : Nat} (x : BitVec a) (y : BitVec b) (h : b ≤ lo) : fld (x ++ y) lo n = fld x (lo - b) n := 
  BitVec.extractLsb'_append_eq_of_le h

theorem Raw.pack_eq (r : Raw) : r.pack = (show BitVec (4 + 28 + 32 + 1 + 7 + 3 + 1 + 1 + 3 + 4 + 8 + 8 + 8 + 8 + 3 + 1 + 8) from
    r.bp ++ r.tgt ++ r.imm ++ r.j ++ r.attr ++ r.md ++ r.sw ++ r.uni ++ r.nas ++ r.gp ++ r.sc ++ r.sb ++ r.sa ++ r.dst
    ++ r.sub ++ r.g ++ r.op) := rfl

theorem Raw.unpack_pack (r : Raw) : Raw.unpack r.pack = r := by
  rw [Raw.pack_eq, Raw.unpack]
  simp (disch := decide) only [fld_append_low, fld_append_high, fld_all, Nat.reduceSub]

theorem Raw.pack_unpack (w : BitVec 128) : (Raw.unpack w).pack = w := by
  rw [Raw.pack_eq]
  simp only [Raw.unpack, fld]
  iterate 16 rw [BitVec.extractLsb'_append_extractLsb'_eq_extractLsb' (by rfl)]
  simp


/-! ### Fields that a decoder reads back (R60 to R62) -/

theorem fld_setWidth {w n : Nat} (x : BitVec w) (h : w ≤ n) : fld (x.setWidth n) 0 w = x := by
  rw [fld, ← BitVec.setWidth_eq_extractLsb' h, BitVec.setWidth_setWidth_of_le _ h, BitVec.setWidth_eq]

section
variable (b : Bool)

@[simp] theorem one_b1 : Dec.one (Enc.b1 b) = b := by cases b <;> rfl
@[simp] theorem getLsbD_b1 : (Enc.b1 b).getLsbD 0 = b := by cases b <;> rfl
@[simp] theorem getLsbD_m3 : (Enc.m3 b).getLsbD 0 = b := by cases b <;> rfl
@[simp] theorem getLsbD_b1_wide : ((Enc.b1 b).setWidth 32).getLsbD 0 = b := by cases b <;> rfl
@[simp] theorem getLsbD_flags_w (u : Bool) : (Enc.b1 false ++ Enc.b1 u ++ Enc.b1 b).getLsbD 0 = b := by cases b <;> cases u <;> rfl
@[simp] theorem getLsbD_flags_un (w : Bool) : (Enc.b1 false ++ Enc.b1 b ++ Enc.b1 w).getLsbD 1 = b := by cases b <;> cases w <;> rfl
@[simp] theorem prefetch_level : ((if b then 2#3 else 1#3) == 2#3) = b := by cases b <;> rfl

end

@[simp] theorem guard_guard (g : Guard) : Dec.guard (Enc.guard g) = g := by
  obtain ⟨n, p⟩ := g
  revert n p
  decide

@[simp] theorem s6_s8 (r : S) : Dec.s6 (Enc.s8 r) = r := fld_setWidth r (by decide)
@[simp] theorem p3_p8 (r : P) : Dec.p3 (Enc.p8 r) = r := fld_setWidth r (by decide)
@[simp] theorem q2_q8 (r : Q) : Dec.q2 (Enc.q8 r) = r := fld_setWidth r (by decide)
@[simp] theorem fld_rv8 (r : RvN) : fld (Enc.rv8 r) 0 5 = r := fld_setWidth r (by decide)

/-- MOD of an integer word (R103). -/
@[simp] theorem imod_bits (m : IntMod) :
    (⟨(Enc.imod m).getLsbD 2, (Enc.imod m).getLsbD 1, (Enc.imod m).getLsbD 0⟩ : IntMod) = m := by
  obtain ⟨s, u, w⟩ := m
  cases s <;> cases u <;> cases w <;> rfl

/-! ### Codes that a decoder reads back -/

@[simp] theorem cond_cond (c : Cond) : Dec.cond (Enc.cond c) = c := by cases c <;> rfl
@[simp] theorem fcond_fcond (c : FCond) : Dec.fcond (Enc.fcond c) = c := by cases c <;> rfl
@[simp] theorem comb_comb (c : Comb) : Dec.comb (Enc.comb c) = c := by cases c <;> rfl
@[simp] theorem vf_vf (c : VF) : Dec.vf (Enc.vf c) = c := by cases c <;> rfl
@[simp] theorem rnd_rnd (c : Rnd) : Dec.rnd (Enc.rnd c) = c := by cases c <;> rfl
@[simp] theorem plog_plog (c : PlogOp) : Dec.plog (Enc.plog c) = c := by cases c <;> rfl
@[simp] theorem ptest_ptest (c : PtestOp) : Dec.ptest (Enc.ptest c) = c := by cases c <;> rfl
@[simp] theorem tbw_tbw (c : TbWord) : Dec.tbw (Enc.tbw c) = c := by cases c <;> rfl
@[simp] theorem sgn_sgn (c : SgnOp) : Dec.sgn (Enc.sgn c) = c := by cases c <;> rfl
@[simp] theorem rndInt_rndInt (c : RndInt) : Dec.rndInt (Enc.rndInt c) = c := by cases c <;> rfl
@[simp] theorem fmtSel_fmtSel (c : FmtSel) : Dec.fmtSel (Enc.fmtSel c) = c := by cases c <;> rfl
@[simp] theorem dot_dot (c : DotFmt) : Dec.dot (Enc.dot c) = c := by cases c <;> rfl
@[simp] theorem qf_qf (c : QFmt) : Dec.qf (Enc.qf c) = c := by cases c <;> rfl
@[simp] theorem seg_seg (c : Seg) : Dec.seg (Enc.seg c) = c := by cases c <;> rfl
@[simp] theorem scan_scan (c : ScanOp) : Dec.scan (Enc.scan c) = c := by cases c <;> rfl
@[simp] theorem sz_sz (c : Sz) : Dec.sz (Enc.sz c) = c := by cases c <;> rfl
@[simp] theorem atomOp_atomOp (c : AtomOp) : Dec.atomOp (Enc.atomOp c) = c := by cases c <;> rfl
@[simp] theorem fatomOp_fatomOp (c : FatomOp) : Dec.fatomOp (Enc.fatomOp c) = c := by cases c <;> rfl
@[simp] theorem pfLvl_pfLvl (c : PfLvl) : Dec.pfLvl (Enc.pfLvl c) = c := by cases c <;> rfl
@[simp] theorem tsw_tsw (c : TsWord) : Dec.tsw (Enc.tsw c) = c := by cases c <;> rfl

/-! ### The header (R60, R66, R71) -/

section
variable (h : Hdr) (op : BitVec 8) (sub md : BitVec 3)

/-- A word's header is read from what `base` put in. -/
@[simp] theorem hdr_base : Dec.hdr (Enc.base op h sub md) = h := by
  obtain ⟨j, sw, gp, n⟩ := h
  cases n <;> simp [Dec.hdr, Dec.nas, Enc.base, Enc.nas, fld_setWidth]

@[simp] theorem sub_base : (Enc.base op h sub md).sub = sub := rfl
@[simp] theorem md_base : (Enc.base op h sub md).md = md := rfl
@[simp] theorem op_base : (Enc.base op h sub md).op = op := rfl
@[simp] theorem w_base (w : Bool) : Dec.w (Enc.base op h sub (Enc.m3 w)) = w := getLsbD_m3 w
@[simp] theorem w_base_flags (u w : Bool) : Dec.w (Enc.base op h sub (Enc.b1 false ++ Enc.b1 u ++ Enc.b1 w)) = w := getLsbD_flags_w w u
@[simp] theorem x_base (x : Bool) : Dec.x (Enc.base op h (Enc.m3 x) md) = x := getLsbD_m3 x

@[simp] theorem x_base_zero : Dec.x (Enc.base op h 0#3 md) = false := by
  show (0 : BitVec 3).getLsbD 0 = false
  decide
@[simp] theorem x_base_one : Dec.x (Enc.base op h 1#3 md) = true := by
  show (1 : BitVec 3).getLsbD 0 = true
  decide

@[simp] theorem imod_base (m : IntMod) : Dec.imod (Enc.base op h sub (Enc.imod m)) = m := imod_bits m

end

/-! ### Plain operands -/

section
variable (r : Raw) (dst sa sb sc : BitVec 8) (imm : W32)

@[simp] theorem hdr_ops : Dec.hdr (Enc.ops r dst sa sb sc imm) = Dec.hdr r := rfl
@[simp] theorem imod_ops : Dec.imod (Enc.ops r dst sa sb sc imm) = Dec.imod r := rfl
@[simp] theorem op_ops : (Enc.ops r dst sa sb sc imm).op = r.op := rfl
@[simp] theorem w_ops : Dec.w (Enc.ops r dst sa sb sc imm) = Dec.w r := rfl
@[simp] theorem x_ops : Dec.x (Enc.ops r dst sa sb sc imm) = Dec.x r := rfl
@[simp] theorem sub_ops : (Enc.ops r dst sa sb sc imm).sub = r.sub := rfl
@[simp] theorem md_ops : (Enc.ops r dst sa sb sc imm).md = r.md := rfl
@[simp] theorem dst_ops : (Enc.ops r dst sa sb sc imm).dst = dst := rfl
@[simp] theorem sa_ops : (Enc.ops r dst sa sb sc imm).sa = sa := rfl
@[simp] theorem sb_ops : (Enc.ops r dst sa sb sc imm).sb = sb := rfl
@[simp] theorem sc_ops : (Enc.ops r dst sa sb sc imm).sc = sc := rfl
@[simp] theorem imm_ops : (Enc.ops r dst sa sb sc imm).imm = imm := rfl

end

/-! ### Generic words (R71) -/

section
variable (r : Raw) (n : BitVec 16)

/-- A generic word's site stands in TGT, which SEQ and END do not read. -/
theorem hdr_site (hg : Wf.gen (Dec.hdr r) = true) : Dec.hdr (Enc.site r n) = Dec.hdr r := by
  have hn : Dec.nas (Enc.site r n) = Dec.nas r := by
    simp only [Wf.gen, Dec.hdr, Dec.nas, Bool.or_eq_true, beq_iff_eq] at hg
    simp only [Dec.nas, Enc.site]
    split at hg <;> simp_all
  exact congrArg (Hdr.mk _ _ _) hn

@[simp] theorem site_site : Dec.site (Enc.site r n) = n := fld_setWidth n (by decide)
@[simp] theorem srcA_site : Dec.srcA (Enc.site r n) = Dec.srcA r := rfl
@[simp] theorem srcB_site : Dec.srcB (Enc.site r n) = Dec.srcB r := rfl
@[simp] theorem srcC_site : Dec.srcC (Enc.site r n) = Dec.srcC r := rfl
@[simp] theorem dst_site' : Dec.dst (Enc.site r n) = Dec.dst r := rfl
@[simp] theorem xa_site : Dec.xa (Enc.site r n) = Dec.xa r := rfl
@[simp] theorem addr_site : Dec.addr (Enc.site r n) = Dec.addr r := rfl
@[simp] theorem mattr_site : Dec.mattr (Enc.site r n) = Dec.mattr r := rfl
@[simp] theorem op_site : (Enc.site r n).op = r.op := rfl
@[simp] theorem wo_site : Dec.wo (Enc.site r n) = Dec.wo r := rfl
@[simp] theorem wi_site : Dec.wi (Enc.site r n) = Dec.wi r := rfl
@[simp] theorem w_site : Dec.w (Enc.site r n) = Dec.w r := rfl
@[simp] theorem x_site : Dec.x (Enc.site r n) = Dec.x r := rfl
@[simp] theorem sub_site : (Enc.site r n).sub = r.sub := rfl
@[simp] theorem md_site : (Enc.site r n).md = r.md := rfl
@[simp] theorem dst_site : (Enc.site r n).dst = r.dst := rfl
@[simp] theorem sa_site : (Enc.site r n).sa = r.sa := rfl
@[simp] theorem sb_site : (Enc.site r n).sb = r.sb := rfl
@[simp] theorem sc_site : (Enc.site r n).sc = r.sc := rfl
@[simp] theorem imm_site : (Enc.site r n).imm = r.imm := rfl

end

/-! ### Operands of the computation classes (R62) -/

section
variable (xa : BitVec 2) (sp : Bool) (ib ssc ssb ssa : BitVec 1)

theorem attrC_sp : (Enc.attrC xa sp ib ssc ssb ssa).getLsbD 4 = sp := by
  revert xa sp ib ssc ssb ssa; decide
theorem attrC_ib : (Enc.attrC xa sp ib ssc ssb ssa).getLsbD 3 = (ib == 1) := by
  revert xa sp ib ssc ssb ssa; decide
theorem attrC_ssc : (Enc.attrC xa sp ib ssc ssb ssa).getLsbD 2 = (!sp && ssc == 1) := by
  revert xa sp ib ssc ssb ssa; decide
theorem attrC_ssb : (Enc.attrC xa sp ib ssc ssb ssa).getLsbD 1 = (!sp && ssb == 1) := by
  revert xa sp ib ssc ssb ssa; decide
theorem attrC_ssa : (Enc.attrC xa sp ib ssc ssb ssa).getLsbD 0 = (!sp && ssa == 1) := by
  revert xa sp ib ssc ssb ssa; decide
theorem attrC_xa : fld (Enc.attrC xa sp ib ssc ssb ssa) 5 2 = xa := by
  revert xa sp ib ssc ssb ssa; decide

end

@[simp] theorem dSp_v (d : V) : Wf.dSp (.v d) = false := rfl
@[simp] theorem dstF_v (d : V) : Enc.dstF (.v d) = d := rfl
@[simp] theorem srcF_v (a : V) : Enc.srcF (.v a) = a := rfl

/-- A source that is no immediate stands in its field on the vector pipe. -/
theorem reg_of_gsrc {a : Src} (h : Wf.gsrc a = true) : Wf.reg false a = true := by
  simpa [Wf.gsrc, Wf.reg] using h

/-- A second source that is no immediate stands in its field. -/
theorem reg_of_regImm {sp : Bool} {b : Src} (hi : (!Wf.isImm b) = true) (h : Wf.regImm sp b = true) : Wf.reg sp b = true := by
  rw [Wf.reg, hi]; exact h

/-- The register or scalar that a source field names. -/
theorem read_src {sp : Bool} {a : Src} (h : Wf.reg sp a = true) :
    (if (sp || (!sp && Enc.srcS a == 1)) = true then .s (Dec.s6 (Enc.srcF a)) else .v (Enc.srcF a)) = a := by
  cases sp <;> cases a <;> simp_all [Wf.reg, Wf.isImm, Wf.isV, Enc.srcS, Enc.srcF]

theorem read_srcImm {sp : Bool} {b : Src} (h : Wf.regImm sp b = true) :
    (if (Enc.srcIb b == 1) = true then .imm (Enc.srcImm b)
      else if (sp || (!sp && Enc.srcS b == 1)) = true then .s (Dec.s6 (Enc.srcF b)) else .v (Enc.srcF b)) = b := by
  cases sp <;> cases b <;> simp_all [Wf.regImm, Wf.isV, Enc.srcS, Enc.srcIb, Enc.srcImm, Enc.srcF]

section
variable (r : Raw) (xa : BitVec 2) (sp : Bool) (dst : BitVec 8) (a b c : Src)

@[simp] theorem hdr_comp : Dec.hdr (Enc.comp r xa sp dst a b c) = Dec.hdr r := rfl
@[simp] theorem imod_comp : Dec.imod (Enc.comp r xa sp dst a b c) = Dec.imod r := rfl
@[simp] theorem op_comp : (Enc.comp r xa sp dst a b c).op = r.op := rfl
@[simp] theorem w_comp : Dec.w (Enc.comp r xa sp dst a b c) = Dec.w r := rfl
@[simp] theorem x_comp : Dec.x (Enc.comp r xa sp dst a b c) = Dec.x r := rfl
@[simp] theorem sub_comp : (Enc.comp r xa sp dst a b c).sub = r.sub := rfl
@[simp] theorem md_comp : (Enc.comp r xa sp dst a b c).md = r.md := rfl
@[simp] theorem dst_comp : (Enc.comp r xa sp dst a b c).dst = dst := rfl
@[simp] theorem sp_comp : Dec.sp (Enc.comp r xa sp dst a b c) = sp := attrC_sp ..
@[simp] theorem xa_comp : Dec.xa (Enc.comp r xa sp dst a b c) = xa := attrC_xa ..
@[simp] theorem sa_comp : (Enc.comp r xa sp dst a b c).sa = Enc.srcF a := rfl

variable {a b c sp}

theorem srcA_comp (h : Wf.reg sp a = true) : Dec.srcA (Enc.comp r xa sp dst a b c) = a := by
  rw [Dec.srcA, sp_comp]
  simpa only [Enc.comp, attrC_ssa] using read_src h

theorem srcB'_comp (h : Wf.reg sp b = true) : Dec.srcB' (Enc.comp r xa sp dst a b c) = b := by
  rw [Dec.srcB', sp_comp]
  simpa only [Enc.comp, attrC_ssb] using read_src h

theorem srcB_comp (h : Wf.regImm sp b = true) : Dec.srcB (Enc.comp r xa sp dst a b c) = b := by
  rw [Dec.srcB, sp_comp]
  simpa only [Enc.comp, attrC_ib, attrC_ssb] using read_srcImm h

theorem srcC_comp (h : Wf.reg sp c = true) : Dec.srcC (Enc.comp r xa sp dst a b c) = c := by
  rw [Dec.srcC, sp_comp]
  simpa only [Enc.comp, attrC_ssc] using read_src h

/-- A vector word's second source is any source (R62). -/
@[simp] theorem srcB_comp_vec : Dec.srcB (Enc.comp r xa false dst a b c) = b := srcB_comp r xa dst rfl

@[simp] theorem dst_compD (d : Dst) : Dec.dst (Enc.comp r xa (Wf.dSp d) (Enc.dstF d) a b c) = d := by
  rw [Dec.dst, sp_comp]
  cases d <;> simp [Wf.dSp, Enc.dstF]

end

/-! ### Operands of the memory classes (R62, R173) -/

/-- The low and the high part of two fields that stand one above the other in IMM. -/
theorem fld_pair_low {a b n k : Nat} (x : BitVec a) (y : BitVec b) (hk : k ≤ b) (hn : k ≤ n) : fld ((x ++ y).setWidth n) 0 k = fld y 0 k := by
  rw [fld, BitVec.extractLsb'_setWidth_of_le (by omega), BitVec.extractLsb'_append_eq_of_add_le (by omega)]

theorem fld_pair_high {a b n k : Nat} (x : BitVec a) (y : BitVec b) (hn : b + k ≤ n) : fld ((x ++ y).setWidth n) b k = fld x 0 k := by
  rw [fld, BitVec.extractLsb'_setWidth_of_le hn, BitVec.extractLsb'_append_eq_of_le (Nat.le_refl b), Nat.sub_self]

theorem fld_wits_wo (wo w : S) : fld (Enc.wits wo w) 0 6 = wo :=
  (fld_pair_low _ _ (by decide) (by decide)).trans (fld_setWidth wo (by decide))
theorem fld_wits_w (wo w : S) : fld (Enc.wits wo w) 8 6 = w :=
  (fld_pair_high _ _ (by decide)).trans (fld_setWidth w (by decide))

section
variable (r : Raw) (ad : Addr) (lp : Bool) (t : MAttr) (base : S) (dst sc : BitVec 8) (imm : W32)

theorem attrM_lp : (Enc.attrM lp t).getLsbD 4 = lp := by
  obtain ⟨a, b, c⟩ := t; revert lp a b c; decide
theorem attrM_attr : (⟨fld (Enc.attrM lp t) 5 2, fld (Enc.attrM lp t) 2 2, fld (Enc.attrM lp t) 0 2⟩ : MAttr) = t := by
  obtain ⟨a, b, c⟩ := t; revert lp a b c; decide

@[simp] theorem hdr_mem : Dec.hdr (Enc.mem r ad t dst sc imm) = Dec.hdr r := rfl
@[simp] theorem op_mem : (Enc.mem r ad t dst sc imm).op = r.op := rfl
@[simp] theorem w_mem : Dec.w (Enc.mem r ad t dst sc imm) = Dec.w r := rfl
@[simp] theorem x_mem : Dec.x (Enc.mem r ad t dst sc imm) = Dec.x r := rfl
@[simp] theorem sub_mem : (Enc.mem r ad t dst sc imm).sub = r.sub := rfl
@[simp] theorem md_mem : (Enc.mem r ad t dst sc imm).md = r.md := rfl
@[simp] theorem dst_mem : (Enc.mem r ad t dst sc imm).dst = dst := rfl
@[simp] theorem sc_mem : (Enc.mem r ad t dst sc imm).sc = sc := rfl
@[simp] theorem imm_mem : (Enc.mem r ad t dst sc imm).imm = imm := rfl
@[simp] theorem mattr_mem : Dec.mattr (Enc.mem r ad t dst sc imm) = t := attrM_attr ..
@[simp] theorem addr_mem : Dec.addr (Enc.mem r ad t dst sc imm) = ad := by
  simp only [Dec.addr, Enc.mem, attrM_lp]
  cases ad <;> simp [Enc.isLp, Enc.adSa, Enc.adSb]

@[simp] theorem hdr_smem : Dec.hdr (Enc.smem r base t dst sc imm) = Dec.hdr r := rfl
@[simp] theorem op_smem : (Enc.smem r base t dst sc imm).op = r.op := rfl
@[simp] theorem w_smem : Dec.w (Enc.smem r base t dst sc imm) = Dec.w r := rfl
@[simp] theorem x_smem : Dec.x (Enc.smem r base t dst sc imm) = Dec.x r := rfl
@[simp] theorem sub_smem : (Enc.smem r base t dst sc imm).sub = r.sub := rfl
@[simp] theorem md_smem : (Enc.smem r base t dst sc imm).md = r.md := rfl
@[simp] theorem dst_smem : (Enc.smem r base t dst sc imm).dst = dst := rfl
@[simp] theorem sa_smem : (Enc.smem r base t dst sc imm).sa = Enc.s8 base := rfl
@[simp] theorem sc_smem : (Enc.smem r base t dst sc imm).sc = sc := rfl
@[simp] theorem imm_smem : (Enc.smem r base t dst sc imm).imm = imm := rfl
@[simp] theorem mattr_smem : Dec.mattr (Enc.smem r base t dst sc imm) = t := attrM_attr ..


@[simp] theorem wo_mem (wo w : S) : Dec.wo (Enc.mem r ad t dst sc (Enc.wits wo w)) = wo := fld_wits_wo wo w
@[simp] theorem wi_mem (wo w : S) : Dec.wi (Enc.mem r ad t dst sc (Enc.wits wo w)) = w := fld_wits_w wo w
@[simp] theorem wo_smem (wo w : S) : Dec.wo (Enc.smem r base t dst sc (Enc.wits wo w)) = wo := fld_wits_wo wo w
@[simp] theorem wi_smem (wo w : S) : Dec.wi (Enc.smem r base t dst sc (Enc.wits wo w)) = w := fld_wits_w wo w

end

/-! ### Words with one field of their own -/

section
variable (r : Raw) (imm : W32) (sc : BitVec 8) (attr : BitVec 7)

theorem hdr_setImm : Dec.hdr { r with imm := imm } = Dec.hdr r := rfl
theorem w_setImm : Dec.w { r with imm := imm } = Dec.w r := rfl
theorem dst_setImm : Dec.dst { r with imm := imm } = Dec.dst r := rfl
theorem srcA_setImm : Dec.srcA { r with imm := imm } = Dec.srcA r := rfl
theorem srcB'_setImm : Dec.srcB' { r with imm := imm } = Dec.srcB' r := rfl
theorem srcC_setImm : Dec.srcC { r with imm := imm } = Dec.srcC r := rfl
theorem xa_setImm : Dec.xa { r with imm := imm } = Dec.xa r := rfl

theorem hdr_setSc : Dec.hdr { r with sc := sc } = Dec.hdr r := rfl
theorem w_setSc : Dec.w { r with sc := sc } = Dec.w r := rfl
theorem x_setSc : Dec.x { r with sc := sc } = Dec.x r := rfl
theorem srcA_setSc : Dec.srcA { r with sc := sc } = Dec.srcA r := rfl
theorem srcB_setSc : Dec.srcB { r with sc := sc } = Dec.srcB r := rfl

theorem hdr_setAttr : Dec.hdr { r with attr := attr } = Dec.hdr r := rfl
theorem x_setAttr : Dec.x { r with attr := attr } = Dec.x r := rfl
theorem cc_setAttr (cc : BitVec 2) : Dec.cc { r with attr := 0#3 ++ cc ++ 0#2 } = cc := by
  show fld (0#3 ++ cc ++ 0#2) 2 2 = cc
  revert cc; decide

end

/-! ### The operation (R73) -/

theorem ofRaw_native {r : Raw} (h : r.g = 0) : ofRaw r = ofRawNative r := by rw [ofRaw, h]; rfl
theorem ofRaw_generic {r : Raw} (h : r.g = 1) : ofRaw r = ofRawGeneric r := by rw [ofRaw, h]; rfl

end Sys2Proof
end

/-! Proofs about the encoding: every well-formed word is read back from its fields. -/

section
namespace Sys2Proof
open Sys2Proof.Claims

/-- The word's OP lies from `lo` to below `hi` (R73). -/
def Instr.opIn (lo hi : Nat) (i : Instr) : Bool := Nat.ble lo (toRaw i).op.toNat && Nat.blt (toRaw i).op.toNat hi

/-- `rds` names a vector register for the index 0 and a scalar one for every other (R136). -/
theorem rds_dst {d : Dst} {x : BitVec 5} (h : (decide (x.toNat < 0x14) && (Wf.dSp d != (x == 0))) = true) :
    (if (x.setWidth 32 == 0) = true then Dst.v (Enc.dstF d) else .s (Dec.s6 (Enc.dstF d))) = d := by
  have hx : (x.setWidth 32 == 0) = (x == 0) := by clear h; revert x; decide
  rw [hx]
  cases d <;> cases hz : x == 0 <;> simp_all [Wf.dSp, Enc.dstF]

/-- The two format codes of a native `cvt` (R157). -/
theorem cvt_codes (tg sr : BitVec 4) : fld ((tg ++ sr).setWidth 32) 4 4 = tg ∧ fld ((tg ++ sr).setWidth 32) 0 4 = sr :=
  ⟨(fld_pair_high _ _ (by decide)).trans (fld_all tg), (fld_pair_low _ _ (by decide) (by decide)).trans (fld_all sr)⟩

/-- The tile and the mask of `copy.mc` (R219). -/
theorem copyMc_fields (m : BitVec 8) (t : T) : fld ((m ++ Enc.s8 t).setWidth 32) 0 6 = t ∧ fld ((m ++ Enc.s8 t).setWidth 32) 8 8 = m :=
  ⟨(fld_pair_low _ _ (by decide) (by decide)).trans (fld_setWidth t (by decide)), (fld_pair_high _ _ (by decide)).trans (fld_all m)⟩

/-- ATTR of `acco` (R228). -/
theorem acco_flags (fl : AccoFlags) :
    (⟨fl.z, (0#4 ++ Enc.b1 fl.rq ++ Enc.b1 fl.act ++ Enc.b1 fl.bias).getLsbD 0, (0#4 ++ Enc.b1 fl.rq ++ Enc.b1 fl.act ++ Enc.b1 fl.bias).getLsbD 1,
      (0#4 ++ Enc.b1 fl.rq ++ Enc.b1 fl.act ++ Enc.b1 fl.bias).getLsbD 2⟩ : AccoFlags) = fl := by
  obtain ⟨z, b, a, r⟩ := fl
  revert z b a r; decide

/-- The three sources of `pset` have each their SUB. -/
theorem ofRaw_toRaw_pset (h : Hdr) (d : P) (x : PsetSrc) : ofRaw (toRaw (.pset h d x)) = some (.pset h d x) := by
  cases x <;> refine congrArg some ?_ <;> unfold toRaw <;> simp [-BitVec.getLsbD_eq_getElem]

/-- `vtos` names its lane in IMM with SUB 1. -/
theorem ofRaw_toRaw_vtos (h : Hdr) (w : Bool) (l : Option (BitVec 6)) (d : S) (a : V) :
    ofRaw (toRaw (.vtos h w l d a)) = some (.vtos h w l d a) := by
  cases l <;> refine congrArg some ?_ <;> unfold toRaw <;> simp [fld_setWidth, Dec.x, -BitVec.getLsbD_eq_getElem]

/-- `fmtset` names its selector in SUB, whose code 1 is the register form's (R153). -/
theorem ofRaw_toRaw_fmtset (h : Hdr) (k : FmtSel) (x : BitVec 13) : ofRaw (toRaw (.fmtset h k x)) = some (.fmtset h k x) := by
  cases k <;> refine congrArg some ?_ <;> unfold toRaw <;> simp [fld_setWidth]

/-- Classes 0x0 to 0x3: control, integer, logic, compare. -/
theorem ofRaw_toRaw_classes0to3 {i : Instr} (hop : i.opIn 0x00 0x40 = true) (hw : wellFormed i = true) : ofRaw (toRaw i) = some i := by
  cases i <;> first | exact absurd hop Bool.false_ne_true | skip
  case pset h d x => exact ofRaw_toRaw_pset h d x
  case vtos h w l d a => exact ofRaw_toRaw_vtos h w l d a
  all_goals
    unfold toRaw
    dsimp only
    rw [ofRaw_native rfl, ofRawNative]
    generalize hn : BitVec.toNat (Raw.op _) = n
    simp only [Enc.c1, Enc.c2, Enc.c3, op_ops, op_comp, op_base, BitVec.reduceToNat] at hn
    subst hn
    unfold wellFormed at hw
    dsimp only at hw
  all_goals refine congrArg some ?_
  case rds h d x =>
    simp only [hdr_ops, hdr_base, dst_ops, imm_ops, fld_setWidth x (by decide : 5 ≤ 32)]
    exact congrArg (Instr.rds h · x) (rds_dst hw)
  case addc | sel =>
    simp only [Wf.src2, Wf.src1, dSp_v, Bool.and_eq_true] at hw
    simp only [hdr_setSc, w_setSc, x_setSc, srcA_setSc, srcB_setSc]
    simp [srcA_comp, hw]
  case lop3 =>
    simp only [Wf.src3, Wf.src2, Wf.src1, Bool.and_eq_true] at hw
    simp only [hdr_setImm, w_setImm, dst_setImm, srcA_setImm, srcB'_setImm, srcC_setImm]
    simp [Enc.c3, fld_setWidth, srcA_comp, srcB'_comp, srcC_comp, reg_of_regImm, hw]
  case nop | trap | brk | sleep | yield | sigck | lcset | lcsetR | lcsetGet | xmset | xmsetAnd | xmsetOr | xmget | wrs | iflush
    | sitex | sitexCnt | sitexReset | sitexPin | plog | ptest | ballot | elect | ucheck =>
    simp [fld_setWidth]
  all_goals
    simp only [Wf.src1, Wf.src2, Wf.src3, Bool.and_eq_true] at hw
    simp [Enc.c1, Enc.c2, Enc.c3, srcA_comp, srcB_comp, srcC_comp, hw]


/-- Classes 0x4 to 0x7: moves, float, log domain, conversion. -/
theorem ofRaw_toRaw_classes4to7 {i : Instr} (hop : i.opIn 0x40 0x80 = true) (hw : wellFormed i = true) : ofRaw (toRaw i) = some i := by
  cases i <;> first | exact absurd hop Bool.false_ne_true | skip
  case fmtset h k x => exact ofRaw_toRaw_fmtset h k x
  case pset h d x => exact ofRaw_toRaw_pset h d x
  case vtos h w l d a => exact ofRaw_toRaw_vtos h w l d a
  all_goals
    unfold toRaw
    dsimp only
    first | rw [ofRaw_native rfl, ofRawNative] | rw [ofRaw_generic rfl, ofRawGeneric]
    generalize hn : BitVec.toNat (Raw.op _) = n
    simp only [Enc.c1, Enc.c2, Enc.c3, op_ops, op_comp, op_base, op_site, BitVec.reduceToNat] at hn
    subst hn
    unfold wellFormed at hw
    dsimp only at hw
  all_goals refine congrArg some ?_
  case movi | movh =>
    simp only [hdr_setImm, w_setImm, dst_setImm]
    simp
  case cvt h r tg sr d a c =>
    simp only [Bool.and_eq_true] at hw
    simp only [hdr_setImm, xa_setImm, srcA_setImm, srcC_setImm]
    simp only [cvt_codes]
    simp [Enc.c3, srcA_comp, srcC_comp, reg_of_gsrc, hw]
  case stov | ldk | tbset | tbget | fmtsetR | fmtget | pack | unpack =>
    simp
  case ladd | lmul | scale | qnt | dqnt => simp [Enc.c1, Enc.c2, srcA_comp, reg_of_gsrc, hw]
  all_goals
    simp only [Wf.src1, Wf.src2, Wf.src3, Bool.and_eq_true] at hw
    simp [Enc.c1, Enc.c2, Enc.c3, srcA_comp, srcB_comp, srcC_comp, hdr_site, reg_of_gsrc, hw]


/-- Classes 0x8 to 0xB: lanes, loads, stores and witnesses, atomics. -/
theorem ofRaw_toRaw_classes8toB {i : Instr} (hop : i.opIn 0x80 0xC0 = true) (hw : wellFormed i = true) : ofRaw (toRaw i) = some i := by
  cases i <;> first | exact absurd hop Bool.false_ne_true | skip
  case pset h d x => exact ofRaw_toRaw_pset h d x
  case vtos h w l d a => exact ofRaw_toRaw_vtos h w l d a
  all_goals
    unfold toRaw
    dsimp only
    first | rw [ofRaw_native rfl, ofRawNative] | rw [ofRaw_generic rfl, ofRawGeneric]
    generalize hn : BitVec.toNat (Raw.op _) = n
    simp only [Enc.c2, op_ops, op_comp, op_base, op_mem, op_smem, op_site, BitVec.reduceToNat] at hn
    subst hn
    unfold wellFormed at hw
    dsimp only at hw
  case wmrg | wmrgRed | wtest | wtestKick =>
    show ite _ _ _ = _
    simp
  all_goals refine congrArg some ?_
  case ldG | ldsG | ldxG | ldtG | stG | stxG | atomG | fatomG | atomsG | waitaG =>
    simp only [Bool.and_eq_true] at hw
    simp [fld_setWidth, hdr_site, hw, -BitVec.getLsbD_eq_getElem]
  all_goals
    simp [Enc.c2, fld_setWidth, -BitVec.getLsbD_eq_getElem]


/-- Classes 0xC to 0xF: caches, tiles and copies, matrix, teams. A step of the part is no word. -/
theorem ofRaw_toRaw_classesCtoF {i : Instr} (hop : i.opIn 0xC0 0x100 = true) (hw : wellFormed i = true) : ofRaw (toRaw i) = some i := by
  cases i <;> first | exact absurd hop Bool.false_ne_true | skip
  case pset h d x => exact ofRaw_toRaw_pset h d x
  case vtos h w l d a => exact ofRaw_toRaw_vtos h w l d a
  all_goals try exact absurd hw Bool.false_ne_true
  all_goals
    unfold toRaw
    dsimp only
    first | rw [ofRaw_native rfl, ofRawNative] | rw [ofRaw_generic rfl, ofRawGeneric]
    generalize hn : BitVec.toNat (Raw.op _) = n
    simp only [op_ops, op_base, op_mem, op_site, BitVec.reduceToNat] at hn
    subst hn
    unfold wellFormed at hw
    dsimp only at hw
  case twait | twaitCh | sflush | sflushRel =>
    show ite _ _ _ = _
    simp
  all_goals refine congrArg some ?_
  case copy | copyOut | copyQ =>
    simp only [hdr_setAttr, cc_setAttr]
    simp [fld_setWidth]
  case copyMc =>
    simp only [hdr_setAttr, cc_setAttr]
    simp only [hdr_ops, hdr_base, dst_ops, sa_ops, sb_ops, sc_ops, imm_ops, s6_s8, copyMc_fields]
  case acco h fl f t c b k =>
    simp only [hdr_setAttr, x_setAttr]
    simp [fld_setWidth, acco_flags, -BitVec.getLsbD_eq_getElem]
  case mmpG | mmpsG =>
    simp only [Bool.and_eq_true] at hw
    simp [fld_setWidth, hdr_site, hw]
  all_goals
    simp [fld_setWidth, -BitVec.getLsbD_eq_getElem]

/-- Below the bound of four neighbouring ranges of OP the word's OP lies in one of them. -/
theorem opIn_cases (i : Instr) :
    i.opIn 0x00 0x40 = true ∨ i.opIn 0x40 0x80 = true ∨ i.opIn 0x80 0xC0 = true ∨ i.opIn 0xC0 0x100 = true := by
  have hlt := (toRaw i).op.isLt
  simp only [Instr.opIn, Bool.and_eq_true, Nat.ble_eq, Nat.blt_eq]
  omega

/-- The reader of a word's fields undoes their writer (R60 to R63). -/
theorem ofRaw_toRaw {i : Instr} (hw : wellFormed i = true) : ofRaw (toRaw i) = some i := by
  obtain h | h | h | h := opIn_cases i
  · exact ofRaw_toRaw_classes0to3 h hw
  · exact ofRaw_toRaw_classes4to7 h hw
  · exact ofRaw_toRaw_classes8toB h hw
  · exact ofRaw_toRaw_classesCtoF h hw

/-- Settles O1: the packed fields are read back, and the fields give the word back, class by class of OP. -/
theorem roundTrip : Obligations.RoundTrip := by
  unfold Obligations.RoundTrip
  intro i hw
  simp [decode, encode, Raw.unpack_pack, ofRaw_toRaw hw, hw]

/-- What `decode` accepts was read from the word, is well formed, and its fields are the word's. -/
theorem decode_some {w : BitVec 128} {i : Instr} (h : decode w = some i) :
    ofRaw (Raw.unpack w) = some i ∧ wellFormed i = true ∧ toRaw i = Raw.unpack w := by
  unfold decode at h
  split at h
  next hr =>
    split at h
    next hc =>
      cases h
      simpa [hr] using hc
    next => cases h
  next => cases h

/-- OP 0xFF stands for no word. -/
theorem ofRaw_step {r : Raw} (h : r.op = 0xFF) : ofRaw r = none := by
  simp [ofRaw, ofRawNative, ofRawGeneric, h]

/-- Settles O2: `decode` compares the word's fields with those of what it read, and no word has a step's OP. -/
theorem decodeExact : Obligations.DecodeExact := by
  unfold Obligations.DecodeExact
  intro w i h
  obtain ⟨hr, hw, hf⟩ := decode_some h
  refine ⟨hw, ?_, ?_⟩
  · refine Bool.eq_false_iff.mpr fun hs => ?_
    rw [← hf, ofRaw_step (eq_of_beq hs)] at hr
    cases hr
  · rw [encode, hf, Raw.pack_unpack]

/-- Settles O3: the model's decoder evaluates each of the four words. -/
theorem specWords : Obligations.SpecWords := by
  unfold Obligations.SpecWords
  decide

end Sys2Proof
end

/-! Proofs about the register words' results and frames: which registers and lanes a computation word may change (R64, R102, R104). -/

section
namespace Sys2Proof.Machine
open Sys2Proof.Claims

/-! ### Vector results, key by key -/

theorem mem_lanesOf {x : W64} {l : Nat} : l ∈ lanesOf x ↔ l < 64 ∧ bitAt x l = true := by
  simp [lanesOf]

/-- One lane of v[r], or of the pair, written. -/
theorem putVec_v (g : Group) (w : Bool) (r l : Nat) (x : W64) (k : Nat) :
    tget 0 (g.putVec w r l x).v k =
      if k = 64 * r + l then fld x 0 32 else if w ∧ k = 64 * (r + 1) + l then fld x 32 32 else tget 0 g.v k := by
  cases w <;> simp only [Group.putVec, Bool.false_eq_true, if_false, if_true, putV_v, false_and, true_and]
  split <;> split
  · omega
  all_goals rfl

/-- The writes of a list of lanes, one after another: each lane's value is its own, so that their order does not count. -/
theorem foldl_putVec_v (w : Bool) (r : Nat) (f : Nat → W64) (k : Nat) {ls : List Nat} (hl : ∀ l ∈ ls, l < 64) (g : Group) :
    tget 0 (ls.foldl (fun a l => a.putVec w r l (f l)) g).v k =
      if k / 64 = r ∧ k % 64 ∈ ls then fld (f (k % 64)) 0 32
      else if w ∧ k / 64 = r + 1 ∧ k % 64 ∈ ls then fld (f (k % 64)) 32 32
      else tget 0 g.v k := by
  induction ls generalizing g with
  | nil => simp
  | cons l ls ih =>
    have hlt : l < 64 := hl l List.mem_cons_self
    have hkey : ∀ r', k = 64 * r' + l ↔ k / 64 = r' ∧ k % 64 = l := fun r' => by omega
    rw [List.foldl_cons, ih (fun x hx => hl x (List.mem_cons_of_mem l hx)), putVec_v]
    simp only [hkey, List.mem_cons]
    by_cases he : k % 64 = l
    · rw [he]
      grind
    · simp [he]

/-- Settles O11: the lanes that are written are the mask's. -/
theorem vectorResults : Obligations.VectorResults := by
  intro g lanes w r f k _
  have hm : k % 64 ∈ lanesOf lanes ↔ bitAt lanes (k % 64) = true := mem_lanesOf.trans (and_iff_right (Nat.mod_lt k (by decide)))
  unfold Group.vecResult
  simpa only [hm] using foldl_putVec_v w r f k (fun l hl => (mem_lanesOf (x := lanes).1 hl).1) g

/-! ### Frames -/

/-- From `g` to `g'` only the vector registers `v` and the predicates `p` in the lanes of `lanes`, the scalar registers `sr` and what is
noted in the results outstanding may have changed. -/
structure Group.Within (lanes : W64) (v sr p : List Nat) (g g' : Group) : Prop where
  rest : rest g' = rest g
  outs : g'.outs.map (·.id) = g.outs.map (·.id)
  vec : ∀ r l, l < 64 → (r ∉ v ∨ bitAt lanes l = false) → tget 0 g'.v (64 * r + l) = tget 0 g.v (64 * r + l)
  sca : ∀ r, r ∉ sr → tget 0 g'.s r = tget 0 g.s r
  pred : ∀ r l, l < 64 → (r ∉ p ∨ bitAt lanes l = false) → bitAt (tget 0 g'.p r) l = bitAt (tget 0 g.p r) l

namespace Group.Within

variable {lanes x : W64} {v sr p : List Nat} {g g' g'' : Group} {r l : Nat}

theorem refl (g : Group) : Within lanes v sr p g g := ⟨rfl, rfl, fun _ _ _ _ => rfl, fun _ _ => rfl, fun _ _ _ _ => rfl⟩

theorem trans (h : Within lanes v sr p g g') (h' : Within lanes v sr p g' g'') : Within lanes v sr p g g'' where
  rest := h'.rest.trans h.rest
  outs := h'.outs.trans h.outs
  vec r l hl hr := (h'.vec r l hl hr).trans (h.vec r l hl hr)
  sca r hr := (h'.sca r hr).trans (h.sca r hr)
  pred r l hl hr := (h'.pred r l hl hr).trans (h.pred r l hl hr)

theorem putV {x : W32} (hr : r ∈ v) (hl : l < 64) (hb : bitAt lanes l = true) : Within lanes v sr p g (g.putV r l x) where
  rest := rfl
  outs := overtake_ids ..
  vec r' l' hl' hr' := by
    rw [putV_v, if_neg]
    intro hk
    obtain ⟨rfl, rfl⟩ : r' = r ∧ l' = l := by omega
    simp [hr, hb] at hr'
  sca _ _ := rfl
  pred _ _ _ _ := rfl

theorem putS (hr : r ∈ sr) : Within lanes v sr p g (g.putS r x) where
  rest := by unfold Group.putS; split <;> rfl
  outs := by
    unfold Group.putS
    split
    · rfl
    · exact overtake_ids ..
  vec _ _ _ _ := by rw [putS_v]
  sca r' hr' := by
    rw [putS_s, if_neg]
    rintro ⟨-, rfl⟩
    exact hr' hr
  pred _ _ _ _ := by rw [putS_p]

/-- The results outstanding after a predicate's lanes were noted in them. -/
theorem foldl_overtake_ids (f : Nat → Bool) (d : Nat → RegRef) (y : Nat → W64) (ls : List Nat) (o : List Outst) :
    (ls.foldl (fun o l => if f l then overtake o (d l) (y l) else o) o).map (·.id) = o.map (·.id) := by
  induction ls generalizing o with
  | nil => rfl
  | cons l ls ih =>
    rw [List.foldl_cons, ih]
    split
    · exact overtake_ids ..
    · rfl

theorem putP (hr : r ∈ p) : Within lanes v sr p g (g.putP r lanes x) where
  rest := by unfold Group.putP; split <;> rfl
  outs := by
    unfold Group.putP
    split
    · rfl
    · exact foldl_overtake_ids ..
  vec _ _ _ _ := by rw [putP_v]
  sca _ _ := by rw [putP_s]
  pred r' l' hl' hr' := by
    rw [putP_p]
    split
    next hc =>
      obtain ⟨-, rfl⟩ := hc
      have hb : bitAt lanes l' = false := hr'.resolve_left fun h => h hr
      simp_all
    next => rfl

/-- A fold over the lanes of a mask stays where each lane's update stays. -/
theorem foldl_lanes {f : Group → Nat → Group} (hf : ∀ g l, l < 64 → bitAt lanes l = true → Within lanes v sr p g (f g l)) (g : Group) :
    Within lanes v sr p g ((lanesOf lanes).foldl f g) := by
  have key : ∀ (ls : List Nat), (∀ l ∈ ls, l ∈ lanesOf lanes) → ∀ g, Within lanes v sr p g (ls.foldl f g) := by
    intro ls
    induction ls with
    | nil => exact fun _ g => refl g
    | cons l ls ih =>
      intro hls g
      obtain ⟨hl, hb⟩ := mem_lanesOf.1 (hls l List.mem_cons_self)
      exact (hf g l hl hb).trans (ih (fun x hx => hls x (List.mem_cons_of_mem l hx)) _)
  exact key _ (fun _ h => h) g

theorem vecResult {w : Bool} {d : V} {f : Nat → W64} (hv : ∀ r ∈ rV w d, r ∈ v) (g : Group) :
    Within lanes v sr p g (g.vecResult lanes w d.toNat f) := by
  refine foldl_lanes (fun g l hl hb => ?_) g
  cases w
  · exact putV (hv _ (by simp [rV])) hl hb
  · exact (putV (hv _ (by simp [rV])) hl hb).trans (putV (hv _ (by simp [rV])) hl hb)

theorem writeV {f : Nat → W32} (hr : r ∈ v) (g : Group) : Within lanes v sr p g (g.writeV lanes r f) :=
  foldl_lanes (fun _ _ hl hb => putV hr hl hb) g

theorem result {w sx : Bool} {d : Dst} {f : Nat → W64} (g : Group) :
    Within lanes (dV w d) (dS d) p g (g.result lanes w sx d f) := by
  cases d with
  | v d => exact vecResult (fun _ h => h) g
  | s r =>
    unfold Group.result
    dsimp only
    split
    · exact refl g
    · exact putS (by simp [dS])

theorem wideS {t : Nat} {h : Hdr} {d : S} (hd : d.toNat ∈ sr) (g : Group) : Within lanes v sr p g (g.wideS t h d x) := by
  unfold Group.wideS
  split
  · exact refl g
  · exact putS hd

end Group.Within

/-! ### A later write of one place stands -/

theorem tdel_tput {α : Type} (t : Tab α) (n : Nat) (x : α) : tdel (tput t n x) n = tdel t n := by
  induction t with
  | nil => simp [tput, tdel]
  | cons kz t ih =>
    obtain ⟨k, z⟩ := kz
    by_cases hlt : n < k
    · simp [tput, tdel, hlt]
    · by_cases heq : n = k <;> simp [tput, tdel, hlt, heq]
      exact ih

theorem tset_tset_of_ne {α : Type} [DecidableEq α] {d x : α} (hx : x ≠ d) (t : Tab α) (n : Nat) (y : α) :
    tset d (tset d t n x) n y = tset d t n y := by
  by_cases hy : y = d
  · simp only [tset, hx, hy, if_true, if_false, tdel_tput]
  · simp only [tset, hx, hy, if_false, tput_tput]

theorem tput_ne_nil {α : Type} (t : Tab α) (n : Nat) (x : α) : tput t n x ≠ [] := by
  cases t with
  | nil => simp [tput]
  | cons kz t => unfold tput; split_ifs <;> simp

section
variable {g g' : Group}

theorem ne_none_of_status (hg : g.status ≠ .ended) : g ≠ Group.none := fun h => hg (congrArg Group.status h)

/-- A core that holds a group that has not ended is no core as at reset. -/
theorem setGroups_ne_reset (hg : g.status ≠ .ended) (x : Core) (k : Nat) :
    { x with groups := tset Group.none x.groups k g } ≠ Core.reset := by
  intro h
  have := congrArg Core.groups h
  rw [tset, if_neg (ne_none_of_status hg)] at this
  exact tput_ne_nil _ _ _ this

theorem setGroup_setGroup (hg : g.status ≠ .ended) (m : Mach) (c k : Nat) : (m.setGroup c k g).setGroup c k g' = m.setGroup c k g' := by
  simp only [Mach.setGroup, Mach.setCore, Mach.core, tget_tset_self, tset_tset_of_ne (setGroups_ne_reset hg _ _),
    tset_tset_of_ne (ne_none_of_status hg)]

theorem setMe_setMe (hg : g.status ≠ .ended) (m : Mach) : (m.setMe g).setMe g' = m.setMe g' := setGroup_setGroup hg m _ _

end

/-! ### From a group's frame to a word's -/

/-- The issuing group as the hash leaves it (R137). -/
theorem hash_setMe (m : Mach) (i : Instr) (hs : m.me.status ≠ .ended) (g : Group) : (m.hash i).setMe g = m.setMe g := by
  obtain h | h := hash_cases m i <;> rw [h]
  exact setMe_setMe (by exact hs) m

/-- A word whose group goes on in sequence leaves its rewritten group at the next word, and no more (R66). -/
theorem goOn_modMe_seq {m : Mach} {i : Instr} {h : Hdr} {f : Group → Group} (hn : h.nas = .seq) (hs : m.me.status ≠ .ended)
    (hf : (f (m.hash i).me).status ≠ .ended) :
    m.goOn ((m.hash i).modMe f) i h = m.setMe { f (m.hash i).me with pc := m.me.pc + 1 } := by
  have hme : ((m.hash i).modMe f).group m.cur.1 m.cur.2 = f (m.hash i).me := by
    rw [← hash_cur m i]; exact me_modMe _ _
  rw [goOn_seq (by rwa [hme]) hn, hme, Mach.modMe, hash_setMe m i hs]
  exact setMe_setMe hf m

theorem rest_setSig (g : Group) (x : W32) : rest { g with sig := x } = rest g := rfl
theorem rest_setPc (g : Group) (x : W64) : rest { g with pc := x } = rest g := rfl
theorem status_of_rest {g g' : Group} (h : rest g' = rest g) : g'.status = g.status :=
  show (rest g').status = (rest g).status by rw [h]

/-- A word whose only effect rewrites its group inside a frame has that frame; SIG and the pc are its own. -/
theorem framed_of_regWord {s : State} {i : Instr} {h : Hdr} {f : Nat → Group → Group} {v sr p : List Nat}
    (he : exec i s = regWord i h f s) (hf : ∀ g : Group, Group.Within (g.perf s.m.tick h) v sr p g (f s.m.tick g)) :
    Framed s i h v sr p := by
  intro hi hn hs
  obtain ⟨x, hx⟩ := me_hash s.m i
  obtain ⟨hrest, houts, hvec, hsca, hpred⟩ := hx ▸ hf (s.m.hash i).me
  rw [rest_setSig] at hrest
  refine ⟨{ f s.m.tick (s.m.hash i).me with pc := s.m.me.pc + 1 }, ?_, rfl, ?_, ?_, ?_, ?_, ?_⟩
  · rw [he, regWord_runs hi.free hi.static hi.calls hi.retire, goOn_modMe_seq hn hs]
    rw [hx, status_of_rest hrest]
    exact hs
  · rw [rest_setPc, hx]; exact hrest
  all_goals rw [hx]
  · exact houts
  · exact hvec
  · exact hsca
  · exact hpred

open Group.Within

/-- A word over sources whose result goes to its destination. -/
theorem framed_result {s : State} {i : Instr} {h : Hdr} {w sx : Bool} {d : Dst} {f : Nat → Group → Nat → W64}
    (he : exec i s = regWord i h (fun t g => g.result (g.perf t h) w sx d (f t g)) s) : Framed s i h (dV w d) (dS d) [] :=
  framed_of_regWord he fun g => result g

section
variable {s : State} {h : Hdr} {w : Bool} {d : Dst}

theorem framed_mov {a : Src} : Framed s (.mov h w d a) h (dV w d) (dS d) [] := by
  refine framed_of_regWord (by unfold exec; exact rfl) fun g => ?_
  unfold Group.copySrc Group.op1
  cases d with
  | v r => exact result g
  | s r =>
    exact result (w := true) (d := .s r) g

/-- The upper half of a pair, or of a scalar register (R123). -/
theorem framed_movh {imm : W32} : Framed s (.movh h d imm) h (dV true d) (dS d) [] := by
  refine framed_of_regWord (by unfold exec; exact rfl) fun g => ?_
  cases d with
  | v r => exact writeV (by simp [dV]) g
  | s r => exact wideS (List.mem_singleton_self _) g

/-- Where no lane is named and none performs, nothing is written (R126). -/
theorem framed_vtos {ln : Option (BitVec 6)} {r : S} {x : V} : Framed s (.vtos h w ln r x) h [] [r.toNat] [] := by
  refine framed_of_regWord (by unfold exec; exact rfl) fun g => ?_
  split
  · exact wideS (List.mem_singleton_self _) g
  · exact refl g

end

/-- Settles O13: each word's effect stays in its destination's registers in the performing lanes, `addc` in its predicate too. -/
theorem integerFrame : Obligations.IntegerFrame := by
  intro s h m d a b c bw w e q zx sh
  refine ⟨?_, ?_, ?_, ?_, ?_, ?_, ?_, ?_, ?_, ?_, ?_, ?_, ?_, ?_, ?_, ?_⟩
  case refine_16 =>
    refine framed_of_regWord (by unfold exec; exact rfl) fun g => ?_
    exact (vecResult (fun _ h => h) g).trans (putP (List.mem_singleton_self _))
  all_goals exact framed_result (by unfold exec; exact rfl)

/-- Settles O14: as for the integer words; the pair's upper half of `movh`, and a scalar destination of the words over all lanes. -/
theorem logicFrame : Obligations.LogicFrame := by
  intro s h w d a b c sx tt e x q p p2 r imm k kf m vf y sp pk tk ln ps kb tb
  refine ⟨?_, ?_, ?_, ?_, ?_, ?_, ?_, ?_, ?_, ?_, ?_, ?_, ?_, ?_, ?_, ?_, ?_, ?_, ?_, ?_, ?_, ?_, ?_, framed_mov, ?_, framed_movh, ?_,
    framed_vtos, ?_, ?_⟩
  -- `cmp`, `fcmp`, `plog`, `elect`, `pset`: a predicate
  case refine_17 | refine_18 | refine_19 | refine_22 | refine_23 =>
    exact framed_of_regWord (by unfold exec; exact rfl) fun g => putP (List.mem_singleton_self _)
  -- `ptest`, `ballot`, `tbget`: a scalar
  case refine_20 | refine_21 | refine_27 =>
    exact framed_of_regWord (by unfold exec; exact rfl) fun g => wideS (List.mem_singleton_self _) g
  -- `sel`, `bcast`, `stov`: a vector
  case refine_15 | refine_25 | refine_26 =>
    exact framed_of_regWord (by unfold exec; exact rfl) fun g => vecResult (fun _ h => h) g
  all_goals exact framed_result (by unfold exec; exact rfl)

end Sys2Proof.Machine
end

/-! Proofs about the merge of two witnesses (R82). -/

section
namespace Sys2Proof.Machine
open Sys2Proof.Claims

/-! ### The scope of a witness rewritten -/

/-- A witness with the scope code `sc` in place of its own. -/
def withScope (x : W64) (sc : BitVec 2) : W64 := (x &&& ~~~0x3000000000000000#64) ||| (sc.setWidth 64 <<< 60)

theorem getLsbD_withScope (x : W64) (sc : BitVec 2) (i : Nat) :
    (withScope x sc).getLsbD i = if 60 ≤ i ∧ i < 62 then sc.getLsbD (i - 60) else x.getLsbD i := by
  have hmask : (0x3000000000000000#64 : W64) = (3#2).setWidth 64 <<< 60 := rfl
  simp only [withScope, hmask, BitVec.getLsbD_or, BitVec.getLsbD_and, BitVec.getLsbD_not, BitVec.getLsbD_shiftLeft, BitVec.getLsbD_setWidth]
  by_cases hin : 60 ≤ i ∧ i < 62
  · obtain rfl | rfl : i = 60 ∨ i = 61 := by omega
    all_goals simp
  · rw [if_neg hin]
    by_cases h60 : i < 60
    · simp [h60, Nat.lt_trans h60 (by decide : 60 < 64)]
    · have h2 : 2 ≤ i - 60 := by omega
      rw [BitVec.getLsbD_of_ge 3#2 _ h2, BitVec.getLsbD_of_ge sc _ h2]
      by_cases h64 : i < 64
      · simp [h64]
      · simp [x.getLsbD_of_ge i (by omega)]

section
variable (x : W64) (sc : BitVec 2)

/-- A field below or above the scope code is kept. -/
theorem fld_withScope {lo n : Nat} (h : lo + n ≤ 60 ∨ 62 ≤ lo) : fld (withScope x sc) lo n = fld x lo n := by
  ext i hi
  simp only [BitVec.getElem_extractLsb', getLsbD_withScope]
  rw [if_neg (by omega)]

theorem wScope_withScope : wScope (withScope x sc) = sc := by
  unfold wScope
  ext i hi
  simp only [BitVec.getElem_extractLsb', getLsbD_withScope]
  rw [if_pos (by omega), Nat.add_sub_cancel_left, BitVec.getLsbD_eq_getElem hi]

theorem wKind_withScope : wKind (withScope x sc) = wKind x := fld_withScope x sc (by decide)
theorem wSeq_withScope : wSeq (withScope x sc) = wSeq x := fld_withScope x sc (by decide)
theorem wEpoch_withScope : wEpoch (withScope x sc) = wEpoch x := fld_withScope x sc (by decide)

end

/-! ### The fields of an epoch witness (R81) -/

section
variable (sc : BitVec 2) (part : BitVec 6) (o : Nat) (e : BitVec 24)

theorem epochW_toNat : (epochW sc.toNat part o e).toNat =
    2 ^ 63 + sc.toNat * 2 ^ 60 + part.toNat * 2 ^ 54 + o % 16 * 2 ^ 50 + e.toNat := by
  rw [epochW, BitVec.toNat_ofNat]
  omega

/-- A field as a number. -/
theorem toNat_fld {w : Nat} (x : BitVec w) (lo n : Nat) : (fld x lo n).toNat = x.toNat / 2 ^ lo % 2 ^ n := by
  rw [fld, BitVec.extractLsb'_toNat, Nat.shiftRight_eq_div_pow]

theorem wKind_epochW : wKind (epochW sc.toNat part o e) = 2 := by
  apply BitVec.eq_of_toNat_eq
  rw [wKind, toNat_fld, epochW_toNat, show (2 : BitVec 2).toNat = 2 from rfl]
  omega

theorem wScope_epochW : wScope (epochW sc.toNat part o e) = sc := by
  apply BitVec.eq_of_toNat_eq
  rw [wScope, toNat_fld, epochW_toNat]
  omega

theorem wPartno_epochW : wPartno (epochW sc.toNat part o e) = part := by
  apply BitVec.eq_of_toNat_eq
  rw [wPartno, toNat_fld, epochW_toNat]
  omega

theorem origin_epochW : fld (epochW sc.toNat part o e) 50 4 = BitVec.ofNat 4 o := by
  apply BitVec.eq_of_toNat_eq
  rw [toNat_fld, epochW_toNat, BitVec.toNat_ofNat]
  omega

theorem zeros_epochW : fld (epochW sc.toNat part o e) 24 26 = 0 := by
  apply BitVec.eq_of_toNat_eq
  rw [toNat_fld, epochW_toNat, show (0 : BitVec 26).toNat = 0 from rfl]
  omega

theorem wEpoch_epochW : wEpoch (epochW sc.toNat part o e) = e := by
  apply BitVec.eq_of_toNat_eq
  rw [wEpoch, toNat_fld, epochW_toNat]
  omega

end

/-! ### What a merge is -/

/-- The larger scope code of two witnesses. -/
def largerScope (a b : W64) : BitVec 2 := if (wScope b).toNat ≤ (wScope a).toNat then wScope a else wScope b

theorem largerScope_toNat (a b : W64) : (largerScope a b).toNat = max (wScope a).toNat (wScope b).toNat := by
  unfold largerScope
  split <;> omega

/-- The later of two point witnesses of one core. -/
def laterOf (a b : W64) : W64 :=
  if wEpoch a = wEpoch b then (if (wSeq a - wSeq b).toNat < 2 ^ 18 then a else b)
  else if epochLater (wEpoch a) (wEpoch b) = wEpoch a then a else b

section
variable {m : Mach} {a b : W64}

theorem laterOf_cases (a b : W64) : laterOf a b = a ∨ laterOf a b = b := by
  unfold laterOf
  split_ifs <;> simp

theorem wMerge_sameCore (ha : wKind a = 1) (hb : wKind b = 1) (hc : fld a 43 17 = fld b 43 17) :
    wMerge m a b = withScope (laterOf a b) (largerScope a b) := by
  simp [wMerge, ha, hb, hc, withScope, laterOf, largerScope]

/-- Point or epoch witnesses that are no two points of one core. -/
theorem wMerge_apart (ha : wKind a = 1 ∨ wKind a = 2) (hb : wKind b = 1 ∨ wKind b = 2)
    (hn : ¬ (wKind a = 1 ∧ wKind b = 1 ∧ fld a 43 17 = fld b 43 17)) :
    wMerge m a b =
      if sameOrigin m a b = false then (if performed b then a else if performed a then b else failW 6)
      else epochW (largerScope a b).toNat (wPartno a) ((m.originPart a).getD 0) (epochLater (wEpoch a) (wEpoch b)) := by
  have hpoints : (wKind a = 1 && wKind b = 1 && fld a 43 17 == fld b 43 17) = false := by
    simpa [and_assoc] using hn
  have ha3 : wKind a ≠ 3 ∧ wKind a ≠ 0 := by rcases ha with h | h <;> rw [h] <;> decide
  have hb3 : wKind b ≠ 3 ∧ wKind b ≠ 0 := by rcases hb with h | h <;> rw [h] <;> decide
  simp only [wMerge, ha3, hb3, hpoints, largerScope, if_false, Bool.false_eq_true, Bool.not_eq_true']

/-- The later of two points of one core in one epoch. -/
theorem laterOf_sameEpoch (he : wEpoch a = wEpoch b) :
    wEpoch (laterOf a b) = wEpoch a ∧ wSeq (laterOf a b) = if (wSeq a - wSeq b).toNat < 2 ^ 18 then wSeq a else wSeq b := by
  rw [laterOf, if_pos he]
  split <;> simp [he]

/-- The later of two points of one core in different epochs. -/
theorem laterOf_epochs (he : wEpoch a ≠ wEpoch b) :
    wEpoch (laterOf a b) = epochLater (wEpoch a) (wEpoch b) ∧
      wSeq (laterOf a b) = if epochLater (wEpoch a) (wEpoch b) = wEpoch a then wSeq a else wSeq b := by
  rw [laterOf, if_neg he]
  split
  next hl => exact ⟨hl.symm, rfl⟩
  next hl =>
    refine ⟨?_, rfl⟩
    unfold epochLater at hl ⊢
    split at hl <;> simp_all

/-- The later of two points of one core is a point of that core. -/
theorem laterOf_fields (ha : wKind a = 1) (hb : wKind b = 1) (hc : fld a 43 17 = fld b 43 17) :
    wKind (laterOf a b) = 1 ∧ fld (laterOf a b) 43 17 = fld a 43 17 := by
  obtain h | h := laterOf_cases a b <;> rw [h]
  · exact ⟨ha, rfl⟩
  · exact ⟨hb, hc.symm⟩

end

/-- Settles O18: two points of one core are the later with its scope rewritten, two witnesses of one origin the epoch witness. -/
theorem witnessMerge : Obligations.WitnessMerge := by
  intro m a b
  refine ⟨fun ha => ?_, fun ha hb => ?_, fun hb ha => ?_, fun ha => ?_, fun ha hb hc => ?_, fun ha hb hn => ⟨fun ho => ?_, fun ho => ?_⟩⟩
  · simp [wMerge, ha]
  · rw [wMerge, if_neg ha, if_pos hb]
  · have hb3 : wKind b ≠ 3 := by rw [hb]; decide
    rw [wMerge, if_neg hb3, if_neg ha, if_pos hb, ite_self]
  · by_cases hb3 : wKind b = 3 <;> simp [wMerge, ha, hb3]
  · obtain ⟨hk, hcore⟩ := laterOf_fields ha hb hc
    rw [wMerge_sameCore ha hb hc, wKind_withScope, fld_withScope _ _ (by decide), wScope_withScope, wEpoch_withScope, wSeq_withScope,
      largerScope_toNat]
    exact ⟨hk, hcore, rfl, laterOf_sameEpoch, laterOf_epochs⟩
  · rw [wMerge_apart ha hb hn, if_pos ho]
    rfl
  · rw [wMerge_apart ha hb hn, if_neg (by simp [ho]), wKind_epochW, wScope_epochW, wPartno_epochW, origin_epochW, zeros_epochW,
      wEpoch_epochW, largerScope_toNat]
    exact ⟨rfl, rfl, rfl, rfl, rfl, rfl⟩

end Sys2Proof.Machine
end

/-! Proofs about traps, their records, and sequencing (R66 to R69, R76, R131, R253 to R257). -/

section
namespace Sys2Proof.Machine
open Sys2Proof.Claims

/-! ### The record of a trap (R389, R408) -/

section
variable {f : FaultDom} {who : W32} {now : Nat}

/-- A record that is not to be kept is written. -/
theorem record_writes (hk : f.keeps who now = false) (pc xm : W64) (t : Trap) :
    f.record pc xm t who now = { f with
      traps := satAdd1 f.traps, hasRec := true, rcause := BitVec.ofNat 16 t.cause, rpc := pc, rxm := xm, rlanes := t.lanes,
      rdetail := t.detail, rwho := who, recAt := now } := by
  have hk' : ({ f with traps := satAdd1 f.traps } : FaultDom).keeps who now = false := hk
  simp [FaultDom.record, hk']

theorem keeps_iff : f.keeps who now = true ↔ f.hasRec = true ∧ (f.recAt ≠ now ∨ ¬ fld who 21 11 < fld f.rwho 21 11) := by
  simp only [FaultDom.keeps, Bool.and_eq_true, Bool.not_eq_true', Bool.and_eq_false_iff, beq_eq_false_iff_ne, decide_eq_false_iff_not]

end

/-- Settles O34: the record is kept or written whole, as `FaultDom.keeps` says. -/
theorem trapRecord : Obligations.TrapRecord := by
  intro f pc xm t who now
  dsimp only
  rw [record_traps]
  refine ⟨rfl, fun hn => ?_, fun hr hat hlt => ?_, fun hr hor => ?_⟩
  · exact record_writes (by simp [FaultDom.keeps, hn]) pc xm t
  · exact record_writes (by simp [FaultDom.keeps, hat, hlt]) pc xm t
  · exact record_keeps f pc xm t who now (keeps_iff.2 ⟨hr, hor⟩)

/-! ### `trap` and `brk` (R131) -/

/-- A word whose own cause holds when it performs, and that has no effect. -/
theorem next_of_trapWord {s : State} {i : Instr} {h : Hdr} {t : Mach → Trap} (hi : Issues s.m i h)
    (he : exec i s = issueWord i h { pre := fun m => if m.performs h then some (t m) else none, run := id } s) :
    exec i s = .next { s with m := if s.m.performs h then takeTrap s.m s.m.cur.1 s.m.cur.2 s.m.me.pc (t s.m) else s.m.goOn (s.m.hash i) i h } := by
  rw [he, issueWord_eq]
  cases hp : s.m.performs h <;>
    simp [Mach.issue, Mach.issueTrap, Mach.perform, hi.free, hi.static, hi.calls, hi.retire, hp]

/-- Settles O29: the cause is judged at issue, of a word that performs. -/
theorem trapWords : Obligations.TrapWords := by
  intro s h imm
  exact ⟨fun hi => next_of_trapWord (t := fun m => { cause := 8, lanes := m.me.xm, detail := imm.setWidth 64 }) hi (by unfold exec; exact rfl),
    fun hi => next_of_trapWord (t := fun m => { cause := 9, lanes := m.me.xm, detail := imm.setWidth 64 }) hi (by unfold exec; exact rfl)⟩

/-! ### What follows the effect (R66) -/

theorem goOn_ok {m m' m'' : Mach} {i : Instr} {h : Hdr} (hs : (m'.group m.cur.1 m.cur.2).status ≠ .ended)
    (hq : m'.sequence m.cur.1 m.cur.2 m.me.pc h.nas = .ok m'') : m.goOn m' i h = m'' := by
  simp [Mach.goOn, hs, hq]

theorem goOn_error {m m' : Mach} {i : Instr} {h : Hdr} {t : Trap} (hs : (m'.group m.cur.1 m.cur.2).status ≠ .ended)
    (hq : m'.sequence m.cur.1 m.cur.2 m.me.pc h.nas = .error t) : m.goOn m' i h = trapAfter m m' i m.me.pc t := by
  simp [Mach.goOn, hs, hq]

/-- The issuing group with a `nop` of header `h` hashed into its SIG (R137). -/
def Mach.sigMe (m : Mach) (h : Hdr) : Group := { m.me with sig := crc m.me.sig (fld (encode (.nop h)) 0 64) }

theorem hash_nop (m : Mach) (h : Hdr) : m.hash (.nop h) = m.setGroup m.cur.1 m.cur.2 (m.sigMe h) := rfl

section
variable {s : State} {h : Hdr}

theorem exec_nop (hi : Issues s.m (.nop h) h) : exec (.nop h) s = .next { s with m := s.m.goOn (s.m.hash (.nop h)) (.nop h) h } :=
  does_of_issueWord (w := { run := id }) (by unfold exec; exact rfl) hi rfl rfl

/-- A `nop` does what its selector does to the group with the word in its SIG. -/
theorem exec_nop_ok {m'' : Mach} (hi : Issues s.m (.nop h) h) (hs : s.m.me.status ≠ .ended)
    (hq : (s.m.setGroup s.m.cur.1 s.m.cur.2 (s.m.sigMe h)).sequence s.m.cur.1 s.m.cur.2 s.m.me.pc h.nas = .ok m'') :
    exec (.nop h) s = .next { s with m := m'' } := by
  rw [exec_nop hi, hash_nop, goOn_ok _ hq]
  rw [group_setGroup, if_pos ⟨rfl, rfl⟩]
  exact hs

/-- The group with the word in its SIG, rewritten once more. -/
theorem setGroup_sigMe (hs : s.m.me.status ≠ .ended) (g : Group) :
    (s.m.setGroup s.m.cur.1 s.m.cur.2 (s.m.sigMe h)).setGroup s.m.cur.1 s.m.cur.2 g = s.m.setMe g :=
  setGroup_setGroup (g := s.m.sigMe h) hs s.m _ _

theorem group_sigMe : (s.m.setGroup s.m.cur.1 s.m.cur.2 (s.m.sigMe h)).group s.m.cur.1 s.m.cur.2 = s.m.sigMe h := by
  rw [group_setGroup, if_pos ⟨rfl, rfl⟩]

end

/-- Settles O30: the pc is what the selector gives. -/
theorem nextWord : Obligations.NextWord := by
  intro s h i sig hi hs
  refine ⟨fun hn => ?_, fun o hn => ?_, fun r hn => ?_⟩
  all_goals
    refine exec_nop_ok hi hs ?_
    rw [hn, Mach.sequence, group_sigMe]
    exact congrArg Except.ok (setGroup_sigMe hs _)

/-! ### Branches (R67, R253, R257) -/

section
variable {m : Mach} {c k : Nat} {taken : W64} (target fall : W64) (u : Bool)

theorem branch_none (h : taken = 0) : m.branch c k taken target fall u = .ok (m.setGroup c k { m.group c k with pc := fall }) := by
  simp [Mach.branch, h]

theorem branch_all (h : taken ≠ 0) (ha : taken = (m.group c k).xm) :
    m.branch c k taken target fall u = .ok (m.setGroup c k { m.group c k with pc := target }) := by
  rw [Mach.branch, if_neg h, if_pos ha]

theorem branch_uniform (h : taken ≠ 0) (ha : taken ≠ (m.group c k).xm) :
    m.branch c k taken target fall true = .error { cause := 6, lanes := taken, detail := 0 } := by
  rw [Mach.branch, if_neg h, if_neg ha, if_pos rfl]

/-- The entry that a branch pushes when it splits the lanes of `g` (R253). -/
def Group.splitRec (g : Group) (taken target : W64) : Reconv :=
  { save := g.xm, take := taken, target := target.setWidth 53, ja := 0, jv := false, phase := false, fmt := g.fmt.setWidth 13, arr := 0 }

theorem branch_split (h : taken ≠ 0) (ha : taken ≠ (m.group c k).xm) (hr : (m.group c k).recs.length < 8) :
    m.branch c k taken target fall false = .ok (m.setGroup c k { m.group c k with
      recs := (m.group c k).splitRec taken target :: (m.group c k).recs, xm := (m.group c k).xm &&& ~~~taken, pc := fall }) := by
  rw [Mach.branch, if_neg h, if_neg ha, if_neg Bool.false_ne_true, Mach.pushRec, if_pos hr]
  rfl

end

/-- The issuing group with a `nop` in its SIG and its LC as the branch leaves it. -/
def Mach.lcMe (m : Mach) (h : Hdr) (lc : W32) : Group := { m.sigMe h with lc := lc }

section
variable {s : State} {h : Hdr} {o : BitVec 28} {b : Guard} {u : Bool}

/-- IF and LOOP are one branch; LOOP takes one from LC first, and takes no lane once LC is 0. -/
theorem sequence_branch (hs : s.m.me.status ≠ .ended) (hn : h.nas = .iff o b u ∨ h.nas = .loop o b u) :
    let lp : Bool := decide (h.nas = .loop o b u)
    let lc := if lp then s.m.me.lc - 1 else s.m.me.lc
    (s.m.setGroup s.m.cur.1 s.m.cur.2 (s.m.sigMe h)).sequence s.m.cur.1 s.m.cur.2 s.m.me.pc h.nas =
      (s.m.setMe (s.m.lcMe h lc)).branch s.m.cur.1 s.m.cur.2 (if lp ∧ lc = 0 then 0 else s.m.me.xm &&& s.m.me.pred s.m.tick b)
        (s.m.me.pc + o.signExtend 64) (s.m.me.pc + 1) u := by
  intro lp lc
  obtain hn | hn := hn
  · have hlp : lp = false := decide_eq_false (by rw [hn]; exact Nas.noConfusion)
    have hlc : lc = s.m.me.lc := if_neg (by rw [hlp]; exact Bool.false_ne_true)
    rw [if_neg (by rw [hlp]; simp), hlc, hn, Mach.sequence, group_sigMe]
    rfl
  · have hlp : lp = true := decide_eq_true hn
    have hlc : lc = s.m.me.lc - 1 := if_pos hlp
    simp only [hlp, true_and, hlc]
    rw [hn, Mach.sequence, group_sigMe, setGroup_sigMe hs]
    rfl

end

/-- Settles O31: the branch of the group with its SIG and LC rewritten; the trap finds the group as it was before the word (R77). -/
theorem branches : Obligations.Branches := by
  intro s h o b u i g sig lp lc taken target hi hs hn
  have hq := sequence_branch hs hn
  have hst : (s.m.lcMe h lc).status ≠ .ended := hs
  have hg : (s.m.setMe (s.m.lcMe h lc)).group s.m.cur.1 s.m.cur.2 = s.m.lcMe h lc := me_setMe s.m _
  refine ⟨fun h0 => ?_, fun h0 ha => ?_, fun h0 ha hu hr => ?_, fun h0 ha hu => ?_⟩
  · refine exec_nop_ok hi hs (hq.trans ((branch_none _ _ u h0).trans ?_))
    rw [hg]
    exact congrArg Except.ok (setMe_setMe hst s.m)
  · refine exec_nop_ok hi hs (hq.trans ((branch_all _ _ u h0 (by rw [hg]; exact ha)).trans ?_))
    rw [hg]
    exact congrArg Except.ok (setMe_setMe hst s.m)
  · subst hu
    refine exec_nop_ok hi hs (hq.trans ((branch_split _ _ h0 (by rw [hg]; exact ha) (by rw [hg]; exact hr)).trans ?_))
    rw [hg]
    exact congrArg Except.ok (setMe_setMe hst s.m)
  · subst hu
    rw [exec_nop hi, hash_nop, goOn_error (by rw [group_sigMe]; exact hs) (hq.trans (branch_uniform _ _ h0 (by rw [hg]; exact ha))),
      trapAfter, setGroup_sigMe hs, group_sigMe]
    rfl

end Sys2Proof.Machine
end

/-! Proofs about the call stack, the area for spills behind it, and the end of lanes (R67 to R69, R255). -/

section
namespace Sys2Proof.Machine
open Sys2Proof.Claims

/-! ### Writes of the area for spills keep the issuing group's place (R68) -/

theorem cur_foldl {β : Type} {f : Mach → β → Mach} (hf : ∀ (m : Mach) b, (f m b).cur = m.cur) (l : List β) (m : Mach) :
    (l.foldl f m).cur = m.cur := by
  induction l generalizing m with
  | nil => rfl
  | cons b l ih => exact (ih _).trans (hf m b)

theorem cur_killTeam (m : Mach) (id : Nat) : (m.killTeam id).cur = m.cur := by
  obtain ⟨a, ha, he⟩ := killTeam_spec m id
  rw [he]
  exact ha.cur

theorem cur_killGang (m : Mach) (i gang cause : Nat) : (m.killGang i gang cause).cur = m.cur := by
  unfold Mach.killGang
  extract_lets x p ids tasks m1 m2 m3 count
  have h3 : m3.cur = m.cur := cur_foldl cur_killTeam ids m
  split
  · exact h3
  · exact h3

theorem cur_refusedRemote (m : Mach) (c k port : Nat) : (refusedRemote m c k port).cur = m.cur := cur_killGang _ _ _ _

theorem same_selfRefused (m : Mach) (p dom port : Nat) : m.Same (m.selfRefused p dom port) := by
  unfold Mach.selfRefused
  split <;> exact ⟨rfl, rfl, rfl, rfl, rfl⟩

theorem same_walked (m : Mach) (p ctx va : Nat) : m.Same (m.walked p ctx va) := 
  same_foldl _ (fun m _ => same_l2Access m _ _ _) _ m

theorem same_cacheTlb (m : Mach) (c : Nat) (e : TlbEntry) : m.Same (m.cacheTlb c e) := by
  unfold Mach.cacheTlb
  split
  · exact same_refl m
  · exact same_trans (same_walked m _ _ _) (same_modCore _ _ _)

theorem same_setDirty {m m' : Mach} {p : Nat} {e : TlbEntry} (h : m.setDirty p e = .ok m') : m.Same m' := by
  unfold Mach.setDirty at h
  extract_lets now x m0 code at h
  have h0 : m.Same m0 := by
    unfold m0
    split
    · exact same_refl m
    · exact same_walked m _ _ _
  split at h
  · rw [Dirtied.ok.injEq] at h
    exact h ▸ h0
  · split at h
    · cases h
    · split at h
      · cases h
      next m1 hm =>
        have h1 : m.Same m1 := same_trans h0 (same_homeWrite _ _ _ _ _ hm)
        split at h
        · cases h; exact h1
        · cases h
          exact same_trans (same_trans h1 (same_selfWrite _ _ _)) (same_modPart _ _ _)

theorem same_ownStoreNow {m m' : Mach} {p : Nat} {x : OwnStore} (h : m.ownStoreNow p x = some m') : m.Same m' := by
  unfold Mach.ownStoreNow at h
  extract_lets home at h
  split at h
  · cases h
  · split at h
    · cases h
    · cases h
    next m1 h1 =>
      refine same_trans (same_setDirty h1) ?_
      split at h
      · obtain ⟨m2, h2, rfl⟩ := Option.map_eq_some_iff.mp h
        exact same_trans (same_homeWrite _ _ _ _ _ h2) (same_setGC _ _ _ _)
      · split at h
        · cases h; exact same_selfRefused _ _ _ _
        · cases h; exact ⟨rfl, rfl, rfl, rfl, rfl⟩

theorem same_ownStoreWait (m : Mach) (p : Nat) (x : OwnStore) : m.Same (m.ownStoreWait p x) := by
  unfold Mach.ownStoreWait
  extract_lets m0
  refine same_trans ?_ (same_modPart _ _ _)
  unfold m0
  split
  · exact same_refl m
  · split
    · unfold Mach.holdAppend
      exact same_modPart _ _ _
    · exact same_countStall _ _ _
    · exact same_countStall _ _ _

theorem same_ownStore (m : Mach) (p dom : Nat) (e : TlbEntry) (pa : Nat) (bs : List Byte) : m.Same (m.ownStore p dom e pa bs) := by
  unfold Mach.ownStore Mach.ownStoreTry
  split
  · exact same_modPart _ _ _
  · cases h : m.ownStoreNow p { leaf := e, pa := pa, bytes := bs, dom := dom } with
    | none => exact same_ownStoreWait m p _
    | some m' => exact same_ownStoreNow h

theorem cur_privWrite8 (m : Mach) (c k off x : Nat) : (m.privWrite8 c k off x).cur = m.cur := by
  unfold Mach.privWrite8
  split
  · exact (same_walked m _ _ _).cur
  · split
    · exact cur_refusedRemote m _ _ _
    · exact (same_trans (same_cacheTlb m _ _) (same_ownStore _ _ _ _ _ _)).cur

theorem cur_privWrite (m : Mach) (c k off : Nat) (xs : List Nat) : (m.privWrite c k off xs).cur = m.cur :=
  cur_foldl (fun m _ => cur_privWrite8 m _ _ _ _) _ m

/-! ### Calls and returns (R67, R68) -/

section
variable {m : Mach} {c k : Nat} {a : W64}

theorem callPush_held (h : (m.group c k).calls.length < 16) :
    m.callPush c k a = m.setGroup c k { m.group c k with calls := a :: (m.group c k).calls } := by
  rw [Mach.callPush, if_pos h]

/-- The seventeenth entry sends the oldest to the group's area for spills. -/
theorem callPush_spills {o : W64} (h : (m.group c k).calls.length = 16) (ho : (m.group c k).calls.getLast? = some o) :
    m.callPush c k a =
      let m' := m.privWrite c k (8 * (m.group c k).callSpill) [o.toNat]
      m'.setGroup c k { m'.group c k with calls := a :: (m.group c k).calls.dropLast, callSpill := (m.group c k).callSpill + 1 } := by
  rw [Mach.callPush, if_neg (by omega), ho]

theorem sequence_call_spills {o : BitVec 28} (pc : W64) (h : (m.group c k).calls.length = 16) (ha : (m.group c k).calls.getLast? = some a) :
    ∃ g g' : Group, (g'.calls = (pc + 1) :: (m.group c k).calls.dropLast ∧ g'.callSpill = (m.group c k).callSpill + 1 ∧ g'.pc = pc + o.signExtend 64) ∧
      m.sequence c k pc (.call o) =
        .ok (((m.privWrite c k (8 * (m.group c k).callSpill) [a.toNat]).setGroup c k g).setGroup c k g') := by
  refine ⟨_, _, ?_, by rw [Mach.sequence, callPush_spills h ha]⟩
  dsimp only
  rw [group_setGroup, if_pos ⟨rfl, rfl⟩]
  exact ⟨rfl, rfl, rfl⟩

theorem callPop_held {l : List W64} (h : (m.group c k).calls = a :: l) :
    m.callPop c k = m.setGroup c k { m.group c k with calls := l, pc := a } := by
  rw [Mach.callPop, h]

end

/-- Settles O32: the entry goes to the held ones, or the oldest makes room for it; the pc is set last. -/
theorem callsAndReturns : Obligations.CallsAndReturns := by
  intro s h i g sig hi hs
  have hg := group_sigMe (s := s) (h := h)
  refine ⟨fun o hn hlen => ?_, fun o a hn hlen ha => ?_, fun a l hn hc => ?_⟩
  · refine exec_nop_ok hi hs ?_
    have hst : ({ s.m.sigMe h with calls := (s.m.me.pc + 1) :: s.m.me.calls } : Group).status ≠ .ended := hs
    rw [hn, Mach.sequence, callPush_held (by rw [hg]; exact hlen), hg, setGroup_sigMe hs, Mach.setMe, group_setGroup, if_pos ⟨rfl, rfl⟩]
    exact congrArg Except.ok (setMe_setMe hst s.m)
  · obtain ⟨g0, g', hg', hrun⟩ := sequence_call_spills (m := s.m.setGroup s.m.cur.1 s.m.cur.2 (s.m.sigMe h)) (c := s.m.cur.1)
      (k := s.m.cur.2) (o := o) s.m.me.pc (by rw [hg]; exact hlen) (by rw [hg]; exact ha)
    rw [hg] at hg' hrun
    rw [← hn] at hrun
    obtain ⟨hcalls, hspill, hpc⟩ := hg'
    refine ⟨_, exec_nop_ok hi hs hrun, ?_⟩
    rw [Mach.me, setGroup_cur, setGroup_cur, cur_privWrite, setGroup_cur, group_setGroup, if_pos ⟨rfl, rfl⟩]
    refine ⟨hcalls, hspill, hpc, ?_⟩
    intro p
    have hp : p = (s.m.setGroup s.m.cur.1 s.m.cur.2 (s.m.sigMe h)).privWrite s.m.cur.1 s.m.cur.2 (8 * (s.m.sigMe h).callSpill) [a.toNat] := rfl
    rw [hp]
    simp only [setGroup_dram, setGroup_cached, setGroup_far, and_self]
  · refine exec_nop_ok hi hs ?_
    rw [hn, Mach.sequence, callPop_held (by rw [hg]; exact hc), hg]
    exact congrArg Except.ok (setGroup_sigMe hs _)

/-! ### The end of lanes (R69, R255) -/

section
variable {m : Mach} {c k : Nat}

theorem widenAll_of_no_pin (h : (m.core c).l1.filter (fun x => x.pins.contains k) = []) : m.widenAll c k = m := by
  rw [Mach.widenAll, h]
  rfl

/-- With no entry pending the group ends. -/
theorem afterRetire_ends (n : Nat) (h : (m.group c k).recs = []) : Mach.afterRetire c k (n + 1) m = m.endGroup c k := by
  simp only [Mach.afterRetire, h]

theorem takePhase_pending {e : Reconv} {l : List Reconv} (h : (m.group c k).recs = e :: l) : m.takePhase c k false =
    m.setGroup c k { m.group c k with recs := { e with jv := false, phase := true, arr := 0 } :: l, xm := e.take &&& ~~~(m.group c k).retired,
                                      fmt := e.fmt.setWidth 32, pc := e.target.setWidth 64 } := by
  rw [Mach.takePhase, h]
  rfl

/-- A pending entry whose taken lanes live goes on with them. -/
theorem afterRetire_takes (n : Nat) {e : Reconv} {l : List Reconv} (h : (m.group c k).recs = e :: l) (hp : e.phase = false)
    (hx : e.take &&& ~~~(m.group c k).retired ≠ 0) : Mach.afterRetire c k (n + 1) m = m.takePhase c k false := by
  have hxm : ((m.takePhase c k false).group c k).xm ≠ 0 := by
    rw [takePhase_pending h, group_setGroup, if_pos ⟨rfl, rfl⟩]
    exact hx
  simp only [Mach.afterRetire, h, hp, Bool.false_eq_true, if_false, hxm]

end

/-- The issuing group with a `nop` in its SIG and its lanes retired. -/
def Mach.retiredMe (m : Mach) (h : Hdr) : Group := { m.sigMe h with retired := m.me.retired ||| m.me.xm, xm := 0 }

/-- END retires the lanes, and goes on from there. -/
theorem sequence_fin {s : State} {h : Hdr} (hs : s.m.me.status ≠ .ended) :
    ∃ n, (s.m.setGroup s.m.cur.1 s.m.cur.2 (s.m.sigMe h)).sequence s.m.cur.1 s.m.cur.2 s.m.me.pc .fin =
      .ok (Mach.afterRetire s.m.cur.1 s.m.cur.2 (n + 1) (s.m.setMe (s.m.retiredMe h))) := by
  refine ⟨2 * (s.m.me.recs.length + s.m.me.recSpill), ?_⟩
  rw [Mach.sequence, Mach.retire, group_sigMe, setGroup_sigMe hs]
  rfl

/-- Settles O33: with no entry the group ends where it stands, its lanes retired; with a pending one its taken phase begins. -/
theorem endRetires : Obligations.EndRetires := by
  intro s h i g hi hs hn
  obtain ⟨n, hq⟩ := sequence_fin (h := h) hs
  have hg : (s.m.setMe (s.m.retiredMe h)).group s.m.cur.1 s.m.cur.2 = s.m.retiredMe h := me_setMe s.m _
  refine ⟨fun hr hpins => ?_, fun e l hr hp hx => ?_⟩
  · rw [afterRetire_ends n (by rw [hg]; exact hr)] at hq
    have hl1 : ((s.m.setMe (s.m.retiredMe h)).core s.m.cur.1).l1 = (s.m.core s.m.cur.1).l1 := by rw [core_setMe, if_pos rfl]
    rw [Mach.endGroup, widenAll_of_no_pin (by rw [hl1]; exact hpins), hg] at hq
    refine ⟨_, exec_nop_ok hi hs (by rw [hn]; exact hq), ?_⟩
    rw [Mach.me, setGroup_cur, setMe_cur, group_setGroup, if_pos ⟨rfl, rfl⟩]
    exact ⟨rfl, rfl, rfl, rfl, rfl, rfl⟩
  · rw [afterRetire_takes n (by rw [hg]; exact hr) hp (by rw [hg]; exact hx), takePhase_pending (by rw [hg]; exact hr), hg] at hq
    refine ⟨_, exec_nop_ok hi hs (by rw [hn]; exact hq), ?_⟩
    rw [Mach.me, setGroup_cur, setMe_cur, group_setGroup, if_pos ⟨rfl, rfl⟩]
    exact ⟨rfl, rfl, rfl, rfl, rfl⟩

end Sys2Proof.Machine
end

/-! Proofs about the epoch's steps: drains, forced widens and the close of an epoch (R188, R273 to R279). -/

section
namespace Sys2Proof.Machine
open Sys2Proof.Claims

/-! ### Drains and forced widens (R188, R273) -/

section
variable {s : State} {id c ln : Nat}

/-- What a drain covers goes home, and every drain that waits beside it is served. -/
theorem serveDrain_writes {m m1 : Mach} {d : Drain} (h : m.drainLines d.core (m.drainUpTo d) d.epoch = some m1) :
    m.serveDrain d = { m1 with drains := tmap none (fun _ x => x.map (fun y =>
      if y.core == d.core && y.epoch == d.epoch && !y.written then { y with seq := m.drainUpTo d, written := true } else y)) m1.drains } := by
  simp only [Mach.serveDrain, h]
  rfl

theorem steps_drain {d : Drain} {m1 : Mach} (hd : s.m.drainAt id = some d) (hw : d.written = false)
    (ho : s.m.closeOwed (s.m.drainPart d) d.core = false) (hl : s.m.drainLines d.core (s.m.drainUpTo d) d.epoch = some m1) :
    Steps s (.drain id) { m1 with drains := tmap none (fun _ x => x.map (fun y =>
      if y.core == d.core && y.epoch == d.epoch && !y.written then { y with seq := s.m.drainUpTo d, written := true } else y)) m1.drains } :=
  steps_of_stepIf (by unfold exec; exact rfl) (by simp [hd, hw, ho]) (by simp only [hd]; exact serveDrain_writes hl)

theorem steps_drainComplete {d : Drain} (hd : s.m.drainAt id = some d) (hr : s.m.drained d = true) :
    Steps s (.drainComplete id) ((s.m.setDrain id none).modCore d.byCore (fun k => k.noteSatisfied d.w s.m.tick)) :=
  steps_of_stepIf (by unfold exec; exact rfl) (by simp only [hd, hr]) (by simp only [hd])

theorem steps_pinForcedWiden {x : L1Line} {u : Nat} {m1 : Mach} (hx : (s.m.core c).line? ln = some x) (hp : x.pinned = true)
    (hr : x.refusedAt = some u) (hu : u + 65536 ≤ s.m.clock) (hf : s.m.forceWiden c ln = some m1) : Steps s (.pinForcedWiden c ln) m1 :=
  steps_of_stepIf (by unfold exec; exact rfl) (by simp [hx, hp, hr, hu]) (by rw [hf]; rfl)

end

/-! ### The start of a close (R275) -/

section
variable {s : State} {p : Nat}

theorem contains_demandClose (m : Mach) (p : Nat) (e : BitVec 24) : ((m.demandClose p e).part p).ep.demands.contains e = true := by
  simp only [Mach.demandClose, part_modPart, if_pos]
  split
  next h => exact h
  next => simp

/-- With no close under way the open epoch is the one after the last closed. -/
theorem openEpoch_idle {ep : Epochs} (h : ep.closing = none) : ep.openEpoch = ep.closed + 1 := by
  simp [Epochs.openEpoch, h]

theorem steps_epochTimerExpiry (hv : (s.m.part p).v = true) (hc : (s.m.part p).ep.closing = none)
    (ht : (s.m.part p).ep.openedAt + 8192 ≤ s.m.clock) :
    Steps s (.epochTimerExpiry p) (s.m.demandClose p ((s.m.part p).ep.closed + 1)) :=
  steps_of_stepIf (by unfold exec; exact rfl) (by simp [hv, hc, ht]) (by rw [openEpoch_idle hc])

theorem steps_closeEpoch (h : s.m.mayClose p = true) : Steps s (.closeEpoch p) (s.m.startClose p) :=
  steps_of_stepIf (by unfold exec; exact rfl) h rfl

theorem steps_closeSpacingExpiry (h : s.m.mayClose p = true) (hl : (s.m.part p).ep.lastStart.isSome = true) :
    Steps s (.closeSpacingExpiry p) (s.m.startClose p) :=
  steps_of_stepIf (by unfold exec; exact rfl) (by simp only [h, hl, Bool.and_self]) rfl

end

/-! ### The reports of a close, and its end (R277 to R279) -/

section
variable {s : State} {p c slice eng : Nat} {e : BitVec 24}

theorem steps_closeReceipt (hp : s.m.partOfCore c = some p) (ho : s.m.closeOwed p c = true) (he : (s.m.part p).ep.closing = some e) :
    Steps s (.closeReceipt c) (s.m.closeCore p c e) :=
  steps_of_stepIf (by unfold exec; exact rfl) (by simp only [hp, ho]) (by simp only [hp, he])

theorem steps_closeHoldAtHome (hp : s.m.partOf slice = some p) (hc : (s.m.part p).ep.closing.isSome = true)
    (hh : (s.m.part p).ep.holding.contains slice = false) :
    Steps s (.closeHoldAtHome slice) (s.m.modPart p (fun x => { x with ep := { x.ep with holding := slice :: x.ep.holding } })) :=
  steps_of_stepIf (by unfold exec; exact rfl) (by simp only [hp, hc, hh, Bool.not_false, Bool.and_self]) (by simp only [hp])

theorem steps_engineCloseReport (he : (s.m.part p).ep.closing = some e) (hn : eng < (s.m.part p).eng)
    (hd : (s.m.part p).ep.enginesDone.contains eng = false) (ho : s.m.oldWork p e = false) :
    Steps s (.engineCloseReport p eng) (s.m.modPart p (fun x => { x with ep := { x.ep with enginesDone := eng :: x.ep.enginesDone } })) :=
  steps_of_stepIf (by unfold exec; exact rfl) (by simp only [he, hn, hd, ho, decide_true, Bool.not_false, Bool.and_self]) rfl

theorem steps_epochCloseComplete (he : (s.m.part p).ep.closing = some e) (hr : s.m.closeReady p e = true) :
    Steps s (.epochCloseComplete p) (s.m.finishClose p e) :=
  steps_of_stepIf (by unfold exec; exact rfl) (by simp only [he, hr]) (by simp only [he])

/-- A close that no snap asked for leaves C at its epoch, and no close under way. -/
theorem finishClose_closed {m : Mach} (hs : (m.part p).ep.snap = false) :
    ((m.finishClose p e).part p).ep.closed = e ∧ ((m.finishClose p e).part p).ep.closing = none := by
  simp [Mach.finishClose, hs]

theorem steps_doneReceipt (hp : s.m.partOf slice = some p) (hu : (s.m.part p).ep.undone.contains slice = true) :
    Steps s (.doneReceipt slice) (s.m.receiveDone p slice) :=
  steps_of_stepIf (by unfold exec; exact rfl) (by simp only [hp, hu, Bool.true_or]) (by simp only [hp])

end

/-- Settles O50: each step's condition holds, so its effect happens. -/
theorem epochSteps : Obligations.EpochSteps := by
  intro s id c ln p slice eng
  refine ⟨fun d m1 => steps_drain, fun d => steps_drainComplete, fun x u m1 => steps_pinForcedWiden, fun hv hc ht => ⟨?_, ?_⟩, fun h => ⟨?_, ?_⟩,
    fun e => steps_closeReceipt, steps_closeHoldAtHome, fun e => steps_engineCloseReport, fun e he hr => ⟨?_, ?_⟩, steps_doneReceipt⟩
  · exact steps_epochTimerExpiry hv hc ht
  · exact contains_demandClose s.m p _
  · exact steps_closeEpoch h
  · exact steps_closeSpacingExpiry h
  · exact steps_epochCloseComplete he hr
  · exact finishClose_closed

end Sys2Proof.Machine
end

/-! Proofs about the witness words: merges, tests, the fence witness and `widen` (R189 to R192). -/

section
namespace Sys2Proof.Machine
open Sys2Proof.Claims

/-! ### Numbers that are taken (R185) -/

/-- A number that was taken is the core's next of its epoch. -/
theorem nextSeq_ok {m m1 : Mach} {c p : Nat} {q : BitVec 19} {e : BitVec 24} (h : m.nextSeq c p = .ok m1 q e) :
    m1 = m.takeSeq c p ∧ q = (m.core c).seq ∧ e = (m.core c).epoch := by
  obtain ⟨m', why, hh⟩ | hh := nextSeq_cases m c p <;> rw [hh] at h
  · cases h
  · cases h
    exact ⟨rfl, rfl, rfl⟩

@[simp] theorem takeSeq_cur (m : Mach) (c p : Nat) : (m.takeSeq c p).cur = m.cur := by
  obtain ⟨-, h⟩ | ⟨-, -, h⟩ := takeSeq_cases m c p <;> rw [h] <;> rfl

@[simp] theorem takeSeq_partno (m : Mach) (c p : Nat) : (m.takeSeq c p).partno = m.partno := by
  obtain ⟨-, h⟩ | ⟨-, -, h⟩ := takeSeq_cases m c p <;> rw [h] <;> rfl

/-- A core that may store takes its next number (R185, R244). -/
theorem nextSeq_of_mayStore {m : Mach} {q : BitVec 19} {e : BitVec 24} (h : MayStore m q e) :
    m.nextSeq m.cur.1 m.myPart = .ok (m.takeSeq m.cur.1 m.myPart) q e := by
  obtain ⟨hsnap, htaken, -, rfl, rfl⟩ := h
  exact nextSeq_runs hsnap htaken

@[simp] theorem partno_hash (m : Mach) (i : Instr) : (m.hash i).partno = m.partno := by
  rw [Mach.partno, hash_domid]
  rfl

/-! ### The words -/

section
variable {s : State} {h : Hdr}

theorem wide_congr {i : Instr} {e e' : Mach → Mach} (hw : Wide s i h e) (heq : e (s.m.hash i) = e' (s.m.hash i)) : Wide s i h e' := by
  intro hi
  rw [← heq]
  exact hw hi

/-- A null witness is no point of the core's own, and leaves the latest of those as it was (R192). -/
theorem fenceMe_null (m : Mach) : m.fenceMe 0 = m.modMe (fun g => { g with fence := wMerge m g.fence 0 }) := rfl

theorem wide_wfence_null {w : S} (hw : s.m.me.rdS s.m.tick w.toNat = 0) :
    Wide s (.wfence h w) h (fun m => m.modMe (fun g => { g with fence := wMerge m g.fence 0 })) := by
  have hw' : (s.m.hash (.wfence h w)).me.rdS (s.m.hash (.wfence h w)).tick w.toNat = 0 := by rw [rdS_hash, hash_tick, hw]
  refine wide_congr (wide_of_presentNull (by unfold exec; exact rfl) hw hw') ?_
  rw [hw', fenceMe_null]

/-- `widen` waits for nothing, and its number is the one that its run takes. -/
theorem wide_widen {d : S} {m1 : Mach} {q : BitVec 19} {e : BitVec 24}
    (hq : (s.m.hash (.widen h d)).nextSeq s.m.cur.1 s.m.myPart = .ok m1 q e) (hmay : MayStore s.m q e)
    (hstuck : s.m.widenStuck s.m.cur.1 s.m.cur.2 = none) :
    Wide s (.widen h d) h (fun m => (m1.widenAll m.cur.1 m.cur.2).modMe (fun g => g.putS d.toNat (pointW 2 m.partno m.cur.1 q e))) := by
  intro hi
  have hd := does_of_issueWord (by unfold exec; exact rfl) hi rfl (by simp only [hstuck, nextSeq_of_mayStore hmay, ite_self])
  have hm1 := (nextSeq_ok hq).1
  have hcur : m1.cur = s.m.cur := by rw [hm1, takeSeq_cur, hash_cur]
  have hpart : m1.partno = s.m.partno := by rw [hm1, takeSeq_partno, partno_hash]
  simpa only [performs_hash, hash_cur, myPart_hash, hq, hcur, hpart, partno_hash] using hd

end

/-- Settles O41: each word has its effect at once. -/
theorem witnessWords : Obligations.WitnessWords := by
  intro s h d a b w v q e m1
  refine ⟨?wmrg, ?wmrgRed, ?wtest, ?wtestKick, wide_wfence_null, wide_widen⟩
  case wmrg => exact wide_of_wideWord (by unfold exec; exact rfl) (by rw [hash_tick])
  case wmrgRed => exact rewrites_of_issueWord (by unfold exec; exact rfl) rfl rfl (by simp only [hash_tick])
  case wtest => exact wide_of_wideWord (by unfold exec; exact rfl) (by rw [Mach.wtestMe, hash_tick])
  case wtestKick => exact wide_of_wideWord (by unfold exec; exact rfl) (by simp only [Mach.wtestMe, hash_tick])

end Sys2Proof.Machine
end

/-! Refutations of the statements about stores and atomics (R185, R186, R193 to R196). Both ask of a generic word, too, that it goes through
whenever the core may take a number as the word comes to issue. The touch of a generic word's site (R320) may send a message, and the message takes the
next free number of the machine; the word then has another number for its own result than the one by which the machine was asked. In a state whose
group has a load under way with that very number, the word waits behind that load (R186). -/

section
namespace Sys2Proof.Machine
open Sys2Proof.Claims

/-- The header of a word without guard, in sequence. -/
def plainHdr : Hdr := ⟨false, false, ⟨false, 0⟩, .seq⟩

/-- s2 plus v3 of the lane. -/
def padAddr : Addr := .ub 2 3

/-- A generic load, a generic store and a generic atomic of group scope at that address. -/
def padLoad : Instr := .ldG plainHdr 3 .w4 5 padAddr 0 ⟨0, 0, 0⟩
def padStore : Instr := .stG plainHdr 3 .w4 9 padAddr 1 ⟨0, 0, 0⟩
def padAtomic : Instr := .atomG plainHdr 3 .add false false 5 padAddr 1 9 0 ⟨0, 0, 0⟩

/-- A load of group (0, 0) is under way to another part, for the result that the group's next word would take. -/
def loadAtNextId (m : Mach) : Mach :=
  { m with remotes := [(0, some
      { core := 0, slot := 0, outId := m.nextId, home := 1, ports := [], lines := [], spans := [], w := none,
        entry := some (m.entryOf padLoad m.nextId), seq := none, sent := 0 })] }

/-- Lane 0 alone is active; its pointer is byte 0x100 of the team's own scratchpad. -/
def padLane (g : Group) : Group := { g.putS 2 0x1000000000000100 with xm := 1 }

/-- The word placed on a part, its group with that load under way. -/
def behindLoad (i : Instr) : State :=
  let s := placed State.reset (encode i)
  { s with m := loadAtNextId (s.m.modMe padLane) }

/-- The next sequence number of core 0 after a step. -/
def seqOf (o : Host.Outcome State Fault Refusal) : Option (BitVec 19) :=
  match o with
  | .next t => some (t.m.core 0).seq
  | _ => none

/-- Sequencing leaves the numbers of the cores as the word's effect left them. -/
theorem seq_goOn (m m' : Mach) (i : Instr) {h : Hdr} (hn : h.nas = .seq) (c : Nat) : ((m.goOn m' i h).core c).seq = (m'.core c).seq := by
  by_cases he : (m'.group m.cur.1 m.cur.2).status = .ended
  · rw [goOn_ended he]
  · rw [goOn_seq he hn, core_setGroup]
    split
    · subst c; rfl
    · rfl

/-- A word that has the effect `m'` leaves the numbers of `m'`. -/
theorem seqOf_does {s : State} {i : Instr} {m' : Mach} (hd : Does s i plainHdr m') : seqOf (exec i s) = some (m'.core 0).seq := by
  rw [hd]
  exact congrArg some (seq_goOn s.m m' i rfl 0)

/-- A word that waits at that load takes no number, as `Stored` and the statement about atomics ask. -/
theorem seq_not_taken {i : Instr} {m' : Mach} (hnone : seqOf (exec i (behindLoad i)) = some 0) (hd : Does (behindLoad i) i plainHdr m')
    (hcur : (behindLoad i).m.cur.1 = 0) : (m'.core (behindLoad i).m.cur.1).seq ≠ 0 + 1 := by
  rw [seqOf_does hd, Option.some.injEq] at hnone
  rw [hcur, hnone]
  decide

/-- Refutes O38: a generic `st` waits behind the load under way, once the message of its site has taken the number of its result. -/
theorem not_storeWords : ¬ Obligations.StoreWords := by
  intro hall
  obtain ⟨hst, -⟩ := hall (behindLoad padStore) plainHdr 3 .w4 false 9 4 5 padAddr 1 0 ⟨0, 0, 0⟩ .fp32 0 0 0 0
    (by decide +kernel) (by unfold MayStore; decide +kernel) (by unfold Settled; decide +kernel)
  obtain ⟨-, hgen⟩ := hst (by decide +kernel)
  obtain ⟨m', hd, ⟨-, hseq, -⟩, -⟩ := hgen (by decide +kernel) ⟨by decide +kernel, by decide +kernel, by decide +kernel, by decide +kernel⟩
  exact seq_not_taken (by decide +kernel) hd (by decide +kernel) hseq

/-- Refutes O39: a generic `atom` of group scope waits behind the load under way in the same way. -/
theorem not_atomicWords : ¬ Obligations.AtomicWords := by
  intro hall
  obtain ⟨hatom, -⟩ := hall (behindLoad padAtomic) plainHdr 3 .add .add false false 5 1 padAddr 6 7 4 9 0 ⟨0, 0, 0⟩ 0 0
    (by decide +kernel) (by decide +kernel) (by unfold MayStore; decide +kernel)
  obtain ⟨-, hgen⟩ := hatom (by decide +kernel)
  obtain ⟨m', hd, -, -, -, -, -, hseq, -⟩ :=
    hgen (by decide +kernel) ⟨by decide +kernel, by decide +kernel, by decide +kernel, by decide +kernel⟩
  exact seq_not_taken (by decide +kernel) hd (by decide +kernel) hseq

end Sys2Proof.Machine
end

/-! Proofs about memory words on the issuing team's own scratchpad: where their pointers lead, how their reads run, and what the issue makes of
their effect (R29, R173 to R182, R197). -/

section
namespace Sys2Proof.Machine
open Sys2Proof.Claims

/-! ### The machine that a word's run finds -/

/-- `y` is `m` as the run of a word finds it: the word is in SIG (R137), and a generic word has touched its site (R320). -/
structure Mach.Found (m y : Mach) : Prop where
  me : ∃ x, y.me = { m.me with sig := x }
  cur : y.cur = m.cur
  tick : y.tick = m.tick
  clock : y.clock = m.clock
  teams : y.teams = m.teams
  dram : y.dram = m.dram
  cached : y.cached = m.cached
  far : y.far = m.far
  core : ∀ c, (y.core c).sp = (m.core c).sp ∧ (y.core c).l1 = (m.core c).l1 ∧ (y.core c).sbuf = (m.core c).sbuf

theorem found_refl (m : Mach) : m.Found m := ⟨⟨m.me.sig, rfl⟩, rfl, rfl, rfl, rfl, rfl, rfl, rfl, fun _ => ⟨rfl, rfl, rfl⟩⟩

theorem found_hash (m : Mach) (i : Instr) : m.Found (m.hash i) where
  me := me_hash m i
  cur := hash_cur m i
  tick := hash_tick m i
  clock := hash_clock m i
  teams := hash_teams m i
  dram := hash_dram m i
  cached := hash_cached m i
  far := hash_far m i
  core c := by
    obtain ⟨gs, hc⟩ := core_hash m i c
    rw [hc]
    exact ⟨rfl, rfl, rfl⟩

/-- A core after a rewrite of the site cache of the issuing core. -/
theorem core_modSites (m : Mach) (f : List SiteLine → List SiteLine) (c : Nat) :
    ∃ sites, (m.modCore m.cur.1 (fun k => { k with sites := f k.sites })).core c = { m.core c with sites := sites } := by
  rw [core_modCore]
  split
  · subst c; exact ⟨_, rfl⟩
  · exact ⟨(m.core c).sites, rfl⟩

theorem found_touchSite {m y : Mach} (hy : m.Found y) (n : Nat) (attr : BitVec 16) (guard : BitVec 16 → Bool) :
    m.Found (y.touchSite n attr guard) := by
  have hme := me_touchSite y n attr guard
  obtain hm | ⟨f, msgs, id, hm⟩ := touchSite_cases y n attr guard
  · rwa [hm]
  · refine ⟨by rw [hme]; exact hy.me, ?_, ?_, ?_, ?_, ?_, ?_, ?_, fun c => ?_⟩ <;> rw [hm]
    · exact hy.cur
    · exact hy.tick
    · exact hy.clock
    · exact hy.teams
    · exact hy.dram
    · exact hy.cached
    · exact hy.far
    · obtain ⟨sites, hc⟩ := core_modSites y f c
      show ((y.modCore y.cur.1 (fun k => { k with sites := f k.sites })).core c).sp = _ ∧ _
      exact hc ▸ hy.core c

section
variable {m y : Mach} (hy : m.Found y)
include hy

theorem Mach.Found.myTeam : y.myTeam = m.myTeam := by
  obtain ⟨x, hx⟩ := hy.me
  rw [Mach.myTeam, Mach.team, hx, hy.teams]
  rfl

theorem Mach.Found.perf (h : Hdr) : y.me.perf y.tick h = m.me.perf m.tick h := by
  obtain ⟨x, hx⟩ := hy.me
  rw [hx, hy.tick]
  rfl

theorem Mach.Found.rdS (r : Nat) : y.me.rdS y.tick r = m.me.rdS m.tick r := by
  obtain ⟨x, hx⟩ := hy.me
  rw [hx, hy.tick]
  rfl

theorem Mach.Found.ptr (ad : Addr) (l : Nat) : y.me.ptr y.tick ad l = m.me.ptr m.tick ad l := by
  obtain ⟨x, hx⟩ := hy.me
  rw [hx, hy.tick]
  rfl

theorem Mach.Found.sPtr (base : S) (off : W32) : y.me.sPtr y.tick base off = m.me.sPtr m.tick base off := by
  obtain ⟨x, hx⟩ := hy.me
  rw [hx, hy.tick]
  rfl

theorem Mach.Found.xPtr (ad : Addr) (l : Nat) : y.me.xPtr y.tick ad l = m.me.xPtr m.tick ad l := by
  obtain ⟨x, hx⟩ := hy.me
  rw [hx, hy.tick]
  rfl

theorem Mach.Found.notUniform (h : Hdr) (u : Bool) (ad : Addr) : y.me.notUniform y.tick h u ad = m.me.notUniform m.tick h u ad := by
  obtain ⟨x, hx⟩ := hy.me
  rw [hx, hy.tick]
  rfl

theorem Mach.Found.fence : y.me.fence = m.me.fence := by
  obtain ⟨x, hx⟩ := hy.me
  rw [hx]

theorem Mach.Found.pc : y.me.pc = m.me.pc := by
  obtain ⟨x, hx⟩ := hy.me
  rw [hx]

theorem Mach.Found.xm : y.me.xm = m.me.xm := by
  obtain ⟨x, hx⟩ := hy.me
  rw [hx]

theorem Mach.Found.padKey (p : Ptr) : padKey y p = padKey m p := by
  rw [Claims.padKey, hy.myTeam, hy.cur, Claims.padKey]

theorem Mach.Found.ownPad (p : Ptr) (n : Nat) : ownPad y p n = ownPad m p n := by
  rw [Claims.ownPad, hy.myTeam, Claims.ownPad]

theorem Mach.Found.padBytes (p : Ptr) (n : Nat) : padBytes y p n = padBytes m p n := by
  rw [Claims.padBytes, hy.cur, (hy.core _).1, hy.padKey, Claims.padBytes]

theorem Mach.Found.sameDevice : SameDevice m y := ⟨hy.dram, hy.cached, hy.far, fun c => (hy.core c).2.1⟩

end

/-! ### The issue of a memory word -/

/-- The word `i` issues as the memory word `w`: it judges and waits as `w`, and commits `w`'s effect on the machine that its run finds. -/
def IssuesMem (s : State) (i : Instr) (h : Hdr) (w : MemWord) : Prop :=
  ∃ x : Word, exec i s = issueWord i h x s ∧ x.pre s.m = (memWord i w).pre s.m ∧ x.wait s.m = (memWord i w).wait s.m ∧
    ∃ y, s.m.Found y ∧ x.run (s.m.hash i) = y.commit i w

section
variable {s : State} {i : Instr} {h : Hdr} {w : MemWord}

theorem issuesMem_native (he : exec i s = issueWord i h (memWord i w) s) : IssuesMem s i h w :=
  ⟨_, he, rfl, rfl, _, found_hash s.m i, rfl⟩

/-- A generic word whose site's entry is in the core's site cache. -/
theorem issuesMem_generic {n : BitVec 16} {ptrs : Nat → Group → W64 → List W64} {uf : Option Bool}
    (he : exec i s = issueWord i h (memGeneric i h n w ptrs uf) s) (hsite : s.m.siteWait n.toNat = none) : IssuesMem s i h w :=
  ⟨_, he, rfl, by simp only [memGeneric, Word.generic, hsite], _, found_touchSite (found_hash s.m i) _ _ _, rfl⟩

/-- A memory word whose effect goes through as it comes to issue. -/
theorem does_of_issuesMem (hm : IssuesMem s i h w) (hi : Issues s.m i h) {z : Mach} {now later : List PWrite} {ready : Bool}
    {st : Option (BitVec 24)} (heff : w.eff s.m s.m.view = .ok z now later ready st) :
    ∃ y, s.m.Found y ∧ Does s i h (y.commit i w) := by
  obtain ⟨x, he, hpre, hwait, y, hy, hrun⟩ := hm
  refine ⟨y, hy, hrun ▸ does_of_issueWord he hi ?_ ?_⟩
  · simp only [hpre, memWord, heff]
  · simp only [hwait, memWord, heff]

end

/-! ### Accesses of the own scratchpad (R29, R175) -/

/-- The access of `n` bytes at a pointer of lane `l` into the own scratchpad. -/
def padPiece (m : Mach) (l : Nat) (p : Ptr) (n : Nat) : Piece :=
  { lane := l, who := 1#64 <<< l, ptr := p.val, size := n, good := true, loc := .sp m.cur.1 (padKey m p) }

/-- A word that names its space names the scratchpad's. -/
def PadSpace (spc : Option (BitVec 2)) : Prop := spc = none ∨ spc = some 1

theorem padSpace_native {at_ : MAttr} (h : at_.spc = 1) : PadSpace (nativeSpace at_) := .inr (congrArg some h)

theorem inSpace_of_padSpace {spc : Option (BitVec 2)} (h : PadSpace spc) {x : W64} (hx : fld x 60 4 = 1) : inSpace spc x = true := by
  rcases h with rfl | rfl
  · rfl
  · simp [inSpace, hx]

/-- What `ownPad` asks of a pointer. -/
theorem ownPad_iff {m : Mach} {p : Ptr} {n : Nat} : ownPad m p n = true ↔
    p.ok = true ∧ fld p.val 60 4 = 1 ∧ fld p.val 32 28 = 0 ∧ (fld p.val 0 32).toNat + n ≤ spSize m.myTeam.pool ∧ p.val.toNat % n = 0 := by
  simp only [ownPad, Bool.and_eq_true, beq_iff_eq, decide_eq_true_eq, and_assoc]

/-- A scratchpad pointer leads to the own scratchpad, or nowhere. -/
theorem locate_scratch (m : Mach) {p : Ptr} (n : Nat) (write : Bool) (ht : fld p.val 60 4 = 1) : m.locate m.view p n write =
    if p.ok = true ∧ fld p.val 32 28 = 0 ∧ (fld p.val 0 32).toNat + n ≤ spSize m.myTeam.pool then .sp m.cur.1 (padKey m p) else .bad := by
  have h1 : (fld p.val 60 4).toNat = 1 := by rw [ht]; rfl
  cases hok : p.ok
  · simp [Mach.locate, hok]
  · simp only [Mach.locate, hok, h1, Bool.not_true, Bool.false_eq_true, if_false, true_and]
    rfl

theorem piece_of_ownPad {m : Mach} {p : Ptr} {n : Nat} {good : Bool} (hp : ownPad m p n = true) (hg : good = true) (l : Nat) (write : Bool) :
    m.piece m.view l p n good write = padPiece m l p n := by
  obtain ⟨hok, ht, hz, hb, hal⟩ := ownPad_iff.1 hp
  simp only [Mach.piece, locate_scratch m n write ht, hok, hz, hb, hal, hg, padPiece, and_self, if_true, decide_true, Bool.and_self]

/-- An access of a scratchpad pointer passes exactly where it lies, aligned, in the own scratchpad (R180). -/
theorem passes_scratch {m : Mach} {p : Ptr} {n : Nat} {good : Bool} (hg : good = true) (ht : fld p.val 60 4 = 1) (l : Nat) (write : Bool) :
    (m.piece m.view l p n good write).passes write = ownPad m p n := by
  rw [Bool.eq_iff_iff, ownPad_iff]
  simp only [Mach.piece, locate_scratch m n write ht, hg, Piece.passes, Piece.badAddr, Piece.noWrite, Bool.true_and, ht, true_and]
  split
  next h =>
    obtain ⟨hok, hz, hb⟩ := h
    have hbad : (Loc.sp m.cur.1 (padKey m p) == Loc.bad) = false := rfl
    have hmap : (Loc.sp m.cur.1 (padKey m p) != Loc.unmapped) = true := rfl
    simp only [hok, hz, hb, hbad, hmap, Loc.entry, true_and, Bool.or_false, Bool.not_not, Bool.and_true, Bool.and_false, Bool.not_false,
      decide_eq_true_eq]
  next h =>
    simp only [Bool.or_true, beq_self_eq_true, Bool.not_true, Bool.false_and, Bool.false_eq_true, false_iff]
    rintro ⟨hok, hz, hb, -⟩
    exact h ⟨hok, hz, hb⟩

/-- Accesses of scratchpads that meet their word's conditions. -/
def OnPad (ps : List Piece) : Prop := ∀ p ∈ ps, p.good = true ∧ ∃ c key, p.loc = .sp c key

theorem onPad_map {α : Type} {m : Mach} {l : α → Nat} {q : α → Ptr} {n : Nat} (as : List α) : OnPad (as.map (fun a => padPiece m (l a) (q a) n)) := by
  intro p hp
  obtain ⟨a, -, rfl⟩ := List.mem_map.1 hp
  exact ⟨rfl, _, _, rfl⟩

section
variable {ps : List Piece} (hps : OnPad ps)
include hps

theorem OnPad.judge {cannot : Loc → Bool} (hc : ∀ c key, cannot (.sp c key) = false) (write : Bool) : judge ps write cannot = none := by
  have hbad : ps.any Piece.badAddr = false := by
    simp only [List.any_eq_false]
    intro p hp
    obtain ⟨hg, c, key, hl⟩ := hps p hp
    simp [Piece.badAddr, hg, hl]
  have hno : ps.any Piece.noWrite = false := by
    simp only [List.any_eq_false]
    intro p hp
    obtain ⟨-, c, key, hl⟩ := hps p hp
    simp [Piece.noWrite, hl, Loc.entry]
  have hcan : ps.filter (fun p => cannot p.loc) = [] := by
    simp only [List.filter_eq_nil_iff]
    intro p hp
    obtain ⟨-, c, key, hl⟩ := hps p hp
    simp [hl, hc]
  rw [Machine.judge, hbad, hno, hcan]
  simp [raised]

theorem OnPad.faultOf : faultOf ps = none := by
  have h : ps.filter (fun p => p.loc == .unmapped) = [] := by
    simp only [List.filter_eq_nil_iff]
    intro p hp
    obtain ⟨-, c, key, hl⟩ := hps p hp
    simp [hl]
  rw [Machine.faultOf, h]

theorem OnPad.farOf : farOf ps = [] := by
  simp only [Machine.farOf, List.filterMap_eq_nil_iff]
  intro p hp
  obtain ⟨-, c, key, hl⟩ := hps p hp
  simp [hl]

theorem OnPad.spansOf : spansOf ps = [] := by
  simp only [Machine.spansOf, List.filterMap_eq_nil_iff]
  intro p hp
  obtain ⟨-, c, key, hl⟩ := hps p hp
  simp [hl]

end

end Sys2Proof.Machine
end

/-! Proofs about loads of the own scratchpad (R174 to R182). -/

section
namespace Sys2Proof.Machine
open Sys2Proof.Claims

/-! ### Reads of scratchpads -/

/-- The bytes that an access of a scratchpad reads. -/
def Mach.padRead (m : Mach) (p : Piece) : List Byte :=
  match p.loc with
  | .sp c key => m.spRead c key p.size
  | _ => []

theorem readLoc_sp (m : Mach) (v : View) (at_ : MAttr) (ws : List W64) (c key n : Nat) :
    m.readLoc v at_ ws (.sp c key) n = .ok m { bytes := m.spRead c key n, poisoned := false, stamp := none } := rfl

/-- Reads of scratchpads wait for nothing and find no poison and no stamp. -/
theorem readAll_onPad (v : View) (at_ : MAttr) (ws : List W64) {ps : List Piece} (hps : OnPad ps) (m : Mach) (bs : List (Piece × List Byte)) :
    readAll v at_ ws ps { m := m, bytes := bs, stamp := none, bad := none } =
      .ok { m := m, bytes := bs ++ ps.map (fun p => (p, m.padRead p)), stamp := none, bad := none } := by
  induction ps generalizing bs with
  | nil => simp [readAll]
  | cons p ps ih =>
    obtain ⟨-, c, key, hl⟩ := hps p List.mem_cons_self
    have hrd : m.padRead p = m.spRead c key p.size := by rw [Mach.padRead, hl]
    rw [readAll, hl, readLoc_sp]
    simp only [Bool.false_eq_true, if_false, laterStamp]
    rw [ih (fun q hq => hps q (List.mem_cons_of_mem p hq)), hrd.symm]
    simp [hrd]

/-! ### Nothing must enter the L1 first (R178, R270) -/

/-- Where no store of the core is needed, all of them wait on. -/
theorem settleUpTo_none {m : Mach} {c : Nat} {need : Entering → Bool} (hn : ∀ x, need x = false) :
    m.settleUpTo c need =
      .ok ((m.modCore c (fun k => { k with sbuf := [] })).modCore c (fun k => { k with sbuf := (m.core c).sbuf })) := by
  have htake : ((m.core c).sbuf.reverse.takeWhile (fun x => !need x)) = (m.core c).sbuf.reverse :=
    List.takeWhile_eq_self_iff.2 fun x _ => by simp [hn x]
  simp only [Mach.settleUpTo, htake, List.length_reverse, Nat.sub_self, List.take_zero, List.drop_zero, enterAll]

/-- The cores of `z` are those of `m`, and so is all the rest. -/
structure Mach.SameAll (m z : Mach) : Prop where
  cur : z.cur = m.cur
  clock : z.clock = m.clock
  dram : z.dram = m.dram
  cached : z.cached = m.cached
  far : z.far = m.far
  core : ∀ c, z.core c = m.core c

theorem sameAll_refl (m : Mach) : m.SameAll m := ⟨rfl, rfl, rfl, rfl, rfl, fun _ => rfl⟩

/-- A load whose witnesses are null and that reaches no byte of a store waits for no store. -/
theorem settleFor_null {m : Mach} {v : View} {w : W64} {ps : List Piece} (hw : w = 0) (hps : spansOf ps = [])
    (hf : v.g.fence = 0 ∨ (m.core v.core).sbuf = []) : ∃ z, m.settleFor v [w, v.g.fence] ps = .ok z ∧ m.SameAll z := by
  unfold Mach.settleFor
  by_cases hb : (m.core v.core).sbuf = []
  · exact ⟨m, by simp [hb], sameAll_refl m⟩
  · have hnull : ∀ x, m.coversOwn v.core (0#64) x = false := fun _ => rfl
    rw [if_neg (by simpa using hb), settleUpTo_none (by simp [hw, hf.resolve_right hb, hnull, hps])]
    refine ⟨_, rfl, rfl, rfl, rfl, rfl, rfl, fun d => ?_⟩
    simp only [core_modCore, if_true]
    split
    next hd => rw [hd]
    next => rfl

section
variable {m z : Mach} (hz : m.SameAll z)
include hz

theorem Mach.SameAll.me : z.me = m.me := by
  rw [Mach.me, Mach.group, hz.core, hz.cur]
  rfl

theorem Mach.SameAll.padRead (p : Piece) : z.padRead p = m.padRead p := by
  unfold Mach.padRead Mach.spRead
  split
  · rw [hz.core]
  · rfl

theorem Mach.SameAll.sameDevice : SameDevice m z := ⟨hz.dram, hz.cached, hz.far, fun c => congrArg Core.l1 (hz.core c)⟩

end

theorem sameDevice_trans {a b c : Mach} (h : SameDevice a b) (h' : SameDevice b c) : SameDevice a c := by
  obtain ⟨h1, h2, h3, h4⟩ := h
  obtain ⟨k1, k2, k3, k4⟩ := h'
  exact ⟨k1.trans h1, k2.trans h2, k3.trans h3, fun d => (k4 d).trans (h4 d)⟩

/-! ### The issue's last act: the next number for results, and the group -/

section
variable (m : Mach) (n : Nat) (f : Group → Group)

/-- The machine with `n` as its next number for results, its issuing group rewritten. -/
def Mach.finish : Mach := ({ m with nextId := n } : Mach).modMe f

theorem me_finish : (m.finish n f).me = f m.me := me_modMe _ _

theorem core_finish (c : Nat) : ((m.finish n f).core c).sp = (m.core c).sp ∧ ((m.finish n f).core c).l1 = (m.core c).l1 ∧
    ((m.finish n f).core c).seq = (m.core c).seq := by
  rw [Mach.finish, Mach.modMe, core_setMe]
  split <;> exact ⟨rfl, rfl, rfl⟩

theorem sameDevice_finish : SameDevice m (m.finish n f) := ⟨rfl, rfl, rfl, fun c => (core_finish m n f c).2.1⟩

end

/-- A word whose effect goes through leaves its results in the issuing group. -/
theorem commit_eq_finish {y z : Mach} {i : Instr} {w : MemWord} {now later : List PWrite} {ready : Bool} {st : Option (BitVec 24)}
    (heff : w.eff y y.view = .ok z now later ready st) :
    y.commit i w = z.finish (max z.nextId (y.nextId + 1)) (fun g => (now.foldl Group.put g).addOuts y.nextId later ready st) := by
  simp only [Mach.commit, heff, Mach.finish]

/-! ### A load that performs at issue (R177) -/

/-- The results of a load of the own scratchpad that presents the null witness. -/
theorem loadWord_onPad {y : Mach} {at_ : MAttr} {ps : List Piece} {more : Beside} {fill : List (Piece × List Byte) → List PWrite}
    (hps : OnPad ps) (hmore : more.spans = []) (hf : y.me.fence = 0 ∨ (y.core y.cur.1).sbuf = []) :
    ∃ z, y.loadWord y.view at_ 0 none ps more fill = .ok z [] (fill (ps.map (fun p => (p, y.padRead p)))) true none ∧ y.SameAll z := by
  obtain ⟨z, hz, hsame⟩ := settleFor_null (m := y) (v := y.view) (w := 0) rfl hps.spansOf hf
  refine ⟨z, ?_, hsame⟩
  have hlate : ∀ v : View, y.loadsLate v false [] = false := fun v => by simp [Mach.loadsLate]
  have hread : readSettled y.view at_ [0, y.view.g.fence] ps { m := y, bytes := [], stamp := none, bad := none } =
      .ok { m := z, bytes := ps.map (fun p => (p, z.padRead p)), stamp := none, bad := none } := by
    rw [readSettled, hz]
    exact readAll_onPad _ _ _ hps z []
  have hjudge : judge ps false (fun _ => false) = none := hps.judge (fun _ _ => rfl) false
  simp only [Mach.loadWord, hjudge, presentTrap_null, hps.faultOf, Mach.presentOnce, Mach.presenting, present_null,
    hps.farOf, hps.spansOf, hmore, List.isEmpty_nil, Bool.not_true, Bool.false_and, Bool.false_eq_true, if_false, List.append_nil, hlate, hread,
    hsame.padRead, ite_self]

/-- A load whose effect, on every machine that its run may find, is its results alone. -/
theorem loaded_of_issuesMem {s : State} {i : Instr} {h : Hdr} {w : MemWord} {ws : List PWrite} (hm : IssuesMem s i h w) (hne : ws ≠ [])
    (heff : ∀ y, s.m.Found y → ∃ z, w.eff y y.view = .ok z [] ws true none ∧ y.SameAll z) (hi : Issues s.m i h) :
    ∃ m', Does s i h m' ∧ Loaded s.m m' ws := by
  obtain ⟨z0, hz0, -⟩ := heff s.m (found_refl s.m)
  obtain ⟨y, hy, hd⟩ := does_of_issuesMem hm hi hz0
  obtain ⟨z, hz, hsame⟩ := heff y hy
  refine ⟨_, hd, ?_⟩
  obtain ⟨x, hx⟩ := hy.me
  have hws : ws.isEmpty = false := by simpa using hne
  rw [commit_eq_finish hz]
  unfold Loaded
  rw [me_finish, hsame.me, hx]
  simp only [List.foldl_nil, Group.addOuts, hws, Bool.false_eq_true, if_false]
  refine ⟨⟨_, rfl⟩, trivial, trivial, trivial, ?_, fun c => ?_⟩
  · exact sameDevice_trans hy.sameDevice (sameDevice_trans hsame.sameDevice (sameDevice_finish z _ _))
  · rw [(core_finish z _ _ c).1, hsame.core, (hy.core c).1]

end Sys2Proof.Machine
end

/-! Proofs about the load words on the own scratchpad, native and generic (R177 to R182). -/

section
namespace Sys2Proof.Machine
open Sys2Proof.Claims

/-! ### The loads (R177 to R182) -/

theorem lanePieces_onPad {y : Mach} {lanes : List Nat} {spc : Option (BitVec 2)} (hs : PadSpace spc) {ad : Addr} {n : Nat}
    (h : ∀ l ∈ lanes, ownPad y (y.me.ptr y.tick ad l) n = true) (write : Bool) :
    y.lanePieces y.view lanes spc ad n write = lanes.map (fun l => padPiece y l (y.me.ptr y.tick ad l) n) :=
  List.map_congr_left fun l hl => piece_of_ownPad (h l hl) (inSpace_of_padSpace hs (ownPad_iff.1 (h l hl)).2.1) l write

theorem notUniform_none {g : Group} {t : Nat} {h : Hdr} {u : Bool} {ad : Addr} (hu : u = true → allEq (lanePtrs ad t g g.xm) = true) :
    g.notUniform t h u ad = none := by
  cases u
  · rfl
  · simp [Group.notUniform, hu rfl]

/-- The access of lane `l` at a pointer, as a load of space `spc` judges it. -/
def Mach.loadPiece (m : Mach) (spc : Option (BitVec 2)) (n l : Nat) (p : Ptr) : Piece := m.piece m.view l p n (inSpace spc p.val) false

theorem filter_map_of {α β : Type} {f : α → β} {p : β → Bool} {q : α → Bool} {l : List α} (h : ∀ a ∈ l, p (f a) = q a) :
    (l.map f).filter p = (l.filter q).map f := by
  rw [List.filter_map]
  exact congrArg (List.map f) (List.filter_congr h)

/-- The registers of lane `l` that a span of the bytes `bs` fills (R174). -/
def spanOf (z : Sz) (d : V) (l : Nat) (bs : List Byte) : List PWrite :=
  (List.range (szRegs z)).map (fun j => wV (d.toNat + j) l (loadedReg z bs j))

theorem spanOf_ne_nil (z : Sz) (d : V) (l : Nat) (bs : List Byte) : spanOf z d l bs ≠ [] := by
  cases z <;> simp [spanOf, szRegs]

theorem flatMap_ne_nil {α β : Type} {l : List α} {f : α → List β} (hl : l ≠ []) (hf : ∀ a ∈ l, f a ≠ []) : l.flatMap f ≠ [] := by
  obtain ⟨a, ha⟩ := List.exists_mem_of_ne_nil l hl
  exact fun h => hf a ha (List.flatMap_eq_nil_iff.1 h a ha)

section
variable {s : State} {h : Hdr} {y : Mach} {w : S} {at_ : MAttr} {spc : Option (BitVec 2)}
variable (hy : s.m.Found y) (hw : s.m.me.rdS s.m.tick w.toNat = 0) (hl : lanes s h ≠ []) (hf : s.m.me.fence = 0 ∨ Settled s.m)
  (hs : PadSpace spc)
include hy

theorem Mach.Found.lanes : lanesOf (y.view.g.perf y.tick h) = lanes s h := congrArg lanesOf (hy.perf h)

include hf in
/-- The fence and the stores under way are as they were as the word came to issue. -/
theorem Mach.Found.settled : y.me.fence = 0 ∨ (y.core y.cur.1).sbuf = [] := by
  rw [hy.fence, hy.cur, (hy.core _).2.2]
  exact hf

include hl hs

/-- The one access of a group-wide word, under its lowest performing lane. -/
theorem onePiece_onPad {p : Ptr} {n : Nat} (hp : ownPad s.m p n = true) (write : Bool) :
    ∃ l, y.onePiece y.view h spc p n write = [{ padPiece y l p n with who := y.view.g.xm }] := by
  obtain ⟨l, hlow⟩ : ∃ l, lowest (y.view.g.perf y.tick h) = some l := by
    rw [lowest, hy.lanes]
    exact ⟨_, List.head?_eq_some_head hl⟩
  rw [← hy.ownPad] at hp
  refine ⟨l, ?_⟩
  rw [Mach.onePiece, hlow]
  simp only [piece_of_ownPad hp (inSpace_of_padSpace hs (ownPad_iff.1 hp).2.1)]

include hw hf

theorem eff_ld {z : Sz} {u : Bool} {d : V} {ad : Addr} (hu : u = true → allEq (lanePtrs ad s.m.tick s.m.me s.m.me.xm) = true)
    (hp : ∀ l ∈ lanes s h, ownPad s.m (s.m.me.ptr s.m.tick ad l) (szBytes z) = true) :
    ∃ x, (ldWord h spc z u d ad w at_).eff y y.view =
      .ok x [] ((lanes s h).flatMap (fun l => spanOf z d l (padBytes s.m (s.m.me.ptr s.m.tick ad l) (szBytes z)))) true none ∧ y.SameAll x := by
  have hps : y.lanePieces y.view (lanes s h) spc ad (szBytes z) false =
      (lanes s h).map (fun l => padPiece y l (s.m.me.ptr s.m.tick ad l) (szBytes z)) := by
    refine (lanePieces_onPad hs (fun l hl => ?_) false).trans (by simp only [hy.ptr])
    rw [hy.ptr, hy.ownPad]
    exact hp l hl
  obtain ⟨x, hx, hsame⟩ := loadWord_onPad (at_ := at_) (more := {}) (fill := spanWrites z d)
    (onPad_map (m := y) (l := id) (q := fun l => s.m.me.ptr s.m.tick ad l) (n := szBytes z) (lanes s h)) rfl (hy.settled hf)
  refine ⟨x, ?_, hsame⟩
  have hne : ((lanes s h).map (fun l => padPiece y l (s.m.me.ptr s.m.tick ad l) (szBytes z))).isEmpty = false := by simpa using hl
  have hnu : y.view.g.notUniform y.tick h u ad = none := (hy.notUniform h u ad).trans (notUniform_none hu)
  have hwit : y.view.g.rdS y.tick w.toNat = 0 := (hy.rdS _).trans hw
  simp only [ldWord, hy.lanes, hps, hne, hnu, hwit, Bool.false_eq_true, if_false]
  refine hx.trans ?_
  simp only [spanWrites, List.map_map, List.flatMap_map, Function.comp_apply]
  refine congrArg (fun ws => MemRes.ok x [] ws true none) (List.flatMap_congr fun l _ => ?_)
  rw [← hy.padBytes]
  rfl

theorem eff_lds {z : Sz} {d base : S} {off : W32} (hp : ownPad s.m (s.m.me.sPtr s.m.tick base off) (szBytes z) = true) :
    ∃ x, (ldsWord h spc z d base off w at_).eff y y.view =
      .ok x [] [wS d.toNat (loadedS z (padBytes s.m (s.m.me.sPtr s.m.tick base off) (szBytes z)))] true none ∧ y.SameAll x := by
  obtain ⟨l, hone⟩ := onePiece_onPad hy hl hs hp false
  have hon : OnPad [{ padPiece y l (s.m.me.sPtr s.m.tick base off) (szBytes z) with who := y.view.g.xm }] := by
    intro q hq
    rw [List.mem_singleton.1 hq]
    exact ⟨rfl, _, _, rfl⟩
  obtain ⟨x, hx, hsame⟩ := loadWord_onPad (at_ := at_) (more := {}) (fill := fun rs => rs.map (fun r => wS d.toNat (loadedS z r.2)))
    hon rfl (hy.settled hf)
  refine ⟨x, ?_, hsame⟩
  have hwit : y.view.g.rdS y.tick w.toNat = 0 := (hy.rdS _).trans hw
  have hptr : y.view.g.sPtr y.tick base off = s.m.me.sPtr s.m.tick base off := hy.sPtr base off
  simp only [ldsWord, hptr, hone, hwit, List.isEmpty_cons, Bool.false_eq_true, if_false]
  refine hx.trans ?_
  rw [← hy.padBytes]
  rfl

/-- A lane of `ldt` passes exactly where its access lies, aligned, in the own scratchpad (R180). -/
theorem eff_ldt {z : Sz} {d : V} {q : P} {ad : Addr} (hp : ∀ l ∈ lanes s h, fld (s.m.me.ptr s.m.tick ad l).val 60 4 = 1) :
    let ok := (lanes s h).filter (fun l => ownPad s.m (s.m.me.ptr s.m.tick ad l) (szBytes z))
    let bad := (lanes s h).filter (fun l => !ownPad s.m (s.m.me.ptr s.m.tick ad l) (szBytes z))
    ∃ x, (ldtWord h spc z d q ad w at_).eff y y.view =
      .ok x [] (ok.flatMap (fun l => spanOf z d l (padBytes s.m (s.m.me.ptr s.m.tick ad l) (szBytes z))) ++
        ok.map (fun l => wP q.toNat l true) ++ bad.flatMap (fun l => (List.range (szRegs z)).map (fun j => wV (d.toNat + j) l 0)) ++
        bad.map (fun l => wP q.toNat l false)) true none ∧ y.SameAll x := by
  intro ok bad
  have hall : y.lanePieces y.view (lanes s h) spc ad (szBytes z) false =
      (lanes s h).map (fun l => y.loadPiece spc (szBytes z) l (s.m.me.ptr s.m.tick ad l)) :=
    List.map_congr_left fun l _ => by rw [← hy.ptr]; rfl
  have hpass : ∀ l ∈ lanes s h, (y.loadPiece spc (szBytes z) l (s.m.me.ptr s.m.tick ad l)).passes false =
      ownPad s.m (s.m.me.ptr s.m.tick ad l) (szBytes z) := fun l hl => by
    rw [← hy.ownPad]
    exact passes_scratch (inSpace_of_padSpace hs (hp l hl)) (hp l hl) l false
  have hok : ((lanes s h).map (fun l => y.loadPiece spc (szBytes z) l (s.m.me.ptr s.m.tick ad l))).filter (fun p => p.passes false) =
      ok.map (fun l => padPiece y l (s.m.me.ptr s.m.tick ad l) (szBytes z)) := by
    refine (filter_map_of hpass).trans (List.map_congr_left fun l hl => ?_)
    obtain ⟨hmem, hown⟩ := List.mem_filter.1 hl
    exact piece_of_ownPad (by rw [hy.ownPad]; exact hown) (inSpace_of_padSpace hs (hp l hmem)) l false
  have hbad : ((lanes s h).map (fun l => y.loadPiece spc (szBytes z) l (s.m.me.ptr s.m.tick ad l))).filter (fun p => !p.passes false) =
      bad.map (fun l => y.loadPiece spc (szBytes z) l (s.m.me.ptr s.m.tick ad l)) :=
    filter_map_of fun l hl => congrArg not (hpass l hl)
  obtain ⟨x, hx, hsame⟩ := loadWord_onPad (at_ := at_) (more := {})
    (fill := fun rs => spanWrites z d rs ++ (ok.map (fun l => padPiece y l (s.m.me.ptr s.m.tick ad l) (szBytes z))).map (fun p => wP q.toNat p.lane true) ++
      (bad.map (fun l => y.loadPiece spc (szBytes z) l (s.m.me.ptr s.m.tick ad l))).flatMap (fun p => (List.range (szRegs z)).map (fun j => wV (d.toNat + j) p.lane 0)) ++
      (bad.map (fun l => y.loadPiece spc (szBytes z) l (s.m.me.ptr s.m.tick ad l))).map (fun p => wP q.toNat p.lane false))
    (onPad_map (m := y) (l := id) (q := fun l => s.m.me.ptr s.m.tick ad l) (n := szBytes z) ok) rfl (hy.settled hf)
  refine ⟨x, ?_, hsame⟩
  have hne : ((lanes s h).map (fun l => y.loadPiece spc (szBytes z) l (s.m.me.ptr s.m.tick ad l))).isEmpty = false := by simpa using hl
  have hwit : y.view.g.rdS y.tick w.toNat = 0 := (hy.rdS _).trans hw
  simp only [ldtWord, hy.lanes, hall, hne, hok, hbad, hwit, Bool.false_eq_true, if_false]
  refine hx.trans ?_
  simp only [spanWrites, List.map_map, List.flatMap_map, Function.comp_def]
  refine congrArg (fun ws => MemRes.ok x [] (ws ++ _ ++ _ ++ _) true none) (List.flatMap_congr fun l _ => ?_)
  rw [← hy.padBytes]
  rfl

end

/-! ### `ldx` (R181, R182) -/

/-- The pointer of element `j` of a lane whose P and element index are `pk` (R182). -/
def elemPtr (f : VF) (pk : Ptr × Nat) (j : Nat) : Ptr :=
  { ptrAdd pk.1.val ((pk.2 + j) * vfBytes f) with ok := (ptrAdd pk.1.val ((pk.2 + j) * vfBytes f)).ok && pk.1.ok }

theorem ownPad_xAt (m : Mach) (g : Group) (t : Nat) (ad : Addr) (q : Ptr) (n : Nat) : ownPad m (g.xAt t ad q) n = ownPad m q n := by
  cases ad <;> rfl

theorem padPiece_xAt (m : Mach) (g : Group) (t : Nat) (ad : Addr) (q : Ptr) (l n : Nat) :
    padPiece m l (g.xAt t ad q) n = padPiece m l q n := by
  cases ad <;> rfl

/-- Only pages of the global space carry a format tag (R181). -/
theorem tagOf_scratch (m : Mach) (v : View) {p : Ptr} (write : Bool) (h : fld p.val 60 4 = 1) : m.tagOf v p write = 0 := by
  rw [Mach.tagOf, if_pos (by rw [h]; decide)]

/-- The accesses of a lane into the own scratchpad, one an element. -/
def padElems (m : Mach) (f : VF) (cnt l : Nat) (pk : Ptr × Nat) : List Piece :=
  (List.range cnt).map (fun j => padPiece m l (elemPtr f pk j) (vfBytes f))

/-- What the statements ask of the pointers of `ldx` and `stx`. -/
def ElemsOnPad (m : Mach) (f : VF) (cnt : Nat) (pk : Ptr × Nat) : Prop :=
  fld pk.1.val 60 4 = 1 ∧ pk.1.val.toNat % vfBytes f = 0 ∧ ∀ j < cnt, ownPad m (elemPtr f pk j) (vfBytes f) = true

theorem xPieces_onPad {m : Mach} {spc : Option (BitVec 2)} (hs : PadSpace spc) {f : VF} {n : Nat} {ad : Addr} {l : Nat} (write : Bool)
    (h : ElemsOnPad m f (n * vfPer f) (m.me.xPtr m.tick ad l)) :
    m.xPieces m.view spc f n ad l write = padElems m f (n * vfPer f) l (m.me.xPtr m.tick ad l) := by
  obtain ⟨ht, hal, hown⟩ := h
  have hglobal : ¬ fld (m.me.xPtr m.tick ad l).1.val 60 4 = 0 := by rw [ht]; decide
  have hv : m.view.g.xPtr m.tick ad l = m.me.xPtr m.tick ad l := rfl
  simp only [Mach.xPieces, hv, hglobal, false_and, if_false, tagOf_scratch m m.view write ht, if_true]
  refine List.map_congr_left fun j hj => ?_
  rw [← padPiece_xAt m m.view.g m.tick ad]
  refine piece_of_ownPad ?_ (by rw [inSpace_of_padSpace hs ht, hal]; rfl) l write
  rw [ownPad_xAt]
  exact hown j (List.mem_range.1 hj)

theorem onPad_flatMap {m : Mach} {f : VF} {cnt : Nat} {pk : Nat → Ptr × Nat} (ls : List Nat) :
    OnPad (ls.flatMap (fun l => padElems m f cnt l (pk l))) := by
  intro p hp
  obtain ⟨l, -, hpl⟩ := List.mem_flatMap.1 hp
  obtain ⟨j, -, rfl⟩ := List.mem_map.1 hpl
  exact ⟨rfl, _, _, rfl⟩

theorem lanes_nodup (x : W64) : (lanesOf x).Nodup := List.nodup_range.filter _

/-- Of the accesses of several lanes, those of one of them. -/
theorem filter_lane_flatMap {g : Nat → List Piece} (hg : ∀ l, ∀ p ∈ g l, p.lane = l) {ls : List Nat} (hn : ls.Nodup) {l : Nat} (hl : l ∈ ls) :
    (ls.flatMap g).filter (fun p => p.lane == l) = g l := by
  have hother : ∀ k ≠ l, (g k).filter (fun p => p.lane == l) = [] := fun k hk =>
    List.filter_eq_nil_iff.2 fun p hp => by simp [hg k p hp, hk]
  have hnone : ∀ ks : List Nat, l ∉ ks → (ks.flatMap g).filter (fun p => p.lane == l) = [] := fun ks hks => by
    rw [List.filter_flatMap, List.flatMap_eq_nil_iff]
    exact fun k hk => hother k fun e => hks (e ▸ hk)
  induction ls with
  | nil => cases hl
  | cons k ls ih =>
    obtain ⟨hk, hn⟩ := List.nodup_cons.1 hn
    rw [List.flatMap_cons, List.filter_append]
    by_cases he : k = l
    · subst he
      rw [hnone ls hk, List.append_nil]
      exact List.filter_eq_self.2 fun p hp => by simp [hg k p hp]
    · rw [hother k he, List.nil_append]
      exact ih hn ((List.mem_cons.1 hl).resolve_left (Ne.symm he))

/-- The bytes that a lane's accesses have read, element by element. -/
theorem laneBytes_padElems {m y : Mach} {f : VF} {cnt : Nat} {pk : Nat → Ptr × Nat} {ls : List Nat} (hn : ls.Nodup) {l : Nat} (hl : l ∈ ls) :
    laneBytes ((ls.flatMap (fun l => padElems m f cnt l (pk l))).map (fun p => (p, y.padRead p))) l =
      (List.range cnt).map (fun j => y.padRead (padPiece m l (elemPtr f (pk l) j) (vfBytes f))) := by
  have hlane : ∀ l, ∀ p ∈ padElems m f cnt l (pk l), p.lane = l := fun l p hp => by
    obtain ⟨j, -, rfl⟩ := List.mem_map.1 hp
    rfl
  rw [laneBytes, List.filter_map]
  refine (congrArg (List.map Prod.snd) (congrArg (List.map _) (filter_lane_flatMap hlane hn hl))).trans ?_
  simp only [padElems, List.map_map, Function.comp_def]

section
variable {s : State} {h : Hdr} {y : Mach} {w : S} {at_ : MAttr} {spc : Option (BitVec 2)}
variable (hy : s.m.Found y) (hw : s.m.me.rdS s.m.tick w.toNat = 0) (hl : lanes s h ≠ []) (hf : s.m.me.fence = 0 ∨ Settled s.m)
  (hs : PadSpace spc)
include hy

theorem Mach.Found.elemsOnPad {f : VF} {cnt : Nat} {ad : Addr} {l : Nat} (h : ElemsOnPad s.m f cnt (s.m.me.xPtr s.m.tick ad l)) :
    ElemsOnPad y f cnt (y.me.xPtr y.tick ad l) := by
  obtain ⟨ht, hal, hown⟩ := h
  rw [hy.xPtr]
  exact ⟨ht, hal, fun j hj => by rw [hy.ownPad]; exact hown j hj⟩

include hw hl hf hs

theorem eff_ldx {cnt : BitVec 2} {f : VF} {d : V} {ad : Addr}
    (hp : ∀ l ∈ lanes s h, ElemsOnPad s.m f (2 ^ cnt.toNat * vfPer f) (s.m.me.xPtr s.m.tick ad l)) :
    ∃ x, (ldxWord h spc cnt f d ad w at_).eff y y.view =
      .ok x [] ((lanes s h).flatMap (fun l => (List.range (2 ^ cnt.toNat)).map (fun j => wV (d.toNat + j) l (packElems f
        ((List.range (2 ^ cnt.toNat * vfPer f)).map (fun j =>
          natOf (padBytes s.m (elemPtr f (s.m.me.xPtr s.m.tick ad l) j) (vfBytes f)))) j)))) true none ∧ y.SameAll x := by
  have hps : (lanes s h).flatMap (fun l => y.xPieces y.view spc f (2 ^ cnt.toNat) ad l false) =
      (lanes s h).flatMap (fun l => padElems y f (2 ^ cnt.toNat * vfPer f) l (s.m.me.xPtr s.m.tick ad l)) :=
    List.flatMap_congr fun l hl => by rw [xPieces_onPad hs false (hy.elemsOnPad (hp l hl)), hy.xPtr]
  have htag : ∀ l ∈ lanes s h, y.tagOf y.view (y.view.g.xPtr y.tick ad l).1 false = 0 := fun l hl =>
    tagOf_scratch y y.view false (hy.elemsOnPad (hp l hl)).1
  have htagged : (lanes s h).filter (fun l => y.tagOf y.view (y.view.g.xPtr y.tick ad l).1 false != 0) = [] :=
    List.filter_eq_nil_iff.2 fun l hl => by simp [htag l hl]
  have hper : 0 < 2 ^ cnt.toNat * vfPer f := Nat.mul_pos (Nat.two_pow_pos _) (by cases f <;> decide)
  have hne : ((lanes s h).flatMap (fun l => padElems y f (2 ^ cnt.toNat * vfPer f) l (s.m.me.xPtr s.m.tick ad l))).isEmpty = false := by
    rw [List.isEmpty_eq_false_iff]
    exact flatMap_ne_nil hl fun l _ hnil => by simp [padElems, hper.ne'] at hnil
  obtain ⟨x, hx, hsame⟩ := loadWord_onPad (at_ := at_) (more := { y.unitsElsewhere y.view f (2 ^ cnt.toNat) ad [] false with spans := [] })
    (fill := fun cs => y.xResults y.view f (2 ^ cnt.toNat) d ad (lanes s h) cs [])
    (onPad_flatMap (m := y) (f := f) (cnt := 2 ^ cnt.toNat * vfPer f) (pk := s.m.me.xPtr s.m.tick ad) (lanes s h)) rfl (hy.settled hf)
  refine ⟨x, ?_, hsame⟩
  have hwit : y.view.g.rdS y.tick w.toNat = 0 := (hy.rdS _).trans hw
  have hspans : unitSpans (((lanes s h).flatMap (fun l => padElems y f (2 ^ cnt.toNat * vfPer f) l (s.m.me.xPtr s.m.tick ad l))).filter
      (fun p => ([] : List Nat).contains p.lane)) = [] := by
    rw [List.filter_eq_nil_iff.2 fun p _ => by simp]
    rfl
  simp only [ldxWord, hy.lanes, hps, htagged, hne, hwit, hspans, hx, Bool.false_eq_true, if_false, List.isEmpty_nil, if_true]
  refine congrArg (fun ws => MemRes.ok x [] ws true none) (List.flatMap_congr fun l hl => ?_)
  simp only [htag l hl, if_true, laneBytes_padElems (ls := lanes s h) (lanes_nodup _) hl, plainElems, List.map_map, Function.comp_def]
  refine List.map_congr_left fun j _ => congrArg (wV _ l) (congrArg (packElems f · j) (List.map_congr_left fun e _ => ?_))
  rw [← hy.padBytes]
  rfl

end

/-! ### O37 -/

/-- Settles O37: on every machine that such a word's run may find, its effect is its results alone (`eff_ld`, `eff_lds`, `eff_ldx`, `eff_ldt`). -/
theorem loadWords : Obligations.LoadWords := by
  intro s h n z u d ad w sd base off at_ f cnt q m t g ptr sp span xp xs loads hw hl hf
  have hper : ∀ l, xs l ≠ [] := fun l => by simp [xs]
  refine ⟨fun hp => ?_, fun hp => ?_, fun hp => ?_, fun hp => ?_⟩
  · have hne := flatMap_ne_nil hl fun l _ => spanOf_ne_nil z d l (padBytes m (ptr l) (szBytes z))
    exact ⟨fun hspc hu => loaded_of_issuesMem (issuesMem_native rfl) hne fun y hy => eff_ld hy hw hl hf (padSpace_native hspc) hu hp,
      fun hsite => loaded_of_issuesMem (issuesMem_generic rfl hsite) hne fun y hy => eff_ld hy hw hl hf (.inl rfl) nofun hp⟩
  · have hne : [wS sd.toNat (loadedS z (padBytes m sp (szBytes z)))] ≠ [] := List.cons_ne_nil _ _
    exact ⟨fun hspc => loaded_of_issuesMem (issuesMem_native rfl) hne fun y hy => eff_lds hy hw hl hf (padSpace_native hspc) hp,
      fun hsite => loaded_of_issuesMem (issuesMem_generic rfl hsite) hne fun y hy => eff_lds hy hw hl hf (.inl rfl) hp⟩
  · have hne := flatMap_ne_nil hl fun l _ => hper l
    exact ⟨fun hspc => loaded_of_issuesMem (issuesMem_native rfl) hne fun y hy => eff_ldx hy hw hl hf (padSpace_native hspc) hp,
      fun hsite => loaded_of_issuesMem (issuesMem_generic rfl hsite) hne fun y hy => eff_ldx hy hw hl hf (.inl rfl) hp⟩
  · intro ok bad ws
    have hne : ws ≠ [] := by
      intro hnil
      obtain ⟨⟨⟨-, hok⟩, -⟩, hbad⟩ : ((_ ∧ ok.map (fun l => wP q.toNat l true) = []) ∧ _) ∧ bad.map (fun l => wP q.toNat l false) = [] := by
        simpa only [ws, List.append_eq_nil_iff] using hnil
      obtain ⟨l, hmem⟩ := List.exists_mem_of_ne_nil _ hl
      have hnot := List.filter_eq_nil_iff.1 (List.map_eq_nil_iff.1 hok) l hmem
      exact absurd (List.filter_eq_nil_iff.1 (List.map_eq_nil_iff.1 hbad) l hmem) (by simpa using hnot)
    exact ⟨fun hspc => loaded_of_issuesMem (issuesMem_native rfl) hne fun y hy => eff_ldt hy hw hl hf (padSpace_native hspc) hp,
      fun hsite => loaded_of_issuesMem (issuesMem_generic rfl hsite) hne fun y hy => eff_ldt hy hw hl hf (.inl rfl) hp⟩

end Sys2Proof.Machine
end

/-! Proofs about `waita` on the own scratchpad (R197). -/

section
namespace Sys2Proof.Machine
open Sys2Proof.Claims

/-! ### Results written at once into vector registers -/

/-- The writes of `ws` go to vector registers. -/
def ToVector (ws : List PWrite) : Prop := ∀ w ∈ ws, ∃ r l x, w = wV r l x

theorem put_wV (g : Group) (r l : Nat) (x : W32) : g.put (wV r l x) = g.putV r l x := by
  simp [Group.put, wV]

/-- What writes of vector registers make of two groups that differ in SIG. -/
theorem foldl_put_vector {ws : List PWrite} (hws : ToVector ws) {g : Group} {sig : W32} {g' : Group} (hg : g' = { g with sig := sig }) :
    (ws.foldl Group.put g').v = (ws.foldl Group.put g).v ∧ (ws.foldl Group.put g').s = g.s ∧ (ws.foldl Group.put g').p = g.p ∧
      (ws.foldl Group.put g').outs.map (·.id) = g.outs.map (·.id) := by
  induction ws generalizing g g' with
  | nil => subst hg; exact ⟨rfl, rfl, rfl, rfl⟩
  | cons w ws ih =>
    obtain ⟨r, l, x, rfl⟩ := hws w List.mem_cons_self
    obtain ⟨hv, hs, hp, ho⟩ := ih (fun u hu => hws u (List.mem_cons_of_mem _ hu)) (g := g.putV r l x) (g' := g'.putV r l x) (by subst hg; rfl)
    simp only [List.foldl_cons, put_wV]
    exact ⟨hv, hs, hp, ho.trans (overtake_ids _ _ _)⟩

theorem toVector_waitaWrites (w64 : Bool) (d : V) (x y : W64) : ToVector (waitaWrites w64 d x y) := by
  intro w hw
  obtain ⟨l, -, hl⟩ := List.mem_flatMap.1 hw
  obtain ⟨j, -, rfl⟩ := List.mem_map.1 hl
  exact ⟨_, _, _, rfl⟩

/-! ### The wait -/

/-- The machine with its issuing group asleep on a `waita`. -/
def Mach.asleep (m : Mach) (r : WaitaRec) : Mach := m.modMe (fun g => { g with waita := some r, status := .waiting .waita })

section
variable {s : State} {h : Hdr} {y : Mach} {at_ : MAttr} {spc : Option (BitVec 2)} {i : Instr} {ne w64 : Bool} {d : V} {ad : Addr} {x : S}
  {timeout : W32} {l0 : Nat}

/-- The wait reads its value, and goes on with it or arms. -/
theorem eff_waita (hy : s.m.Found y) (hs : PadSpace spc) (hl : (lanes s h).head? = some l0)
    (hp : ownPad s.m (s.m.me.ptr s.m.tick ad l0) (atomSize w64) = true) :
    let p := s.m.me.ptr s.m.tick ad l0
    let v := BitVec.ofNat 64 (natOf (padBytes s.m p (atomSize w64)))
    let cmp := lowN w64 (s.m.me.rdS s.m.tick x.toNat)
    (waitaWord i h spc ne w64 d ad x timeout at_).eff y y.view =
      if keepsWaiting ne v cmp = false then .ok y (waitaWrites w64 d (s.m.me.perf s.m.tick h) v) [] true none
      else .ok (y.asleep (y.waitaRec y.view i at_.cc (padPiece y l0 p (atomSize w64)) ne w64 d (s.m.me.perf s.m.tick h) cmp timeout))
        [] [] true none := by
  intro p v cmp
  have hlow : lowest (s.m.me.perf s.m.tick h) = some l0 := hl
  have hperf : y.view.g.perf y.tick h = s.m.me.perf s.m.tick h := hy.perf h
  have hptr : y.view.g.ptr y.tick ad l0 = p := hy.ptr ad l0
  have hrd : y.view.g.rdS y.tick x.toNat = s.m.me.rdS s.m.tick x.toNat := hy.rdS _
  have hpiece : y.piece y.view l0 p (atomSize w64) (inSpace spc p.val) false = padPiece y l0 p (atomSize w64) :=
    piece_of_ownPad (by rw [hy.ownPad]; exact hp) (inSpace_of_padSpace hs (ownPad_iff.1 hp).2.1) l0 false
  have hon : OnPad [padPiece y l0 p (atomSize w64)] := onPad_map (l := fun _ : Unit => l0) (q := fun _ => p) [()]
  have hread := readAll_onPad y.view { at_ with scp := 3 } [] hon y []
  have hbytes : y.padRead (padPiece y l0 p (atomSize w64)) = padBytes s.m p (atomSize w64) := (hy.padBytes p _)
  have hval : (laneBytes [(padPiece y l0 p (atomSize w64), padBytes s.m p (atomSize w64))] (padPiece y l0 p (atomSize w64)).lane).headD [] =
      padBytes s.m p (atomSize w64) := by simp [laneBytes]
  have hjudge : judge [padPiece y l0 p (atomSize w64)] false (fun _ => false) = none := hon.judge (fun _ _ => rfl) false
  rw [waitaWord]
  simp only [hlow, Option.map_some, hptr, hpiece, hjudge, hon.faultOf, hon.farOf, List.isEmpty_nil, Bool.not_true,
    Bool.false_and, Bool.false_eq_true, if_false, hread, List.map_cons, List.map_nil, List.nil_append, hbytes, hval, hrd, hperf,
    Bool.not_eq_true']
  rfl

/-- The writes of a `waita` that goes on are those of the statement. -/
theorem waita_goes (hm : IssuesMem s i h (waitaWord i h spc ne w64 d ad x timeout at_)) (hs : PadSpace spc) (hl : (lanes s h).head? = some l0)
    (hp : ownPad s.m (s.m.me.ptr s.m.tick ad l0) (atomSize w64) = true)
    (hgo : keepsWaiting ne (BitVec.ofNat 64 (natOf (padBytes s.m (s.m.me.ptr s.m.tick ad l0) (atomSize w64))))
      (lowN w64 (s.m.me.rdS s.m.tick x.toNat)) = false) (hi : Issues s.m i h) :
    ∃ m', Does s i h m' ∧ m'.me.v = ((waitaWrites w64 d (s.m.me.perf s.m.tick h)
        (BitVec.ofNat 64 (natOf (padBytes s.m (s.m.me.ptr s.m.tick ad l0) (atomSize w64))))).foldl Group.put s.m.me).v ∧
      m'.me.s = s.m.me.s ∧ m'.me.p = s.m.me.p ∧ m'.me.outs.map (·.id) = s.m.me.outs.map (·.id) ∧ SameDevice s.m m' ∧
      ∀ c, (m'.core c).sp = (s.m.core c).sp := by
  have heff := fun y hy => (eff_waita (s := s) (y := y) (i := i) (at_ := at_) (ne := ne) (d := d) (timeout := timeout) hy hs hl hp).trans
    (if_pos hgo)
  obtain ⟨y, hy, hd⟩ := does_of_issuesMem hm hi (heff s.m (found_refl s.m))
  refine ⟨_, hd, ?_⟩
  obtain ⟨sig, hsig⟩ := hy.me
  obtain ⟨hv, hs', hp', ho⟩ := foldl_put_vector (toVector_waitaWrites w64 d (s.m.me.perf s.m.tick h)
    (BitVec.ofNat 64 (natOf (padBytes s.m (s.m.me.ptr s.m.tick ad l0) (atomSize w64))))) hsig
  rw [commit_eq_finish (heff y hy), me_finish]
  exact ⟨hv, hs', hp', ho, sameDevice_trans hy.sameDevice (sameDevice_finish y _ _),
    fun c => (core_finish y _ _ c).1.trans (hy.core c).1⟩

/-- A `waita` whose condition does not hold arms, and its group sleeps. -/
theorem waita_sleeps (hm : IssuesMem s i h (waitaWord i h spc ne w64 d ad x timeout at_)) (hs : PadSpace spc) (hl : (lanes s h).head? = some l0)
    (hp : ownPad s.m (s.m.me.ptr s.m.tick ad l0) (atomSize w64) = true)
    (hgo : keepsWaiting ne (BitVec.ofNat 64 (natOf (padBytes s.m (s.m.me.ptr s.m.tick ad l0) (atomSize w64))))
      (lowN w64 (s.m.me.rdS s.m.tick x.toNat)) = true) (hi : Issues s.m i h) :
    ∃ m', Does s i h m' ∧ m'.me.status = .waiting .waita ∧
      (∃ r, m'.me.waita = some r ∧ r.scratch = true ∧ r.core = s.m.cur.1 ∧ r.addr = padKey s.m (s.m.me.ptr s.m.tick ad l0) ∧
        r.cmp = lowN w64 (s.m.me.rdS s.m.tick x.toNat) ∧ r.armed = true ∧
        r.deadline = if timeout = 0 then none else some (s.m.clock + timeout.toNat)) ∧
      SameDevice s.m m' ∧ ∀ c, (m'.core c).sp = (s.m.core c).sp := by
  have heff := fun y hy => (eff_waita (s := s) (y := y) (i := i) (at_ := at_) (ne := ne) (d := d) (timeout := timeout) hy hs hl hp).trans
    (if_neg (by rw [hgo]; decide))
  obtain ⟨y, hy, hd⟩ := does_of_issuesMem hm hi (heff s.m (found_refl s.m))
  refine ⟨_, hd, ?_⟩
  rw [commit_eq_finish (heff y hy), me_finish, Mach.asleep, me_modMe]
  refine ⟨rfl, ⟨_, rfl, rfl, congrArg Prod.fst hy.cur, hy.padKey _, rfl, rfl, by rw [← hy.clock]; rfl⟩, ?_, fun c => ?_⟩
  · exact sameDevice_trans hy.sameDevice (sameDevice_trans (sameDevice_finish y y.nextId _) (sameDevice_finish _ _ _))
  · exact (core_finish _ _ _ c).1.trans ((core_finish y y.nextId _ c).1.trans (hy.core c).1)

end

/-! ### O40 -/

/-- Settles O40: the value compares as asked (`waita_goes`), or the group arms (`waita_sleeps`). -/
theorem waitaWords : Obligations.WaitaWords := by
  intro s h n ne w64 d ad x timeout at_ l0 m t g p y cmp both hl hp
  refine ⟨fun hc => ?_, fun hc => ?_⟩
  · have hgo : keepsWaiting ne y cmp = false := by
      cases ne
      · simpa [keepsWaiting] using hc
      · simpa [keepsWaiting] using hc
    exact ⟨fun hspc => waita_goes (issuesMem_native rfl) (padSpace_native hspc) hl hp hgo,
      fun hsite => waita_goes (issuesMem_generic rfl hsite) (.inl rfl) hl hp hgo⟩
  · have hgo : keepsWaiting ne y cmp = true := by
      cases ne
      · simpa [keepsWaiting] using hc
      · simpa [keepsWaiting] using hc
    exact ⟨fun hspc => waita_sleeps (issuesMem_native rfl) (padSpace_native hspc) hl hp hgo,
      fun hsite => waita_sleeps (issuesMem_generic rfl hsite) (.inl rfl) hl hp hgo⟩

end Sys2Proof.Machine
end

/-! Proofs about what the caches of a home and the write-backs of a core leave alone: the bytes that the homes hold, and the counters of cores and
epochs (R185, R187, R375, R386). -/

section
namespace Sys2Proof.Machine
open Sys2Proof.Claims

/-! ### What the caches of a home do (R343, R375) -/

/-- Lines have moved between the caches of a home and DRAM: no core and no partition has changed, and, where no sector of DRAM has a bad symbol, no
byte at its home. -/
structure Mach.CacheStep (m m' : Mach) : Prop where
  cores : m'.cores = m.cores
  parts : m'.parts = m.parts
  domid : m'.domid = m.domid
  far : m'.far = m.far
  mem : m.symErr = [] → m.MemOk → m'.symErr = [] ∧ m'.MemOk ∧ ∀ a, m'.homeByte a = m.homeByte a

theorem cacheStep_refl (m : Mach) : m.CacheStep m := ⟨rfl, rfl, rfl, rfl, fun hs hm => ⟨hs, hm, fun _ => rfl⟩⟩

theorem cacheStep_trans {a b c : Mach} (h : a.CacheStep b) (k : b.CacheStep c) : a.CacheStep c where
  cores := k.cores.trans h.cores
  parts := k.parts.trans h.parts
  domid := k.domid.trans h.domid
  far := k.far.trans h.far
  mem hs hm := by
    obtain ⟨hs, hm, hb⟩ := h.mem hs hm
    obtain ⟨ks, km, kb⟩ := k.mem hs hm
    exact ⟨ks, km, fun x => (kb x).trans (hb x)⟩

theorem cacheStep_foldl {β : Type} {f : Mach → β → Mach} (hf : ∀ (m : Mach) b, m.CacheStep (f m b)) (l : List β) (m : Mach) :
    m.CacheStep (l.foldl f m) := by
  induction l generalizing m with
  | nil => exact cacheStep_refl m
  | cons b l ih => exact cacheStep_trans (hf m b) (ih _)

theorem cacheStep_flush (m : Mach) (f : Nat → Bool) : m.CacheStep (m.flush f) :=
  ⟨rfl, rfl, rfl, rfl, fun hs hm => ⟨by simp only [Mach.flush, hs, List.filter_nil], memOk_flush m f hm, fun a => homeByte_flush m f a hm⟩⟩

/-- The tags of the caches hold no byte. -/
theorem cacheStep_tags (m : Mach) (l2 ms : List CTag) : m.CacheStep { m with l2 := l2, ms := ms } :=
  ⟨rfl, rfl, rfl, rfl, fun hs hm => ⟨hs, memOk_congr rfl rfl rfl hm, fun _ => rfl⟩⟩

theorem cacheStep_msEvict (m : Mach) (ln : Nat) : m.CacheStep (m.msEvict ln) :=
  cacheStep_trans (cacheStep_flush m _) (cacheStep_tags (m.flush _) _ _)

theorem cacheStep_victim {m : Mach} {set : List CTag} {f : CTag → Mach} (hf : ∀ v, m.CacheStep (f v)) :
    m.CacheStep (((victim set).map f).getD m) := by
  cases victim set with
  | none => exact cacheStep_refl m
  | some v => exact hf v

theorem cacheStep_touchSector (m : Mach) (s : Nat) : m.CacheStep (m.touchSector s) := by
  have hsame : m.symErr = [] → m.touchSector s = m := fun hs => by simp [Mach.touchSector, hs, tget]
  have hkeep : (m.touchSector s).cores = m.cores ∧ (m.touchSector s).parts = m.parts ∧ (m.touchSector s).domid = m.domid ∧
      (m.touchSector s).far = m.far := by
    unfold Mach.touchSector
    dsimp only
    split
    · exact ⟨rfl, rfl, rfl, rfl⟩
    · split
      · exact ⟨rfl, rfl, rfl, rfl⟩
      · split <;> exact ⟨rfl, rfl, rfl, rfl⟩
  obtain ⟨hc, hp, hd, hf⟩ := hkeep
  exact ⟨hc, hp, hd, hf, fun hs hm => (hsame hs).symm ▸ ⟨hs, hm, fun _ => rfl⟩⟩

theorem cacheStep_touchPage (m : Mach) (pg : Nat) : m.CacheStep (m.touchPage pg) :=
  cacheStep_foldl (fun (m : Mach) (s : Nat × Nat) => cacheStep_touchSector m s.1) _ m

theorem cacheStep_msFill (m : Mach) (t : CTag) : m.CacheStep (m.msFill t) := by
  unfold Mach.msFill
  dsimp only
  split
  · exact cacheStep_tags m _ _
  · refine cacheStep_trans (b := if m.ms.length < 16 then m else _) ?_ (cacheStep_tags _ _ _)
    split
    · exact cacheStep_refl m
    · split
      · exact cacheStep_refl m
      · exact cacheStep_victim fun v => cacheStep_msEvict m v.line

theorem cacheStep_l2Evict (m : Mach) (v : CTag) : m.CacheStep (m.l2Evict v) := by
  unfold Mach.l2Evict
  dsimp only
  split
  · exact cacheStep_trans (cacheStep_tags m (without m.l2 v.line) m.ms) (cacheStep_msFill _ _)
  · exact cacheStep_tags m _ _

theorem cacheStep_l2Fill (m : Mach) (t : CTag) : m.CacheStep (m.l2Fill t) := by
  unfold Mach.l2Fill
  dsimp only
  refine cacheStep_trans (b := if m.l2.length < (m.part t.part).ways then m else _) ?_ (cacheStep_tags _ _ _)
  split
  · exact cacheStep_refl m
  · split
    · exact cacheStep_refl m
    · exact cacheStep_victim (cacheStep_l2Evict m)

theorem cacheStep_readLine (m : Mach) (ln : Nat) (whole : List Nat) : m.CacheStep (m.readLine ln whole) := by
  unfold Mach.readLine
  split
  · exact cacheStep_refl m
  · refine cacheStep_foldl (fun m i => ?_) _ m
    split
    · exact cacheStep_refl m
    · exact cacheStep_touchSector m _

theorem cacheStep_l2Access (m : Mach) (t : CTag) (pin : Nat) (whole : List Nat) : m.CacheStep (m.l2Access t pin whole) := by
  unfold Mach.l2Access
  split
  · exact cacheStep_tags m _ _
  · split
    · exact cacheStep_refl m
    · exact cacheStep_trans (cacheStep_readLine m _ _) (cacheStep_trans (cacheStep_msFill _ _) (cacheStep_l2Fill _ _))

theorem cacheStep_walked (m : Mach) (p ctx va : Nat) : m.CacheStep (m.walked p ctx va) :=
  cacheStep_foldl (fun m _ => cacheStep_l2Access m _ _ _) _ m

theorem Mach.CacheStep.partno {m m' : Mach} (h : m.CacheStep m') : m'.partno = m.partno := by rw [Mach.partno, h.domid, Mach.partno]

theorem Mach.CacheStep.core {m m' : Mach} (h : m.CacheStep m') (c : Nat) : m'.core c = m.core c := by rw [Mach.core, h.cores, Mach.core]

/-! ### The counters of cores and epochs (R185, R277) -/

/-- Every core's place in the order of its stores is as it was, and so are the epochs of every partition. -/
structure Mach.SameNumbers (m m' : Mach) : Prop where
  core : ∀ c, (m'.core c).seq = (m.core c).seq ∧ (m'.core c).taken = (m.core c).taken ∧ (m'.core c).epoch = (m.core c).epoch
  ep : ∀ p, (m'.part p).ep = (m.part p).ep

theorem sameNumbers_refl (m : Mach) : m.SameNumbers m := ⟨fun _ => ⟨rfl, rfl, rfl⟩, fun _ => rfl⟩

theorem sameNumbers_trans {a b c : Mach} (h : a.SameNumbers b) (k : b.SameNumbers c) : a.SameNumbers c where
  core d := by
    obtain ⟨hs, ht, he⟩ := h.core d
    obtain ⟨ks, kt, ke⟩ := k.core d
    exact ⟨ks.trans hs, kt.trans ht, ke.trans he⟩
  ep p := (k.ep p).trans (h.ep p)

theorem sameNumbers_foldl {β : Type} {f : Mach → β → Mach} (hf : ∀ (m : Mach) b, m.SameNumbers (f m b)) (l : List β) (m : Mach) :
    m.SameNumbers (l.foldl f m) := by
  induction l generalizing m with
  | nil => exact sameNumbers_refl m
  | cons b l ih => exact sameNumbers_trans (hf m b) (ih _)

theorem sameNumbers_foldlM {β : Type} {f : Mach → β → Option Mach} (hf : ∀ (m : Mach) b m', f m b = some m' → m.SameNumbers m')
    (l : List β) {m m' : Mach} (he : l.foldlM f m = some m') : m.SameNumbers m' := by
  induction l generalizing m with
  | nil => cases he; exact sameNumbers_refl _
  | cons b l ih =>
    rw [List.foldlM_cons] at he
    obtain ⟨x, hx, he⟩ := Option.bind_eq_some_iff.mp he
    exact sameNumbers_trans (hf _ b x hx) (ih he)

theorem sameNumbers_of_tables {m m' : Mach} (hc : m'.cores = m.cores) (hp : m'.parts = m.parts) : m.SameNumbers m' := by
  refine ⟨fun c => ?_, fun p => ?_⟩
  · unfold Mach.core
    rw [hc]
    exact ⟨rfl, rfl, rfl⟩
  · unfold Mach.part
    rw [hp]

theorem Mach.CacheStep.sameNumbers {m m' : Mach} (h : m.CacheStep m') : m.SameNumbers m' := sameNumbers_of_tables h.cores h.parts

theorem sameNumbers_modPart (m : Mach) (p : Nat) {f : Part → Part} (hf : ∀ x, (f x).ep = x.ep) : m.SameNumbers (m.modPart p f) := by
  refine ⟨fun _ => ⟨rfl, rfl, rfl⟩, fun q => ?_⟩
  rw [part_modPart]
  split
  · subst q; exact hf _
  · rfl

theorem sameNumbers_modCore (m : Mach) (c : Nat) {f : Core → Core}
    (hf : ∀ x, (f x).seq = x.seq ∧ (f x).taken = x.taken ∧ (f x).epoch = x.epoch) : m.SameNumbers (m.modCore c f) := by
  refine ⟨fun d => ?_, fun _ => rfl⟩
  rw [core_modCore]
  split
  · subst d; exact hf _
  · exact ⟨rfl, rfl, rfl⟩

theorem sameNumbers_noteLeaves (m : Mach) (as : List Nat) : m.SameNumbers (m.noteLeaves as) := by
  unfold Mach.noteLeaves
  split
  · exact sameNumbers_refl m
  · extract_lets roots olds
    split
    · exact sameNumbers_refl m
    · exact sameNumbers_modPart m _ fun _ => rfl

theorem sameNumbers_markWritten (m : Mach) (pg : Nat) : m.SameNumbers (m.markWritten pg) := by
  unfold Mach.markWritten
  split
  · exact sameNumbers_refl m
  next p _ =>
    extract_lets k freed m1
    have h1 : m.SameNumbers m1 := sameNumbers_modPart m p fun _ => rfl
    split
    · exact sameNumbers_trans h1 (sameNumbers_of_tables rfl rfl)
    · exact h1

theorem sameNumbers_preserve {m m' : Mach} {pg : Nat} (hp : m.preserve pg = some m') : m.SameNumbers m' := by
  unfold Mach.preserve at hp
  split at hp
  · cases hp; exact sameNumbers_refl m
  · extract_lets owing k m1 im m2 at hp
    split at hp
    · cases hp; exact sameNumbers_refl m
    · split at hp
      · cases hp
      · cases hp
        have h1 : m.SameNumbers m1 := (cacheStep_trans (cacheStep_flush m _) (cacheStep_touchPage _ _)).sameNumbers
        have h2 : m1.SameNumbers m2 := sameNumbers_of_tables rfl rfl
        refine sameNumbers_trans (sameNumbers_trans h1 h2) ?_
        exact sameNumbers_modPart m2 _ fun _ => rfl

theorem sameNumbers_mapCores (m : Mach) {f : Nat → Core → Core} (hr : ∀ c, f c Core.reset = Core.reset)
    (hf : ∀ c x, (f c x).seq = x.seq ∧ (f c x).taken = x.taken ∧ (f c x).epoch = x.epoch) : m.SameNumbers (m.mapCores f) :=
  ⟨fun c => by rw [core_mapCores m f c (hr c)]; exact hf c _, fun _ => rfl⟩

theorem sameNumbers_pokes (m : Mach) (keep : Option Nat) (whole : List Nat) (ws : List (Nat × Byte)) :
    m.SameNumbers (m.pokes keep whole ws) := by
  unfold Mach.pokes
  extract_lets lines m1 m2 m3 m4
  have h1 : m.SameNumbers m1 := sameNumbers_trans (sameNumbers_noteLeaves m _)
    (sameNumbers_foldl (f := fun m w => m.pokeByte w.1 w.2) (fun _ _ => sameNumbers_of_tables rfl rfl) ws _)
  have h3 : m1.SameNumbers m3 := sameNumbers_trans (b := m2) (cacheStep_flush m1 _).sameNumbers (sameNumbers_of_tables rfl rfl)
  have h4 : m3.SameNumbers m4 := by
    refine sameNumbers_mapCores m3 (fun c => ?_) (fun c x => ?_)
    · split
      · rfl
      · exact invalidate_reset _
    · split <;> exact ⟨rfl, rfl, rfl⟩
  exact sameNumbers_trans h1 (sameNumbers_trans h3 (sameNumbers_trans h4 (sameNumbers_foldl sameNumbers_markWritten _ m4)))

theorem sameNumbers_homeWrite {m m' : Mach} {keep : Option Nat} {whole : List Nat} {ws : List (Nat × Byte)}
    (he : m.homeWrite keep whole ws = some m') : m.SameNumbers m' := by
  obtain ⟨x, hx, rfl⟩ := Option.map_eq_some_iff.mp he
  exact sameNumbers_trans (sameNumbers_foldlM (fun _ _ _ => sameNumbers_preserve) _ hx) (sameNumbers_pokes x keep whole ws)

/-- A write that reached its home through no leaf of its own, as a write-back does. -/
theorem sameNumbers_sendHome {m m' : Mach} {keep : Option Nat} {p src : Nat} {e : BitVec 24} {waiters : List (Nat × Nat × Nat)}
    {refused : Bool} {whole bad : List Nat} {ws : List (Nat × Byte)} {b : Bool}
    (he : m.sendHome keep p src e waiters refused whole bad none ws = some (m', b)) : m.SameNumbers m' := by
  unfold Mach.sendHome at he
  split at he
  · cases he; exact sameNumbers_refl m
  · dsimp only at he
    split at he
    · cases he; exact sameNumbers_modPart m p fun _ => rfl
    · obtain ⟨x, hx, he⟩ := Option.map_eq_some_iff.mp he
      obtain rfl : x.taint bad = m' := congrArg Prod.fst he
      exact sameNumbers_trans (sameNumbers_homeWrite hx) (sameNumbers_of_tables rfl rfl)

theorem sameNumbers_setLine (m : Mach) (c : Nat) (x : L1Line) : m.SameNumbers (m.modCore c (fun k => k.setLine x)) :=
  sameNumbers_modCore m c fun _ => ⟨rfl, rfl, rfl⟩

theorem sameNumbers_writeBack {m m' : Mach} {c ln : Nat} (he : m.writeBack c ln = some m') : m.SameNumbers m' := by
  unfold Mach.writeBack at he
  split at he
  · cases he; exact sameNumbers_refl m
  · dsimp only at he
    split at he
    · cases he; exact sameNumbers_setLine m c _
    · obtain ⟨⟨y, b⟩, hy, rfl⟩ := Option.map_eq_some_iff.mp he
      exact sameNumbers_trans (cacheStep_l2Access m _ _ _).sameNumbers (sameNumbers_trans (sameNumbers_sendHome hy) (sameNumbers_setLine y c _))

theorem sameNumbers_widenLine {m m' : Mach} {c ln : Nat} (he : m.widenLine c ln = some m') : m.SameNumbers m' := by
  unfold Mach.widenLine at he
  split at he
  · cases he; exact sameNumbers_refl m
  · split at he
    · cases he; exact sameNumbers_refl m
    · dsimp only at he
      split at he
      · exact sameNumbers_trans (sameNumbers_setLine m c _) (sameNumbers_writeBack he)
      · cases he; exact sameNumbers_setLine m c _

theorem sameNumbers_cleanAll {m m' : Mach} {c : Nat} {lns : List Nat} (he : m.cleanAll c lns = some m') : m.SameNumbers m' := by
  refine sameNumbers_foldlM (fun m ln m' hc => ?_) lns he
  obtain ⟨x, hx, hw⟩ := Option.bind_eq_some_iff.mp hc
  exact sameNumbers_trans (sameNumbers_widenLine hx) (sameNumbers_writeBack hw)

theorem sameNumbers_cacheTlb (m : Mach) (c : Nat) (e : TlbEntry) : m.SameNumbers (m.cacheTlb c e) := by
  unfold Mach.cacheTlb
  split
  · exact sameNumbers_refl m
  · exact sameNumbers_trans (cacheStep_walked m _ _ _).sameNumbers (sameNumbers_modCore _ c fun _ => ⟨rfl, rfl, rfl⟩)

theorem sameNumbers_cacheAll (m : Mach) (c : Nat) (ps : List Piece) : m.SameNumbers (m.cacheAll c ps) :=
  sameNumbers_foldl (fun m e => sameNumbers_cacheTlb m c e) _ m

theorem sameNumbers_tryWrite {m m' : Mach} {x : Stalled} (he : m.tryWrite x = some m') : m.SameNumbers m' := by
  unfold Mach.tryWrite at he
  split at he
  · cases he
  · exact sameNumbers_homeWrite he

theorem sameNumbers_queueWrite (m : Mach) (x : Stalled) : m.SameNumbers (m.queueWrite x) := sameNumbers_modPart m _ fun _ => rfl

theorem sameNumbers_selfWrite (m : Mach) (pa : Nat) (bs : List Byte) : m.SameNumbers (m.selfWrite pa bs) := by
  unfold Mach.selfWrite
  split
  · exact sameNumbers_refl m
  · unfold Mach.ownWrite
    split
    next m' hm => exact sameNumbers_tryWrite hm
    next =>
      exact sameNumbers_trans (sameNumbers_queueWrite m _)
        (sameNumbers_modPart _ _ (f := fun p => { p with stalls := min (p.stalls + 1) (2 ^ 24 - 1) }) fun _ => rfl)

/-! ### What the groups see of the same (R197, R269) -/

theorem cacheStep_sameGroups {m m' : Mach} (hc : m.CacheStep m') (hs : m.Same m') : m.SameGroups m' := sameGroups_of_cores hs.cur hc.cores

theorem sameGroups_widenLine {m m' : Mach} {c ln : Nat} (he : m.widenLine c ln = some m') : m.SameGroups m' := by
  unfold Mach.widenLine at he
  split at he
  · cases he; exact sameGroups_refl m
  · split at he
    · cases he; exact sameGroups_refl m
    · dsimp only at he
      split at he
      · exact sameGroups_trans (sameGroups_setLine m c _) (sameGroups_writeBack he)
      · cases he; exact sameGroups_setLine m c _

theorem sameGroups_cleanAll {m m' : Mach} {c : Nat} {lns : List Nat} (he : m.cleanAll c lns = some m') : m.SameGroups m' := by
  refine sameGroups_foldlM _ (fun m ln m' hc => ?_) lns he
  obtain ⟨x, hx, hw⟩ := Option.bind_eq_some_iff.mp hc
  exact sameGroups_trans (sameGroups_widenLine hx) (sameGroups_writeBack hw)

theorem sameGroups_cacheTlb (m : Mach) (c : Nat) (e : TlbEntry) : m.SameGroups (m.cacheTlb c e) := by
  unfold Mach.cacheTlb
  split
  · exact sameGroups_refl m
  · exact sameGroups_trans (cacheStep_sameGroups (cacheStep_walked m _ _ _) (same_walked m _ _ _)) (sameGroups_modCore _ c fun _ => rfl)

theorem sameGroups_cacheAll (m : Mach) (c : Nat) (ps : List Piece) : m.SameGroups (m.cacheAll c ps) :=
  sameGroups_foldl _ (fun m e => sameGroups_cacheTlb m c e) _ m

theorem sameGroups_selfWrite (m : Mach) (pa : Nat) (bs : List Byte) : m.SameGroups (m.selfWrite pa bs) := by
  unfold Mach.selfWrite
  split
  · exact sameGroups_refl m
  · unfold Mach.ownWrite
    split
    next m' hm =>
      unfold Mach.tryWrite at hm
      split at hm
      · cases hm
      · exact sameGroups_homeWrite hm
    next => exact sameGroups_trans (sameGroups_modPart m _ _) (sameGroups_modPart _ _ _)

/-- A first write through a leaf moves no number and disturbs no group (R351). -/
theorem setDirty_keeps {m m' : Mach} {p : Nat} {e : TlbEntry} (h : m.setDirty p e = .ok m') : m.SameNumbers m' ∧ m.SameGroups m' := by
  unfold Mach.setDirty at h
  extract_lets now x m0 code at h
  have h0 : m.SameNumbers m0 ∧ m.SameGroups m0 := by
    unfold m0
    split
    · exact ⟨sameNumbers_refl m, sameGroups_refl m⟩
    · exact ⟨(cacheStep_walked m _ _ _).sameNumbers, cacheStep_sameGroups (cacheStep_walked m _ _ _) (same_walked m _ _ _)⟩
  obtain ⟨hn, hg⟩ := h0
  split at h
  · rw [Dirtied.ok.injEq] at h
    exact h ▸ ⟨hn, hg⟩
  · split at h
    · cases h
    · split at h
      · cases h
      next m1 hm =>
        have hn1 := sameNumbers_trans hn (sameNumbers_homeWrite hm)
        have hg1 := sameGroups_trans hg (sameGroups_homeWrite hm)
        split at h
        · cases h; exact ⟨hn1, hg1⟩
        · cases h
          exact ⟨sameNumbers_trans (sameNumbers_trans hn1 (sameNumbers_selfWrite _ _ _))
              (sameNumbers_modPart _ p (f := fun y => { y with drtail := y.drtail + 1 }) fun _ => rfl),
            sameGroups_trans (sameGroups_trans hg1 (sameGroups_selfWrite _ _ _)) (sameGroups_modPart _ _ _)⟩

theorem dirtyAll_keeps {who p : Nat} {ps : List Piece} {m m' : Mach} (h : dirtyAll who p ps m = .ok m') : m.SameNumbers m' ∧ m.SameGroups m' := by
  induction ps generalizing m with
  | nil => cases h; exact ⟨sameNumbers_refl _, sameGroups_refl _⟩
  | cons x xs ih =>
    unfold dirtyAll at h
    split at h
    · split at h
      next m1 hd =>
        obtain ⟨hn, hg⟩ := setDirty_keeps hd
        obtain ⟨kn, kg⟩ := ih h
        exact ⟨sameNumbers_trans hn kn, sameGroups_trans hg kg⟩
      · cases h
      · cases h
    · exact ih h

end Sys2Proof.Machine
end

/-! Proofs about the row paths of `mzero` and `mcopy` (R203, R380). -/

section
namespace Sys2Proof.Machine
open Sys2Proof.Claims

/-! ### Where a pointer leads does not depend on SIG (R19, R29, R348) -/

theorem walkFrom_congr {m m' : Mach} (hb : ∀ a, m'.homeByte a = m.homeByte a) (hp : m'.parts = m.parts) (hd : m'.dommem = m.dommem)
    (hi : m'.domid = m.domid) (p ctx va : Nat) (ls : List (Nat × Nat × Option Nat)) (table : Nat) :
    m'.walkFrom p ctx va ls table = m.walkFrom p ctx va ls table := by
  have h64 : ∀ a, m'.home64 a = m.home64 a := fun a => by simp only [Mach.home64, Mach.homeBytes, hb]
  have hleaf : ∀ w size, m'.leafOk p w size = m.leafOk p w size := fun w size => by
    unfold Mach.leafOk Mach.part Mach.partno
    rw [hp, hd, hi]
  induction ls generalizing table with
  | nil => rfl
  | cons x rest ih =>
    obtain ⟨lo, len, leaf⟩ := x
    simp only [Mach.walkFrom, h64, hleaf, ih]

section
variable (m : Mach) (i : Instr)

@[simp] theorem walk_hash (p ctx va : Nat) : (m.hash i).walk p ctx va = m.walk p ctx va := by
  have hb : ∀ a, (m.hash i).homeByte a = m.homeByte a := fun a => by simp only [Mach.homeByte, hash_cached, hash_dram]
  simp only [Mach.walk, part_hash]
  rw [walkFrom_congr hb (hash_parts m i) (hash_dommem m i) (hash_domid m i)]

theorem locateVa_hash (tb : Option TlbEntry) (va n : Nat) (write : Bool) :
    (m.hash i).locateVa (m.hash i).view tb va n write = m.locateVa m.view tb va n write := by
  have hg : (m.hash i).view.g.team = m.view.g.team := team_of_hash m i
  have hc : (m.hash i).view.core = m.view.core := congrArg Prod.fst (hash_cur m i)
  obtain ⟨gs, hcore⟩ := core_hash m i m.view.core
  simp only [Mach.locateVa, hg, hc, team_hash, Mach.translate, hcore, walk_hash, partno_hash]

/-- The hash of a word leaves every place as it is. -/
theorem locate_hash (p : Ptr) (n : Nat) (write : Bool) : (m.hash i).locate (m.hash i).view p n write = m.locate m.view p n write := by
  obtain ⟨x, hx⟩ := me_hash m i
  have hg : (m.hash i).view.g = { m.view.g with sig := x } := hx
  have hc : (m.hash i).view.core = m.view.core := congrArg Prod.fst (hash_cur m i)
  have hgang : ∀ t c, (m.hash i).gangTeam t c = m.gangTeam t c := fun t c => by
    obtain ⟨gs, hcore⟩ := core_hash m i c
    simp only [Mach.gangTeam, hcore, team_hash]
  simp only [Mach.locate, locateVa_hash, hg, hc, team_hash, hgang]

theorem runPages_hash (base : W64) (n : Nat) (write : Bool) :
    (m.hash i).runPages (m.hash i).view base n write = m.runPages m.view base n write := by
  obtain ⟨x, hx⟩ := me_hash m i
  have hg : (m.hash i).view.g = { m.view.g with sig := x } := hx
  simp only [Mach.runPages, locate_hash, hg]

end

/-! ### The row path (R203, R380) -/

/-- A word of memory whose effect goes through as it comes to issue. -/
theorem does_of_memWord {s : State} {i : Instr} {h : Hdr} {w : MemWord} (he : exec i s = issueWord i h (memWord i w) s) (hi : Issues s.m i h)
    {z : Mach} {now later : List PWrite} {ready : Bool} {st : Option (BitVec 24)} (heff : w.eff s.m s.m.view = .ok z now later ready st) :
    Does s i h ((s.m.hash i).commit i w) :=
  does_of_issueWord he hi (by simp only [memWord, heff]) (by simp only [memWord, heff])

/-- The pages that `mcopy` reads; `mzero` reads none. -/
def Mach.sourcePages (m : Mach) (b : Option S) (n : Nat) : List Piece :=
  match b with
  | some r => m.runPages m.view (m.view.g.rdS m.tick r.toNat) n false
  | none => []

/-- The pages that both write. -/
def Mach.targetPages (m : Mach) (a : S) (n : Nat) : List Piece := m.runPages m.view (m.view.g.rdS m.tick a.toNat) n true

theorem sourcePages_hash (m : Mach) (i : Instr) (b : Option S) (n : Nat) : (m.hash i).sourcePages b n = m.sourcePages b n := by
  cases b with
  | none => rfl
  | some r => exact (runPages_hash m i _ n false).trans (congrArg (m.runPages m.view · n false) (by rw [hash_tick]; exact rdS_hash m i _ _))

theorem targetPages_hash (m : Mach) (i : Instr) (a : S) (n : Nat) : (m.hash i).targetPages a n = m.targetPages a n := by
  exact (runPages_hash m i _ n true).trans (congrArg (m.runPages m.view · n true) (by rw [hash_tick]; exact rdS_hash m i _ _))

/-- Pieces that meet their word's conditions in device memory of this part. -/
def InPart (ps : List Piece) : Prop := ∀ p ∈ ps, p.good = true ∧ ∃ pa l, p.loc = .dev pa l

section
variable {ps : List Piece} (hps : InPart ps)
include hps

theorem InPart.badAddr : ps.any Piece.badAddr = false := by
  simp only [List.any_eq_false]
  intro p hp
  obtain ⟨hg, pa, l, hl⟩ := hps p hp
  simp [Piece.badAddr, hg, hl]

theorem InPart.faultOf : faultOf ps = none := by
  have h : ps.filter (fun p => p.loc == .unmapped) = [] := by
    simp only [List.filter_eq_nil_iff]
    intro p hp
    obtain ⟨-, pa, l, hl⟩ := hps p hp
    simp [hl]
  rw [Machine.faultOf, h]

theorem InPart.farOf : farOf ps = [] := by
  simp only [Machine.farOf, List.filterMap_eq_nil_iff]
  intro p hp
  obtain ⟨-, pa, l, hl⟩ := hps p hp
  simp [hl]

theorem InPart.length_pagesOf : (pagesOf ps).length = ps.length := by
  induction ps with
  | nil => rfl
  | cons p ps ih =>
    obtain ⟨-, pa, l, hl⟩ := hps p List.mem_cons_self
    have htail := ih fun q hq => hps q (List.mem_cons_of_mem p hq)
    rw [pagesOf] at htail ⊢
    rw [List.filterMap_cons, hl, List.length_cons, htail, List.length_cons]

end

/-- The row path that a word issues with the number `q` of epoch `e`. -/
def Mach.rowPath (m : Mach) (d a : S) (b : Option S) (n : Nat) (q : BitVec 19) (e : BitVec 24) : RowOp :=
  { core := m.cur.1, slot := m.cur.2, outId := m.nextId, part := m.myPart,
    pages := (pagesOf (m.targetPages a n)).zip
      (if b.isSome then (pagesOf (m.sourcePages b n)).map some else (pagesOf (m.targetPages a n)).map (fun _ => none)),
    leaves := (m.targetPages a n).filterMap (fun p => p.loc.entry.map (·.at_)), poisoned := false, seq := q, epoch := e, d := d.toNat }

theorem same_cacheAll (m : Mach) (c : Nat) (ps : List Piece) : m.Same (m.cacheAll c ps) := same_foldl _ (fun m e => same_cacheTlb m c e) _ m

section
variable {y y1 y2 : Mach} {h : Hdr} {d a w : S} {b : Option S} {n : BitVec 13} {q : BitVec 19} {e : BitVec 24}

/-- What `mzero` and `mcopy` do on mapped, writable pages of one stack. -/
theorem eff_row (hperf : y.me.perf y.tick h ≠ 0) (hw : y.me.rdS y.tick w.toNat = 0)
    (hdev : InPart (y.targetPages a n.toNat ++ y.sourcePages b n.toNat)) (hno : ∀ p ∈ y.targetPages a n.toNat, p.noWrite = false)
    (hstack : ((pagesOf (y.targetPages a n.toNat)).zip (pagesOf (y.sourcePages b n.toNat))).all
      (fun x => stackOfPage x.1 == stackOfPage x.2) = true)
    (hseq : (y.cacheAll y.cur.1 (y.targetPages a n.toNat ++ y.sourcePages b n.toNat)).nextSeq y.cur.1 y.myPart = .ok y1 q e)
    (hdirty : dirtyAll (whoGroup y.cur.1 y.cur.2) y.myPart (y.targetPages a n.toNat) y1 = .ok y2) :
    (rowWord h d a b w n).eff y y.view =
      .ok { y2 with rowOps := tset none y2.rowOps y.nextId (some (y.rowPath d a b n.toNat q e)) } []
        [wS d.toNat (pointW 2 y.partno y.cur.1 q e)] false none := by
  have hperf' : y.view.g.perf y.tick h ≠ 0 := hperf
  have hwit : y.view.g.rdS y.tick w.toNat = 0 := hw
  have hdst : y.runPages y.view (y.view.g.rdS y.tick a.toNat) n.toNat true = y.targetPages a n.toNat := rfl
  have hbad := hdev.badAddr
  have hfault := hdev.faultOf
  have hfar := hdev.farOf
  have hno' : (y.targetPages a n.toNat).any Piece.noWrite = false := by
    simp only [List.any_eq_false]
    exact fun p hp => by simp [hno p hp]
  have hstack' : ((pagesOf (y.targetPages a n.toNat)).zip (pagesOf (y.sourcePages b n.toNat))).any
      (fun x => stackOfPage x.1 != stackOfPage x.2) = false := by
    simp only [List.any_eq_false]
    intro x hx
    simpa using List.all_eq_true.1 hstack x hx
  have hteam : ∀ t, (y.cacheAll y.cur.1 (y.targetPages a n.toNat ++ y.sourcePages b n.toNat)).team t = y.team t := fun t => by
    rw [Mach.team, (same_cacheAll y _ _).teams, Mach.team]
  have hnum : (y.cacheAll y.view.core (y.targetPages a n.toNat ++ y.sourcePages b n.toNat)).seqFor y.view = .ok y1 q e := by
    simp only [Mach.seqFor, hteam, Mach.view]
    exact hseq
  have hdirty' : dirtyAll (whoGroup y.view.core y.view.slot) (y.team y.view.g.team).part (y.targetPages a n.toNat) y1 = .ok y2 := hdirty
  cases b
  all_goals
    simp only [Mach.sourcePages] at hbad hfault hfar hstack' hnum
    simp only [rowWord, hperf', hwit, hdst, hbad, hno', Bool.false_eq_true, if_false, presentTrap_null, presentAway_null, hfault, hfar,
      List.isEmpty_nil, Bool.not_true, hstack', hnum, hdirty']
    rfl

/-- The row path is over exactly the pages named. -/
theorem rowPath_pages (hdev : InPart (y.targetPages a n.toNat ++ y.sourcePages b n.toNat)) :
    (y.rowPath d a b n.toNat q e).pages.map (·.1) = pagesOf (y.targetPages a n.toNat) ∧
      (b = none → ∀ p ∈ (y.rowPath d a b n.toNat q e).pages, p.2 = none) := by
  have hd : InPart (y.targetPages a n.toNat) := fun p hp => hdev p (List.mem_append_left _ hp)
  have hs : InPart (y.sourcePages b n.toNat) := fun p hp => hdev p (List.mem_append_right _ hp)
  cases b with
  | none =>
    refine ⟨List.map_fst_zip (by simp), fun _ p hp => ?_⟩
    obtain ⟨-, hp⟩ := List.of_mem_zip hp
    obtain ⟨-, -, hp⟩ := List.mem_map.1 hp
    exact hp.symm
  | some r =>
    refine ⟨List.map_fst_zip (le_of_eq ?_), nofun⟩
    have htarget : (y.targetPages a n.toNat).length = n.toNat := by simp [Mach.targetPages, Mach.runPages]
    have hsource : (y.sourcePages (some r) n.toNat).length = n.toNat := by simp [Mach.sourcePages, Mach.runPages]
    simp [hd.length_pagesOf, hs.length_pagesOf, htarget, hsource]

end

/-- The word of a row path, issued: the path is in the table, its number is taken, and its witness is outstanding. -/
theorem row_of_issue {s : State} {i : Instr} {h : Hdr} {d a w : S} {b : Option S} {n : BitVec 13} {q : BitVec 19} {e : BitVec 24}
    (he : exec i s = issueWord i h (memWord i (rowWord h d a b w n)) s) (hperf : s.m.me.perf s.m.tick h ≠ 0) (hw : s.m.me.rdS s.m.tick w.toNat = 0)
    (hdev : InPart (s.m.targetPages a n.toNat ++ s.m.sourcePages b n.toNat)) (hno : ∀ p ∈ s.m.targetPages a n.toNat, p.noWrite = false)
    (hstack : ((pagesOf (s.m.targetPages a n.toNat)).zip (pagesOf (s.m.sourcePages b n.toNat))).all
      (fun x => stackOfPage x.1 == stackOfPage x.2) = true)
    (hgo : ∀ y, y = s.m ∨ y = s.m.hash i → ∃ y1 y2,
      (y.cacheAll y.cur.1 (s.m.targetPages a n.toNat ++ s.m.sourcePages b n.toNat)).nextSeq y.cur.1 y.myPart = .ok y1 q e ∧
        dirtyAll (whoGroup y.cur.1 y.cur.2) y.myPart (s.m.targetPages a n.toNat) y1 = .ok y2)
    (hi : Issues s.m i h) :
    ∃ m' id o, Does s i h m' ∧ tget none m'.rowOps id = some o ∧ o.core = s.m.cur.1 ∧ o.seq = q ∧ o.epoch = e ∧
      o.pages.map (·.1) = pagesOf (s.m.targetPages a n.toNat) ∧ (b = none → ∀ p ∈ o.pages, p.2 = none) ∧
      (m'.core s.m.cur.1).seq = q + 1 ∧
      { id := id, pc := s.m.me.pc, writes := [wS d.toNat (pointW 2 s.m.partno s.m.cur.1 q e)], ready := false, stamp := none } ∈ m'.me.outs := by
  obtain ⟨x1, x2, hx1, hx2⟩ := hgo s.m (.inl rfl)
  have hdoes := does_of_memWord he hi (eff_row hperf hw hdev hno hstack hx1 hx2)
  obtain ⟨y1, y2, hy1, hy2⟩ := hgo (s.m.hash i) (.inr rfl)
  have hd := targetPages_hash s.m i a n.toNat
  have hs := sourcePages_hash s.m i b n.toNat
  have heff := eff_row (y := s.m.hash i) (h := h) (d := d) (a := a) (w := w) (b := b) (n := n) (by rwa [hash_tick, perf_hash])
    (by rwa [hash_tick, rdS_hash]) (by rwa [hd, hs]) (by rwa [hd]) (by rwa [hd, hs]) (by rwa [hd, hs]) (by rwa [hd])
  obtain ⟨hpages, hnone⟩ := rowPath_pages (y := s.m.hash i) (d := d) (q := q) (e := e) (a := a) (b := b) (n := n) (by rwa [hd, hs])
  obtain ⟨hnum, hgr⟩ := dirtyAll_keeps hy2
  obtain ⟨hy1', hq, -⟩ := nextSeq_ok hy1
  have hpc : y2.me.pc = s.m.me.pc := by
    rw [hgr.me_pc, hy1', (sameGroups_takeSeq _ _ _).me_pc, (sameGroups_cacheAll _ _ _).me_pc]
    obtain ⟨x, hx⟩ := me_hash s.m i
    rw [hx]
  have hcore : (y2.core s.m.cur.1).seq = q + 1 := by
    rw [(hnum.core _).1, hy1', hash_cur, takeSeq_core, hq, hash_cur]
  refine ⟨_, s.m.nextId, (s.m.hash i).rowPath d a b n.toNat q e, hdoes, ?_⟩
  rw [commit_eq_finish heff, me_finish, (core_finish _ _ _ _).2.2]
  refine ⟨?_, congrArg Prod.fst (hash_cur s.m i), rfl, rfl, hpages.trans (by rw [hd]), hnone, hcore, ?_⟩
  · rw [hash_nextId]
    exact tget_tset_self none y2.rowOps s.m.nextId (some ((s.m.hash i).rowPath d a b n.toNat q e))
  · rw [hash_nextId, partno_hash, hash_cur]
    refine List.mem_append_right _ (List.mem_singleton.2 ?_)
    rw [← hpc]
    rfl

/-! ### O43 -/

/-- Settles O43: `mzero` is the row path without a source, `mcopy` that with one (`row_of_issue`). -/
theorem rowWords : Obligations.RowWords := by
  intro s h d a b w n src q e m t i dst sp hperf hw _ hdev hno hstack hgo hi
  cases src with
  | false =>
    obtain ⟨m', id, o, hdo, ho, hc, hq, he, hp, hn, hrest⟩ :=
      row_of_issue (i := i) (d := d) (a := a) (b := none) rfl hperf hw hdev hno hstack hgo hi
    exact ⟨m', id, o, hdo, ho, hc, hq, he, hp, fun _ => hn rfl, hrest⟩
  | true =>
    obtain ⟨m', id, o, hdo, ho, hc, hq, he, hp, -, hrest⟩ :=
      row_of_issue (i := i) (d := d) (a := a) (b := some b) rfl hperf hw hdev hno hstack hgo hi
    exact ⟨m', id, o, hdo, ho, hc, hq, he, hp, nofun, hrest⟩

end Sys2Proof.Machine
end

/-! Proofs about the cache, translation and chain words (R198 to R205). -/

section
namespace Sys2Proof.Machine
open Sys2Proof.Claims

/-! ### Prefetches (R199) -/

/-- Lines have come into the caches of a home, and translations into a core: no L1 has changed and no byte outside the part, and, where no sector of
DRAM has a bad symbol, no byte at its home. -/
structure Mach.HintStep (m m' : Mach) : Prop where
  l1 : ∀ c, (m'.core c).l1 = (m.core c).l1
  far : m'.far = m.far
  mem : m.symErr = [] → m.MemOk → m'.symErr = [] ∧ m'.MemOk ∧ ∀ a, m'.homeByte a = m.homeByte a

theorem hintStep_refl (m : Mach) : m.HintStep m := ⟨fun _ => rfl, rfl, fun hs hm => ⟨hs, hm, fun _ => rfl⟩⟩

theorem hintStep_trans {a b c : Mach} (h : a.HintStep b) (k : b.HintStep c) : a.HintStep c where
  l1 d := (k.l1 d).trans (h.l1 d)
  far := k.far.trans h.far
  mem hs hm := by
    obtain ⟨hs, hm, hb⟩ := h.mem hs hm
    obtain ⟨ks, km, kb⟩ := k.mem hs hm
    exact ⟨ks, km, fun x => (kb x).trans (hb x)⟩

theorem hintStep_foldl {β : Type} {f : Mach → β → Mach} (hf : ∀ (m : Mach) b, m.HintStep (f m b)) (l : List β) (m : Mach) :
    m.HintStep (l.foldl f m) := by
  induction l generalizing m with
  | nil => exact hintStep_refl m
  | cons b l ih => exact hintStep_trans (hf m b) (ih _)

theorem Mach.CacheStep.hintStep {m m' : Mach} (h : m.CacheStep m') : m.HintStep m' := ⟨fun c => by rw [h.core], h.far, h.mem⟩

theorem hintStep_modCore (m : Mach) (c : Nat) {f : Core → Core} (hf : ∀ k, (f k).l1 = k.l1) : m.HintStep (m.modCore c f) := by
  refine ⟨fun d => ?_, rfl, fun hs hm => ⟨hs, memOk_modCore m c f hm, fun _ => rfl⟩⟩
  rw [core_modCore]
  split
  · subst d; exact hf _
  · rfl

theorem hintStep_cacheTlb (m : Mach) (c : Nat) (e : TlbEntry) : m.HintStep (m.cacheTlb c e) := by
  unfold Mach.cacheTlb
  split
  · exact hintStep_refl m
  · exact hintStep_trans (cacheStep_walked m _ _ _).hintStep (hintStep_modCore _ c fun _ => rfl)

theorem sameGroups_l1Room {m m' : Mach} {c ln : Nat} (he : m.l1Room c ln = some m') : m.SameGroups m' := by
  unfold Mach.l1Room at he
  split at he
  · cases he; exact sameGroups_refl m
  · obtain ⟨x, hx, rfl⟩ := Option.map_eq_some_iff.mp he
    exact sameGroups_trans (sameGroups_writeBack hx) (sameGroups_modCore x c fun _ => rfl)

theorem sameGroups_fillLine {m m' : Mach} {c : Nat} {r : Reach} {ln : Nat} (he : m.fillLine c r ln = some m') : m.SameGroups m' := by
  have hgo : ∀ x : Mach, x.SameGroups ((x.readLine ln []).modCore c (fun k =>
      k.setLine ((x.readLine ln []).freshLine (k.line? ln) r ln (k.l1Class ln r.cls)))) := fun x =>
    sameGroups_trans (cacheStep_sameGroups (cacheStep_readLine x _ _) (same_readLine x _ _)) (sameGroups_modCore _ c fun _ => rfl)
  unfold Mach.fillLine at he
  split at he
  · cases he
  next x hx =>
    cases he
    split at hx
    · cases hx; exact hgo _
    · exact sameGroups_trans (sameGroups_l1Room hx) (hgo _)

/-- The machine once the line of a hint has come into the caches of its home. -/
def Mach.hinted (m : Mach) (v : View) (l : PfLvl) (pe : Nat × TlbEntry) : Mach :=
  let t := m.team v.g.team
  let r := m.reachOf t.part t.ctx pe.1 pe.2 0
  let m := m.cacheTlb v.core pe.2
  if l = .ms then (m.readLine (lineOf pe.1) []).msFill (m.tagFor r.part r.ctx (lineOf pe.1) r.chain r.cls r.pinMs)
  else m.reachHome r (lineOf pe.1) []

theorem hinted_step (m : Mach) (v : View) (l : PfLvl) (pe : Nat × TlbEntry) :
    ∃ x, x = m.cacheTlb v.core pe.2 ∧ x.CacheStep (m.hinted v l pe) ∧ x.Same (m.hinted v l pe) := by
  refine ⟨_, rfl, ?_⟩
  unfold Mach.hinted
  extract_lets t r m1
  split
  · exact ⟨cacheStep_trans (cacheStep_readLine m1 _ _) (cacheStep_msFill _ _), same_trans (same_readLine m1 _ _) (same_msFill _ _)⟩
  · exact ⟨cacheStep_l2Access m1 _ _ _, same_l2Access m1 _ _ _⟩

/-- A hint goes no further than the caches of the home, or fills a line of the L1. -/
theorem prefetch_cases (m : Mach) (v : View) (l : PfLvl) (pe : Nat × TlbEntry) :
    m.prefetch v l pe = m.hinted v l pe ∨
      l = .l1 ∧ ∃ r, (m.hinted v l pe).fillLine v.core r (lineOf pe.1) = some (m.prefetch v l pe) := by
  unfold Mach.prefetch
  extract_lets t r m1 m2
  have h2 : m2 = m.hinted v l pe := rfl
  split
  · exact .inl h2
  next hn =>
    cases hf : m2.fillLine v.core r (lineOf pe.1) with
    | none => exact .inl h2
    | some x =>
      refine .inr ⟨?_, r, h2 ▸ hf⟩
      by_contra hl
      exact hn (.inl hl)

theorem sameGroups_prefetch (m : Mach) (v : View) (l : PfLvl) (pe : Nat × TlbEntry) : m.SameGroups (m.prefetch v l pe) := by
  obtain ⟨x, rfl, hc, hs⟩ := hinted_step m v l pe
  have hh := sameGroups_trans (sameGroups_cacheTlb m v.core pe.2) (cacheStep_sameGroups hc hs)
  obtain he | ⟨-, r, hf⟩ := prefetch_cases m v l pe
  · rwa [he]
  · exact sameGroups_trans hh (sameGroups_fillLine hf)

theorem hintStep_prefetch (m : Mach) (v : View) {l : PfLvl} (hl : l ≠ .l1) (pe : Nat × TlbEntry) : m.HintStep (m.prefetch v l pe) := by
  obtain ⟨x, rfl, hc, -⟩ := hinted_step m v l pe
  obtain he | ⟨h1, -⟩ := prefetch_cases m v l pe
  · rw [he]
    exact hintStep_trans (hintStep_cacheTlb m v.core pe.2) hc.hintStep
  · exact absurd h1 hl

section
variable {s : State} {h : Hdr}

theorem Mach.SameGroups.me_regs {m m' : Mach} (hs : m.SameGroups m') : m'.me.v = m.me.v ∧ m'.me.s = m.me.s ∧ m'.me.p = m.me.p := by
  have hg := hs.me
  exact ⟨(congrArg Group.v hg :), (congrArg Group.s hg :), (congrArg Group.p hg :)⟩

theorem me_hash_regs (m : Mach) (i : Instr) :
    (m.hash i).me.v = m.me.v ∧ (m.hash i).me.s = m.me.s ∧ (m.hash i).me.p = m.me.p ∧ (m.hash i).me.outs = m.me.outs ∧
      (m.hash i).me.pc = m.me.pc := by
  obtain ⟨x, hx⟩ := me_hash m i
  rw [hx]
  exact ⟨rfl, rfl, rfl, rfl, rfl⟩

theorem pfl_completes {l : PfLvl} {ad : Addr} (hi : Issues s.m (.pfl h l ad) h) :
    ∃ m', Does s (.pfl h l ad) h m' ∧ m'.me.v = s.m.me.v ∧ m'.me.s = s.m.me.s ∧ m'.me.p = s.m.me.p ∧
      (l ≠ .l1 → s.m.symErr = [] → Mach.MemOk s.m →
        (∀ a, m'.homeByte a = s.m.homeByte a) ∧ m'.far = s.m.far ∧ ∀ c, (m'.core c).l1 = (s.m.core c).l1) := by
  refine ⟨_, does_of_issueWord (by unfold exec; exact rfl) hi rfl rfl, ?_⟩
  obtain ⟨hv, hs, hp⟩ := (sameGroups_foldl _ (fun x p => sameGroups_prefetch x (s.m.hash (.pfl h l ad)).view l p)
    ((s.m.hash (.pfl h l ad)).named (s.m.hash (.pfl h l ad)).view h ad) (s.m.hash (.pfl h l ad))).me_regs
  obtain ⟨kv, ks, kp, -⟩ := me_hash_regs s.m (.pfl h l ad)
  refine ⟨hv.trans kv, hs.trans ks, hp.trans kp, fun hl hsym hmem => ?_⟩
  obtain ⟨hl1, hfar, hm⟩ := hintStep_foldl (fun x p => hintStep_prefetch x (s.m.hash (.pfl h l ad)).view hl p)
    ((s.m.hash (.pfl h l ad)).named (s.m.hash (.pfl h l ad)).view h ad) (s.m.hash (.pfl h l ad))
  have hsym' : (s.m.hash (.pfl h l ad)).symErr = [] := hsym
  obtain ⟨-, -, hb⟩ := hm hsym' (memOk_setMe s.m _ hmem)
  refine ⟨hb, hfar, fun c => (hl1 c).trans ?_⟩
  obtain ⟨gs, hc⟩ := core_hash s.m (.pfl h l ad) c
  rw [hc]

end

/-! ### Prefetches of tensors (R200, R219) -/

/-- The work that a `pft` with a good record queues. -/
def Mach.prefetchWork (m : Mach) (ms : Bool) (r : List Byte) : Copy :=
  { core := m.cur.1, slot := m.cur.2, outId := m.nextId, part := m.myPart, ctx := m.myCtx, kind := .prefetch ms, lay := layoutOf r,
    x0 := 0, y0 := 0, w := 0, seq := none, epoch := 0, targets := [], q := 0, cc := 0, stage := .queued, engine := none, pos := 0, buf := 0,
    team := m.me.team, code := 0, zero := false, begun := 0, drop := false, ring := false, fence := 0 }

/-- What a `pft` makes of the machine. -/
def Mach.queuePrefetch (m : Mach) (ms : Bool) (r : List Byte) : Mach :=
  { m with nextId := m.nextId + 1, copies := tset none m.copies m.nextId (some (m.prefetchWork ms r)) }

section
variable {s : State} {h : Hdr} {ms : Bool} {a : S}

/-- What a `pft` does: nothing, or, with a good record as it performs, it queues its work. -/
theorem pft_completes (hi : Issues s.m (.pft h ms a) h) : ∃ m', Does s (.pft h ms a) h m' ∧
    (m' = s.m.hash (.pft h ms a) ∧
        (s.m.performs h = true → ∀ r, s.m.recordAt (s.m.me.rdS s.m.tick a.toNat) = some r → layoutCode r ≠ 0) ∨
      ∃ r, s.m.recordAt (s.m.me.rdS s.m.tick a.toNat) = some r ∧ m' = (s.m.hash (.pft h ms a)).queuePrefetch ms r) := by
  have hd := does_of_issueWord (s := s) (by unfold exec; exact rfl) hi rfl rfl
  refine ⟨_, hd, ?_⟩
  simp only [wideWord, performs_hash, hash_tick, rdS_hash, recordAt_hash]
  cases hp : s.m.performs h
  · exact .inl ⟨if_neg nofun, nofun⟩
  · rw [if_pos rfl]
    cases hr : s.m.recordAt (s.m.me.rdS s.m.tick a.toNat) with
    | none => exact .inl ⟨rfl, nofun⟩
    | some r =>
      by_cases hcode : layoutCode r = 0
      · refine .inr ⟨r, rfl, ?_⟩
        simp only [hcode, ne_eq, not_true_eq_false, if_false]
        rfl
      · exact .inl ⟨by simp only [ne_eq, hcode, not_false_eq_true, if_true], fun _ r' hr' => by cases hr'; exact hcode⟩

theorem sameDevice_hash (m : Mach) (i : Instr) : SameDevice m (m.hash i) := (found_hash m i).sameDevice

theorem pft_queues (hi : Issues s.m (.pft h ms a) h) : ∃ m', Does s (.pft h ms a) h m' ∧ m'.me.v = s.m.me.v ∧ m'.me.s = s.m.me.s ∧
    m'.me.p = s.m.me.p ∧ m'.me.outs = s.m.me.outs ∧ SameDevice s.m m' ∧
    (s.m.performs h = true → ∀ r, s.m.recordAt (s.m.me.rdS s.m.tick a.toNat) = some r → layoutCode r = 0 →
      ∃ id x, tget none m'.copies id = some x ∧ x.kind = .prefetch ms ∧ x.lay = layoutOf r ∧ x.stage = .queued ∧ x.core = s.m.cur.1) := by
  obtain ⟨m', hd, hm⟩ := pft_completes hi
  obtain ⟨hv, hs, hp, ho, -⟩ := me_hash_regs s.m (.pft h ms a)
  have hdev := sameDevice_hash s.m (.pft h ms a)
  obtain ⟨rfl, hbad⟩ | ⟨r, hr, rfl⟩ := hm
  · exact ⟨_, hd, hv, hs, hp, ho, hdev, fun hperf r hr hcode => absurd hcode (hbad hperf r hr)⟩
  · refine ⟨_, hd, hv, hs, hp, ho, hdev, fun _ r' hr' _ => ?_⟩
    obtain rfl : r = r' := Option.some.inj (hr.symm.trans hr')
    have hget : tget none ((s.m.hash (.pft h ms a)).queuePrefetch ms r).copies (s.m.hash (.pft h ms a)).nextId =
        some ((s.m.hash (.pft h ms a)).prefetchWork ms r) := by
      rw [Mach.queuePrefetch, tget_tset_self]
    exact ⟨_, _, hget, rfl, rfl, rfl, congrArg Prod.fst (hash_cur s.m _)⟩

end

/-! ### Pin windows (R200) -/

section
variable {s : State} {h : Hdr} {ms : Bool} {d a b : S}

theorem wide_pin_refused (hp : (s.m.hash (.pin h ms d a b)).pinAnswer s.m.myPart s.m.myCtx (s.m.me.rdS s.m.tick a.toNat)
    (s.m.me.rdS s.m.tick b.toNat) ms = none) : Wide s (.pin h ms d a b) h (fun m => m.modMe (fun g => g.putS d.toNat 0)) := by
  refine wide_of_wideWord (by unfold exec; exact rfl) ?_
  simp only [hash_tick, rdS_hash, myPart_hash, myCtx_hash, hp]

theorem wide_pin_granted {hd : Nat} (hp : (s.m.hash (.pin h ms d a b)).pinAnswer s.m.myPart s.m.myCtx (s.m.me.rdS s.m.tick a.toNat)
    (s.m.me.rdS s.m.tick b.toNat) ms = some hd) :
    Wide s (.pin h ms d a b) h (fun m => (m.modPart m.myPart (fun p => p.setCtx m.myCtx { (p.ctxAt m.myCtx) with
      pins := tset (0, 0, false) (p.ctxAt m.myCtx).pins hd ((m.me.rdS s.m.tick a.toNat).toNat, (m.me.rdS s.m.tick b.toNat).toNat, ms) })).modMe
        (fun g => g.putS d.toNat (BitVec.ofNat 64 hd))) := by
  refine wide_of_wideWord (by unfold exec; exact rfl) ?_
  simp only [hash_tick, rdS_hash, myPart_hash, myCtx_hash, hp]

end

/-! ### `inv` and `wb` (R201) -/

section
variable {y z : Mach} {h : Hdr} {ad : Addr} {lns : List Nat} {ms : Bool}

/-- Lines that can go home have gone, and no close holds one that must go on to DRAM. -/
theorem cleaned_of_canClean (hc : CanClean y h ad lns ms) : y.linesNamed y.view h ad = .ok lns ∧ ∃ z, y.cleanNamed y.view h ad lns = some z ∧
    (ms && lns.any (fun ln => z.heldFrom y.myPart y.cur.1 ln)) = false := by
  obtain ⟨hl, z, hz, hheld⟩ := hc
  refine ⟨hl, z, hz, ?_⟩
  cases ms
  · rfl
  · simp only [Bool.true_and, List.any_eq_false]
    exact fun ln hln => by simp [hheld rfl ln hln]

/-- The lines named have left the L1 of the core, or the memory-side cache. -/
def Mach.drop (z : Mach) (c : Nat) (ms : Bool) (lns : List Nat) : Mach :=
  if ms then lns.foldl Mach.msEvict z else z.modCore c (fun k => lns.foldl Core.dropLine k)

theorem eff_inv (hc : CanClean y h ad lns ms) (hz : y.cleanNamed y.view h ad lns = some z) :
    (invWord h ms ad).eff y y.view = .ok (z.drop y.cur.1 ms lns) [] [] true none := by
  obtain ⟨hl, x, hx, hheld⟩ := cleaned_of_canClean hc
  obtain rfl : z = x := Option.some.inj (hz.symm.trans hx)
  have hheld' : ms = true → lns.any (fun ln => z.heldFrom (y.team y.view.g.team).part y.view.core ln) = false := fun hm => by
    subst hm
    exact hheld
  cases ms
  · simp only [invWord, hl, hz, Bool.false_eq_true, if_false]
    rfl
  · simp only [invWord, hl, hz, hheld' rfl, Bool.false_eq_true, if_false, if_true]
    rfl

theorem line?_foldl_dropLine (lns : List Nat) (k : Core) (ln : Nat) :
    (lns.foldl Core.dropLine k).line? ln = if ln ∈ lns then none else k.line? ln := by
  induction lns generalizing k with
  | nil => simp
  | cons a lns ih =>
    have hone : (k.dropLine a).line? ln = if ln = a then none else k.line? ln := by
      unfold Core.line? Core.dropLine
      rw [List.find?_filter]
      split
      next he => exact List.find?_eq_none.2 fun x _ => by simp [he]
      next he =>
        refine congrArg (fun f => k.l1.find? f) (funext fun x => ?_)
        by_cases hx : x.line = ln
        · simp [hx, he]
        · simp [hx]
    rw [List.foldl_cons, ih, hone]
    simp only [List.mem_cons, ← ite_or, or_comm]

theorem ms_foldl_msEvict (lns : List Nat) (m : Mach) : (lns.foldl Mach.msEvict m).ms = m.ms.filter (fun x => !lns.contains x.line) := by
  induction lns generalizing m with
  | nil => simp
  | cons a lns ih =>
    rw [List.foldl_cons, ih, Mach.msEvict, without, List.filter_filter]
    exact List.filter_congr fun x _ => by
      rw [List.contains_cons, Bool.not_or, Bool.and_comm]
      rfl

/-- A line that has left is not there. -/
theorem drop_gone (z : Mach) (c : Nat) {ln : Nat} (hln : ln ∈ lns) :
    if ms then ∀ x ∈ (z.drop c ms lns).ms, x.line ≠ ln else ((z.drop c ms lns).core c).line? ln = none := by
  cases ms
  · simp only [Mach.drop, Bool.false_eq_true, if_false, core_modCore, if_true, line?_foldl_dropLine, hln]
  · simp only [Mach.drop, if_true, ms_foldl_msEvict]
    intro x hx he
    obtain ⟨-, hx⟩ := List.mem_filter.1 hx
    simp [he, hln] at hx

theorem inv_drops {s : State} (hc : CanClean s.m h ad lns ms) (hc' : CanClean (s.m.hash (.inv h ms ad)) h ad lns ms)
    (hi : Issues s.m (.inv h ms ad) h) (hz : (s.m.hash (.inv h ms ad)).cleanNamed (s.m.hash (.inv h ms ad)).view h ad lns = some z) :
    Does s (.inv h ms ad) h (Mach.modMe { z.drop s.m.cur.1 ms lns with nextId := max (z.drop s.m.cur.1 ms lns).nextId (s.m.nextId + 1) } id) := by
  obtain ⟨-, x, hx, -⟩ := cleaned_of_canClean hc
  have hd := does_of_memWord (by unfold exec; exact rfl) hi (eff_inv hc hx)
  rw [commit_eq_finish (eff_inv hc' hz), hash_cur, hash_nextId] at hd
  exact hd

/-! The number that `wb` takes is the core's next, for its write-backs move no number. -/

theorem sameNumbers_cleanNamed (hz : y.cleanNamed y.view h ad lns = some z) : y.SameNumbers z :=
  sameNumbers_trans (sameNumbers_cacheAll y _ _) (sameNumbers_cleanAll hz)

theorem sameGroups_cleanNamed (hz : y.cleanNamed y.view h ad lns = some z) : y.SameGroups z :=
  sameGroups_trans (sameGroups_cacheAll y _ _) (sameGroups_cleanAll hz)

theorem same_cleanNamed (hz : y.cleanNamed y.view h ad lns = some z) : y.Same z := by
  refine same_trans (same_cacheAll y _ _) (same_foldlM _ (fun m ln m' hc => ?_) lns _ z hz)
  obtain ⟨x, hx, hw⟩ := Option.bind_eq_some_iff.mp hc
  exact same_trans (same_widenLine m x _ _ hx) (same_writeBack x m' _ _ hw)

/-- The core of the issuing group may take number `q` of epoch `e` (R185, R244). -/
def MayTake (m : Mach) (q : BitVec 19) (e : BitVec 24) : Prop :=
  (m.part m.myPart).ep.snapHolds m.cur.1 e = false ∧ (m.core m.cur.1).taken < 2 ^ 18 - 1 ∧ q = (m.core m.cur.1).seq ∧ e = (m.core m.cur.1).epoch

theorem mayTake_of_mayStore {m : Mach} {q : BitVec 19} {e : BitVec 24} (hm : MayStore m q e) : MayTake m q e := by
  obtain ⟨hsnap, htaken, -, hq, he⟩ := hm
  exact ⟨hsnap, htaken, hq, he⟩

theorem mayTake_hash {m : Mach} {q : BitVec 19} {e : BitVec 24} (hm : MayTake m q e) (i : Instr) : MayTake (m.hash i) q e := by
  obtain ⟨hsnap, htaken, hq, he⟩ := hm
  obtain ⟨gs, hc⟩ := core_hash m i m.cur.1
  rw [MayTake, part_hash, myPart_hash, hash_cur, hc]
  exact ⟨hsnap, htaken, hq, he⟩

theorem nextSeq_of_sameNumbers {q : BitVec 19} {e : BitVec 24} (hm : MayTake y q e) (hs : y.SameNumbers z) :
    z.nextSeq y.cur.1 y.myPart = .ok (z.takeSeq y.cur.1 y.myPart) q e := by
  obtain ⟨hsnap, htaken, rfl, rfl⟩ := hm
  obtain ⟨hq, ht, he⟩ := hs.core y.cur.1
  rw [nextSeq_runs (by rw [hs.ep, he]; exact hsnap) (by rw [ht]; exact htaken), hq, he]

/-- What `wb` leaves behind its write-backs: they are owed to the word where a close holds them, and with `.dram` they go on. -/
def Mach.owedTo (m : Mach) (y : Mach) (dram : Bool) (lns : List Nat) : Mach :=
  let x := lns.foldl (fun m ln => m.owe y.myPart y.cur.1 ln (y.cur.1, y.cur.2, y.nextId)) m
  if dram then x.flush (fun a => lns.contains (lineOf a)) else x

theorem owedTo_keeps (m y : Mach) (dram : Bool) (lns : List Nat) : m.SameNumbers (m.owedTo y dram lns) ∧ m.SameGroups (m.owedTo y dram lns) := by
  have hn : ∀ (m : Mach) ln, m.SameNumbers (m.owe y.myPart y.cur.1 ln (y.cur.1, y.cur.2, y.nextId)) := fun m ln =>
    sameNumbers_modPart m _ fun _ => rfl
  have h1 := sameNumbers_foldl hn lns m
  have h2 := sameGroups_foldl (fun m ln => m.owe y.myPart y.cur.1 ln (y.cur.1, y.cur.2, y.nextId)) (fun m _ => sameGroups_modPart m _ _) lns m
  unfold Mach.owedTo
  dsimp only
  split
  · exact ⟨sameNumbers_trans h1 (cacheStep_flush _ _).sameNumbers, sameGroups_trans h2 (sameGroups_of_cores rfl rfl)⟩
  · exact ⟨h1, h2⟩

theorem eff_wb {d : S} {q : BitVec 19} {e : BitVec 24} (hp : y.me.perf y.tick h ≠ 0) (hm : MayTake y q e) (hc : CanClean y h ad lns ms) :
    ∃ x rdy, (wbWord h ms d ad).eff y y.view = .ok x [] [wS d.toNat (pointW 2 y.partno y.cur.1 q e)] rdy none ∧
      (x.core y.cur.1).seq = q + 1 ∧ x.me.pc = y.me.pc := by
  obtain ⟨hl, z, hz, hheld⟩ := cleaned_of_canClean hc
  have hheld' : (ms && lns.any (fun ln => z.heldFrom (y.team y.view.g.team).part y.view.core ln)) = false := hheld
  have hp' : y.view.g.perf y.tick h ≠ 0 := hp
  have hnum := sameNumbers_cleanNamed hz
  have hseq : z.seqFor y.view = .ok (z.takeSeq y.cur.1 y.myPart) q e := by
    have hteam : (z.team y.me.team).part = y.myPart := by
      rw [Mach.team, (same_cleanNamed hz).teams]
      rfl
    refine Eq.trans ?_ (nextSeq_of_sameNumbers hm hnum)
    rw [← hteam]
    rfl
  obtain ⟨hon, hog⟩ := owedTo_keeps (z.takeSeq y.cur.1 y.myPart) y ms lns
  refine ⟨(z.takeSeq y.cur.1 y.myPart).owedTo y ms lns, !(lns.any (fun ln => z.heldFrom y.myPart y.cur.1 ln)), ?_, ?_, ?_⟩
  · simp only [wbWord, hp', hl, hz, hheld', hseq, Bool.false_eq_true, if_false]
    rfl
  · obtain ⟨-, -, hq, -⟩ := hm
    rw [(hon.core _).1, takeSeq_core, hq]
    exact congrArg (· + 1) (hnum.core _).1
  · rw [hog.me_pc, (sameGroups_takeSeq _ _ _).me_pc, (sameGroups_cleanNamed hz).me_pc]

theorem wb_completes {s : State} {d : S} {q : BitVec 19} {e : BitVec 24} (hp : s.m.me.perf s.m.tick h ≠ 0) (hm : MayStore s.m q e)
    (hc : CanClean s.m h ad lns ms) (hc' : CanClean (s.m.hash (.wb h ms d ad)) h ad lns ms) (hi : Issues s.m (.wb h ms d ad) h) :
    ∃ m' id rdy, Does s (.wb h ms d ad) h m' ∧ (m'.core s.m.cur.1).seq = q + 1 ∧
      { id := id, pc := s.m.me.pc, writes := [wS d.toNat (pointW 2 s.m.partno s.m.cur.1 q e)], ready := rdy, stamp := none } ∈ m'.me.outs := by
  obtain ⟨x, r, hx, -⟩ := eff_wb (d := d) hp (mayTake_of_mayStore hm) hc
  have hd := does_of_memWord (by unfold exec; exact rfl) hi hx
  obtain ⟨z, rdy, hz, hseq, hpc⟩ := eff_wb (d := d) (by rwa [hash_tick, perf_hash]) (mayTake_hash (mayTake_of_mayStore hm) _) hc'
  obtain ⟨-, -, -, -, hpc'⟩ := me_hash_regs s.m (.wb h ms d ad)
  refine ⟨_, s.m.nextId, rdy, hd, ?_⟩
  rw [commit_eq_finish hz, me_finish, (core_finish _ _ _ _).2.2, ← hash_cur s.m (.wb h ms d ad)]
  refine ⟨hseq, ?_⟩
  rw [← hpc', ← hpc, hash_nextId, partno_hash]
  exact List.mem_append_right _ (List.mem_singleton.2 rfl)

end

/-! ### `tlbsync` and the chain words (R202, R205) -/

section
variable {s : State} {h : Hdr}

theorem mySync_hash (m : Mach) (i : Instr) : (m.hash i).mySync = m.mySync := by
  obtain ⟨x, hx⟩ := me_hash m i
  simp only [Mach.mySync, part_hash, myPart_hash, hx]

theorem wide_tlbsync_null {all : Bool} {a w : S} (hw : s.m.me.rdS s.m.tick w.toNat = 0) (hsync : s.m.mySync = none)
    (hold : s.m.oldNow (s.m.syncVa all a) = false) :
    Wide s (.tlbsync h all a w) h (fun m => m.removeTlb m.myPart m.myCtx (m.syncVa all a)) := by
  intro hi
  have hgrp : (s.m.hash (.tlbsync h all a w)).mySync = none := (mySync_hash s.m _).trans hsync
  have hwit : (s.m.hash (.tlbsync h all a w)).me.rdS (s.m.hash (.tlbsync h all a w)).tick w.toNat = 0 := by rw [hash_tick, rdS_hash, hw]
  have hd := does_of_issueWord (s := s) (i := .tlbsync h all a w) (by unfold exec; exact rfl) hi
    (by simp only [tlbsyncWord, hw, presentTrap_null, ite_self])
    (by simp only [tlbsyncWord, hw, hsync, presentAway_null, hold, Bool.false_eq_true, if_false, ite_self])
  simp only [tlbsyncWord, hgrp, hwit, presentAway_null, performs_hash, Option.isSome_none, Bool.false_eq_true, if_false] at hd
  cases hp : s.m.performs h <;> simpa [hp] using hd

/-- Memory-side lines that a chain holds come back as one outstanding result. -/
theorem chainCnt_loads {d : S} {c : BitVec 6} (hp : s.m.me.perf s.m.tick h ≠ 0) (hi : Issues s.m (.chainCnt h d c) h) :
    ∃ m', Does s (.chainCnt h d c) h m' ∧
      Loaded s.m m' [wS d.toNat (BitVec.ofNat 64 (s.m.ms.filter (fun x => x.part == s.m.myPart && x.chain == c)).length)] := by
  have heff : ∀ y : Mach, y.me.perf y.tick h ≠ 0 → (chainCntWord h d c).eff y y.view =
      .ok y [] [wS d.toNat (BitVec.ofNat 64 (y.chainCount y.myPart c))] true none := fun y hy => if_neg hy
  have hd := does_of_memWord (by unfold exec; exact rfl) hi (heff s.m hp)
  refine ⟨_, hd, ?_⟩
  have hcount : (s.m.hash (.chainCnt h d c)).chainCount (s.m.hash (.chainCnt h d c)).myPart c = s.m.chainCount s.m.myPart c := by
    rw [myPart_hash]
    rfl
  obtain ⟨hv, hs, hpr, ho, hpc⟩ := me_hash_regs s.m (.chainCnt h d c)
  rw [commit_eq_finish (heff (s.m.hash (.chainCnt h d c)) (by rwa [hash_tick, perf_hash])), hcount]
  unfold Loaded
  rw [me_finish, List.foldl_nil, addOuts_single, ho, hpc]
  refine ⟨⟨_, rfl⟩, hv, hs, hpr, sameDevice_trans (sameDevice_hash s.m _) (sameDevice_finish _ _ _), fun c' => ?_⟩
  · rw [(core_finish _ _ _ c').1]
    exact ((found_hash s.m (.chainCnt h d c)).core c').1

end

/-! ### O42 -/

/-- Settles O42: each word completes with its effect. -/
theorem cacheWords : Obligations.CacheWords := by
  intro s h l ad ms a b d w all c dram q e m t hashed
  refine ⟨?pfl, ?pft, ?pin, ?unpin, ?inv, ?wb, ?tlbsync, ?demote, ?drop, ?chainCnt⟩
  case pfl => exact pfl_completes
  case pft => exact pft_queues
  case pin =>
    rintro i rfl
    exact ⟨wide_pin_refused, fun hd hpin => wide_pin_granted hpin⟩
  case unpin => exact wide_of_wideWord (by unfold exec; exact rfl) (by simp only [hash_tick, rdS_hash]; rfl)
  case inv =>
    rintro lns y ⟨hc, hc'⟩ hi hy z
    exact ⟨inv_drops hc hc' hi hy, fun ln hln => drop_gone y m.cur.1 hln⟩
  case wb =>
    rintro lns hp hm ⟨hc, hc'⟩ hi
    exact wb_completes hp hm hc hc' hi
  case tlbsync => exact wide_tlbsync_null
  case demote => exact wide_of_wideWord (by unfold exec; exact rfl) rfl
  case drop => exact wide_of_wideWord (by unfold exec; exact rfl) rfl
  case chainCnt => exact chainCnt_loads

end Sys2Proof.Machine
end

/-! Proofs about a group's turn: the word that it fetches, and what runs it (R70, R75, R250, R270). -/

section
namespace Sys2Proof.Machine
open Sys2Proof.Claims

/-! ### What comes of a group's turn (R250, R251) -/

/-- Whether the group's turn comes with a load left in flight or not. -/
def groupTurn (late : Bool) (c k : Nat) : Turn := if late then .issueLate c k else .issue c k

/-- The state in which the group of slot `k` runs its next word. -/
def State.running (s0 : State) (c k : Nat) (late : Bool) : State :=
  { atIssue s0 c k with m := { (atIssue s0 c k).m with late := late } }

/-- What the turn leaves once its word has answered `t`: the core has noted the word, and time has passed. -/
def State.ended (s0 : State) (c k : Nat) (late : Bool) (t : State) : State :=
  ({ t with m := { (atIssue s0 c k).issued t.m c k with late := false } }).after (groupTurn late c k)

/-- An outcome with its next state, if it has one, led on by `f`. -/
def thenNext (f : State → State) : Host.Outcome State Fault Refusal → Host.Outcome State Fault Refusal
  | .next t => .next (f t)
  | .fault e => .fault e
  | .refused r => .refused r

section
variable {s s0 : State} {c k : Nat} {late : Bool}

theorem take_groupTurn : s0.take (groupTurn late c k) = s0.issueTurn c k late := by cases late <;> rfl

theorem isReset_groupTurn : (groupTurn late c k).isReset = false := by cases late <;> rfl

/-- The step of a group that comes first is the run of its next word, and then the passing of time. -/
theorem step_of_groupTurn (hturn : s.nextTurn = (groupTurn late c k, s0)) (hstop : s.fw.stopped = false) (hfin : s0.mayFinish c k = false)
    (hmay : State.mayIssue (s0.coming c k) c k = true) : step s = thenNext (s0.ended c k late) ((s0.running c k late).runNext c k) := by
  have hfw : s0.fw.stopped = false := by
    rw [← hstop, ← nextTurn_fw s, hturn]
  have hissue : s0.issueTurn c k late =
      thenNext (fun t => { t with m := { (atIssue s0 c k).issued t.m c k with late := false } }) ((s0.running c k late).runNext c k) := by
    simp only [State.issueTurn, hfin, hmay, Bool.false_eq_true, if_false, if_true, State.running, atIssue]
    generalize State.runNext _ c k = o
    cases o <;> rfl
  rw [step, hturn, State.turn, hfw, take_groupTurn, hissue]
  simp only [isReset_groupTurn, Bool.false_and, Bool.false_eq_true, if_false]
  cases (s0.running c k late).runNext c k <;> rfl

end

/-- A word that does not run ahead of the stores of its core runs once they have entered the L1, or not at all (R270). -/
theorem runNext_settles {q : State} {c k : Nat} {m : Mach} {i : Instr} (h : q.m.nextOf c k = .issue m i) (hr : runsAhead i = false)
    (hb : (m.core c).sbuf ≠ []) : q.runNext c k =
      if ((m.settleCore c).core c).sbuf = [] then exec i { q with m := m.settleCore c } else .next { q with m := m.settleCore c } := by
  simp [State.runNext, h, hr, hb, List.isEmpty_iff]

theorem runNext_traps {q : State} {c k : Nat} {m : Mach} {t : Trap} (h : q.m.nextOf c k = .trap m t) :
    q.runNext c k = .next { q with m := takeTrap m c k (q.m.group c k).pc t } := by
  simp only [State.runNext, h]

/-! ### The word at the pc (R70, R138) -/

theorem partno_cacheTlb (m : Mach) (c : Nat) (e : TlbEntry) : (m.cacheTlb c e).partno = m.partno := by
  unfold Mach.cacheTlb
  split
  · rfl
  · exact (cacheStep_walked m _ _ _).partno

/-- The word of an executable page of this part that the core does not hold: read at its home, and held from now on. -/
theorem fetch_reads {m : Mach} {c p ctx : Nat} {pc : W64} {e : TlbEntry} {w : BitVec 128} (hpc : fld pc 53 11 = 0)
    (htr : m.translate c p ctx (16 * pc.toNat) false = some e) (hx : leafX e.leaf = true) (hhost : leafHost e.leaf = false)
    (hhome : leafHome e.leaf = m.partno) :
    let pa := leafBase e.leaf + 16 * pc.toNat % e.size
    let y := m.cacheTlb c e
    let x := (y.reachHome (y.reachOf p ctx pa e 0) (lineOf pa) []).readBytes pa 16
    badPa pa = false → y.keptFrom c (lineOf pa) = none →
    (y.core c).ibuf.find? (fun x => x.1 == p && x.2.1 == ctx && x.2.2.1 == 16 * pc.toNat) = none → x.heldFrom p c (lineOf pa) = false →
    x.poisonedAt c pa 16 = false → wordOf (x.codeBytes c pa) = w → m.fetch c p ctx pc = .word (x.holdWord c p ctx (16 * pc.toNat) w) w := by
  intro pa y x hbad hkept hbuf hheld hpoison hw
  have hhere : homeOf e.leaf = (m.cacheTlb c e).partno.toNat := by
    rw [partno_cacheTlb, homeOf, hhost, hhome]
    rfl
  subst hw
  simp only [x, y, pa] at hbad hkept hbuf hheld hpoison ⊢
  simp only [Mach.fetch, hpc, ne_eq, not_true_eq_false, if_false, htr, hx, Bool.not_true, Bool.false_eq_true, hhere, hbuf, hbad, hkept, hheld,
    hpoison]

/-- A word that meets no join is the group's next, or, where it does not decode, cause 0x01 (R75, R254). -/
theorem nextOf_of_fetch {m x : Mach} {c k : Nat} {w : BitVec 128}
    (hf : m.fetch c (m.team (m.group c k).team).part (m.team (m.group c k).team).ctx (m.group c k).pc = .word x w)
    (hj : (joinBit w && (m.group c k).atJoin) = false) :
    (∀ i, decode w = some i → m.nextOf c k = .issue x i) ∧
      (decode w = none → m.nextOf c k = .trap x { cause := 1, lanes := (m.group c k).xm, detail := illegalDetail w }) := by
  refine ⟨fun i hi => ?_, fun hn => ?_⟩
  · simp only [Mach.nextOf, hf, hj, hi, Bool.false_eq_true, if_false]
  · simp only [Mach.nextOf, hf, hj, hn, Bool.false_eq_true, if_false]

/-! ### O4 -/

/-- Settles O4: the step is the run of the group's next word (`step_of_groupTurn`), and that word is the one read at the pc (`fetch_reads`). -/
theorem stepRunsDecoded : Obligations.StepRunsDecoded := by
  refine ⟨?turn, ?word⟩
  case turn =>
    intro s s0 c k late turn r q ends hturn hstop hfin hmay
    have hturn' : s.nextTurn = (groupTurn late c k, s0) := by cases late <;> exact hturn
    have hends : s0.ended c k late = ends := funext fun t => by cases late <;> rfl
    have hstep : step s = thenNext ends (q.runNext c k) := hends ▸ step_of_groupTurn hturn' hstop hfin hmay
    refine ⟨?runs, ?waits, ?traps⟩
    case runs =>
      rintro m i m1 hnext (⟨hr, rfl⟩ | ⟨hr, hb, rfl, hs⟩)
      · rw [hstep, runNext_runs hnext (by simpa [List.isEmpty_iff] using hr)]
        cases exec i { q with m := m1 } <;> rfl
      · rw [hstep, runNext_settles hnext hr hb, if_pos hs]
        cases exec i { q with m := m.settleCore c } <;> rfl
    case waits =>
      intro m i hnext hr hb hs
      rw [hstep, runNext_settles hnext hr hb, if_neg hs, thenNext]
    case traps =>
      intro m t hnext
      rw [hstep, runNext_traps hnext, thenNext]
  case word =>
    intro m c k e w g t va pa y x hpc htr hx hhost hhome hbad hkept hbuf hheld hpoison hw hj
    exact nextOf_of_fetch (fetch_reads hpc htr hx hhost hhome hbad hkept hbuf hheld hpoison hw) hj

end Sys2Proof.Machine
end
